-- ==== Sys2Proof/Word.lean ====
section
/-! DEFINITION. The widths of the part: bytes of a cell, words of table memory, decoder ticks and cycle
counts, transponder codes, table indices and word addresses; and a fixed table of like records. -/

namespace Sys2Proof

/-- One byte of a cell (R201). -/
abbrev Byte := BitVec 8

/-- One word of table memory (R173). -/
abbrev Word := BitVec 32

/-- A decoder's tick count (00_scope.md section 6) or a cycle count (R1): both wrap at 2^32. -/
abbrev Tick := BitVec 32

/-- A transponder code or a note, 24 bits (R50, R52). -/
abbrev Code := BitVec 24

/-- A resolver table index, 0 to 1,023 (R50). -/
abbrev TableIndex := BitVec 10

/-- A word address of table memory, 0 to 262,143 (R173). -/
abbrev WordAddr := BitVec 18

/-- A cell is 32 bytes (R201). -/
abbrev Cell := Vector Byte 32

/-- A slot of a line cycle, 0 to 39 (R1). -/
abbrev Slot := Fin 40

/-- A timing loop, 0 to 31 (00_scope.md section 6). -/
abbrev LoopNo := Fin 32

/-- A competitor number, 0 to 95 (00_scope.md section 6). -/
abbrev CompNo := Fin 96

/-- A course point, 0 to 15 (R72). -/
abbrev PointNo := Fin 16

end Sys2Proof
end

