-- ==== Sys2Proof/Syntax.lean ====
section
/-! DEFINITION. The commands of the part: one constructor for each row of spec/opcode_table.json, with the
operands that come from outside. A request's operands are not here: they are in the REQUEST cell that waits in
the Request Queue (R189). -/

namespace Sys2Proof

/-- The two inbound ports (R3). -/
inductive Port where
  | trackIn | controlIn
  deriving DecidableEq, Repr

/-- The two directions of the line (01_the_loop_line.md): upstream is Track-in to Control-out, downstream is
Control-in to Track-out. -/
inductive Direction where
  | upstream | downstream
  deriving DecidableEq, Repr

/-- One command of the part. -/
inductive Instr where
  -- the loop line (chapter 1)
  | cycleMarkGood (port : Port) (count : Tick)
  | cycleMarkBad (port : Port)
  | cycleMarkMissing (port : Port)
  | searchingMarkPeriod
  | cellReceipt (dir : Direction) (slot : Nat) (cell : Cell)
  | outboundCycleStart
  | outboundSlotSend (dir : Direction)
  -- track clock and loop alignment (chapter 2)
  | beaconHandling
  | loopHoldover (loop : Nat)
  | loopUnsynced (loop : Nat)
  -- intake and resolution (chapters 3 and 4), arbiter (chapter 10)
  | passingIntake
  | resolverLookup
  | arbiterGrant
  | walkReadComplete
  | seenUpdateComplete
  | settleTaking
  | unknownDelivery
  | resolveFaultDelivery
  -- settling and timing (chapters 6 and 7), the log writer (chapter 9)
  | settleExpiry (competitor : Nat)
  | silent (competitor : Nat)
  | logWordWriteComplete
  -- requests begun from the head of the Request Queue (chapter 11)
  | unsupportedRequest
  | slotMapWrite
  | rootSet
  | resolverFlush
  | coursePointLoad
  | courseClear
  | loopConfig
  | trapLoad
  | courseRead
  | rosterWrite
  | rosterRemove
  | retire
  | reinstate
  | lapAdjust
  | openSession
  | green
  | neutralOn
  | neutralOff
  | chequer
  | close
  | clear
  | orderRead
  | release
  | discard
  | logSet
  | tableRead
  | tableReadWordComplete
  | tableWrite
  | tableWriteWordComplete
  | guardSet
  | sweepStart
  | suspend
  | resume
  | stop
  | sweepReadComplete
  | sweepFlagUpdateComplete
  | aliasTargetReadComplete
  | paramWrite
  | statusRead
  | competitorRead
  | resetPart (straps : BitVec 3)
  | partReset (straps : BitVec 3)
  deriving DecidableEq, Repr

end Sys2Proof
end

