-- ==== Sys2Proof/Decode.lean ====
section
/-! DEFINITION. Reading a command from a table word. No row of spec/opcode_table.json gives bits: a command
of the part is an event, not a word, so no word spells one. -/

namespace Sys2Proof

/-- The command that a word of `nbits` bits spells by the table's bits: none, since no row gives any. -/
def decodeTableWord (_nbits _w : Nat) : Option Instr := none

end Sys2Proof
end

