-- ==== Sys2Proof/Config.lean ====
section
/-! DEFINITION. The free values: choices that the manual leaves open and no proof can see. -/

namespace Sys2Proof

/-- Free value (log 8). R98 leaves open which of the competitors due at one moment goes first. Where one
step meets several of them (a PARAM_WRITE, R194), the `n`th free choice gives competitor `c` this rank. -/
opaque Config.orderKey : Nat → Nat → Nat

/-- Free value (log 11). A requester asks for its next access when the one before it has completed (R174), and
accesses of other requesters may be granted between the two (R61, R168, R177, R178). Whether the requester at
`place` has asked by the time of a grant is the `n`th free choice. -/
opaque Config.asksByGrant : Nat → Nat → Bool

/-- Free value (log 13). The manual does not say whether the access of a stopped sweep that completes after
the next SWEEP_START has cleared the report has its effect on the new report (R181, R187). -/
opaque Config.staleSweepCounts : Bool

/-- Free value (log 14). R206 gives a request's flag byte no coding. The model takes 0 as clear and 1 as set
(log 30), and what a byte of 2 to 255 means is free: refused with RANGE (none), clear, or set. -/
opaque Config.looseFlag : Byte → Option Bool

/-- Free value (log 25). R21 has a beacon of slot 32 to 39 counted as off-slot, and every beacon dropped and counted
nowhere while the clock is UNSET. Whether a beacon that is both is counted is left open. -/
opaque Config.unsetCountsOffSlot : Bool

end Sys2Proof
end

