-- ==== Sys2Proof/Machine/State.lean ====
section
/-! DEFINITION. The state of the part, block by block (00_scope.md section 3.2), as plain data; its value after
reset; and the reasons a step can stop. A field's default is its value after a part reset. -/

namespace Sys2Proof.Machine

/-! ## Names shared by several blocks -/

/-- Qualities from best to worst (R88). -/
inductive Quality where
  | good | backup | coarse | unsettled | holdover
  deriving DecidableEq, Repr

/-- The level at which a walk or a sweep reaches a word (R50, R175). -/
inductive Level where
  | root | branch | leaf | aliasTarget
  deriving DecidableEq, Repr

/-- The fault codes of a walk (R60). -/
inductive FaultCode where
  | noRoot | badType | badCompetitor | aliasChain
  deriving DecidableEq, Repr

/-- The line of a passing (R75, R86): a course point or a loop. -/
inductive Line where
  | point (q : PointNo)
  | loop (l : LoopNo)
  deriving DecidableEq, Repr

/-- Session states (R136). -/
inductive SessionState where
  | setup | standby | live | chequered | closed
  deriving DecidableEq, Repr

/-- Start modes (R136). -/
inductive StartMode where
  | flying | grid
  deriving DecidableEq, Repr

/-- Chequer states (R136). -/
inductive Chequer where
  | none | pending | taken
  deriving DecidableEq, Repr

/-- Competitor states (R104). -/
inductive CompState where
  | inactive | standby | onTrack | inPit | finished | retired
  deriving DecidableEq, Repr

/-- States of an alignment record (R23, R24). -/
inductive AlignState where
  | unsynced | acquiring | locked | holdover
  deriving DecidableEq, Repr

/-- Sweep modes (R181). -/
inductive SweepMode where
  | clearSeen | audit
  deriving DecidableEq, Repr

/-! ## The Line Interface (chapter 1) -/

/-- Framing state of an inbound port (R3). -/
inductive Framing where
  | searching | framed
  deriving DecidableEq, Repr

/-- Slot actions (R6). -/
inductive Action where
  | pass | copy | take | inspect | block | insert
  deriving DecidableEq, Repr

/-- The content of a forwarding position (R5). -/
inductive Position where
  | empty
  | taken
  | cell (c : Cell)
  deriving DecidableEq, Repr

/-- The counts of one slot of one direction, each 0 to 65,535 and saturating (R12). -/
structure SlotCounts where
  bad : Nat := 0
  foreign : Nat := 0
  overwrite : Nat := 0
  deriving DecidableEq, Repr

/-- What stands on an output: a cycle mark with its count and check (R4, R201), or a cell in its slot. -/
inductive LineItem where
  | mark (count : Tick) (check : BitVec 16)
  | cell (slot : Slot) (c : Cell)
  deriving DecidableEq, Repr

/-- One direction of the LIF: its inbound port, slot maps, forwarding buffer, counts and output. -/
structure Lane where
  framing : Framing := .searching
  markErrors : Nat := 0
  slips : Nat := 0
  inForce : Vector Action 40
  staged : Vector Action 40
  buffer : Vector Position 40 := Vector.replicate 40 .empty
  counts : Vector SlotCounts 40 := Vector.replicate 40 {}
  /-- The next slot of the outbound cycle in progress (R1, R4), or none between cycles. -/
  outSlot : Option Slot := .none
  /-- The item last sent on the output pins. -/
  lineOut : Option LineItem := .none
  deriving DecidableEq, Repr

/-- The Line Interface. -/
structure Lif where
  up : Lane
  down : Lane
  address : BitVec 3
  outCount : Tick := 0
  /-- Set once the first outbound cycle after a part reset has started (R4). -/
  started : Bool := false
  /-- PASSING cells delivered to Intake and not yet processed, in order of delivery (R10, R36). -/
  toIntake : List (Slot × Cell) := []
  /-- BEACON cells delivered to the CAU and not yet handled, in order of delivery (R10, R21). -/
  toCau : List (Slot × Cell) := []
  deriving DecidableEq, Repr

/-! ## The Clock and Alignment Unit (chapter 2) -/

/-- Clock states (R16). -/
inductive ClockState where
  | unset | locked | freeRun
  deriving DecidableEq, Repr

/-- The track clock (R16). -/
structure TrackClock where
  state : ClockState := .unset
  cycle : Tick := 0
  missingRun : Nat := 0
  goodRun : Nat := 0
  losses : Nat := 0
  steps : Nat := 0
  offSlotBeacons : Nat := 0
  deriving DecidableEq, Repr

/-- One record of the Loop Alignment Table (R23); times in µs, `rate` in units of 2^-24. -/
structure AlignRec where
  state : AlignState := .unsynced
  anchorTick : Tick := 0
  anchorTime : Nat := 0
  rate : Int := 0
  lastBeacon : Nat := 0
  accepted : Nat := 0
  close : Nat := 0
  rateFaults : Nat := 0
  steps : Nat := 0
  unresolved : Nat := 0
  consecutive : Nat := 0
  /-- The model's own (log 7): the last change of now still owes this record its timeout tests. -/
  testOwed : Bool := false
  deriving DecidableEq, Repr

/-- The CAU with its parameters (R34): tolerance in µs, timeout and limit in s. -/
structure Cau where
  clock : TrackClock := {}
  records : Vector AlignRec 32 := Vector.replicate 32 {}
  residualTolerance : Nat := 250
  beaconTimeout : Nat := 5
  holdoverLimit : Nat := 120
  deriving DecidableEq, Repr

/-! ## Passing Intake (chapter 3) -/

/-- Overflow states (R47). -/
inductive Overflow where
  | normal | overflowing
  deriving DecidableEq, Repr

/-- The intake record (R45). -/
structure IntakeRec where
  loop : LoopNo
  code : Code
  time : Nat
  quality : Quality
  clamped : Bool
  strength : Nat
  arrival : Tick
  deriving DecidableEq, Repr

/-- The eleven counts of one loop (R48). -/
structure IntakeCounts where
  accepted : Nat := 0
  clamped : Nat := 0
  misrouted : Nat := 0
  malformed : Nat := 0
  disabled : Nat := 0
  idleDiscard : Nat := 0
  unsynced : Nat := 0
  weak : Nat := 0
  future : Nat := 0
  stale : Nat := 0
  overflowed : Nat := 0
  deriving DecidableEq, Repr

/-- Intake (R46 to R48). -/
structure Intake where
  queue : List IntakeRec := []
  overflow : Overflow := .normal
  offSlot : Nat := 0
  episodes : Nat := 0
  longestWait : Nat := 0
  counts : Vector IntakeCounts 32 := Vector.replicate 32 {}
  deriving DecidableEq, Repr

/-! ## The Transponder Resolver (chapter 4) -/

/-- The outcome of a walk or of a cache entry (R60, R66). A fault's word address is absent for NO_ROOT and in
the cache. -/
inductive WalkOutcome where
  | competitor (number : CompNo) (withhold retain : Bool)
  | absent (note : Code) (level : Level)
  | fault (code : FaultCode) (addr : Option WordAddr)
  deriving DecidableEq, Repr

/-- The access that a walk waits for (R57 to R59): the read of its word, or the flag update after the read of
the word `read`. -/
inductive WalkPhase where
  | reading
  | updating (read : Word)
  deriving DecidableEq, Repr

/-- A walk in flight (R56, R57). -/
structure Walk where
  record : IntakeRec
  root : TableIndex
  generation : Tick
  level : Level
  addr : WordAddr
  withhold : Bool
  phase : WalkPhase
  deriving DecidableEq, Repr

/-- Serving states (R55), each with what the Resolver then holds. -/
inductive Serving where
  | idle
  | walking (w : Walk)
  | delivering (record : IntakeRec) (outcome : WalkOutcome)
  deriving DecidableEq, Repr

/-- One entry of the Resolver Cache (R66). -/
structure CacheEntry where
  code : Code
  outcome : WalkOutcome
  deriving DecidableEq, Repr

/-- The Resolver's counts (R71). -/
structure ResolverCounts where
  served : Nat := 0
  hits : Nat := 0
  walks : Nat := 0
  reads : Nat := 0
  seenUpdates : Nat := 0
  competitors : Nat := 0
  unknowns : Nat := 0
  unknownRepeats : Nat := 0
  noRoot : Nat := 0
  badType : Nat := 0
  badCompetitor : Nat := 0
  aliasChain : Nat := 0
  faultHits : Nat := 0
  fills : Nat := 0
  suppressed : Nat := 0
  evictions : Nat := 0
  flushes : Nat := 0
  deriving DecidableEq, Repr

/-- The Resolver; its cache stands from the most to the least recently used entry (R66). -/
structure Resolver where
  root : Option TableIndex := .none
  generation : Tick := 0
  serving : Serving := .idle
  cache : List CacheEntry := []
  counts : ResolverCounts := {}
  deriving DecidableEq, Repr

/-! ## The Course Map (chapter 5) -/

/-- A loaded course point (R72); minimum transit in ms. -/
structure CoursePoint where
  primary : LoopNo
  backup : Option LoopNo
  pitAlt : Option LoopNo
  minTransit : Nat
  deriving DecidableEq, Repr

/-- Course roles with their point index (R74). -/
inductive CourseRole where
  | none
  | primary (q : PointNo)
  | backup (q : PointNo)
  | pitAlt (q : PointNo)
  deriving DecidableEq, Repr

/-- Pit roles (R74). -/
inductive PitRole where
  | none | entry | exit
  deriving DecidableEq, Repr

/-- A loop configuration record (R74); dead-band in ms. -/
structure LoopRec where
  enabled : Bool := false
  role : CourseRole := .none
  pitRole : PitRole := .none
  window : Nat := 24
  floor : Nat := 40
  deadBand : Nat := 1000
  deriving DecidableEq, Repr

/-- A loaded trap pair (R76); distance in mm. -/
structure Trap where
  startLoop : LoopNo
  endLoop : LoopNo
  distance : Nat
  deriving DecidableEq, Repr

/-- Course. -/
structure Course where
  points : Vector (Option CoursePoint) 16 := Vector.replicate 16 .none
  count : Nat := 0
  loops : Vector LoopRec 32 := Vector.replicate 32 {}
  traps : Vector (Option Trap) 4 := Vector.replicate 4 .none
  deriving DecidableEq, Repr

/-! ## The Settle Pool (chapter 6) -/

/-- A pending passing in a settle list (R86); the competitor number is the list's. -/
structure Pending where
  code : Code
  loop : LoopNo
  line : Line
  backup : Bool
  time : Nat
  quality : Quality
  clamped : Bool
  strength : Nat
  withhold : Bool
  order : Nat
  deriving DecidableEq, Repr

/-- Settle's counts (R102), in the order of its table. -/
structure SettleCounts where
  insertions : Nat := 0
  merges : Nat := 0
  backupOverruled : Nat := 0
  duplicates : Nat := 0
  late : Nat := 0
  expiries : Nat := 0
  forcedFull : Nat := 0
  poolEmpty : Nat := 0
  sessionDiscards : Nat := 0
  inactive : Nat := 0
  retireDiscards : Nat := 0
  closeDiscards : Nat := 0
  deriving DecidableEq, Repr

/-- Settle; the interval in ms (R98). -/
structure Settle where
  interval : Nat := 150
  lists : Vector (List Pending) 96 := Vector.replicate 96 []
  free : Nat := 256
  highWater : Nat := 0
  nextOrder : Nat := 0
  counts : SettleCounts := {}
  deriving DecidableEq, Repr

/-! ## The Competitor Engine (chapter 7) -/

/-- The last point with the time and quality there (R105). -/
structure LastPoint where
  point : PointNo
  time : Nat
  quality : Quality
  deriving DecidableEq, Repr

/-- A position of the sector table (R105). -/
structure SectorTime where
  time : Nat
  quality : Quality
  neutral : Bool
  pit : Bool
  deriving DecidableEq, Repr

/-- The last applied passing time and line, set together (R87). -/
structure AppliedMark where
  time : Nat
  line : Line
  deriving DecidableEq, Repr

/-- A best lap (R105). -/
structure BestLap where
  time : Nat
  lap : Nat
  deriving DecidableEq, Repr

/-- A trap start (R105). -/
structure TrapStart where
  time : Nat
  quality : Quality
  deriving DecidableEq, Repr

/-- A competitor record (R104, R105); `class_` is the class. -/
structure Competitor where
  state : CompState := .inactive
  raceNumber : Nat := 0
  class_ : Nat := 0
  entered : Bool := false
  laps : Nat := 0
  lastPoint : Option LastPoint := .none
  lapStart : Option Nat := .none
  lapWorst : Quality := .good
  sectors : Vector (Option SectorTime) 16 := Vector.replicate 16 .none
  lastCrossing : Nat := 0
  lastApplied : Option AppliedMark := .none
  pitCount : Nat := 0
  pitEntry : Option Nat := .none
  lapPit : Bool := false
  sectorPit : Bool := false
  lapNeutral : Bool := false
  sectorNeutral : Bool := false
  bestLap : Option BestLap := .none
  bestSectors : Vector (Option Nat) 16 := Vector.replicate 16 .none
  trapStarts : Vector (Option TrapStart) 4 := Vector.replicate 4 .none
  silenceAlerted : Bool := false
  /-- The model's own (log 7): the last change of now still owes this record its silence test. -/
  silenceTestOwed : Bool := false
  deriving DecidableEq, Repr

/-- The Engine's counts (R135). -/
structure EngineCounts where
  settled : Nat := 0
  forced : Nat := 0
  poolEmpty : Nat := 0
  passOnly : Nat := 0
  appliedInFull : Nat := 0
  implausible : Nat := 0
  entries : Nat := 0
  pitMoves : Nat := 0
  trapRejected : Nat := 0
  mergedSectors : Nat := 0
  inferredLaps : Nat := 0
  silences : Nat := 0
  deriving DecidableEq, Repr

/-- The Engine; the silence limit in s, 0 for none (R128). -/
structure Engine where
  records : Vector Competitor 96 := Vector.replicate 96 {}
  silenceLimit : Nat := 300
  counts : EngineCounts := {}
  deriving DecidableEq, Repr

/-! ## The Running Order and Session Control (chapter 8) -/

/-- The session best (R154). -/
structure SessionBest where
  time : Nat
  competitor : CompNo
  lap : Nat
  deriving DecidableEq, Repr

/-- The Running Order (R150); the head of the list is position 1. -/
structure Order where
  list : List CompNo := []
  best : Option SessionBest := .none
  deriving DecidableEq, Repr

/-- Session Control (R136). -/
structure Session where
  state : SessionState := .setup
  mode : Option StartMode := .none
  greenTime : Option Nat := .none
  neutral : Bool := false
  chequer : Chequer := .none
  deriving DecidableEq, Repr

/-! ## Results and the Result Publisher (chapter 9) -/

/-- The kinds of result (R157). -/
inductive ResultKind where
  | lap | sector | pass | trap | pitIn | pitOut | unknown | late | state | session | alert
  deriving DecidableEq, Repr

/-- The flags of a result (R159), in the bit order of R205. -/
structure Flags where
  clampedTime : Bool := false
  saturated : Bool := false
  afterFinish : Bool := false
  retired : Bool := false
  implausible : Bool := false
  entered : Bool := false
  merged : Bool := false
  neutral : Bool := false
  pit : Bool := false
  pitLap : Bool := false
  lineMissed : Bool := false
  personalBest : Bool := false
  sessionBest : Bool := false
  finish : Bool := false
  entryMissed : Bool := false
  exitMissed : Bool := false
  inactive : Bool := false
  withheld : Bool := false
  released : Bool := false
  unreviewed : Bool := false
  deriving DecidableEq, Repr

/-- A gap to the competitor ahead (R153): in TU, or in laps. -/
inductive Gap where
  | time (tu : Nat)
  | laps (n : Nat)
  deriving DecidableEq, Repr

/-- Change kinds of a STATE result (R134). -/
inductive StateChange where
  | roster | remove | retire | reinstate | adjust
  deriving DecidableEq, Repr

/-- Changes of a SESSION result (R149). -/
inductive SessionChange where
  | opened | green | neutralOn | neutralOff | chequer | close | clear
  deriving DecidableEq, Repr

/-- Alert codes (chapter 9, section 9.2). -/
inductive AlertCode where
  | clockLost | clockStep | loopState | loopStep | intakeOverflow | resolveFault | silent | holdOverflow
  | sweepDone
  deriving DecidableEq, Repr

/-- The further argument of an alert (chapter 9, section 9.2). -/
inductive AlertArg where
  | none
  | loopState (s : AlignState)
  | fault (f : FaultCode) (addr : Option WordAddr)
  | resultKind (k : ResultKind)
  | sweepMode (m : SweepMode)
  deriving DecidableEq, Repr

/-- The extra field of a result, by kind (R158). -/
inductive Extra where
  | none
  | unknown (note : Option Code) (level : Option Level)
  | pit (count : Nat)
  | state (change : StateChange) (newState : Option CompState) (delta : Option Int)
  | session (change : SessionChange) (after : SessionState) (mode : Option StartMode)
  | alert (code : AlertCode) (arg : AlertArg)
  deriving DecidableEq, Repr

/-- A result (R158); `competitor` holds the competitor number and the race number, `point` the point, sector
or trap index. -/
structure Result where
  sequence : Option (BitVec 16) := .none
  kind : ResultKind
  flags : Flags := {}
  quality : Option Quality := .none
  competitor : Option (CompNo × Nat) := .none
  code : Option Code := .none
  loop : Option LoopNo := .none
  point : Option Nat := .none
  span : Option Nat := .none
  lapNumber : Option Nat := .none
  time : Nat
  value : Option Int := .none
  position : Option Nat := .none
  gap : Option Gap := .none
  extra : Extra := .none
  deriving DecidableEq, Repr

/-- The log write in progress (R168): the word address of its entry and the words written so far. -/
structure LogWriter where
  entry : WordAddr
  written : Nat
  deriving DecidableEq, Repr

/-- The Publisher's counts (R170), in the order of its table. -/
structure PublisherCounts where
  published : Nat := 0
  held : Nat := 0
  released : Nat := 0
  discarded : Nat := 0
  clearDiscarded : Nat := 0
  holdOverflow : Nat := 0
  lineDrop : Nat := 0
  entriesWritten : Nat := 0
  alertLost : Nat := 0
  deriving DecidableEq, Repr

/-- The Publisher. `waiting` is the pending list of R161; every list stands oldest first. -/
structure Publisher where
  hold : List Result := []
  waiting : List Result := []
  buffer : List Result := []
  resultQueue : List Result := []
  sequence : BitVec 16 := 0
  logEnabled : Bool := false
  logBase : Nat := 0
  logLength : Nat := 1
  writeIndex : Nat := 0
  wrapped : Bool := false
  writer : Option LogWriter := .none
  counts : PublisherCounts := {}
  deriving DecidableEq, Repr

/-! ## The Table Memory Port and the Sweep Engine (chapter 10) -/

/-- The requesters of the arbiter (R174). -/
inductive Requester where
  | resolver | logWriter | management | sweep
  deriving DecidableEq, Repr

/-- The accesses of the TMP (R173, R175). -/
inductive Access where
  | read (addr : WordAddr)
  | write (addr : WordAddr) (w : Word)
  | flag (addr : WordAddr) (level : Level) (seen : Bool)
  deriving DecidableEq, Repr

/-- The guard (R179). -/
structure Guard where
  enabled : Bool := false
  invert : Bool := false
  first : Nat := 0
  last : Nat := 0
  deriving DecidableEq, Repr

/-- The TMP. `mem` is table memory as bytes: word `a` is the bytes 4a to 4a + 3, most significant first
(log 5), and a byte not listed reads as 0 (log 4). `following` is the model's own (log 11): the requesters that
have been granted an access since which no grant has found their next one waiting. -/
structure Tmp where
  mem : List Host.Cell := []
  inProgress : Option (Requester × Access) := .none
  following : List Requester := []
  guard : Guard := {}
  protectedCount : Nat := 0
  grantsResolver : Nat := 0
  grantsLog : Nat := 0
  grantsManagement : Nat := 0
  grantsSweep : Nat := 0
  deriving DecidableEq, Repr

/-- Sweep states (R181). -/
inductive SweepState where
  | idle | running | suspended
  deriving DecidableEq, Repr

/-- The next access of a sweep (R181, R207): the read of the entry at the position, the flag update of that
entry (`into` is the table that the entry as read names, to be visited next), or the read of an alias target. -/
inductive SweepNext where
  | entry
  | flagUpdate (into : Option TableIndex)
  | target (addr : WordAddr)
  deriving DecidableEq, Repr

/-- The position of a sweep (R181): table and entry index at each level reached. -/
structure SweepPos where
  root : Byte := 0
  branch : Option (TableIndex × Byte) := .none
  leaf : Option (TableIndex × Byte) := .none
  next : SweepNext := .entry
  deriving DecidableEq, Repr

/-- The report of a sweep (R183, R184). -/
structure SweepReport where
  tables : Nat := 0
  competitors : Nat := 0
  aliases : Nat := 0
  absents : Nat := 0
  faults : Nat := 0
  faultAddrs : List WordAddr := []
  visited : Nat := 0
  seenCleared : Nat := 0
  audit : Vector Nat 96 := Vector.replicate 96 0
  aliasAbsent : Nat := 0
  complete : Bool := false
  deriving DecidableEq, Repr

/-- What a sweep's access reports by: its mode, the level and the next access it was (R182 to R184). -/
structure SweepContext where
  mode : SweepMode
  level : Level
  next : SweepNext
  deriving DecidableEq, Repr

/-- Sweep. `stale` is the model's own (log 13): the access of a stopped sweep that was still in progress when
a new sweep was started. -/
structure Sweep where
  state : SweepState := .idle
  mode : Option SweepMode := .none
  root : TableIndex := 0
  pos : SweepPos := {}
  report : SweepReport := {}
  stale : Option SweepContext := .none
  deriving DecidableEq, Repr

/-! ## The Management Unit (chapter 11) -/

/-- A request as the Request Queue holds it (R189). -/
structure Request where
  tag : Byte
  code : Byte
  length : Byte
  params : Vector Byte 22
  deriving DecidableEq, Repr

/-- Reply statuses (R192). -/
inductive Status where
  | ok | clamped | busy | state | range | protected_ | format | notSupported
  deriving DecidableEq, Repr

/-- A reply (R192). -/
structure Reply where
  source : BitVec 3
  tag : Byte
  code : Byte
  status : Status
  data : List Byte
  deriving DecidableEq, Repr

/-- The table request that the MU is executing (R190): the words read so far, or the words still to write. -/
inductive TableOp where
  | read (tag code : Byte) (addr : WordAddr) (left : Nat) (got : List Word)
  | write (tag code : Byte) (addr : WordAddr) (left : List Word)
  deriving DecidableEq, Repr

/-- The MU's counts (R193). -/
structure MuCounts where
  delivered : Nat := 0
  dropped : Nat := 0
  begun : Nat := 0
  ok : Nat := 0
  clamped : Nat := 0
  busy : Nat := 0
  state : Nat := 0
  range : Nat := 0
  protected_ : Nat := 0
  format : Nat := 0
  notSupported : Nat := 0
  deriving DecidableEq, Repr

/-- The MU. It is IDLE when `table` is none and EXECUTING otherwise (R190). -/
structure Mu where
  queue : List Request := []
  replies : List Reply := []
  table : Option TableOp := .none
  counts : MuCounts := {}
  deriving DecidableEq, Repr

/-! ## The part -/

/-- The state of the part: its blocks, the queue of commands that wait, and the free-choice counter. -/
structure State where
  lif : Lif
  cau : Cau := {}
  intake : Intake := {}
  resolver : Resolver := {}
  course : Course := {}
  settle : Settle := {}
  engine : Engine := {}
  order : Order := {}
  session : Session := {}
  publisher : Publisher := {}
  tmp : Tmp := {}
  sweep : Sweep := {}
  mu : Mu := {}
  /-- Commands that wait, first in first out. -/
  pending : List Instr := []
  /-- The model's own (log 8): which free choice comes next. -/
  freeCounter : Nat := 0
  deriving DecidableEq, Repr

/-- The reasons a step stops with a fault. The manual gives the part none; these are raised by `exec` for a
command that is not well-formed, one that names a thing the part does not have. Safe: no event of the part
is such a command (log 16). -/
inductive Fault where
  /-- Raised by CELL_RECEIPT for a slot above 39. Safe. -/
  | noSuchSlot
  /-- Raised by LOOP_HOLDOVER and LOOP_UNSYNCED for a loop above 31. Safe. -/
  | noSuchLoop
  /-- Raised by SETTLE_EXPIRY and SILENT for a competitor above 95. Safe. -/
  | noSuchCompetitor
  deriving DecidableEq, Repr

/-- The reasons a step is refused. -/
inductive Refusal where
  /-- Raised by an arm of `exec` whose command has no meaning yet. Safe. -/
  | notModelled (mnemonic : String)
  deriving DecidableEq, Repr

/-- The default upstream map (R15): slots 0 to 31 COPY, the slot 32 plus the device address INSERT, the
others PASS. -/
def defaultUpMap (address : BitVec 3) : Vector Action 40 :=
  (Vector.replicate 32 Action.copy ++ Vector.replicate 8 Action.pass).set (32 + address.toNat) .insert
    (by omega)

/-- The default downstream map (R15): slot 32 INSPECT, every other slot PASS. -/
def defaultDownMap : Vector Action 40 := (Vector.replicate 40 Action.pass).set 32 .inspect

/-- The LIF after a part reset with the straps at `straps` (R14, R15). -/
def Lif.reset (straps : BitVec 3) : Lif where
  up := { inForce := defaultUpMap straps, staged := defaultUpMap straps }
  down := { inForce := defaultDownMap, staged := defaultDownMap }
  address := straps

/-- The part after a part reset with the straps at `straps`, table memory as at power-up and no command
waiting (R199). -/
def State.resetWith (straps : BitVec 3) : State where
  lif := Lif.reset straps

/-- The machine right after reset. The straps are all low (DESIGN CHOICE, log 6). -/
def State.reset : State := State.resetWith 0

end Sys2Proof.Machine
end

