-- ==== Sys2Proof/Machine/Ops.lean ====
section
/-! DEFINITION. The shared operations: table memory, saturating counts, exact rounding, byte strings most
significant byte first, and records of a table. -/

namespace Sys2Proof.Machine

/-! ## Table memory (R173) -/

/-- What a byte of table memory that nothing has written reads as (DESIGN CHOICE, log 4). -/
def memDefault : Byte := 0

/-- One byte of table memory. -/
def memByte : List Host.Cell → Nat → Byte
  | [], _ => memDefault
  | (a, b) :: rest, k => if a = k then b else memByte rest k

/-- Sets one byte and keeps the canonical form. -/
def memSet : List Host.Cell → Nat → Byte → List Host.Cell
  | [], k, v => if v = memDefault then [] else [(k, v)]
  | (a, b) :: rest, k, v =>
    if k < a then (if v = memDefault then (a, b) :: rest else (k, v) :: (a, b) :: rest)
    else if k = a then (if v = memDefault then rest else (k, v) :: rest)
    else (a, b) :: memSet rest k v

/-- The canonical form: addresses strictly rising and inside the memory, and no byte listed that equals what
an unlisted byte reads as. -/
abbrev Memory.wf (m : List Host.Cell) : Prop :=
  m.Pairwise (fun x y => x.1 < y.1) ∧ ∀ c ∈ m, c.1 < 1048576 ∧ c.2 ≠ memDefault

/-- A word read (R173). -/
def readWord (m : List Host.Cell) (a : WordAddr) : Word :=
  memByte m (4 * a.toNat) ++ memByte m (4 * a.toNat + 1) ++ memByte m (4 * a.toNat + 2) ++
    memByte m (4 * a.toNat + 3)

/-- A word write replaces the whole word (R173). -/
def writeWord (m : List Host.Cell) (a : WordAddr) (w : Word) : List Host.Cell :=
  memSet (memSet (memSet (memSet m (4 * a.toNat) (w.extractLsb' 24 8)) (4 * a.toNat + 1)
    (w.extractLsb' 16 8)) (4 * a.toNat + 2) (w.extractLsb' 8 8)) (4 * a.toNat + 3) (w.extractLsb' 0 8)

/-! ## Counts -/

/-- A count of 0 to 65,535 rises by one and saturates (R12, R48, R71, R102, R135, R170, R193). -/
def bump (n : Nat) : Nat := if n < 65535 then n + 1 else 65535

/-- A count rises `k` times by one. -/
def bumpBy (n k : Nat) : Nat := min (n + k) 65535

/-- A count of 0 to 255 rises by one and saturates (R109, R184). -/
def bump8 (n : Nat) : Nat := if n < 255 then n + 1 else 255

/-! ## Arithmetic (00_scope.md section 7) -/

/-- A quotient rounded to nearest, ties away from zero. -/
def roundTies (n : Int) (d : Nat) : Int :=
  if 0 ≤ n then ((2 * n.toNat + d) / (2 * d) : Nat) else -(((2 * (-n).toNat + d) / (2 * d) : Nat) : Int)

/-- A value clamped to a range. -/
def clampInt (lo hi v : Int) : Int := max lo (min hi v)

/-- A quotient of naturals rounded half up. -/
def roundHalfUp (n d : Nat) : Nat := (2 * n + d) / (2 * d)

/-- A time in TU as reported, with whether it saturated (R91, R127, R153): µs divided by 100, truncated, at
most 16,777,215. -/
def toTU (us : Nat) : Nat × Bool :=
  if us / 100 ≤ 16777215 then (us / 100, false) else (16777215, true)

/-! ## Byte strings (R200) -/

/-- The number that bytes carry, most significant byte first. -/
def beNat (l : List Byte) : Nat := l.foldl (fun acc b => acc * 256 + b.toNat) 0

/-- A number in `n` bytes, most significant byte first. -/
def natBytes : Nat → Nat → List Byte
  | 0, _ => []
  | n + 1, v => natBytes n (v / 256) ++ [BitVec.ofNat 8 v]

/-- A signed number in `n` bytes, two's complement (R204). -/
def intBytes (n : Nat) (v : Int) : List Byte := natBytes n (v % ((256 ^ n : Nat) : Int)).toNat

/-- An optional number in `n` bytes: all ones when absent (R201). -/
def optBytes (n : Nat) (o : Option Nat) : List Byte := natBytes n (o.getD (256 ^ n - 1))

/-- A set or clear flag in one byte (R207). -/
def flagByte (b : Bool) : List Byte := [if b then 1 else 0]

/-- The first `n` bytes of a string, filled up with zeros. -/
def fixBytes (n : Nat) (l : List Byte) : Vector Byte n :=
  ⟨⟨(l ++ List.replicate n 0).take n⟩, by simp⟩

/-! ## Tables of like records -/

/-- Replaces one record by a function of itself. -/
def upd {α : Type} {n : Nat} (v : Vector α n) (i : Fin n) (f : α → α) : Vector α n := v.set i (f v[i])

/-- Replaces every record by a function of itself. -/
def mapAll {α β : Type} {n : Nat} (v : Vector α n) (f : α → β) : Vector β n :=
  ⟨⟨v.toArray.toList.map f⟩, by simp⟩

/-- An index of a table with `n` records. -/
def finOf? (n k : Nat) : Option (Fin n) := if h : k < n then some ⟨k, h⟩ else none

/-- The indices of a table with `n` records, ascending. -/
def allFin (n : Nat) : List (Fin n) := (List.range n).filterMap (finOf? n)

/-! ## Free order (log 8) -/

/-- Puts one index into a list sorted by the `n`th free ranking. -/
def insertByKey (n : Nat) (c : CompNo) : List CompNo → List CompNo
  | [] => [c]
  | d :: rest =>
    if Config.orderKey n c ≤ Config.orderKey n d then c :: d :: rest else d :: insertByKey n c rest

/-- A list in the order of the `n`th free ranking. -/
def freeOrder (n : Nat) : List CompNo → List CompNo
  | [] => []
  | c :: rest => insertByKey n c (freeOrder n rest)

/-- The order of qualities, 1 for the best (R88, R201). -/
def Quality.rank : Quality → Nat
  | .good => 1 | .backup => 2 | .coarse => 3 | .unsettled => 4 | .holdover => 5

/-- The worse of two qualities: a quality lowered to another (R88). -/
def Quality.worse (a b : Quality) : Quality := if a.rank < b.rank then b else a

end Sys2Proof.Machine
end

