-- ==== Sys2Proof/Machine/Operands.lean ====
section
/-! DEFINITION. Every operand form of the part: the fields of a cell (R201, R204), of a request's parameters
(R203, R206) and of a resolver table entry (R202), and the codes of named values (R201). -/

namespace Sys2Proof.Machine

/-! ## Cells (R201, R204) -/

/-- The bytes of a cell from `start`, `len` of them. -/
def cellBytes (c : Cell) (start len : Nat) : List Byte := (c.toList.drop start).take len

/-- A field of a cell as a number (R200). -/
def cellNat (c : Cell) (start len : Nat) : Nat := beNat (cellBytes c start len)

/-- The cell kinds (R2, R201). -/
inductive CellKind where
  | idle | passing | beacon | request | reply | result | foreign
  deriving DecidableEq, Repr

/-- The kind values of R201; every other value is FOREIGN. -/
def cellKind (cell : Cell) : CellKind :=
  if cell[0] = 0x00 then .idle
  else if cell[0] = 0x11 then .passing
  else if cell[0] = 0x12 then .beacon
  else if cell[0] = 0x21 then .request
  else if cell[0] = 0x22 then .reply
  else if cell[0] = 0x31 then .result
  else .foreign

/-- One step of the CRC-16 with generator x^16 + x^12 + x^5 + 1 (R2). -/
def crcBit (crc : BitVec 16) : BitVec 16 :=
  if crc.msb then (crc <<< 1) ^^^ 0x1021 else crc <<< 1

/-- One byte fed into the CRC, most significant bit first (R2). -/
def crcByte (crc : BitVec 16) (b : Byte) : BitVec 16 :=
  crcBit (crcBit (crcBit (crcBit (crcBit (crcBit (crcBit (crcBit (crc ^^^ (b.zeroExtend 16 <<< 8)))))))))

/-- The CRC of a byte string: register preset to all ones, no final inversion (R2). -/
def crc16 (l : List Byte) : BitVec 16 := l.foldl crcByte 0xFFFF

/-- The check of a cell is good when bytes 30 and 31 carry the CRC of bytes 0 to 29 (R2, R201). -/
def cellCheckGood (c : Cell) : Bool :=
  decide (cellNat c 30 2 = (crc16 (cellBytes c 0 30)).toNat)

/-- A cell that the part originates: its first 30 bytes, filled up with zeros, and a good check (R2, R201). -/
def sealCell (body : List Byte) : Cell :=
  let b := (fixBytes 30 body).toList
  fixBytes 32 (b ++ natBytes 2 (crc16 b).toNat)

/-- The originated IDLE cell: every field but its kind and check at zero (R2). -/
def idleCell : Cell := sealCell [0x00]

/-- The check of a cycle mark: the CRC over the four bytes of its count (R1). -/
def markCheck (count : Tick) : BitVec 16 := crc16 (natBytes 4 count.toNat)

/-- The fields of a PASSING cell (R36, R204); a hit is an offset and a strength. -/
structure PassingCell where
  loop : Nat
  code : Code
  hitCount : Nat
  base : Tick
  hits : List (Nat × Nat)
  deriving DecidableEq, Repr

/-- Reads a PASSING cell. -/
def readPassing (c : Cell) : PassingCell where
  loop := cellNat c 1 1
  code := BitVec.ofNat 24 (cellNat c 2 3)
  hitCount := cellNat c 5 1
  base := BitVec.ofNat 32 (cellNat c 6 4)
  hits := (List.range 6).map fun i => (cellNat c (10 + 3 * i) 2, cellNat c (12 + 3 * i) 1)

/-- The latched tick of a BEACON cell (R204). -/
def beaconTick (c : Cell) : Tick := BitVec.ofNat 32 (cellNat c 2 4)

/-- The low 16 bits of the cycle count that a BEACON cell carries (R204). -/
def beaconC16 (c : Cell) : Nat := cellNat c 6 2

/-- The destination address of a REQUEST cell (R204). -/
def requestDest (c : Cell) : Nat := cellNat c 1 1

/-- Reads a REQUEST cell (R189, R204). -/
def readRequest (cell : Cell) : Request where
  tag := cell[2]
  code := cell[3]
  length := cell[4]
  params := fixBytes 22 (cellBytes cell 5 22)

/-! ## Parameters of a request (R203, R206) -/

/-- A parameter field as a number. -/
def Request.nat (r : Request) (start len : Nat) : Nat := beNat ((r.params.toList.drop start).take len)

/-- A one-byte parameter. -/
def Request.byte (r : Request) (i : Nat) : Byte := r.params.toList.getD i 0

/-- A flag parameter. The manual gives a request's flag byte no coding: that 0 is clear and 1 is set is the model's
(log 30), and any other byte is the free value of log 14, where none is RANGE. -/
def Request.flag (r : Request) (i : Nat) : Option Bool :=
  if r.byte i = 0 then some false else if r.byte i = 1 then some true else Config.looseFlag (r.byte i)

/-- A one-byte index below `n`, or none where it is out of range. -/
def Request.index (r : Request) (n i : Nat) : Option (Fin n) := finOf? n (r.byte i).toNat

/-- A loop parameter that may be none, coded 255 (R201): out of range, or a loop or none. -/
def Request.optLoop (r : Request) (i : Nat) : Option (Option LoopNo) :=
  if r.byte i = 255 then some .none else (finOf? 32 (r.byte i).toNat).map some

/-- A signed one-byte parameter. -/
def Request.signed (r : Request) (i : Nat) : Int := (r.byte i).toInt

/-- The word address of a TABLE_WRITE: the low two bits of its code, then two parameter bytes (R203). -/
def Request.writeAddr (r : Request) : Nat := (r.code.toNat % 4) * 65536 + r.nat 0 2

/-- The words that a TABLE_WRITE of `n` words carries (R203). -/
def Request.words (r : Request) (n : Nat) : List Word :=
  (List.range n).map fun i => BitVec.ofNat 32 (r.nat (2 + 4 * i) 4)

/-! ## Resolver table entries (R52, R53, R202) -/

/-- An entry as read at some level. -/
inductive Entry where
  | absent (note : Code)
  | table (next : TableIndex) (seen withhold : Bool)
  | competitor (number : Nat) (seen withhold retain : Bool)
  | aliasTo (target : WordAddr) (seen withhold : Bool)
  | bad
  deriving DecidableEq, Repr

/-- Reads a word as an entry of a level (R52, R53, R202). -/
def readEntry (level : Level) (w : Word) : Entry :=
  let seen := w.getLsbD 29
  let withhold := w.getLsbD 28
  let type := (w.extractLsb' 30 2).toNat
  let note := w.extractLsb' 0 24
  match level with
  | .root | .branch =>
    match type with
    | 0 => .absent note
    | 1 => .table (w.extractLsb' 0 10) seen withhold
    | _ => .bad
  | .leaf | .aliasTarget =>
    match type with
    | 0 => .absent note
    | 1 => .competitor (w.extractLsb' 0 7).toNat seen withhold (w.getLsbD 27)
    | 2 => .aliasTo (w.extractLsb' 0 18) seen withhold
    | _ => .bad

/-- The SEEN flag of an entry of a kind that carries one (R54). -/
def Entry.seen? : Entry → Option Bool
  | .table _ s _ => some s
  | .competitor _ s _ _ => some s
  | .aliasTo _ s _ => some s
  | .absent _ => .none
  | .bad => .none

/-- The word address of an entry of a table (R50). -/
def entryAddr (t : TableIndex) (entry : Byte) : WordAddr := t ++ entry

/-- The entry index of a code at a level (R50). -/
def codeIndex (level : Level) (code : Code) : Byte :=
  match level with
  | .root => code.extractLsb' 16 8
  | .branch => code.extractLsb' 8 8
  | .leaf | .aliasTarget => code.extractLsb' 0 8

/-! ## Codes of named values, from 1 in the order of the rule that lists them (R201) -/

def Level.code : Level → Nat
  | .root => 1 | .branch => 2 | .leaf => 3 | .aliasTarget => 4

def FaultCode.code : FaultCode → Nat
  | .noRoot => 1 | .badType => 2 | .badCompetitor => 3 | .aliasChain => 4

def SessionState.code : SessionState → Nat
  | .setup => 1 | .standby => 2 | .live => 3 | .chequered => 4 | .closed => 5

def StartMode.code : StartMode → Nat
  | .flying => 1 | .grid => 2

def Chequer.code : Chequer → Nat
  | .none => 1 | .pending => 2 | .taken => 3

def CompState.code : CompState → Nat
  | .inactive => 1 | .standby => 2 | .onTrack => 3 | .inPit => 4 | .finished => 5 | .retired => 6

def AlignState.code : AlignState → Nat
  | .unsynced => 1 | .acquiring => 2 | .locked => 3 | .holdover => 4

def ClockState.code : ClockState → Nat
  | .unset => 1 | .locked => 2 | .freeRun => 3

def Overflow.code : Overflow → Nat
  | .normal => 1 | .overflowing => 2

def Serving.code : Serving → Nat
  | .idle => 1 | .walking _ => 2 | .delivering _ _ => 3

def SweepMode.code : SweepMode → Nat
  | .clearSeen => 1 | .audit => 2

def SweepState.code : SweepState → Nat
  | .idle => 1 | .running => 2 | .suspended => 3

def ResultKind.code : ResultKind → Nat
  | .lap => 1 | .sector => 2 | .pass => 3 | .trap => 4 | .pitIn => 5 | .pitOut => 6
  | .unknown => 7 | .late => 8 | .state => 9 | .session => 10 | .alert => 11

def StateChange.code : StateChange → Nat
  | .roster => 1 | .remove => 2 | .retire => 3 | .reinstate => 4 | .adjust => 5

def SessionChange.code : SessionChange → Nat
  | .opened => 1 | .green => 2 | .neutralOn => 3 | .neutralOff => 4 | .chequer => 5 | .close => 6
  | .clear => 7

def AlertCode.code : AlertCode → Nat
  | .clockLost => 1 | .clockStep => 2 | .loopState => 3 | .loopStep => 4 | .intakeOverflow => 5
  | .resolveFault => 6 | .silent => 7 | .holdOverflow => 8 | .sweepDone => 9

def PitRole.code : PitRole → Nat
  | .none => 1 | .entry => 2 | .exit => 3

def CourseRole.code : CourseRole → Nat
  | .none => 1 | .primary _ => 2 | .backup _ => 3 | .pitAlt _ => 4

def Status.code : Status → Nat
  | .ok => 1 | .clamped => 2 | .busy => 3 | .state => 4 | .range => 5 | .protected_ => 6
  | .format => 7 | .notSupported => 8

/-- A slot action as SLOT_MAP_WRITE codes it (R206). -/
def Action.code : Action → Nat
  | .pass => 0 | .copy => 1 | .take => 2 | .inspect => 3 | .block => 4 | .insert => 5

/-- The slot action of a parameter byte (R206). -/
def Action.ofCode : Nat → Option Action
  | 0 => some .pass | 1 => some .copy | 2 => some .take | 3 => some .inspect | 4 => some .block
  | 5 => some .insert | _ => .none

/-- The direction of a parameter byte (R206). -/
def Direction.ofCode : Nat → Option Direction
  | 0 => some .upstream | 1 => some .downstream | _ => .none

/-- The pit role of a parameter byte (R80, R201). -/
def PitRole.ofCode : Nat → Option PitRole
  | 1 => some .none | 2 => some .entry | 3 => some .exit | _ => Option.none

/-- The start mode of a parameter byte (R206). -/
def StartMode.ofCode : Nat → Option StartMode
  | 1 => some .flying | 2 => some .grid | _ => .none

/-- The sweep mode of a parameter byte (R206). -/
def SweepMode.ofCode : Nat → Option SweepMode
  | 1 => some .clearSeen | 2 => some .audit | _ => .none

/-- The modes of RESOLVER_FLUSH (R69). -/
inductive FlushMode where
  | all | nonRetained | code
  deriving DecidableEq, Repr

/-- The flush mode of a parameter byte (R69, R201). -/
def FlushMode.ofCode : Nat → Option FlushMode
  | 1 => some .all | 2 => some .nonRetained | 3 => some .code | _ => .none

/-- The code of a quality in a field, 0 when absent (R201). -/
def qualityCode (q : Option Quality) : Nat := (q.map Quality.rank).getD 0

/-- The code of a line in one byte, 255 when absent (R207). -/
def lineCode : Option Line → Nat
  | .none => 255
  | some (.point q) => q.val
  | some (.loop l) => 32 + l.val

end Sys2Proof.Machine
end

