-- ==== Sys2Proof/Machine/Flags.lean ====
section
/-! DEFINITION. Every flag computation: the SEEN flag of a table word (R54, R175), the guard (R179), and the
flags, the fields and the cell of a result (R159, R205). -/

namespace Sys2Proof.Machine

/-! ## SEEN (R175) -/

/-- The word that a flag update writes back: where the word holds a kind that carries SEEN at that level and
the flag does not already have the value asked for, the word with bit 29 changed; otherwise none (R175). -/
def seenUpdate (level : Level) (seen : Bool) (w : Word) : Option Word :=
  match (readEntry level w).seen? with
  | some s => if s = seen then .none else some (w ^^^ 0x20000000)
  | .none => .none

/-- The effect of an access on table memory (R173). -/
def Access.effect (a : Access) (m : List Host.Cell) : List Host.Cell :=
  match a with
  | .read _ => m
  | .write addr w => writeWord m addr w
  | .flag addr level seen =>
    match seenUpdate level seen (readWord m addr) with
    | some w => writeWord m addr w
    | .none => m

/-! ## The guard (R179) -/

/-- Whether a word is guarded (R179). -/
def Guard.covers (g : Guard) (addr : Nat) : Bool :=
  g.enabled && ((decide (g.first ≤ addr / 1024) && decide (addr / 1024 ≤ g.last)) != g.invert)

/-! ## Results (R158, R159, R205) -/

/-- The flags of a result in the bit order of R205, the least significant first. -/
def Flags.bits (f : Flags) : List Bool :=
  [f.clampedTime, f.saturated, f.afterFinish, f.retired, f.implausible, f.entered, f.merged, f.neutral,
   f.pit, f.pitLap, f.lineMissed, f.personalBest, f.sessionBest, f.finish, f.entryMissed, f.exitMissed,
   f.inactive, f.withheld, f.released, f.unreviewed]

/-- The number of a list of bits, the least significant first. -/
def bitsNat : List Bool → Nat
  | [] => 0
  | b :: rest => (if b then 1 else 0) + 2 * bitsNat rest

/-- A gap's form and three bytes (R205). -/
def gapBytes : Option Gap → List Byte
  | .none => natBytes 1 0 ++ optBytes 3 .none
  | some (.time tu) => natBytes 1 1 ++ natBytes 3 tu
  | some (.laps n) => natBytes 1 2 ++ natBytes 3 n

/-- A time's presence byte and three bytes (R205). That the byte is 1 where the time is present and 0 where it is not is
the model's (log 32). -/
def presentTU : Option Int → List Byte
  | .none => natBytes 1 0 ++ optBytes 3 .none
  | some v => natBytes 1 1 ++ natBytes 3 v.toNat

/-- The code in an alert's argument byte, 0 when absent (R205). -/
def AlertArg.code : AlertArg → Nat
  | .none => 0
  | .loopState s => s.code
  | .fault f _ => f.code
  | .resultKind k => k.code
  | .sweepMode m => m.code

/-- The word address of an alert, if any (R65). -/
def AlertArg.addr : AlertArg → Option WordAddr
  | .fault _ a => a
  | .none | .loopState _ | .resultKind _ | .sweepMode _ => Option.none

/-- Bytes 18 to 29 of a RESULT cell, by kind (R205). -/
def Result.kindBytes (r : Result) : List Byte :=
  match r.kind, r.extra with
  | .lap, _ => optBytes 2 r.lapNumber ++ presentTU r.value ++ optBytes 1 r.position ++ gapBytes r.gap
  | .sector, _ => optBytes 1 r.point ++ optBytes 1 r.span ++ optBytes 3 (r.value.map Int.toNat)
  | .pass, _ => optBytes 1 r.point ++ optBytes 1 r.position ++ gapBytes r.gap
  | .trap, _ => optBytes 1 r.point ++ optBytes 2 (r.value.map Int.toNat)
  | .pitIn, .pit n => natBytes 1 n ++ presentTU r.value
  | .pitOut, .pit n => natBytes 1 n ++ presentTU r.value
  | .unknown, .unknown note level =>
    optBytes 3 (r.code.map BitVec.toNat) ++ natBytes 1 ((level.map Level.code).getD 0) ++
      optBytes 3 (note.map BitVec.toNat)
  | .late, _ => optBytes 3 (r.code.map BitVec.toNat) ++ optBytes 3 (r.value.map Int.toNat)
  | .state, .state change newState delta =>
    natBytes 1 change.code ++ natBytes 1 ((newState.map CompState.code).getD 0) ++
      (match delta with | .none => optBytes 1 .none | some d => intBytes 1 d) ++
      optBytes 2 r.lapNumber ++ optBytes 1 r.position ++ gapBytes r.gap
  | .session, .session change after mode =>
    natBytes 1 change.code ++ natBytes 1 after.code ++ natBytes 1 ((mode.map StartMode.code).getD 0)
  | .alert, .alert code arg =>
    natBytes 1 code.code ++ (match r.value with | .none => optBytes 4 .none | some v => intBytes 4 v) ++
      natBytes 1 arg.code ++ optBytes 3 (r.code.map BitVec.toNat) ++ optBytes 3 (arg.addr.map BitVec.toNat)
  | _, _ => []

/-- The RESULT cell of a result (R205). -/
def Result.toCell (r : Result) : Cell :=
  sealCell ([0x31] ++ natBytes 1 r.kind.code ++ optBytes 2 (r.sequence.map BitVec.toNat) ++
    natBytes 3 (bitsNat r.flags.bits) ++ natBytes 1 (qualityCode r.quality) ++
    optBytes 1 (r.competitor.map fun p => p.1.val) ++ optBytes 2 (r.competitor.map Prod.snd) ++
    optBytes 1 (r.loop.map Fin.val) ++ natBytes 6 r.time ++ r.kindBytes)

/-- The REPLY cell of a reply (R204). -/
def Reply.toCell (r : Reply) : Cell :=
  sealCell ([0x22] ++ natBytes 1 r.source.toNat ++ [r.tag, r.code] ++ natBytes 1 r.status.code ++ r.data)

/-- Word `j` of the log entry of a result: cell bytes 4j to 4j + 3, byte 4j in bits 31 to 24 (R205). -/
def Result.logWord (r : Result) (j : Nat) : Word := BitVec.ofNat 32 (cellNat r.toCell (4 * j) 4)

end Sys2Proof.Machine
end

