-- ==== Sys2Proof/Machine/Publication.lean ====
section
/-! DEFINITION. The Result Publisher (chapter 9): taking, holding and publishing results, the Log Write Buffer
and the log writer, RELEASE, DISCARD, LOG_SET; and the making of an alert. -/

namespace Sys2Proof.Machine

/-- An ALERT result (chapter 9, section 9.2). -/
def alertResult (now : Nat) (code : AlertCode) (loop : Option LoopNo) (value : Option Int)
    (arg : AlertArg) : Result :=
  { kind := .alert, loop := loop, time := now, value := value, extra := .alert code arg }

/-- The Engine accepts passings except while the Log Write Buffer is full (R89, R166). -/
def Publisher.accepting (p : Publisher) : Bool := decide (p.buffer.length < 16)

/-- The word address of entry `i` of the ring (R167). -/
def Publisher.entryAddr (p : Publisher) (i : Nat) : WordAddr := BitVec.ofNat 18 (p.logBase * 1024 + i * 8)

/-- The log writer takes the address of the next entry when the log is enabled, the buffer is not empty and no
entry is being written; it advances the write index and sets the wrapped flag on the return to 0 (R168, steps
1 and 2; log 10). -/
def Publisher.startWriter (p : Publisher) : Publisher :=
  if p.logEnabled && p.writer.isNone && !p.buffer.isEmpty then
    if p.writeIndex + 1 < p.logLength * 128 then
      { p with writer := some ⟨p.entryAddr p.writeIndex, 0⟩, writeIndex := p.writeIndex + 1 }
    else { p with writer := some ⟨p.entryAddr p.writeIndex, 0⟩, writeIndex := 0, wrapped := true }
  else p

/-- The Publisher after numbering a result and offering it to the Result Queue (R165, steps 1, 3 and 4). -/
def Publisher.number (p : Publisher) (r : Result) : Publisher :=
  { p with
    sequence := p.sequence + 1
    resultQueue := if p.resultQueue.length < 64 then p.resultQueue ++ [r] else p.resultQueue
    counts := { p.counts with
      published := bump p.counts.published
      lineDrop := if p.resultQueue.length < 64 then p.counts.lineDrop else bump p.counts.lineDrop } }

/-- Publication (R165). While the log is disabled a result leaves the buffer as it enters it (R166). -/
def Publisher.publish (p : Publisher) (r : Result) : Publisher :=
  let r' := { r with sequence := some p.sequence }
  let p' := p.number r'
  (if p.logEnabled then { p' with buffer := p'.buffer ++ [r'] } else p').startWriter

/-- A result to be published goes to the buffer at once, or to the tail of the pending list (R161). -/
def Publisher.give (p : Publisher) (r : Result) : Publisher :=
  if p.waiting.isEmpty && p.accepting then p.publish r else { p with waiting := p.waiting ++ [r] }

/-- An alert of a producer that does not wait: lost where the pending list holds 96 results (R161). -/
def Publisher.alert (p : Publisher) (r : Result) : Publisher :=
  if p.waiting.length < 96 then p.give r
  else { p with counts := { p.counts with alertLost := bump p.counts.alertLost } }

/-- The alerts of one event, in order (R157). -/
def Publisher.alerts (p : Publisher) (rs : List Result) : Publisher := rs.foldl Publisher.alert p

/-- The result that leaves a full Hold List, and the alert after it (R162). -/
def overflowResults (now : Nat) (h : Result) : List Result :=
  [{ h with flags := { h.flags with unreviewed := true } },
   { alertResult now .holdOverflow .none .none (.resultKind h.kind) with competitor := h.competitor }]

/-- Holds a result; a full Hold List first publishes its head and an alert (R162). -/
def Publisher.holdResult (p : Publisher) (now : Nat) (r : Result) : Publisher :=
  match p.hold with
  | h :: rest =>
    if p.hold.length < 32 then
      { p with hold := p.hold ++ [r], counts := { p.counts with held := bump p.counts.held } }
    else
      let p' := (overflowResults now h).foldl Publisher.give { p with hold := rest }
      { p' with
        hold := p'.hold ++ [r]
        counts := { p'.counts with
          held := bump p'.counts.held
          holdOverflow := bump p'.counts.holdOverflow } }
  | [] => { p with hold := [r], counts := { p.counts with held := bump p.counts.held } }

/-- Taking a result (R160). -/
def Publisher.take (p : Publisher) (now : Nat) (r : Result) : Publisher :=
  if r.flags.withheld then p.holdResult now r else p.give r

/-- The results of one event, in order (R157). -/
def Publisher.takeAll (p : Publisher) (now : Nat) (rs : List Result) : Publisher :=
  rs.foldl (fun p r => p.take now r) p

/-- The head of the pending list is published into a place that the buffer gave up (R161). -/
def Publisher.refill (p : Publisher) : Publisher :=
  match p.waiting with
  | [] => p.startWriter
  | r :: rest => Publisher.publish { p with waiting := rest } r

/-- The access that the log writer waits for (R168, step 3). -/
def Publisher.access? (p : Publisher) : Option Access :=
  match p.writer, p.buffer with
  | some w, r :: _ => some (.write (w.entry + BitVec.ofNat 18 w.written) (r.logWord w.written))
  | some _, [] => .none
  | .none, _ => .none

/-- A word write of the log writer completes; the eighth completes the entry (R168). -/
def Publisher.wordWritten (p : Publisher) : Publisher :=
  match p.writer with
  | .none => p
  | some w =>
    if w.written < 7 then { p with writer := some { w with written := w.written + 1 } }
    else
      Publisher.refill
        { p with
          writer := .none
          buffer := p.buffer.tail
          counts := { p.counts with entriesWritten := bump p.counts.entriesWritten } }

/-- Whether a held result is named by RELEASE or DISCARD: of one competitor, or all of them (R163). -/
def Result.named (who : Option CompNo) (r : Result) : Bool :=
  match who with
  | .none => true
  | some c => decide (r.competitor.map Prod.fst = some c)

/-- RELEASE (R163). -/
def Publisher.release (p : Publisher) (who : Option CompNo) : Publisher :=
  let out := p.hold.filter (Result.named who)
  let p' := { p with
    hold := p.hold.filter (fun r => !(r.named who))
    counts := { p.counts with released := bumpBy p.counts.released out.length } }
  out.foldl (fun p r => p.give { r with flags := { r.flags with released := true } }) p'

/-- DISCARD (R164). -/
def Publisher.discard (p : Publisher) (who : Option CompNo) : Publisher :=
  { p with
    hold := p.hold.filter (fun r => !(r.named who))
    counts := { p.counts with
      discarded := bumpBy p.counts.discarded (p.hold.filter (Result.named who)).length } }

/-- The Hold List at a session CLEAR (R172). -/
def Publisher.clearHold (p : Publisher) : Publisher :=
  { p with
    hold := []
    counts := { p.counts with clearDiscarded := bumpBy p.counts.clearDiscarded p.hold.length } }

/-- A taken LOG_SET that enables the log on a ring (R169). -/
def Publisher.enableLog (p : Publisher) (base length : Nat) : Publisher :=
  Publisher.startWriter
    { p with logEnabled := true, logBase := base, logLength := length, writeIndex := 0, wrapped := false }

/-- A taken LOG_SET that disables the log: the entries behind the one being written leave the buffer at once,
unwritten, and the pending list is published through it (R161, R166, R169). -/
def Publisher.disableLog (p : Publisher) : Publisher :=
  let p' := { p with
    logEnabled := false
    buffer := if p.writer.isSome then p.buffer.take 1 else []
    waiting := [] }
  p.waiting.foldl Publisher.publish p'

end Sys2Proof.Machine
end

