-- ==== Sys2Proof/Machine/Line.lean ====
section
/-! DEFINITION. The Line Interface (chapter 1): receipt of a cell, outbound cycles and slots, and the meanings
of CELL_RECEIPT, OUTBOUND_CYCLE_START and OUTBOUND_SLOT_SEND. -/

namespace Sys2Proof.Machine

open Host (Outcome)

/-- The lane of a direction. -/
def Lif.lane (l : Lif) : Direction → Lane
  | .upstream => l.up
  | .downstream => l.down

/-- Replaces the lane of a direction. -/
def Lif.setLane (l : Lif) (d : Direction) (lane : Lane) : Lif :=
  match d with
  | .upstream => { l with up := lane }
  | .downstream => { l with down := lane }

/-- The direction whose inbound port a port is (chapter 1). -/
def portDirection : Port → Direction
  | .trackIn => .upstream
  | .controlIn => .downstream

/-! ## Receipt -/

/-- The block to which a cell is delivered (R10). -/
inductive Delivery where
  | intake | cau | mu
  deriving DecidableEq, Repr

/-- What the receipt of a cell decides (R6). -/
structure Receipt where
  content : Position
  badCheck : Bool := false
  foreign : Bool := false
  deliver : Option Delivery := .none
  deriving DecidableEq, Repr

/-- The block that uses a cell of this kind in this direction (R10). -/
def deliveryOf (address : BitVec 3) (d : Direction) (c : Cell) : Option Delivery :=
  match d, cellKind c with
  | .upstream, .passing => some .intake
  | .upstream, .beacon => some .cau
  | .downstream, .request => if requestDest c = address.toNat then some .mu else .none
  | _, _ => .none

/-- What an action does with a cell at its receipt (R7 to R10). -/
def receive (address : BitVec 3) (d : Direction) (a : Action) (c : Cell) : Receipt :=
  match a with
  | .pass | .block | .insert => { content := .cell c }
  | .copy | .take =>
    if cellCheckGood c then
      if cellKind c = .idle then { content := .cell c }
      else
        { content := if a = .take then .taken else .cell c
          foreign := (deliveryOf address d c).isNone
          deliver := deliveryOf address d c }
    else { content := .cell c, badCheck := true }
  | .inspect =>
    if cellCheckGood c then
      if cellKind c = .request ∧ requestDest c = address.toNat then
        { content := .taken, deliver := some .mu }
      else { content := .cell c }
    else { content := .cell c, badCheck := true }

/-- The counts of a slot after a receipt (R8 to R10). -/
def SlotCounts.receipt (k : SlotCounts) (r : Receipt) : SlotCounts :=
  { k with
    bad := if r.badCheck then bump k.bad else k.bad
    foreign := if r.foreign then bump k.foreign else k.foreign }

/-- A lane after a receipt: the content goes into its position, and content that it replaces counts as a slip
(R5). -/
def Lane.receipt (lane : Lane) (slot : Slot) (r : Receipt) : Lane :=
  { lane with
    buffer := lane.buffer.set slot r.content
    slips := if lane.buffer[slot] = .empty then lane.slips else bump lane.slips
    counts := upd lane.counts slot (fun k => k.receipt r) }

/-- The MU places a delivered request at the tail of its queue, or drops it at a full queue (R189; log 15). -/
def Mu.deliver (m : Mu) (r : Request) : Mu :=
  if m.queue.length < 4 then
    { m with queue := m.queue ++ [r], counts := { m.counts with delivered := bump m.counts.delivered } }
  else
    { m with
      counts := { m.counts with
        delivered := bump m.counts.delivered
        dropped := bump m.counts.dropped } }

/-- Hands a delivered cell to its block, with its slot (R10). -/
def State.deliver (s : State) (slot : Slot) (c : Cell) : Option Delivery → State
  | .none => s
  | some .intake => { s with lif := { s.lif with toIntake := s.lif.toIntake ++ [(slot, c)] } }
  | some .cau => { s with lif := { s.lif with toCau := s.lif.toCau ++ [(slot, c)] } }
  | some .mu => { s with mu := s.mu.deliver (readRequest c) }

/-- A cell received in a slot of a framed port (R6); while the port is SEARCHING no cell is received (R3). -/
def receiveCell (d : Direction) (slot : Slot) (c : Cell) (s : State) : State :=
  let lane := s.lif.lane d
  if lane.framing = .framed then
    let r := receive s.lif.address d lane.inForce[slot] c
    State.deliver { s with lif := s.lif.setLane d (lane.receipt slot r) } slot c r.deliver
  else s

/-- CELL_RECEIPT (R5 to R10, R189). -/
def execCellReceipt (d : Direction) (slot : Nat) (c : Cell) (s : State) : Outcome State Fault Refusal :=
  match finOf? 40 slot with
  | some k => .next (receiveCell d k c s)
  | .none => .fault .noSuchSlot

/-! ## Outbound cycles -/

/-- A lane at an outbound cycle start: the mark goes out, the staged map comes into force, and slot 0 is next
(R4, R6). -/
def Lane.cycleStart (lane : Lane) (count : Tick) : Lane :=
  { lane with
    inForce := lane.staged
    outSlot := some 0
    lineOut := some (.mark count (markCheck count)) }

/-- The outbound cycle count of the cycle that starts (R4). -/
def nextOutCount (l : Lif) (k : TrackClock) : Tick :=
  if l.started then (if k.state = .unset then l.outCount + 1 else k.cycle) else l.outCount

/-- OUTBOUND_CYCLE_START (R4, R6). -/
def execOutboundCycleStart (s : State) : Outcome State Fault Refusal :=
  let count := nextOutCount s.lif s.cau.clock
  .next { s with
    lif := { s.lif with
      outCount := count
      started := true
      up := s.lif.up.cycleStart count
      down := s.lif.down.cycleStart count } }

/-- The cell that a position's content sends: itself, or IDLE for an empty position or a taken mark (R5). -/
def Position.sent : Position → Cell
  | .empty => idleCell
  | .taken => idleCell
  | .cell c => c

/-- Whether an overwritten position held a cell whose kind is not IDLE (R11). -/
def Position.lost : Position → Bool
  | .empty => false
  | .taken => false
  | .cell c => decide (cellKind c ≠ .idle)

/-- A lane after its slot has been sent: the position is emptied and the next slot is due (R1, R5). -/
def Lane.slotSent (lane : Lane) (slot : Slot) (c : Cell) : Lane :=
  { lane with
    buffer := lane.buffer.set slot .empty
    outSlot := finOf? 40 (slot.val + 1)
    lineOut := some (.cell slot c) }

/-- A lane that lost the content of a slot to a cell of the part (R11). -/
def Lane.overwritten (lane : Lane) (slot : Slot) : Lane :=
  if lane.buffer[slot].lost then
    { lane with counts := upd lane.counts slot (fun k => { k with overwrite := bump k.overwrite }) }
  else lane

/-- Sends what the position holds (R7). -/
def sendPosition (d : Direction) (slot : Slot) (s : State) : State :=
  let lane := s.lif.lane d
  { s with lif := s.lif.setLane d (lane.slotSent slot lane.buffer[slot].sent) }

/-- Sends an IDLE cell whatever the position holds (R7). -/
def sendIdle (d : Direction) (slot : Slot) (s : State) : State :=
  { s with lif := s.lif.setLane d ((s.lif.lane d).slotSent slot idleCell) }

/-- Sends a cell of the part on Control-out in place of the position's content (R11). -/
def sendOwn (slot : Slot) (c : Cell) (s : State) : State :=
  { s with lif := { s.lif with up := (s.lif.up.overwritten slot).slotSent slot c } }

/-- The sending of an upstream INSERT slot: a reply, else a result, else the position's content (R11). -/
def insertSend (slot : Slot) (s : State) : State :=
  match s.mu.replies, s.publisher.resultQueue with
  | r :: rest, _ => sendOwn slot r.toCell { s with mu := { s.mu with replies := rest } }
  | [], r :: rest => sendOwn slot r.toCell { s with publisher := { s.publisher with resultQueue := rest } }
  | [], [] => sendPosition .upstream slot s

/-- The sending of one outbound slot by the action in force (R6, R7, R11). -/
def sendSlot (d : Direction) (slot : Slot) (s : State) : State :=
  match (s.lif.lane d).inForce[slot], d with
  | .block, _ => sendIdle d slot s
  | .insert, .upstream => insertSend slot s
  | .insert, .downstream => sendPosition d slot s
  | .pass, _ | .copy, _ | .take, _ | .inspect, _ => sendPosition d slot s

/-- OUTBOUND_SLOT_SEND (R5 to R7, R11): the next slot of the outbound cycle in progress, slots ascending (R1);
with no slot left to send, nothing is sent. -/
def execOutboundSlotSend (d : Direction) (s : State) : Outcome State Fault Refusal :=
  match (s.lif.lane d).outSlot with
  | some slot => .next (sendSlot d slot s)
  | .none => .next s

end Sys2Proof.Machine
end

