-- ==== Sys2Proof/Machine/Clock.lean ====
section
/-! DEFINITION. The Clock and Alignment Unit (chapter 2): framing reports, the track clock, beacons, conversion
and timeouts; and the meanings of the four cycle-mark commands, BEACON_HANDLING, LOOP_HOLDOVER and
LOOP_UNSYNCED. -/

namespace Sys2Proof.Machine

open Host (Outcome)

/-- Now, in µs (R20). -/
def TrackClock.now (k : TrackClock) : Nat := k.cycle.toNat * 1000

/-- Now, in µs (R20). -/
def State.now (s : State) : Nat := s.cau.clock.now

/-! ## Framing reports (R17 to R19) -/

/-- The clock after adopting a mark's count in place of an expected one, with the step it reports, if any
(R18, R19). -/
def TrackClock.adopt (k : TrackClock) (mark : Tick) : TrackClock × List Int :=
  let expected := k.cycle + 1
  let k' := { k with cycle := mark, state := .locked, missingRun := 0, goodRun := 0 }
  if mark = expected then (k', [])
  else ({ k' with steps := bump k.steps }, [clampInt (-32767) 32767 (mark - expected).toInt])

/-- A good-mark report; with the new clock, the clock step it reports, if any. -/
def TrackClock.goodMark (k : TrackClock) (mark : Tick) : TrackClock × List Int :=
  match k.state with
  | .unset => ({ k with cycle := mark, state := .locked, missingRun := 0, goodRun := 0 }, [])
  | .locked => k.adopt mark
  | .freeRun =>
    if k.goodRun = 0 then ({ k with cycle := k.cycle + 1, goodRun := 1 }, []) else k.adopt mark

/-- A missing-mark report; with the new clock, whether the clock was lost by it. -/
def TrackClock.missingMark (k : TrackClock) : TrackClock × Bool :=
  match k.state with
  | .unset => (k, false)
  | .locked =>
    if k.missingRun < 2 then ({ k with cycle := k.cycle + 1, missingRun := k.missingRun + 1 }, false)
    else
      ({ k with
        cycle := k.cycle + 1, state := .freeRun, losses := bump k.losses, missingRun := 0, goodRun := 0 },
       true)
  | .freeRun => ({ k with cycle := k.cycle + 1, goodRun := 0 }, false)

/-- The clock is replaced; where this changes now, every timeout and silence test becomes owed (R20, R32, R33,
R128; log 7). -/
def State.withClock (s : State) (k : TrackClock) : State :=
  if k.cycle = s.cau.clock.cycle then { s with cau := { s.cau with clock := k } }
  else
    { s with
      cau := { s.cau with
        clock := k
        records := mapAll s.cau.records fun r => { r with testOwed := true } }
      engine := { s.engine with
        records := mapAll s.engine.records fun r => { r with silenceTestOwed := true } } }

/-- Alerts handed by a producer that does not wait (R161). -/
def State.alerts (s : State) (rs : List Result) : State := { s with publisher := s.publisher.alerts rs }

/-- The CAU takes a good-mark report (R17 to R19, R35). -/
def State.reportGood (s : State) (mark : Tick) : State :=
  let (k, steps) := s.cau.clock.goodMark mark
  (s.withClock k).alerts (steps.map fun d => alertResult k.now .clockStep .none (some d) .none)

/-- The CAU takes a missing-mark report (R17 to R19, R35). -/
def State.reportMissing (s : State) : State :=
  let (k, lost) := s.cau.clock.missingMark
  (s.withClock k).alerts (if lost then [alertResult k.now .clockLost .none .none .none] else [])

/-- Sets the framing state of a port (R3). -/
def State.setFraming (s : State) (p : Port) (f : Framing) : State :=
  { s with lif := s.lif.setLane (portDirection p) { s.lif.lane (portDirection p) with framing := f } }

/-- Whether a port is FRAMED, so that a mark is expected on it (R3). -/
def State.framed (s : State) (p : Port) : Bool := decide ((s.lif.lane (portDirection p)).framing = .framed)

/-- CYCLE_MARK_GOOD (R3): the port becomes FRAMED, and a good mark on Control-in is reported with its count. -/
def execCycleMarkGood (p : Port) (count : Tick) (s : State) : Outcome State Fault Refusal :=
  let s' := s.setFraming p .framed
  match p with
  | .trackIn => .next s'
  | .controlIn => .next (s'.reportGood count)

/-- An expected mark has failed: the port returns to SEARCHING, and for Control-in a missing mark is reported
(R3). -/
def markFailed (p : Port) (s : State) : State :=
  let s' := s.setFraming p .searching
  match p with
  | .trackIn => s'
  | .controlIn => s'.reportMissing

/-- CYCLE_MARK_BAD (R3): as a failed mark, and the mark-error count of the port rises. -/
def execCycleMarkBad (p : Port) (s : State) : Outcome State Fault Refusal :=
  if s.framed p then
    let lane := s.lif.lane (portDirection p)
    .next (markFailed p
      { s with lif := s.lif.setLane (portDirection p) { lane with markErrors := bump lane.markErrors } })
  else .next s

/-- CYCLE_MARK_MISSING (R3). -/
def execCycleMarkMissing (p : Port) (s : State) : Outcome State Fault Refusal :=
  if s.framed p then .next (markFailed p s) else .next s

/-- SEARCHING_MARK_PERIOD (R3): a missing mark is reported while Control-in is SEARCHING. -/
def execSearchingMarkPeriod (s : State) : Outcome State Fault Refusal :=
  if s.framed .controlIn then .next s else .next s.reportMissing

/-! ## Conversion (R25) -/

/-- Elapsed ticks from the anchor, read as signed (R25, step 1). -/
def AlignRec.elapsed (r : AlignRec) (tick : Tick) : Int := (tick - r.anchorTick).toInt

/-- The correction for elapsed ticks (R25, step 2). -/
def AlignRec.correction (r : AlignRec) (e : Int) : Int := roundTies (e * r.rate) 16777216

/-- The time that a record gives a tick, not clamped (R25, R28). -/
def AlignRec.predict (r : AlignRec) (tick : Tick) : Int :=
  r.anchorTime + r.elapsed tick + r.correction (r.elapsed tick)

/-- The top of the range of track time (00_scope.md section 7). -/
def maxTime : Int := 4294967295999

/-- Conversion of a tick into track time, with the CLAMPED_TIME mark (R25, step 3). -/
def AlignRec.convert (r : AlignRec) (tick : Tick) : Nat × Bool :=
  let t := r.predict tick
  if t < 0 then (0, true) else if maxTime < t then (maxTime.toNat, true) else (t.toNat, false)

/-- The quality of a conversion; none declines it (R24). -/
def AlignState.quality? : AlignState → Option Quality
  | .unsynced => .none
  | .acquiring => some .coarse
  | .locked => some .good
  | .holdover => some .holdover

/-! ## Beacons (R21, R22, R27 to R31) -/

/-- An alert of an alignment record: a change of state, or a step with its residual (R35). -/
inductive RecordAlert where
  | state (s : AlignState)
  | step (residual : Int)
  deriving DecidableEq, Repr

/-- The ALERT result of a record's alert (R35). -/
def RecordAlert.toResult (now : Nat) (loop : LoopNo) : RecordAlert → Result
  | .state s => alertResult now .loopState (some loop) .none (.loopState s)
  | .step d => alertResult now .loopStep (some loop) (some (clampInt (-32767) 32767 d)) .none

/-- The beacon's cycle: the latest one not after the current cycle whose low 16 bits are c16, or none where it
would be negative (R22). -/
def resolveCycle (now : Tick) (c16 : Nat) : Option Nat :=
  let cycle : Int := now.toNat - ((now.toNat : Int) - c16) % 65536
  if 0 ≤ cycle then some cycle.toNat else .none

/-- The beacon becomes the anchor of a record (R27, R28, R31). -/
def AlignRec.anchor (r : AlignRec) (tick : Tick) (b : Nat) : AlignRec :=
  { r with anchorTick := tick, anchorTime := b, lastBeacon := b, consecutive := 0 }

/-- A beacon beyond the residual tolerance (R28). -/
def AlignRec.beyond (r : AlignRec) (tick : Tick) (b : Nat) (residual : Int) : AlignRec × List RecordAlert :=
  if r.state = .acquiring then (r.anchor tick b, [])
  else
    ({ r.anchor tick b with steps := bump r.steps, state := .locked },
     if r.state = .holdover then [.step residual, .state .locked] else [.step residual])

/-- A close beacon (R29). -/
def AlignRec.closeBeacon (r : AlignRec) (b : Nat) : AlignRec :=
  { r with close := bump r.close, lastBeacon := max r.lastBeacon b }

/-- A refused rate (R30). -/
def AlignRec.rateFault (r : AlignRec) : AlignRec × List RecordAlert :=
  if r.consecutive + 1 < 3 then
    ({ r with rateFaults := bump r.rateFaults, consecutive := r.consecutive + 1 }, [])
  else
    ({ r with rateFaults := bump r.rateFaults, consecutive := 0, state := .unsynced }, [.state .unsynced])

/-- An accepted beacon with the measured rate (R31). -/
def AlignRec.accept (r : AlignRec) (tick : Tick) (b : Nat) (measured : Int) : AlignRec × List RecordAlert :=
  let rate :=
    if r.state = .acquiring then measured
    else clampInt (-16384) 16383 (r.rate + roundTies (measured - r.rate) 4)
  ({ r.anchor tick b with rate := rate, accepted := bump r.accepted, state := .locked },
   if r.state = .locked then [] else [.state .locked])

/-- The measured rate of a beacon (R30). -/
def AlignRec.measure (r : AlignRec) (tick : Tick) (b : Nat) : Int :=
  let e := r.elapsed tick
  roundTies (((b : Int) - r.anchorTime - e) * 16777216) e.toNat

/-- A record handles a beacon tick with its beacon time (R27 to R31). -/
def AlignRec.beacon (r : AlignRec) (tolerance : Nat) (tick : Tick) (b : Nat) :
    AlignRec × List RecordAlert :=
  if r.state = .unsynced then ({ r.anchor tick b with state := .acquiring }, [.state .acquiring])
  else
    let residual := r.predict tick - b
    if (tolerance : Int) < residual.natAbs then r.beyond tick b residual
    else if r.elapsed tick < 100000 then (r.closeBeacon b, [])
    else
      let measured := r.measure tick b
      if measured < -16384 ∨ 16383 < measured then r.rateFault else r.accept tick b measured

/-- The clock after an off-slot beacon, which is dropped and counted; while the clock is UNSET the free value tells
whether it is counted (R21; log 25). -/
def TrackClock.offSlot (k : TrackClock) : TrackClock :=
  if k.state ≠ .unset ∨ Config.unsetCountsOffSlot then { k with offSlotBeacons := bump k.offSlotBeacons } else k

/-- The CAU handles a beacon that arrived in a slot (R21, R22). -/
def State.beacon (s : State) (slot : Slot) (tick : Tick) (c16 : Nat) : State :=
  match finOf? 32 slot.val with
  | .none => { s with cau := { s.cau with clock := s.cau.clock.offSlot } }
  | some loop =>
    if s.cau.clock.state = .unset then s
    else
      match resolveCycle s.cau.clock.cycle c16 with
      | .none =>
        { s with cau := { s.cau with records := upd s.cau.records loop fun r =>
            { r with unresolved := bump r.unresolved } } }
      | some cycle =>
        let (r, alerts) := s.cau.records[loop].beacon s.cau.residualTolerance tick (cycle * 1000)
        State.alerts
          { s with cau := { s.cau with records := s.cau.records.set loop { r with testOwed := false } } }
          (alerts.map (RecordAlert.toResult s.now loop))

/-- BEACON_HANDLING (R21): the oldest delivered beacon; with none, nothing is handled. -/
def execBeaconHandling (s : State) : Outcome State Fault Refusal :=
  match s.lif.toCau with
  | [] => .next s
  | (slot, c) :: rest =>
    .next (State.beacon { s with lif := { s.lif with toCau := rest } } slot (beaconTick c) (beaconC16 c))

/-! ## Timeouts (R32, R33) -/

/-- A record is past the beacon timeout (R32); the timeout in s. -/
def AlignRec.pastTimeout (r : AlignRec) (now timeout : Nat) : Bool :=
  r.testOwed && decide (r.state = .locked) && decide (r.lastBeacon + timeout * 1000000 < now)

/-- A record is past the holdover limit (R33); the limit in s. -/
def AlignRec.pastLimit (r : AlignRec) (now limit : Nat) : Bool :=
  r.testOwed && (decide (r.state = .acquiring) || decide (r.state = .holdover)) &&
    decide (r.lastBeacon + limit * 1000000 < now)

/-- Replaces a record and hands one LOOP_STATE alert with its state (R35). -/
def State.moveLoop (s : State) (loop : LoopNo) (r : AlignRec) : State :=
  State.alerts { s with cau := { s.cau with records := s.cau.records.set loop r } }
    [RecordAlert.toResult s.now loop (.state r.state)]

/-- The timeout test of a LOCKED record (R32). -/
def loopHoldover (loop : LoopNo) (s : State) : State :=
  let r := s.cau.records[loop]
  if r.pastTimeout s.now s.cau.beaconTimeout then s.moveLoop loop { r with state := .holdover } else s

/-- LOOP_HOLDOVER (R32). -/
def execLoopHoldover (loop : Nat) (s : State) : Outcome State Fault Refusal :=
  match finOf? 32 loop with
  | some l => .next (loopHoldover l s)
  | .none => .fault .noSuchLoop

/-- The limit test of an ACQUIRING or HOLDOVER record (R33). -/
def loopUnsynced (loop : LoopNo) (s : State) : State :=
  let r := s.cau.records[loop]
  if r.pastLimit s.now s.cau.holdoverLimit then
    s.moveLoop loop { r with state := .unsynced, consecutive := 0, testOwed := false }
  else s

/-- LOOP_UNSYNCED (R33). -/
def execLoopUnsynced (loop : Nat) (s : State) : Outcome State Fault Refusal :=
  match finOf? 32 loop with
  | some l => .next (loopUnsynced l s)
  | .none => .fault .noSuchLoop

end Sys2Proof.Machine
end

