-- ==== Sys2Proof/Machine/Intake.lean ====
section
/-! DEFINITION. Passing Intake (chapter 3): tests, reduction of hits, conversion, and the Intake Queue; and the
meaning of PASSING_INTAKE. -/

namespace Sys2Proof.Machine

open Host (Outcome)

/-! ## Reduction (R41, R42) -/

/-- The hits that count: the first h of the cell (R38). -/
def PassingCell.valid (p : PassingCell) : List (Nat × Nat) := p.hits.take p.hitCount

/-- The peak strength of a list of hits (R41). -/
def peakStrength (hits : List (Nat × Nat)) : Nat := hits.foldl (fun m h => max m h.2) 0

/-- The offsets and weights of the hits that reach a threshold (R42). -/
def weights (threshold : Nat) (hits : List (Nat × Nat)) : List (Nat × Nat) :=
  (hits.filter fun h => decide (threshold ≤ h.2)).map fun h => (h.1, h.2 - threshold + 1)

/-- The mean offset of weighted offsets, rounded half up (R42). -/
def meanOffset (ws : List (Nat × Nat)) : Nat :=
  roundHalfUp (ws.map fun w => w.1 * w.2).sum (ws.map Prod.snd).sum

/-- The passing tick of a cell under a window (R42). -/
def PassingCell.tick (p : PassingCell) (window : Nat) : Tick :=
  p.base + BitVec.ofNat 32 (meanOffset (weights (peakStrength p.valid - window) p.valid))

/-! ## Tests (R37 to R41, R44) -/

/-- The discard reasons of R37, in the order of its table. -/
inductive Discard where
  | misrouted | malformed | disabled | idleDiscard | unsynced | weak | future | stale
  deriving DecidableEq, Repr

/-- The count of a reason rises (R37). -/
def IntakeCounts.discard (k : IntakeCounts) : Discard → IntakeCounts
  | .misrouted => { k with misrouted := bump k.misrouted }
  | .malformed => { k with malformed := bump k.malformed }
  | .disabled => { k with disabled := bump k.disabled }
  | .idleDiscard => { k with idleDiscard := bump k.idleDiscard }
  | .unsynced => { k with unsynced := bump k.unsynced }
  | .weak => { k with weak := bump k.weak }
  | .future => { k with future := bump k.future }
  | .stale => { k with stale := bump k.stale }

/-- Tests 1 to 6: the first that the cell fails (R37). -/
def State.earlyDiscard (s : State) (loop : LoopNo) (p : PassingCell) : Option Discard :=
  if p.loop ≠ loop.val then some .misrouted
  else if p.hitCount = 0 ∨ 6 < p.hitCount then some .malformed
  else if s.course.loops[loop].enabled = false then some .disabled
  else if s.session.state = .setup ∨ s.session.state = .closed then some .idleDiscard
  else if s.cau.clock.state = .unset ∨ s.cau.records[loop].state = .unsynced then some .unsynced
  else if peakStrength p.valid < s.course.loops[loop].floor then some .weak
  else .none

/-- Tests 7 and 8 (R44). -/
def lateDiscard (now time : Nat) : Option Discard :=
  if now + 1000000 < time then some .future
  else if time + 600000000 < now then some .stale
  else .none

/-- The intake record of a cell that passes tests 1 to 6 (R45), or the test that it fails afterwards. -/
def State.convertPassing (s : State) (loop : LoopNo) (p : PassingCell) : Discard ⊕ IntakeRec :=
  let r := s.cau.records[loop]
  match r.state.quality? with
  | .none => .inl .unsynced
  | some q =>
    let t := r.convert (p.tick s.course.loops[loop].window)
    match lateDiscard s.now t.1 with
    | some d => .inl d
    | .none =>
      .inr { loop := loop, code := p.code, time := t.1, quality := q, clamped := t.2,
             strength := peakStrength p.valid, arrival := s.cau.clock.cycle }

/-- The processing of a cell up to its offer (R37). -/
def State.testPassing (s : State) (loop : LoopNo) (p : PassingCell) : Discard ⊕ IntakeRec :=
  match s.earlyDiscard loop p with
  | some d => .inl d
  | .none => s.convertPassing loop p

/-! ## The Intake Queue (R46, R47) -/

/-- The counts of a record that joins the queue (R37, R43). -/
def IntakeCounts.accept (k : IntakeCounts) (clamped : Bool) : IntakeCounts :=
  { k with accepted := bump k.accepted, clamped := if clamped then bump k.clamped else k.clamped }

/-- An offer to the queue, with the loop of the drop that opened an episode, if any (R46, R47). -/
def Intake.offer (q : Intake) (r : IntakeRec) : Intake × List LoopNo :=
  if q.queue.length < 32 then
    ({ q with queue := q.queue ++ [r], counts := upd q.counts r.loop (fun k => k.accept r.clamped) }, [])
  else
    let q' := { q with counts := upd q.counts r.loop fun k => { k with overflowed := bump k.overflowed } }
    match q.overflow with
    | .overflowing => (q', [])
    | .normal => ({ q' with overflow := .overflowing, episodes := bump q.episodes }, [r.loop])

/-- The wait of a removed record, a negative one taken as 0 (R48). -/
def queueWait (now arrival : Tick) : Nat := (now - arrival).toInt.toNat

/-- The queue after the removal of its head `r`, which leaves `rest` (R46 to R48). -/
def Intake.removed (q : Intake) (now : Tick) (r : IntakeRec) (rest : List IntakeRec) : Intake :=
  { q with
    queue := rest
    overflow := if rest.length ≤ 16 then .normal else q.overflow
    longestWait := max q.longestWait (min (queueWait now r.arrival) 65535) }

/-- Intake processes one cell with the slot it arrived in (R36, R37). -/
def State.intakeCell (s : State) (slot : Slot) (p : PassingCell) : State :=
  match finOf? 32 slot.val with
  | .none => { s with intake := { s.intake with offSlot := bump s.intake.offSlot } }
  | some loop =>
    match s.testPassing loop p with
    | .inl d =>
      { s with intake := { s.intake with counts := upd s.intake.counts loop (fun k => k.discard d) } }
    | .inr r =>
      let q := s.intake.offer r
      State.alerts { s with intake := q.1 }
        (q.2.map fun l => alertResult s.now .intakeOverflow (some l) .none .none)

/-- PASSING_INTAKE (R36): the oldest delivered PASSING cell; with none, nothing is processed. -/
def execPassingIntake (s : State) : Outcome State Fault Refusal :=
  match s.lif.toIntake with
  | [] => .next s
  | (slot, c) :: rest =>
    .next (State.intakeCell { s with lif := { s.lif with toIntake := rest } } slot (readPassing c))

end Sys2Proof.Machine
end

