-- ==== Sys2Proof/Machine/TablePort.lean ====
section
/-! DEFINITION. The Table Memory Port (chapter 10): the access in progress and its completion. -/

namespace Sys2Proof.Machine

/-- Whether the access in progress is this requester's (R174). -/
def Tmp.busyWith (t : Tmp) (q : Requester) : Bool :=
  match t.inProgress with
  | some (r, _) => decide (r = q)
  | .none => false

/-- The access in progress completes: its effect on table memory is made, and the TMP is free (R173, R174;
log 12). -/
def Tmp.complete (t : Tmp) (a : Access) : Tmp := { t with mem := a.effect t.mem, inProgress := .none }

/-- The access in progress completes, with what it means to its requester. -/
def State.completeAccess (s : State) (a : Access) : State := { s with tmp := s.tmp.complete a }

/-- A word of table memory as it stands (R173). -/
def State.word (s : State) (a : WordAddr) : Word := readWord s.tmp.mem a

end Sys2Proof.Machine
end

