-- ==== Sys2Proof/Machine/Resolver.lean ====
section
/-! DEFINITION. The Transponder Resolver (chapter 4): lookup, the walk, the cache and delivery; and the
meanings of RESOLVER_LOOKUP, WALK_READ_COMPLETE, SEEN_UPDATE_COMPLETE, UNKNOWN_DELIVERY and
RESOLVE_FAULT_DELIVERY. -/

namespace Sys2Proof.Machine

open Host (Outcome)

/-! ## The cache (R66 to R70) -/

/-- The entry for a code. -/
def cacheFind (code : Code) (l : List CacheEntry) : Option CacheEntry := l.find? fun e => decide (e.code = code)

/-- The entries but the one for a code, in their order of use. -/
def cacheWithout (code : Code) (l : List CacheEntry) : List CacheEntry :=
  l.filter fun e => decide (e.code ≠ code)

/-- An outcome as the cache holds it: without a word address (R66). -/
def WalkOutcome.cached : WalkOutcome → WalkOutcome
  | .fault f _ => .fault f .none
  | .competitor n w r => .competitor n w r
  | .absent note level => .absent note level

/-- A fill of the cache (R68). -/
def Resolver.fill (r : Resolver) (e : CacheEntry) : Resolver :=
  match cacheFind e.code r.cache with
  | some _ =>
    { r with
      cache := e :: cacheWithout e.code r.cache
      counts := { r.counts with fills := bump r.counts.fills } }
  | .none =>
    if r.cache.length < 32 then
      { r with cache := e :: r.cache, counts := { r.counts with fills := bump r.counts.fills } }
    else
      { r with
        cache := e :: r.cache.dropLast
        counts := { r.counts with
          fills := bump r.counts.fills
          evictions := bump r.counts.evictions } }

/-- Whether a flush removes an entry (R69). -/
def FlushMode.removes (m : FlushMode) (code : Code) (e : CacheEntry) : Bool :=
  match m with
  | .all => true
  | .nonRetained =>
    match e.outcome with
    | .competitor _ _ retain => !retain
    | .absent _ _ | .fault _ _ => true
  | .code => decide (e.code = code)

/-- A flush, with the number of entries removed (R69, R70). -/
def Resolver.flush (r : Resolver) (m : FlushMode) (code : Code) : Resolver × Nat :=
  ({ r with
     cache := r.cache.filter (fun e => !(m.removes code e))
     generation := r.generation + 1
     counts := { r.counts with flushes := bump r.counts.flushes } },
   (r.cache.filter (m.removes code)).length)

/-- A taken ROOT_SET (R51, R70). -/
def Resolver.setRoot (r : Resolver) (i : TableIndex) : Resolver :=
  { r with root := some i, cache := [], generation := r.generation + 1 }

/-! ## The walk (R57 to R60) -/

/-- What follows a word that a walk has read, once its flag update, if any, is made. -/
inductive WalkNext where
  | go (w : Walk)
  | stop (o : WalkOutcome)
  deriving DecidableEq, Repr

/-- A walk goes on to the entry of a table at a level (R57). -/
def Walk.down (w : Walk) (level : Level) (t : TableIndex) (withhold : Bool) : Walk :=
  { w with
    level := level
    addr := entryAddr t (codeIndex level w.record.code)
    withhold := w.withhold || withhold
    phase := .reading }

/-- A COMPETITOR entry ends a walk (R58, R59). -/
def Walk.competitor (w : Walk) (number : Nat) (withhold retain : Bool) : WalkOutcome :=
  match finOf? 96 number with
  | some n => .competitor n (w.withhold || withhold) retain
  | .none => .fault .badCompetitor (some w.addr)

/-- Where a walk goes from the word that it read (R57 to R60). -/
def Walk.after (w : Walk) (read : Word) : WalkNext :=
  match readEntry w.level read with
  | .absent note => .stop (.absent note w.level)
  | .bad => .stop (.fault .badType (some w.addr))
  | .table t _ withhold =>
    match w.level with
    | .root => .go (w.down .branch t withhold)
    | .branch | .leaf | .aliasTarget => .go (w.down .leaf t withhold)
  | .competitor n _ withhold retain => .stop (w.competitor n withhold retain)
  | .aliasTo target _ withhold =>
    match w.level with
    | .aliasTarget => .stop (.fault .aliasChain (some w.addr))
    | .root | .branch | .leaf =>
      .go { w with
        level := .aliasTarget, addr := target, withhold := w.withhold || withhold, phase := .reading }

/-- A walk stops with a fault at the word that it read (R54, R60). -/
def WalkNext.isFault : WalkNext → Bool
  | .stop (.fault _ _) => true
  | .stop (.competitor _ _ _) => false
  | .stop (.absent _ _) => false
  | .go _ => false

/-- Whether the word that a walk read needs a flag update: a clear SEEN, at which the walk does not stop with a
fault (R54, R57 to R59). -/
def Walk.needsUpdate (w : Walk) (read : Word) : Bool :=
  decide ((readEntry w.level read).seen? = some false) && !(w.after read).isFault

/-- The completion of a walk's last access (R68). -/
def Resolver.walkComplete (r : Resolver) (w : Walk) (o : WalkOutcome) : Resolver :=
  let r' :=
    if w.generation = r.generation then r.fill ⟨w.record.code, o.cached⟩
    else { r with counts := { r.counts with suppressed := bump r.counts.suppressed } }
  { r' with serving := .delivering w.record o }

/-- A walk goes on, or completes (R57, R68). -/
def Resolver.proceed (r : Resolver) (w : Walk) : WalkNext → Resolver
  | .go w' => { r with serving := .walking w' }
  | .stop o => r.walkComplete w o

/-- A walk has read the word of its level (R57 to R59). -/
def Resolver.wordRead (r : Resolver) (w : Walk) (read : Word) : Resolver :=
  let r' := { r with counts := { r.counts with reads := bump r.counts.reads } }
  if w.needsUpdate read then { r' with serving := .walking { w with phase := .updating read } }
  else r'.proceed w (w.after read)

/-- A walk has made its flag update; it goes on with the entry as it read it (R54, R61). -/
def Resolver.seenUpdated (r : Resolver) (w : Walk) (read : Word) : Resolver :=
  Resolver.proceed { r with counts := { r.counts with seenUpdates := bump r.counts.seenUpdates } } w
    (w.after read)

/-- The access that the Resolver waits for (R57). -/
def Resolver.access? (r : Resolver) : Option Access :=
  match r.serving with
  | .idle => .none
  | .delivering _ _ => .none
  | .walking w =>
    match w.phase with
    | .reading => some (.read w.addr)
    | .updating _ => some (.flag w.addr w.level true)

/-- WALK_READ_COMPLETE (R57): where the access in progress is a read of the walk. -/
def execWalkReadComplete (s : State) : Outcome State Fault Refusal :=
  match s.tmp.inProgress, s.resolver.serving with
  | some (.resolver, .read a), .walking w =>
    .next { (s.completeAccess (.read a)) with resolver := s.resolver.wordRead w (s.word a) }
  | _, _ => .next s

/-- SEEN_UPDATE_COMPLETE (R54): where the access in progress is a flag update of the walk. -/
def execSeenUpdateComplete (s : State) : Outcome State Fault Refusal :=
  match s.tmp.inProgress, s.resolver.serving with
  | some (.resolver, .flag a level seen), .walking w =>
    match w.phase with
    | .updating read =>
      .next { (s.completeAccess (.flag a level seen)) with resolver := s.resolver.seenUpdated w read }
    | .reading => .next s
  | _, _ => .next s

/-! ## Lookup (R55, R56, R67) -/

/-- The Resolver delivers the outcome of a cache hit; a repeated ABSENT or FAULT ends the serving at once (R64,
R65, R67). -/
def Resolver.hit (r : Resolver) (rec : IntakeRec) (e : CacheEntry) : Resolver :=
  let r' := { r with cache := e :: cacheWithout e.code r.cache }
  let k := { r.counts with hits := bump r.counts.hits }
  match e.outcome with
  | .competitor _ _ _ => { r' with serving := .delivering rec e.outcome, counts := k }
  | .absent _ _ =>
    { r' with serving := .idle, counts := { k with unknownRepeats := bump k.unknownRepeats } }
  | .fault _ _ => { r' with serving := .idle, counts := { k with faultHits := bump k.faultHits } }

/-- A walk as it starts (R56, R57). -/
def walkStart (rec : IntakeRec) (root : TableIndex) (generation : Tick) : Walk where
  record := rec
  root := root
  generation := generation
  level := .root
  addr := entryAddr root (codeIndex .root rec.code)
  withhold := false
  phase := .reading

/-- A miss (R56). -/
def Resolver.miss (r : Resolver) (rec : IntakeRec) : Resolver :=
  match r.root with
  | .none => { r with serving := .delivering rec (.fault .noRoot .none) }
  | some root =>
    { r with
      serving := .walking (walkStart rec root r.generation)
      counts := { r.counts with walks := bump r.counts.walks } }

/-- The Resolver serves a record that it has removed from the queue (R56). -/
def Resolver.serve (r : Resolver) (rec : IntakeRec) : Resolver :=
  let r' := { r with counts := { r.counts with served := bump r.counts.served } }
  match cacheFind rec.code r.cache with
  | some e => r'.hit rec e
  | .none => r'.miss rec

/-- RESOLVER_LOOKUP (R56): where the Resolver is IDLE and the Intake Queue holds a record. -/
def execResolverLookup (s : State) : Outcome State Fault Refusal :=
  match s.resolver.serving, s.intake.queue with
  | .idle, rec :: rest =>
    .next { s with
      intake := s.intake.removed s.cau.clock.cycle rec rest
      resolver := s.resolver.serve rec }
  | _, _ => .next s

/-! ## Delivery (R64, R65) -/

/-- The flags of a result that only a passing's marks set (R159). -/
def passingFlags (clamped withhold : Bool) : Flags := { clampedTime := clamped, withheld := withhold }

/-- The UNKNOWN result of an ABSENT outcome (R64). -/
def unknownResult (rec : IntakeRec) (note : Code) (level : Level) : Result where
  kind := .unknown
  flags := passingFlags rec.clamped false
  quality := some rec.quality
  code := some rec.code
  loop := some rec.loop
  time := rec.time
  extra := .unknown (some note) (some level)

/-- The ALERT RESOLVE_FAULT of a FAULT outcome (R65). Two points are the model's choice: the alert of a passing
with a clamped time leaves CLAMPED_TIME clear (log 26), and `now` is that of the delivery (log 27). -/
def faultResult (now : Nat) (rec : IntakeRec) (f : FaultCode) (addr : Option WordAddr) : Result :=
  { alertResult now .resolveFault (some rec.loop) .none (.fault f addr) with code := some rec.code }

/-- The walk-fault count of a fault code rises (R65, R71). -/
def ResolverCounts.fault (k : ResolverCounts) : FaultCode → ResolverCounts
  | .noRoot => { k with noRoot := bump k.noRoot }
  | .badType => { k with badType := bump k.badType }
  | .badCompetitor => { k with badCompetitor := bump k.badCompetitor }
  | .aliasChain => { k with aliasChain := bump k.aliasChain }

/-- UNKNOWN_DELIVERY (R64): where the Resolver delivers ABSENT and the Publisher takes results (R161). -/
def execUnknownDelivery (s : State) : Outcome State Fault Refusal :=
  match s.resolver.serving with
  | .delivering rec (.absent note level) =>
    if s.publisher.accepting then
      .next { s with
        publisher := s.publisher.take s.now (unknownResult rec note level)
        resolver := { s.resolver with
          serving := .idle
          counts := { s.resolver.counts with unknowns := bump s.resolver.counts.unknowns } } }
    else .next s
  | _ => .next s

/-- RESOLVE_FAULT_DELIVERY (R65): where the Resolver delivers FAULT and the Publisher takes results (R161). The
alert is made here, with now as it stands here, however long the Resolver has waited (the model's choice, log 27). -/
def execResolveFaultDelivery (s : State) : Outcome State Fault Refusal :=
  match s.resolver.serving with
  | .delivering rec (.fault f addr) =>
    if s.publisher.accepting then
      .next { s with
        publisher := s.publisher.take s.now (faultResult s.now rec f addr)
        resolver := { s.resolver with serving := .idle, counts := s.resolver.counts.fault f } }
    else .next s
  | _ => .next s

end Sys2Proof.Machine
end

