-- ==== Sys2Proof/Machine/CourseMap.lean ====
section
/-! DEFINITION. The Course Map (chapter 5): lines and crossings, minimum transits, the loading of the course,
and the validity test. -/

namespace Sys2Proof.Machine

/-! ## What a loop means (R75, R108) -/

/-- The dead-band of a point, in ms: that of its primary loop (R75). -/
def Course.pointDeadBand (k : Course) (q : PointNo) (own : Nat) : Nat :=
  match k.points[q] with
  | some p => k.loops[p.primary].deadBand
  | .none => own

/-- The line of a passing, the dead-band of the line in ms, and the backup flag (R75). -/
structure LineInfo where
  line : Line
  deadBand : Nat
  backup : Bool
  deriving DecidableEq, Repr

/-- The line of a loop (R75). -/
def Course.lineOf (k : Course) (l : LoopNo) : LineInfo :=
  match k.loops[l].role with
  | .primary q => ⟨.point q, k.pointDeadBand q k.loops[l].deadBand, false⟩
  | .backup q => ⟨.point q, k.pointDeadBand q k.loops[l].deadBand, true⟩
  | .pitAlt _ => ⟨.loop l, k.loops[l].deadBand, false⟩
  | .none => ⟨.loop l, k.loops[l].deadBand, false⟩

/-- The course point that a passing at a loop crosses, if any (R108). -/
def LoopRec.crossing (r : LoopRec) : Option PointNo :=
  match r.role with
  | .primary q => some q
  | .backup q => some q
  | .pitAlt q => if r.pitRole = .exit then .none else some q
  | .none => .none

/-- The course point that the PASS result of a noted passing carries (R107). -/
def CourseRole.notedPoint : CourseRole → Option PointNo
  | .primary q => some q
  | .backup q => some q
  | .pitAlt _ => Option.none
  | .none => Option.none

/-- The point index of a role, whichever role it is (R74). -/
def CourseRole.index : CourseRole → Option PointNo
  | .primary q => some q
  | .backup q => some q
  | .pitAlt q => some q
  | .none => Option.none

/-- The minimum transit of a position, in ms (R72, R73). -/
def Course.minTransit (k : Course) (q : Nat) : Nat :=
  match k.points.toList[q]? with
  | some (some p) => p.minTransit
  | some .none => 0
  | .none => 0

/-- The number of skipped points from `p` to `q` on a course of `n` points (R116). -/
def skipped (n : Nat) (p q : PointNo) : Nat := (((q.val : Int) - p.val - 1) % (n : Int)).toNat

/-- The required minimum of a crossing in µs: the sum over the points `p` + 1 to `p` + `s` + 1 (R117). -/
def Course.required (k : Course) (p : PointNo) (s : Nat) : Nat :=
  ((List.range (s + 1)).map fun j => k.minTransit ((p.val + 1 + j) % k.count) * 1000).sum

/-! ## Loading (R77 to R82) -/

/-- The loops that a point names (R77). -/
def CoursePoint.named (p : CoursePoint) : List LoopNo := p.primary :: (p.backup.toList ++ p.pitAlt.toList)

/-- A loop may be named at a point: it holds no role at another point (R77, test 4). -/
def LoopRec.freeFor (r : LoopRec) (q : PointNo) : Bool :=
  match r.role.index with
  | some i => decide (i = q)
  | .none => true

/-- A point passes tests 3 and 4 of R77. -/
def Course.acceptsPoint (k : Course) (q : PointNo) (p : CoursePoint) : Bool :=
  decide p.named.Nodup && p.named.all fun l => k.loops[l].freeFor q

/-- A loop record loses its role at a point (R78, step 1). -/
def LoopRec.freed (q : PointNo) (r : LoopRec) : LoopRec :=
  if r.role.index = some q then { r with role := .none } else r

/-- Gives a loop a role (R78, step 2). -/
def Course.giveRole (k : Course) (role : CourseRole) (l : LoopNo) : Course :=
  { k with loops := upd k.loops l fun r => { r with role := role } }

/-- A taken COURSE_POINT_LOAD (R78). -/
def Course.loadPoint (k : Course) (q : PointNo) (p : CoursePoint) : Course :=
  let k0 := { k with loops := mapAll k.loops (LoopRec.freed q) }
  let k1 := k0.giveRole (.primary q) p.primary
  let k2 := p.backup.toList.foldl (fun k l => k.giveRole (.backup q) l) k1
  let k3 := p.pitAlt.toList.foldl (fun k l => k.giveRole (.pitAlt q) l) k2
  { k3 with points := k.points.set q (some p), count := max k.count (q.val + 1) }

/-- A taken COURSE_CLEAR (R79). -/
def Course.cleared (k : Course) : Course :=
  { k with
    points := Vector.replicate 16 .none
    count := 0
    loops := mapAll k.loops fun r => { r with role := .none } }

/-- The five fields of a LOOP_CONFIG (R80). -/
structure LoopSettings where
  enabled : Bool
  pitRole : PitRole
  window : Nat
  floor : Nat
  deadBand : Nat
  deriving DecidableEq, Repr

/-- A LOOP_CONFIG may be taken: in SETUP, or with the pit role and the dead-band as held (R80, R81). -/
def LoopRec.accepts (r : LoopRec) (setup : Bool) (x : LoopSettings) : Bool :=
  setup || (decide (x.pitRole = r.pitRole) && decide (x.deadBand = r.deadBand))

/-- A taken LOOP_CONFIG (R80). -/
def LoopRec.configured (r : LoopRec) (x : LoopSettings) : LoopRec :=
  { r with
    enabled := x.enabled
    pitRole := x.pitRole
    window := x.window
    floor := x.floor
    deadBand := x.deadBand }

/-! ## The validity test (R84) -/

/-- The findings of the validity test, each with the index it carries (R84). -/
inductive Finding where
  | noFinish
  | pointMissing (i : Nat)
  | trapSelf (i : Nat)
  | valid
  deriving DecidableEq, Repr

/-- The position is unloaded. -/
def Course.unloaded (k : Course) (i : Nat) : Bool :=
  match k.points.toList[i]? with
  | some (some _) => false
  | some .none => true
  | .none => true

/-- The trap entry starts and ends at one loop. -/
def Course.trapSelf (k : Course) (i : Nat) : Bool :=
  match k.traps.toList[i]? with
  | some (some t) => decide (t.startLoop = t.endLoop)
  | some .none => false
  | .none => false

/-- The validity test (R84). -/
def Course.validity (k : Course) : Finding :=
  if k.count = 0 ∨ k.unloaded 0 then .noFinish
  else
    match (List.range k.count).find? k.unloaded with
    | some i => .pointMissing i
    | .none =>
      match (List.range 4).find? k.trapSelf with
      | some i => .trapSelf i
      | .none => .valid

end Sys2Proof.Machine
end

