-- ==== Sys2Proof/Machine/RunningOrder.lean ====
section
/-! DEFINITION. The Running Order (chapter 8, section 8.7): the sort, its operations, positions and gaps, and
the session best. -/

namespace Sys2Proof.Machine

/-- The Competitor Table (R104). -/
abbrev Records := Vector Competitor 96

/-- Competitor `a` sorts ahead of competitor `b` (R151). -/
def sortsAhead (rs : Records) (a b : CompNo) : Bool :=
  decide (rs[b].laps < rs[a].laps) ||
    (decide (rs[a].laps = rs[b].laps) &&
      (decide (rs[a].lastCrossing < rs[b].lastCrossing) ||
        (decide (rs[a].lastCrossing = rs[b].lastCrossing) && decide (a < b))))

/-- Places a competitor by the keys of R151. -/
def placeSorted (rs : Records) (c : CompNo) : List CompNo → List CompNo
  | [] => [c]
  | d :: rest => if sortsAhead rs d c then d :: placeSorted rs c rest else c :: d :: rest

/-- Takes a competitor out of the list (R152). -/
def Order.remove (o : Order) (c : CompNo) : Order := { o with list := o.list.filter fun d => decide (d ≠ c) }

/-- A join or a reinsertion (R152). -/
def Order.place (o : Order) (rs : Records) (c : CompNo) : Order :=
  { o with list := placeSorted rs c (o.remove c).list }

/-- The position of a competitor, 1 for the head (R153). -/
def Order.position (o : Order) (c : CompNo) : Option Nat := (o.list.idxOf? c).map (· + 1)

/-- The competitor immediately ahead of another (R153). -/
def aheadOf (c : CompNo) : List CompNo → Option CompNo
  | [] => .none
  | [_] => .none
  | a :: b :: rest => if b = c then some a else aheadOf c (b :: rest)

/-- The gap to the competitor ahead, with whether it saturated (R153). -/
def gapTo (rs : Records) (c a : CompNo) : Gap × Bool :=
  if rs[c].laps = rs[a].laps then
    let t := toTU (rs[c].lastCrossing - rs[a].lastCrossing)
    (.time t.1, t.2)
  else (.laps (rs[a].laps - rs[c].laps), false)

/-- The position and the gap of a result made after a join or a reinsertion (R153). -/
def Result.placed (r : Result) (o : Order) (rs : Records) (c : CompNo) : Result :=
  match aheadOf c o.list with
  | .none => { r with position := o.position c, gap := .none }
  | some a =>
    let g := gapTo rs c a
    { r with
      position := o.position c
      gap := some g.1
      flags := { r.flags with saturated := r.flags.saturated || g.2 } }

/-- Whether a qualifying lap time sets the session best (R124, R154). -/
def Order.beats (o : Order) (time : Nat) : Bool :=
  match o.best with
  | .none => true
  | some b => decide (time < b.time)

end Sys2Proof.Machine
end

