-- ==== Sys2Proof/Machine/SettlePool.lean ====
section
/-! DEFINITION. The Settle Pool (chapter 6): the taking of a resolved passing, expiry and discards, as
functions of Settle's own state; and the applications that they hand to the Engine. -/

namespace Sys2Proof.Machine

/-- The kinds of application (R99). -/
inductive ApplyKind where
  | settled | forced | poolEmpty
  deriving DecidableEq, Repr

/-- An application handed to the Engine (R99). -/
structure Application where
  kind : ApplyKind
  comp : CompNo
  passing : Pending
  deriving DecidableEq, Repr

/-! ## Lists and the pool (R86, R87) -/

/-- Replaces a settle list; what it holds more or less is taken from or returned to the pool (R86). -/
def Settle.setList (p : Settle) (c : CompNo) (l : List Pending) : Settle :=
  { p with lists := p.lists.set c l, free := p.free + p.lists[c].length - l.length }

/-- The order of a settle list: by T, then by taking order (R87). -/
def Pending.upTo (a b : Pending) : Bool :=
  decide (a.time < b.time) || (decide (a.time = b.time) && decide (a.order ≤ b.order))

/-- Places a pending passing in a settle list (R87, R97). -/
def placePending (p : Pending) : List Pending → List Pending
  | [] => [p]
  | e :: rest => if e.upTo p then e :: placePending p rest else p :: e :: rest

/-- The number of entries that the settle lists hold (R102). -/
def Settle.heldCount (p : Settle) : Nat := 256 - p.free

/-- The high-water mark takes the present number of entries held (R102). -/
def Settle.marked (p : Settle) : Settle := { p with highWater := max p.highWater p.heldCount }

/-- A pending passing is due (R98); the interval in ms. -/
def Pending.due (now interval : Nat) (p : Pending) : Bool := decide (p.time + interval * 1000 ≤ now)

/-- A passing lowered to UNSETTLED (R88, R95, R96). -/
def Pending.unsettled (p : Pending) : Pending := { p with quality := p.quality.worse .unsettled }

/-! ## Merging (R93, R94) -/

/-- An entry matches a passing under the dead-band of their line, in ms (R93). -/
def Pending.matches (deadBand : Nat) (p e : Pending) : Bool :=
  decide (e.line = p.line) && decide (((p.time : Int) - e.time).natAbs ≤ deadBand * 1000)

/-- Whether `p` survives a merge with the pending entry `e` (R93). -/
def Pending.survives (p e : Pending) : Bool :=
  if p.backup ≠ e.backup then !p.backup
  else if p.strength ≠ e.strength then decide (e.strength < p.strength)
  else decide (p.time < e.time)

/-- The survivor of two, with the WITHHOLD of either (R93). -/
def Pending.mergeWith (p e : Pending) : Pending :=
  if p.survives e then { p with withhold := p.withhold || e.withhold }
  else { e with withhold := p.withhold || e.withhold }

/-- A merge in which the survivor without the backup flag removes one with it (R93). -/
def Pending.overrules (p e : Pending) : Bool := decide (p.backup ≠ e.backup)

/-- The counts of one merge (R93). -/
def SettleCounts.merged (k : SettleCounts) (p e : Pending) : SettleCounts :=
  { k with
    merges := bump k.merges
    backupOverruled := if p.overrules e then bump k.backupOverruled else k.backupOverruled }

/-- Merges the survivor `p` with the remaining entries until none matches, at most `fuel` times (R94). -/
def mergeChain (deadBand : Nat) : Nat → Pending → List Pending → SettleCounts → List Pending × SettleCounts
  | 0, p, rest, k => (placePending p rest, k)
  | fuel + 1, p, rest, k =>
    match rest.find? (p.matches deadBand) with
    | .none => (placePending p rest, k)
    | some e => mergeChain deadBand fuel (p.mergeWith e) (rest.erase e) (k.merged p e)

/-! ## Expiry (R98) -/

/-- The expiry of every due head of one list, in list order (R98). -/
def Settle.expire (p : Settle) (c : CompNo) (now : Nat) : Settle × List Application :=
  let due := p.lists[c].takeWhile (Pending.due now p.interval)
  let q := p.setList c (p.lists[c].dropWhile (Pending.due now p.interval))
  ({ q with counts := { q.counts with expiries := bumpBy q.counts.expiries due.length } },
   due.map fun e => ⟨.settled, c, e⟩)

/-- The expiry of one due head (R98). -/
def Settle.expireHead (p : Settle) (c : CompNo) (rest : List Pending) : Settle :=
  let q := p.setList c rest
  { q with counts := { q.counts with expiries := bump q.counts.expiries } }

/-! ## Tests 3 to 6 of R90 -/

/-- A merge with the list, and the expiry test after it (R93, R94). -/
def Settle.merge (s : Settle) (c : CompNo) (deadBand now : Nat) (p : Pending) : Settle × List Application :=
  let m := mergeChain deadBand 7 p s.lists[c] s.counts
  Settle.expire { s.setList c m.1 with counts := m.2 } c now

/-- A forced application by a full list with head `h` (R95). -/
def Settle.force (s : Settle) (c : CompNo) (p h : Pending) (rest : List Pending) :
    Settle × List Application :=
  let k := { s.counts with forcedFull := bump s.counts.forcedFull }
  if h.time ≤ p.time then
    ({ s.setList c (placePending p rest) with counts := k }, [⟨.forced, c, h.unsettled⟩])
  else ({ s with counts := k }, [⟨.forced, c, p.unsettled⟩])

/-- Applications for an empty pool (R96). -/
def Settle.bypass (s : Settle) (c : CompNo) (p : Pending) : Settle × List Application :=
  let first := s.lists[c].takeWhile fun e => decide (e.time ≤ p.time)
  let q := s.setList c (s.lists[c].dropWhile fun e => decide (e.time ≤ p.time))
  ({ q with counts := { q.counts with poolEmpty := bumpBy q.counts.poolEmpty (first.length + 1) } },
   (first ++ [p]).map fun e => ⟨.poolEmpty, c, e.unsettled⟩)

/-- An insertion, and the expiry test after it (R97). That an entry counts toward the high-water mark even where that
test applies it at once is the model's (log 31). -/
def Settle.insert (s : Settle) (c : CompNo) (now : Nat) (p : Pending) : Settle × List Application :=
  let q := Settle.marked (s.setList c (placePending p s.lists[c]))
  Settle.expire { q with counts := { q.counts with insertions := bump q.counts.insertions } } c now

/-- Tests 4 to 6 of R90: a passing that matches no entry. -/
def Settle.enroll (s : Settle) (c : CompNo) (now : Nat) (p : Pending) : Settle × List Application :=
  match s.lists[c] with
  | h :: rest =>
    if 6 ≤ (h :: rest).length then s.force c p h rest
    else if s.free = 0 then s.bypass c p
    else s.insert c now p
  | [] => if s.free = 0 then s.bypass c p else s.insert c now p

/-- Tests 3 to 6 of R90: a passing that is neither late nor a duplicate. -/
def Settle.keep (s : Settle) (c : CompNo) (deadBand now : Nat) (p : Pending) : Settle × List Application :=
  if s.lists[c].any (p.matches deadBand) then s.merge c deadBand now p else s.enroll c now p

/-! ## The taking of a resolved passing (R89 to R92) -/

/-- A resolved passing (R63). -/
structure Resolved where
  comp : CompNo
  record : IntakeRec
  withhold : Bool
  deriving DecidableEq, Repr

/-- The passing as Settle would keep it, its quality lowered to BACKUP at a backup loop (R86, R88). -/
def Resolved.pending (r : Resolved) (l : LineInfo) (order : Nat) : Pending where
  code := r.record.code
  loop := r.record.loop
  line := l.line
  backup := l.backup
  time := r.record.time
  quality := if l.backup then r.record.quality.worse .backup else r.record.quality
  clamped := r.record.clamped
  strength := r.record.strength
  withhold := r.withhold
  order := order

/-- The fields that UNKNOWN and LATE take from the passing (R90, R91). -/
def Pending.report (p : Pending) (kind : ResultKind) (c : CompNo) (raceNumber : Nat) (withhold : Bool) :
    Result where
  kind := kind
  flags := passingFlags p.clamped withhold
  quality := some p.quality
  competitor := some (c, raceNumber)
  code := some p.code
  loop := some p.loop
  time := p.time

/-- The UNKNOWN result of a passing for an INACTIVE competitor (R90). -/
def inactiveResult (c : CompNo) (raceNumber : Nat) (p : Pending) : Result :=
  let r := p.report .unknown c raceNumber false
  { r with flags := { r.flags with inactive := true }, extra := .unknown .none .none }

/-- The LATE result of a passing (R91). -/
def lateResult (c : CompNo) (raceNumber : Nat) (p : Pending) (lastTime : Nat) : Result :=
  let r := p.report .late c raceNumber p.withhold
  let lag := toTU (lastTime - p.time)
  { r with flags := { r.flags with saturated := lag.2 }, value := some (lag.1 : Int) }

/-- What a taking decides: Settle's state, the result that it hands over, and the applications (R89). -/
structure Taking where
  settle : Settle
  results : List Result := []
  apply : List Application := []
  deriving DecidableEq, Repr

/-- Test 2 of R90: a duplicate of the crossing already applied (R92). -/
def AppliedMark.duplicate (m : AppliedMark) (deadBand : Nat) (p : Pending) : Bool :=
  decide (m.line = p.line) && decide (p.time - m.time ≤ deadBand * 1000)

/-- Tests 3 to 6, as a taking. -/
def Settle.taken (s : Settle) (c : CompNo) (deadBand now : Nat) (p : Pending) : Taking :=
  let k := Settle.keep { s with nextOrder := s.nextOrder + 1 } c deadBand now p
  { settle := k.1, apply := k.2 }

/-- Tests 1 to 6 of R90. -/
def Settle.test (s : Settle) (rec : Competitor) (c : CompNo) (deadBand now : Nat) (p : Pending) : Taking :=
  match rec.lastApplied with
  | .none => s.taken c deadBand now p
  | some m =>
    if p.time < m.time then
      { settle := { s with counts := { s.counts with late := bump s.counts.late } }
        results := [lateResult c rec.raceNumber p m.time] }
    else if m.duplicate deadBand p then
      { settle := { s with counts := { s.counts with duplicates := bump s.counts.duplicates } } }
    else s.taken c deadBand now p

/-- The taking of a resolved passing (R89, R90). -/
def Settle.take (s : Settle) (session : SessionState) (rec : Competitor) (info : LineInfo) (now : Nat)
    (r : Resolved) : Taking :=
  let p := r.pending info s.nextOrder
  if session = .setup ∨ session = .closed then
    { settle := { s with counts := { s.counts with sessionDiscards := bump s.counts.sessionDiscards } } }
  else if rec.state = .inactive then
    { settle := { s with counts := { s.counts with inactive := bump s.counts.inactive } }
      results := [inactiveResult r.comp rec.raceNumber p] }
  else s.test rec r.comp info.deadBand now p

/-! ## Discards (R100, R101) -/

/-- The list of one competitor is discarded by RETIRE or ROSTER_REMOVE (R100). -/
def Settle.discardList (s : Settle) (c : CompNo) : Settle :=
  let q := s.setList c []
  { q with counts := { q.counts with
      retireDiscards := bumpBy q.counts.retireDiscards s.lists[c].length } }

/-- The number of entries in all lists. -/
def Settle.total (s : Settle) : Nat := (s.lists.toList.map List.length).sum

/-- Every entry is set free (R86, R101). -/
def Settle.emptied (s : Settle) : Settle := { s with lists := Vector.replicate 96 [], free := 256 }

/-- The lists are discarded by CLOSE (R101). -/
def Settle.closed (s : Settle) : Settle :=
  { s.emptied with counts := { s.counts with closeDiscards := bumpBy s.counts.closeDiscards s.total } }

end Sys2Proof.Machine
end

