-- ==== Sys2Proof/Machine/Engine.lean ====
section
/-! DEFINITION. The Competitor Engine (chapter 7): the application of a passing, step by step, and its results;
and the answer of Session at a lap completion (chapter 8, R144, R145). -/

namespace Sys2Proof.Machine

/-! ## The work of one application -/

/-- What an application reads and does not change (R106). -/
structure Ctx where
  comp : CompNo
  passing : Pending
  loop : LoopRec
  course : Course
  session : SessionState
  neutral : Bool
  /-- The Competitor Table; its record of `comp` is the one before the application. -/
  records : Records

/-- What an application changes (R106): the competitor's record and more; `results` stands in the order of
making. -/
structure Work where
  car : Competitor
  order : Order
  chequer : Chequer
  counts : EngineCounts
  results : List Result := []
  deriving DecidableEq, Repr

/-- Adds a result. -/
def Work.emit (w : Work) (r : Result) : Work := { w with results := w.results ++ [r] }

/-- A result of the application with the fields that every one carries (R106). -/
def Ctx.result (x : Ctx) (w : Work) (kind : ResultKind) : Result where
  kind := kind
  flags := passingFlags x.passing.clamped x.passing.withhold
  quality := some x.passing.quality
  competitor := some (x.comp, w.car.raceNumber)
  loop := some x.passing.loop
  time := x.passing.time

/-- The competitor's present pit condition (R111). -/
def Competitor.inPit (r : Competitor) : Bool := decide (r.state = .inPit)

/-- The elapsed time in TU, with SATURATED (R127). -/
def elapsedTU (now since : Nat) : Nat × Bool := toTU (now - since)

/-! ## Pit visits (R109 to R111) -/

/-- A PIT_IN or PIT_OUT of the application (R109). Its SATURATED is that of the pit lane time (R127); that a pit count
which stays at 255 does not set it is the model's choice (log 33). -/
def Ctx.pitResult (x : Ctx) (w : Work) (kind : ResultKind) (entryMissed exitMissed : Bool)
    (lane : Option (Nat × Bool)) : Result :=
  let r := x.result w kind
  { r with
    flags := { r.flags with
      entryMissed := entryMissed
      exitMissed := exitMissed
      saturated := (lane.map Prod.snd).getD false }
    value := lane.map fun t => (t.1 : Int)
    extra := .pit w.car.pitCount }

/-- A pit result is produced, and the pit-moves count rises (R109). -/
def Work.pitMove (w : Work) (r : Result) : Work :=
  Work.emit { w with counts := { w.counts with pitMoves := bump w.counts.pitMoves } } r

/-- A record that has entered the pit (R109, R110). -/
def Competitor.pitIn (r : Competitor) (time : Nat) : Competitor :=
  { r with
    state := .inPit
    pitCount := bump8 r.pitCount
    pitEntry := some time
    lapPit := true
    sectorPit := true }

/-- A record that has left the pit (R109, R110). -/
def Competitor.pitOut (r : Competitor) : Competitor :=
  { r with state := .onTrack, pitEntry := .none, lapPit := true, sectorPit := true }

/-- A record whose visit is counted at the exit (R109). -/
def Competitor.pitSeen (r : Competitor) : Competitor :=
  { r with pitCount := bump8 r.pitCount, lapPit := true, sectorPit := true }

/-- The pit step; none where it makes no pit move (R109). -/
def Ctx.pitStep (x : Ctx) (w : Work) : Option Work :=
  match x.loop.pitRole, w.car.state with
  | .entry, .onTrack =>
    let w' := { w with car := w.car.pitIn x.passing.time }
    some (w'.pitMove (x.pitResult w' .pitIn false false .none))
  | .entry, .inPit =>
    let w1 := { w with car := w.car.pitIn x.passing.time }
    let w2 := w1.pitMove (x.pitResult w1 .pitOut false true .none)
    some (w2.pitMove (x.pitResult w2 .pitIn false false .none))
  | .exit, .inPit =>
    let w' := { w with car := w.car.pitOut }
    some (w'.pitMove
      (x.pitResult w' .pitOut false false (w.car.pitEntry.map fun e => elapsedTU x.passing.time e)))
  | .exit, .onTrack =>
    let w' := { w with car := w.car.pitSeen }
    some (w'.pitMove (x.pitResult w' .pitOut true false .none))
  | _, _ => .none

/-- The inferred pit step (R110). -/
def Ctx.inferPit (x : Ctx) (w : Work) : Work :=
  match x.loop.role, w.car.state with
  | .pitAlt _, .onTrack =>
    let w' := { w with car := w.car.pitIn x.passing.time }
    w'.pitMove (x.pitResult w' .pitIn true false .none)
  | .primary _, .inPit =>
    let w' := { w with car := w.car.pitOut }
    w'.pitMove (x.pitResult w' .pitOut false true .none)
  | .backup _, .inPit =>
    let w' := { w with car := w.car.pitOut }
    w'.pitMove (x.pitResult w' .pitOut false true .none)
  | _, _ => w

/-- The pit step and the inferred pit step (R109, R110). -/
def Ctx.pitSteps (x : Ctx) (w : Work) : Work :=
  match x.pitStep w with
  | some w' => w'
  | .none => x.inferPit w

/-! ## Speed traps (R112, R113) -/

/-- A speed in tenths of km/h as reported, with SATURATED; distance in mm, `delta` in µs (R113). -/
def trapSpeed (distance delta : Nat) : Nat × Bool :=
  let v := roundHalfUp (36000 * distance) delta
  if v ≤ 9999 then (v, false) else (9999, true)

/-- A TRAP result (R113). -/
def Ctx.trapResult (x : Ctx) (w : Work) (i : Fin 4) (t : Trap) (start : TrapStart) : Result :=
  let r := x.result w .trap
  let v := trapSpeed t.distance (x.passing.time - start.time)
  { r with
    flags := { r.flags with saturated := v.2 }
    quality := some (start.quality.worse x.passing.quality)
    point := some i.val
    value := some (v.1 : Int) }

/-- The end of a trap (R112). -/
def Ctx.trapEnd (x : Ctx) (i : Fin 4) (t : Trap) (w : Work) : Work :=
  match w.car.trapStarts[i] with
  | .none => w
  | some start =>
    let delta := x.passing.time - start.time
    let w' := { w with car := { w.car with trapStarts := w.car.trapStarts.set i .none } }
    if 1 ≤ delta ∧ delta ≤ 2000000 then w'.emit (x.trapResult w i t start)
    else { w' with counts := { w'.counts with trapRejected := bump w'.counts.trapRejected } }

/-- The start of a trap (R112). -/
def Ctx.trapBegin (x : Ctx) (i : Fin 4) (w : Work) : Work :=
  { w with car := { w.car with
      trapStarts := w.car.trapStarts.set i (some ⟨x.passing.time, x.passing.quality⟩) } }

/-- One trap entry, its end before its start (R112). -/
def Ctx.trapEntry (x : Ctx) (w : Work) (i : Fin 4) : Work :=
  match x.course.traps[i] with
  | .none => w
  | some t =>
    let w' := if t.endLoop = x.passing.loop then x.trapEnd i t w else w
    if t.startLoop = x.passing.loop then x.trapBegin i w' else w'

/-- The trap step, entries 0 to 3 (R112). -/
def Ctx.trapStep (x : Ctx) (w : Work) : Work := (allFin 4).foldl x.trapEntry w

/-! ## Entry and the first crossing (R114, R115) -/

/-- A record that enters at a time with a quality (R114). -/
def Competitor.enter (r : Competitor) (time : Nat) (q : Quality) (neutral : Bool) : Competitor :=
  { r with
    entered := true
    laps := 0
    lastPoint := some ⟨0, time, q⟩
    lapWorst := q
    lapStart := some time
    lastCrossing := time
    lapNeutral := neutral
    sectorNeutral := neutral
    lapPit := r.inPit
    sectorPit := r.inPit }

/-- An entry (R114). -/
def Ctx.enter (x : Ctx) (w : Work) : Work :=
  let rec' := w.car.enter x.passing.time x.passing.quality x.neutral
  let records := x.records.set x.comp rec'
  let order := w.order.place records x.comp
  let r := x.result w .pass
  Work.emit
    { w with car := rec', order := order, counts := { w.counts with entries := bump w.counts.entries } }
    (Result.placed { r with flags := { r.flags with entered := true }, point := some 0 } order records x.comp)

/-- The first crossing of a point after a reinstatement (R115). -/
def Ctx.resume (x : Ctx) (w : Work) (q : PointNo) : Work :=
  { w with car := { w.car with
      lastPoint := some ⟨q, x.passing.time, x.passing.quality⟩
      lapWorst := x.passing.quality
      sectorNeutral := x.neutral
      sectorPit := w.car.inPit
      lapStart := if q = 0 then some x.passing.time else .none } }

/-! ## Sectors (R116 to R120) -/

/-- The positions `p` to `p` + `s` of a sector table, taken mod `n`, become absent (R119). -/
def clearSectors (n : Nat) (p : PointNo) (s : Nat) (v : Vector (Option SectorTime) 16) :
    Vector (Option SectorTime) 16 :=
  (List.range (s + 1)).foldl
    (fun v j => match finOf? 16 ((p.val + j) % n) with | some i => v.set i .none | .none => v) v

/-- Whether a sector time sets the best sector held (R120). -/
def beatsTime (held : Option Nat) (time : Nat) : Bool :=
  match held with
  | .none => true
  | some b => decide (time < b)

/-- A SECTOR result without its bests (R118, R119). -/
def Ctx.sectorResult (x : Ctx) (w : Work) (lp : LastPoint) (s : Nat) : Result :=
  let r := x.result w .sector
  let t := elapsedTU x.passing.time lp.time
  { r with
    flags := { r.flags with
      saturated := t.2
      merged := decide (s ≠ 0)
      neutral := w.car.sectorNeutral
      pit := w.car.sectorPit }
    quality := some (lp.quality.worse x.passing.quality)
    point := some lp.point.val
    span := some (s + 1)
    value := some (t.1 : Int) }

/-- A SECTOR result sets the best sector (R120). -/
def Ctx.bestSector (x : Ctx) (w : Work) (lp : LastPoint) (s : Nat) : Bool :=
  decide (s = 0) && !w.car.sectorNeutral && !w.car.sectorPit && !(elapsedTU x.passing.time lp.time).2 &&
    beatsTime w.car.bestSectors[lp.point] (x.passing.time - lp.time)

/-- The sector table after a SECTOR result (R118, R119). -/
def Ctx.sectorTable (x : Ctx) (w : Work) (lp : LastPoint) (s : Nat) : Vector (Option SectorTime) 16 :=
  if s = 0 then
    w.car.sectors.set lp.point
      (some ⟨x.passing.time - lp.time, lp.quality.worse x.passing.quality, w.car.sectorNeutral,
        w.car.sectorPit⟩)
  else clearSectors x.course.count lp.point s w.car.sectors

/-- A sector is closed (R118 to R120). -/
def Ctx.closeSector (x : Ctx) (w : Work) (lp : LastPoint) (s : Nat) : Work :=
  let best := x.bestSector w lp s
  let r := x.sectorResult w lp s
  Work.emit
    { w with
      car := { w.car with
        sectors := x.sectorTable w lp s
        lapWorst := w.car.lapWorst.worse x.passing.quality
        bestSectors :=
          if best then w.car.bestSectors.set lp.point (some (x.passing.time - lp.time))
          else w.car.bestSectors
        sectorNeutral := x.neutral
        sectorPit := w.car.inPit }
      counts :=
        if s = 0 then w.counts else { w.counts with mergedSectors := bump w.counts.mergedSectors } }
    { r with flags := { r.flags with personalBest := best } }

/-! ## Laps (R121 to R125, R144, R145) -/

/-- Session's answer at a lap completion, with the chequer state after it (R144, R145). -/
def Chequer.answer (k : Chequer) (head : Option CompNo) (c : CompNo) : Bool × Chequer :=
  match k with
  | .none => (false, .none)
  | .pending => if head = some c then (true, .taken) else (false, .pending)
  | .taken => (true, .taken)

/-- The time of a completed lap in µs: absent where its start is unknown or the line was missed (R121, R122). -/
def Ctx.lapTime (x : Ctx) (w : Work) (inferred : Bool) : Option Nat :=
  if inferred then .none else w.car.lapStart.map fun t => x.passing.time - t

/-- The laps completed, the times and the state of a record at a lap completion, steps 1 and 4 of R121, steps 1,
4 and 5 of R122, and step 1 of R123. -/
def Ctx.lapRecord (x : Ctx) (w : Work) (inferred finish : Bool) : Competitor :=
  { w.car with
    laps := bump w.car.laps
    lapStart := if inferred then .none else some x.passing.time
    lastCrossing := x.passing.time
    state := if finish then .finished else w.car.state }

/-- A lap time qualifies for the bests (R124). -/
def Competitor.qualifies (r : Competitor) (time : Nat) : Bool :=
  !r.lapNeutral && !r.lapPit && !(toTU time).2

/-- The bests of a lap: personal and session (R124). -/
def Ctx.lapBests (x : Ctx) (w : Work) (inferred : Bool) : Option (Nat × Bool × Bool) :=
  match x.lapTime w inferred with
  | .none => .none
  | some t =>
    if w.car.qualifies t then some (t, beatsTime (w.car.bestLap.map BestLap.time) t, w.order.beats t)
    else .none

/-- The fields that start a new lap (R125). -/
def Competitor.newLap (r : Competitor) (q : Quality) (neutral : Bool) : Competitor :=
  { r with
    sectors := Vector.replicate 16 .none
    lapNeutral := neutral
    sectorNeutral := neutral
    lapPit := r.inPit
    sectorPit := r.inPit
    lapWorst := q }

/-- The LAP result without its place (R123). -/
def Ctx.lapResult (x : Ctx) (w : Work) (inferred finish : Bool) (lap : Nat) : Result :=
  let r := x.result w .lap
  let time := x.lapTime w inferred
  let bests := x.lapBests w inferred
  { r with
    flags := { r.flags with
      saturated := (time.map fun t => (toTU t).2).getD false || decide (w.car.laps = 65535)
      pitLap := w.car.lapPit
      neutral := w.car.lapNeutral
      lineMissed := time.isNone
      personalBest := (bests.map fun b => b.2.1).getD false
      sessionBest := (bests.map fun b => b.2.2).getD false
      finish := finish }
    quality := some (w.car.lapWorst.worse x.passing.quality)
    lapNumber := some lap
    value := time.map fun t => ((toTU t).1 : Int) }

/-- The record's best lap after a lap (R124). -/
def Competitor.withBest (r : Competitor) (lap : Nat) (bests : Option (Nat × Bool × Bool)) : Competitor :=
  match bests with
  | some (t, true, _) => { r with bestLap := some ⟨t, lap⟩ }
  | some (_, false, _) => r
  | .none => r

/-- The session best after a lap (R124, R154). -/
def Order.withBest (o : Order) (c : CompNo) (lap : Nat) (bests : Option (Nat × Bool × Bool)) : Order :=
  match bests with
  | some (t, _, true) => { o with best := some ⟨t, c, lap⟩ }
  | some (_, _, false) => o
  | .none => o

/-- A lap completion, by a crossing of point 0 or inferred (R121 to R125). -/
def Ctx.completeLap (x : Ctx) (w : Work) (inferred : Bool) : Work :=
  let answer := w.chequer.answer w.order.list.head? x.comp
  let rec' := x.lapRecord w inferred answer.1
  let records := x.records.set x.comp rec'
  let bests := x.lapBests w inferred
  let order := (w.order.place records x.comp).withBest x.comp rec'.laps bests
  Work.emit
    { w with
      car := (rec'.withBest rec'.laps bests).newLap x.passing.quality x.neutral
      order := order
      chequer := answer.2
      counts :=
        if inferred then { w.counts with inferredLaps := bump w.counts.inferredLaps } else w.counts }
    ((x.lapResult w inferred answer.1 rec'.laps).placed order records x.comp)

/-! ## The course step (R114 to R122) -/

/-- A crossing of `q` after `s` skipped points passes the finish unseen (R116). -/
def passesFinish (p q : PointNo) (s : Nat) : Bool := decide (s ≠ 0) && decide (q ≠ 0) && decide (q ≤ p)

/-- A crossing of `q` by an entered competitor with a last point (R116 to R122). -/
def Ctx.measured (x : Ctx) (w : Work) (q : PointNo) (lp : LastPoint) : Work :=
  let s := skipped x.course.count lp.point q
  let w' := x.closeSector w lp s
  if q = 0 then x.completeLap w' false
  else if passesFinish lp.point q s then x.completeLap w' true
  else w'

/-- The course step of a crossing of `q` (R114, R115). -/
def Ctx.courseStep (x : Ctx) (w : Work) (q : PointNo) : Work :=
  if w.car.entered then
    match w.car.lastPoint with
    | .none => x.resume w q
    | some lp => x.measured w q lp
  else if q = 0 ∧ w.chequer ≠ .taken then x.enter w
  else w

/-! ## The final step (R126), noted passings (R107) and implausible ones (R117) -/

/-- A PASS result with a point (R107, R117, R126). -/
def Ctx.pass (x : Ctx) (w : Work) (q : Option PointNo) : Result :=
  { x.result w .pass with point := q.map Fin.val }

/-- The record of a passing recorded as applied (R107, R126). -/
def Competitor.applied (r : Competitor) (p : Pending) : Competitor :=
  { r with lastApplied := some ⟨p.time, p.line⟩, silenceAlerted := false, silenceTestOwed := false }

/-- The last point after a crossing by an entered competitor (R126). -/
def Ctx.lastPointAfter (x : Ctx) (w : Work) (crossing : Option PointNo) : Option LastPoint :=
  match crossing with
  | some q => if w.car.entered then some ⟨q, x.passing.time, x.passing.quality⟩ else w.car.lastPoint
  | .none => w.car.lastPoint

/-- The final step (R126). -/
def Ctx.finalStep (x : Ctx) (w : Work) (crossing : Option PointNo) : Work :=
  let w' := if w.results.isEmpty then w.emit (x.pass w crossing) else w
  { w' with
    car := Competitor.applied { w'.car with lastPoint := x.lastPointAfter w crossing } x.passing
    counts := { w'.counts with appliedInFull := bump w'.counts.appliedInFull } }

/-- The elapsed time of a crossing is below the required minimum (R117). -/
def Ctx.tooFast (x : Ctx) (q : PointNo) (lp : LastPoint) : Bool :=
  decide ((x.passing.time : Int) - lp.time <
    x.course.required lp.point (skipped x.course.count lp.point q))

/-- The implausibility test: a crossing by an entered competitor with a last point (R108, R117). -/
def Ctx.implausible (x : Ctx) (w : Work) (crossing : Option PointNo) : Bool :=
  match crossing, w.car.lastPoint with
  | some q, some lp => w.car.entered && x.tooFast q lp
  | _, _ => false

/-- A passing applied in full (R108). -/
def Ctx.applyFull (x : Ctx) (w : Work) : Work :=
  let crossing := x.loop.crossing
  if x.implausible w crossing then
    let r := x.pass w crossing
    Work.emit { w with counts := { w.counts with implausible := bump w.counts.implausible } }
      { r with flags := { r.flags with implausible := true } }
  else
    let w' := x.trapStep (x.pitSteps w)
    x.finalStep (match crossing with | some q => x.courseStep w' q | .none => w') crossing

/-- A passing that is only noted (R107). -/
def Ctx.note (x : Ctx) (w : Work) : Work :=
  let r := x.pass w x.loop.role.notedPoint
  Work.emit
    { w with
      car := w.car.applied x.passing
      counts := { w.counts with passOnly := bump w.counts.passOnly } }
    { r with flags := { r.flags with
        afterFinish := decide (x.session ≠ .standby) && decide (w.car.state = .finished)
        retired := decide (w.car.state = .retired) } }

/-- A passing is applied in full, and not only noted (R107). -/
def appliesInFull (session : SessionState) (c : CompState) : Bool :=
  (decide (session = .live) || decide (session = .chequered)) &&
    (decide (c = .onTrack) || decide (c = .inPit))

/-- The application of a passing (R106, R107). -/
def Ctx.apply (x : Ctx) (w : Work) : Work :=
  if appliesInFull x.session w.car.state then x.applyFull w else x.note w

/-- The count of an application's kind rises (R106). -/
def EngineCounts.received (k : EngineCounts) : ApplyKind → EngineCounts
  | .settled => { k with settled := bump k.settled }
  | .forced => { k with forced := bump k.forced }
  | .poolEmpty => { k with poolEmpty := bump k.poolEmpty }

/-- What an application reads of the part's state. -/
def State.ctx (s : State) (a : Application) : Ctx where
  comp := a.comp
  passing := a.passing
  loop := s.course.loops[a.passing.loop]
  course := s.course
  session := s.session.state
  neutral := s.session.neutral
  records := s.engine.records

/-- What an application begins with. -/
def State.work (s : State) (a : Application) : Work where
  car := s.engine.records[a.comp]
  order := s.order
  chequer := s.session.chequer
  counts := s.engine.counts.received a.kind

/-- The state after the work of an application: its results are handed to the Publisher together (R106). -/
def State.finishWork (s : State) (c : CompNo) (w : Work) : State :=
  { s with
    engine := { s.engine with records := s.engine.records.set c w.car, counts := w.counts }
    order := w.order
    session := { s.session with chequer := w.chequer }
    publisher := s.publisher.takeAll s.now w.results }

/-- The Engine applies a handed passing whole (R106). -/
def State.apply (s : State) (a : Application) : State :=
  s.finishWork a.comp ((s.ctx a).apply (s.work a))

/-- Applications one after another, in the order in which they are handed over (R99). -/
def State.applyAll (s : State) (as : List Application) : State := as.foldl State.apply s

end Sys2Proof.Machine
end

