-- ==== Sys2Proof/Machine/Settling.lean ====
section
/-! DEFINITION. The meanings of SETTLE_TAKING and SETTLE_EXPIRY (chapter 6) and of SILENT (chapter 7). -/

namespace Sys2Proof.Machine

open Host (Outcome)

/-! ## Taking (R89) -/

/-- Settle takes the Resolver's resolved passing whole: its results and applications are part of it, and the
Resolver becomes IDLE (R63, R89). -/
def State.settleTake (s : State) (r : Resolved) : State :=
  let t := s.settle.take s.session.state s.engine.records[r.comp] (s.course.lineOf r.record.loop) s.now r
  State.applyAll
    { s with
      settle := t.settle
      publisher := s.publisher.takeAll s.now t.results
      resolver := { s.resolver with
        serving := .idle
        counts := { s.resolver.counts with competitors := bump s.resolver.counts.competitors } } }
    t.apply

/-- SETTLE_TAKING (R89): where the Resolver delivers COMPETITOR and the Engine accepts passings. -/
def execSettleTaking (s : State) : Outcome State Fault Refusal :=
  match s.resolver.serving with
  | .delivering rec (.competitor n withhold _) =>
    if s.publisher.accepting then .next (s.settleTake ⟨n, rec, withhold⟩) else .next s
  | _ => .next s

/-! ## Expiry (R98) -/

/-- The due head of a settle list, with the rest of the list (R98). -/
def State.dueHead (s : State) (c : CompNo) : Option (Pending × List Pending) :=
  match s.settle.lists[c] with
  | [] => .none
  | h :: rest => if h.due s.now s.settle.interval then some (h, rest) else .none

/-- A due head is removed and applied as SETTLED (R98). -/
def State.expireHead (s : State) (c : CompNo) (h : Pending) (rest : List Pending) : State :=
  State.apply { s with settle := s.settle.expireHead c rest } ⟨.settled, c, h⟩

/-- The expiry of one list's head, where it is due and the Engine accepts passings (R89, R98). -/
def settleExpiry (c : CompNo) (s : State) : State :=
  match s.dueHead c with
  | some (h, rest) => if s.publisher.accepting then s.expireHead c h rest else s
  | .none => s

/-- SETTLE_EXPIRY (R98). -/
def execSettleExpiry (c : Nat) (s : State) : Outcome State Fault Refusal :=
  match finOf? 96 c with
  | some k => .next (settleExpiry k s)
  | .none => .fault .noSuchCompetitor

/-- The due heads of one list are applied until the head is not due, the list is empty or the Engine does not
accept passings; at most `fuel` of them (R89, R98). -/
def State.expireList (s : State) (c : CompNo) : Nat → State
  | 0 => s
  | fuel + 1 =>
    match s.dueHead c with
    | .none => s
    | some (h, rest) =>
      if s.publisher.accepting then (s.expireHead c h rest).expireList c fuel else s

/-- The competitors whose head is due (R98). -/
def State.dueLists (s : State) : List CompNo := (allFin 96).filter fun c => (s.dueHead c).isSome

/-- The test of every list after a PARAM_WRITE of the settle interval; the lists with a due head go in a free
order (R98; log 8). -/
def State.expireAll (s : State) : State :=
  (freeOrder s.freeCounter s.dueLists).foldl (fun s c => s.expireList c s.settle.lists[c].length)
    { s with freeCounter := s.freeCounter + 1 }

/-! ## Silence (R128) -/

/-- A competitor is silent and has raised no alert for it (R128); the limit in s. -/
def Competitor.silentFrom (r : Competitor) (now limit : Nat) : Option Nat :=
  match r.lastApplied with
  | .none => .none
  | some m =>
    if (r.state = .onTrack ∨ r.state = .inPit) ∧ limit ≠ 0 ∧ r.silenceAlerted = false ∧
        m.time + limit * 1000000 < now then some m.time
    else .none

/-- The ALERT SILENT of a competitor (R128). -/
def silentResult (now : Nat) (c : CompNo) (raceNumber since : Nat) : Result :=
  let t := elapsedTU now since
  { alertResult now .silent .none (some (t.1 : Int)) .none with
    competitor := some (c, raceNumber)
    flags := { saturated := t.2 } }

/-- The silence test of one competitor (R128). -/
def State.silenceTest (s : State) (c : CompNo) : State :=
  let r := s.engine.records[c]
  match r.silentFrom s.now s.engine.silenceLimit with
  | .none => s
  | some since =>
    State.alerts
      { s with engine := { s.engine with
          records := s.engine.records.set c { r with silenceAlerted := true, silenceTestOwed := false }
          counts := { s.engine.counts with silences := bump s.engine.counts.silences } } }
      [silentResult s.now c r.raceNumber since]

/-- The silence test that the last change of now owes a competitor (R128; log 7). -/
def silent (c : CompNo) (s : State) : State :=
  if s.engine.records[c].silenceTestOwed then s.silenceTest c else s

/-- SILENT (R128). -/
def execSilent (c : Nat) (s : State) : Outcome State Fault Refusal :=
  match finOf? 96 c with
  | some k => .next (silent k s)
  | .none => .fault .noSuchCompetitor

/-- The competitors that are silent (R128). -/
def State.silentCars (s : State) : List CompNo :=
  (allFin 96).filter fun c => (s.engine.records[c].silentFrom s.now s.engine.silenceLimit).isSome

/-- The test of every competitor after a PARAM_WRITE of the silence limit; those that are silent go in a free
order (R128; log 8). Every test owed is made by it. -/
def State.silenceTestAll (s : State) : State :=
  let s' := (freeOrder s.freeCounter s.silentCars).foldl State.silenceTest
    { s with freeCounter := s.freeCounter + 1 }
  { s' with engine := { s'.engine with
      records := mapAll s'.engine.records fun r => { r with silenceTestOwed := false } } }

end Sys2Proof.Machine
end

