-- ==== Sys2Proof/Machine/SessionControl.lean ====
section
/-! DEFINITION. What the taken session requests (chapter 8) and the taken roster and race-control requests
(chapter 7, section 7.10) do to the part. -/

namespace Sys2Proof.Machine

/-! ## Session requests (R137 to R149) -/

/-- A SESSION result (R149). -/
def sessionResult (now : Nat) (change : SessionChange) (after : SessionState) (mode : Option StartMode) :
    Result :=
  { kind := .session, time := now, extra := .session change after mode }

/-- Session hands a SESSION result with the state as it then stands (R149). -/
def State.sessionChange (s : State) (change : SessionChange) (mode : Option StartMode) : State :=
  { s with publisher := s.publisher.take s.now (sessionResult s.now change s.session.state mode) }

/-- A taken OPEN (R137). -/
def State.opened (s : State) : State :=
  State.sessionChange { s with session := { s.session with state := .standby } } .opened .none

/-- GREEN moves this competitor (R138). -/
def Competitor.waits (r : Competitor) : Bool := decide (r.state = .standby)

/-- A record at GREEN (R138 to R140). -/
def Competitor.atGreen (mode : StartMode) (now : Nat) (neutral : Bool) (r : Competitor) : Competitor :=
  if r.waits then
    let r' := { r with state := .onTrack, silenceTestOwed := false }
    match mode with
    | .flying => r'
    | .grid => r'.enter now .good neutral
  else r

/-- The competitors that GREEN moves, ascending (R138). -/
def State.waiting (s : State) : List CompNo := (allFin 96).filter fun c => s.engine.records[c].waits

/-- The Running Order at GREEN (R139, R140). -/
def Order.atGreen (o : Order) (mode : StartMode) (rs : Records) (moved : List CompNo) : Order :=
  match mode with
  | .flying => o
  | .grid => moved.foldl (fun o c => o.place rs c) o

/-- A taken GREEN (R138). A GRID start leaves the Engine's entries count as it stands (the model's choice,
log 28). -/
def State.greened (s : State) (mode : StartMode) : State :=
  let rs := mapAll s.engine.records (Competitor.atGreen mode s.now s.session.neutral)
  State.sessionChange
    { s with
      engine := { s.engine with records := rs }
      order := s.order.atGreen mode rs s.waiting
      session := { s.session with state := .live, mode := some mode, greenTime := some s.now } }
    .green (some mode)

/-- A record at NEUTRAL_ON (R141). -/
def Competitor.atNeutral (r : Competitor) : Competitor :=
  if r.entered then { r with lapNeutral := true, sectorNeutral := true } else r

/-- A taken NEUTRAL_ON (R141). -/
def State.neutralOn (s : State) : State :=
  let s' := { s with
    session := { s.session with neutral := true }
    engine := { s.engine with records := mapAll s.engine.records Competitor.atNeutral } }
  if s.session.neutral then s' else s'.sessionChange .neutralOn .none

/-- A taken NEUTRAL_OFF (R142). -/
def State.neutralOff (s : State) : State :=
  let s' := { s with session := { s.session with neutral := false } }
  if s.session.neutral then s'.sessionChange .neutralOff .none else s'

/-- A taken CHEQUER (R143). -/
def State.chequered (s : State) : State :=
  State.sessionChange { s with session := { s.session with state := .chequered, chequer := .pending } }
    .chequer .none

/-- A taken CLOSE (R147). -/
def State.closed (s : State) : State :=
  State.sessionChange
    { s with session := { s.session with state := .closed }, settle := s.settle.closed } .close .none

/-- A record at a session CLEAR (R105, R148). -/
def Competitor.cleared (r : Competitor) : Competitor where
  state := if r.state = .inactive then .inactive else .standby
  raceNumber := r.raceNumber
  class_ := r.class_

/-- A taken CLEAR (R148). -/
def State.cleared (s : State) : State :=
  State.sessionChange
    { s with
      engine := { s.engine with records := mapAll s.engine.records Competitor.cleared }
      order := {}
      publisher := s.publisher.clearHold
      settle := s.settle.emptied
      session := {} }
    .clear .none

/-! ## Roster and race control (R129 to R134) -/

/-- A STATE result (R134). -/
def stateResult (now : Nat) (c : CompNo) (raceNumber : Nat) (change : StateChange)
    (newState : Option CompState) (delta : Option Int) : Result :=
  { kind := .state
    competitor := some (c, raceNumber)
    time := now
    extra := .state change newState delta }

/-- Replaces a record and hands the STATE result of its change of state (R134). -/
def State.changeRecord (s : State) (c : CompNo) (r : Competitor) (change : StateChange) : State :=
  { s with
    engine := { s.engine with records := s.engine.records.set c r }
    publisher := s.publisher.take s.now (stateResult s.now c r.raceNumber change (some r.state) .none) }

/-- The state of a competitor that joins the roster (R129). -/
def SessionState.joinState : SessionState → CompState
  | .setup => .standby
  | .standby => .standby
  | .closed => .standby
  | .live => .onTrack
  | .chequered => .onTrack

/-- A taken ROSTER_WRITE (R129). -/
def State.rosterWrite (s : State) (c : CompNo) (raceNumber class_ : Nat) : State :=
  let r := { s.engine.records[c] with raceNumber := raceNumber, class_ := class_ }
  if r.state = .inactive then s.changeRecord c { r with state := s.session.state.joinState } .roster
  else { s with engine := { s.engine with records := s.engine.records.set c r } }

/-- A taken ROSTER_REMOVE (R130). -/
def State.rosterRemove (s : State) (c : CompNo) : State :=
  State.changeRecord
    { s with
      settle := s.settle.discardList c
      order := if s.engine.records[c].entered then s.order.remove c else s.order }
    c {} .remove

/-- A taken RETIRE (R131). -/
def State.retire (s : State) (c : CompNo) : State :=
  State.changeRecord { s with settle := s.settle.discardList c } c
    { s.engine.records[c] with
      state := .retired
      trapStarts := Vector.replicate 4 .none
      pitEntry := .none
      silenceAlerted := false }
    .retire

/-- The state of a reinstated competitor (R132). -/
def SessionState.reinstateState : SessionState → CompState
  | .setup => .standby
  | .standby => .standby
  | .live => .onTrack
  | .chequered => .onTrack
  | .closed => .onTrack

/-- A taken REINSTATE (R132). -/
def State.reinstate (s : State) (c : CompNo) : State :=
  s.changeRecord c
    { s.engine.records[c] with
      state := s.session.state.reinstateState
      lastPoint := .none
      silenceAlerted := false
      silenceTestOwed := false }
    .reinstate

/-- The delta of a LAP_ADJUST, clamped (R133). -/
def clampDelta (delta : Int) : Int := clampInt (-10) 10 delta

/-- The laps completed after a LAP_ADJUST (R133). -/
def adjustedLaps (laps : Nat) (delta : Int) : Nat := (clampInt 0 65535 (laps + clampDelta delta)).toNat

/-- The delta or the count was clamped by a LAP_ADJUST (R133). -/
def adjustClamps (laps : Nat) (delta : Int) : Bool :=
  decide (clampDelta delta ≠ delta) || decide ((adjustedLaps laps delta : Int) ≠ laps + clampDelta delta)

/-- The STATE result of a LAP_ADJUST (R134). -/
def adjustResult (now : Nat) (c : CompNo) (r : Competitor) (old : Nat) (o : Order) (rs : Records) : Result :=
  Result.placed
    { stateResult now c r.raceNumber .adjust .none (some ((r.laps : Int) - old)) with
      lapNumber := some r.laps }
    o rs c

/-- A taken LAP_ADJUST (R133). -/
def State.lapAdjust (s : State) (c : CompNo) (delta : Int) : State :=
  let old := s.engine.records[c]
  let r := { old with laps := adjustedLaps old.laps delta }
  let rs := s.engine.records.set c r
  let o := s.order.place rs c
  { s with
    engine := { s.engine with records := rs }
    order := o
    publisher := s.publisher.take s.now (adjustResult s.now c r old.laps o rs) }

end Sys2Proof.Machine
end

