-- ==== Sys2Proof/Machine/SweepEngine.lean ====
section
/-! DEFINITION. The Sweep Engine (chapter 10, sections 10.5): the traversal, the report, and the meanings of
SWEEP_READ_COMPLETE, SWEEP_FLAG_UPDATE_COMPLETE and ALIAS_TARGET_READ_COMPLETE; and the effects of the taken
sweep requests. -/

namespace Sys2Proof.Machine

open Host (Outcome)

/-! ## Position (R181, R182) -/

/-- The level that a position has reached. -/
def SweepPos.level (p : SweepPos) : Level :=
  match p.leaf, p.branch with
  | some _, _ => .leaf
  | .none, some _ => .branch
  | .none, .none => .root

/-- The word address of the entry at a position (R50). -/
def SweepPos.addr (p : SweepPos) (root : TableIndex) : WordAddr :=
  match p.leaf, p.branch with
  | some (t, i), _ => entryAddr t i
  | .none, some (t, i) => entryAddr t i
  | .none, .none => entryAddr root p.root

/-- The next access at a position (R181). -/
def SweepPos.access (p : SweepPos) (root : TableIndex) : Access :=
  match p.next with
  | .entry => .read (p.addr root)
  | .flagUpdate _ => .flag (p.addr root) p.level false
  | .target a => .read a

/-- The next root entry; none after root entry 255 (R182, R188). -/
def SweepPos.nextRoot (p : SweepPos) : Option SweepPos :=
  if p.root = 255 then .none else some { root := p.root + 1 }

/-- The next entry of the branch table, or of the level above it (R182). -/
def SweepPos.nextBranch (p : SweepPos) : Option SweepPos :=
  match p.branch with
  | .none => p.nextRoot
  | some (t, i) => if i = 255 then p.nextRoot else some { root := p.root, branch := some (t, i + 1) }

/-- The next entry of the leaf table, or of a level above it (R182). -/
def SweepPos.nextEntry (p : SweepPos) : Option SweepPos :=
  match p.leaf with
  | .none => p.nextBranch
  | some (t, i) =>
    if i = 255 then p.nextBranch
    else some { root := p.root, branch := p.branch, leaf := some (t, i + 1) }

/-- The position after an entry that names the table `into`, or none (R182). -/
def SweepPos.after (p : SweepPos) (into : Option TableIndex) : Option SweepPos :=
  match into, p.level with
  | some t, .root => some { root := p.root, branch := some (t, 0) }
  | some t, .branch => some { root := p.root, branch := p.branch, leaf := some (t, 0) }
  | _, _ => p.nextEntry

/-- What a sweep does after an access: another access at the same position, or it moves on, into a table or not
(R182, R184). -/
inductive SweepMove where
  | stay (next : SweepNext)
  | move (into : Option TableIndex)
  deriving DecidableEq, Repr

/-- The table that an entry names (R182). -/
def Entry.into : Entry → Option TableIndex
  | .table t _ _ => some t
  | .absent _ => .none
  | .competitor _ _ _ _ => .none
  | .aliasTo _ _ _ => .none
  | .bad => .none

/-- What a sweep does after an entry that it has read (R182, R184). -/
def Entry.sweepMove (e : Entry) (mode : SweepMode) : SweepMove :=
  match mode with
  | .clearSeen => if e.seen? = some true then .stay (.flagUpdate e.into) else .move e.into
  | .audit =>
    match e with
    | .aliasTo target _ _ => .stay (.target target)
    | .absent _ => .move .none
    | .table t _ _ => .move (some t)
    | .competitor _ _ _ _ => .move .none
    | .bad => .move .none

/-! ## Report (R183, R184) -/

/-- A fault is found at an address (R183). -/
def SweepReport.fault (r : SweepReport) (a : WordAddr) : SweepReport :=
  { r with
    faults := bump r.faults
    faultAddrs := if r.faultAddrs.length < 8 then r.faultAddrs ++ [a] else r.faultAddrs }

/-- The AUDIT count of a competitor rises (R184). -/
def SweepReport.resolves (r : SweepReport) (c : CompNo) : SweepReport :=
  { r with audit := upd r.audit c bump8 }

/-- The effect of an entry read on the report (R182 to R184). -/
def SweepReport.entryRead (r : SweepReport) (mode : SweepMode) (a : WordAddr) (e : Entry) : SweepReport :=
  let r' := { r with visited := bump r.visited }
  match e with
  | .absent _ => { r' with absents := bump r'.absents }
  | .table _ _ _ => { r' with tables := bump r'.tables }
  | .aliasTo _ _ _ => { r' with aliases := bump r'.aliases }
  | .bad => r'.fault a
  | .competitor n _ _ _ =>
    match finOf? 96 n with
    | .none => r'.fault a
    | some c =>
      let r'' := { r' with competitors := bump r'.competitors }
      match mode with
      | .audit => r''.resolves c
      | .clearSeen => r''

/-- The effect of an alias target read on the report (R184). -/
def SweepReport.targetRead (r : SweepReport) (a : WordAddr) (e : Entry) : SweepReport :=
  match e with
  | .absent _ => { r with aliasAbsent := bump r.aliasAbsent }
  | .competitor n _ _ _ =>
    match finOf? 96 n with
    | some c => r.resolves c
    | .none => r.fault a
  | .aliasTo _ _ _ => r.fault a
  | .bad => r.fault a
  | .table _ _ _ => r.fault a

/-- The effect of a flag update on the report (R182, R183). -/
def SweepReport.flagUpdated (r : SweepReport) (level : Level) (w : Word) : SweepReport :=
  if (seenUpdate level false w).isSome then { r with seenCleared := bump r.seenCleared } else r

/-- The effect of a sweep's access at `a`, on the word `w` as the access found it (R182 to R184). -/
def SweepContext.report (k : SweepContext) (a : WordAddr) (w : Word) (r : SweepReport) : SweepReport :=
  match k.next with
  | .entry => r.entryRead k.mode a (readEntry k.level w)
  | .flagUpdate _ => r.flagUpdated k.level w
  | .target _ => r.targetRead a (readEntry .aliasTarget w)

/-- What a sweep does after an access that found the word `w` (R182, R184). -/
def SweepContext.move (k : SweepContext) (w : Word) : SweepMove :=
  match k.next with
  | .entry => (readEntry k.level w).sweepMove k.mode
  | .flagUpdate into => .move into
  | .target _ => .move .none

/-! ## Accesses (R181, R186, R187) -/

/-- The mode, level and next access of the sweep as it stands. -/
def Sweep.context (x : Sweep) : SweepContext where
  mode := x.mode.getD .clearSeen
  level := x.pos.level
  next := x.pos.next

/-- The access that a RUNNING sweep asks for (R181). -/
def Sweep.access? (x : Sweep) : Option Access :=
  match x.state with
  | .running => some (x.pos.access x.root)
  | .suspended => .none
  | .idle => .none

/-- A sweep outside IDLE moves on after an access; none where it was the last (R182, R188). -/
def Sweep.moved (x : Sweep) (w : Word) : Option SweepPos :=
  match x.context.move w with
  | .stay n => some { x.pos with next := n }
  | .move into => x.pos.after into

/-- The sweep after an access of its own at `a` that found the word `w`, with whether it is complete (R186 to
R188). -/
def Sweep.accessDone (x : Sweep) (a : WordAddr) (w : Word) : Sweep × Bool :=
  let x' := { x with report := x.context.report a w x.report }
  match x.state with
  | .idle => (x', false)
  | .running | .suspended =>
    match x.moved w with
    | some p => ({ x' with pos := p }, false)
    | .none => ({ x' with state := .idle, report := { x'.report with complete := true } }, true)

/-- The stopped sweep's access has completed after the next SWEEP_START (log 13). -/
def Sweep.staleDone (x : Sweep) (k : SweepContext) (a : WordAddr) (w : Word) : Sweep :=
  { x with
    stale := .none
    report := if Config.staleSweepCounts then k.report a w x.report else x.report }

/-- The ALERT SWEEP_DONE (R188). That it carries no SATURATED where its value, the fault count, stands at 65,535 is the
model's choice (log 34). -/
def sweepDoneResult (now : Nat) (x : Sweep) : Result :=
  alertResult now .sweepDone .none (some (x.report.faults : Int)) (.sweepMode x.context.mode)

/-- The word address of an access. -/
def Access.addr : Access → WordAddr
  | .read a => a
  | .write a _ => a
  | .flag a _ _ => a

/-- What the sweep's access in progress is: an entry read, a flag update or an alias target read. -/
def Sweep.inProgress (x : Sweep) : SweepNext :=
  match x.stale with
  | some k => k.next
  | .none => x.pos.next

/-- An access of the sweep completes (R182, R186 to R188). -/
def State.sweepAccessDone (s : State) (acc : Access) : State :=
  let w := s.word acc.addr
  let s' := s.completeAccess acc
  match s.sweep.stale with
  | some k => { s' with sweep := s.sweep.staleDone k acc.addr w }
  | .none =>
    let d := s.sweep.accessDone acc.addr w
    State.alerts { s' with sweep := d.1 } (if d.2 then [sweepDoneResult s.now d.1] else [])

/-- SWEEP_READ_COMPLETE (R182): where the access in progress is the sweep's read of an entry. -/
def execSweepReadComplete (s : State) : Outcome State Fault Refusal :=
  match s.tmp.inProgress, s.sweep.inProgress with
  | some (.sweep, acc), .entry => .next (s.sweepAccessDone acc)
  | _, _ => .next s

/-- SWEEP_FLAG_UPDATE_COMPLETE (R182): where the access in progress is the sweep's flag update. -/
def execSweepFlagUpdateComplete (s : State) : Outcome State Fault Refusal :=
  match s.tmp.inProgress, s.sweep.inProgress with
  | some (.sweep, acc), .flagUpdate _ => .next (s.sweepAccessDone acc)
  | _, _ => .next s

/-- ALIAS_TARGET_READ_COMPLETE (R184): where the access in progress is the sweep's read of an alias target. -/
def execAliasTargetReadComplete (s : State) : Outcome State Fault Refusal :=
  match s.tmp.inProgress, s.sweep.inProgress with
  | some (.sweep, acc), .target _ => .next (s.sweepAccessDone acc)
  | _, _ => .next s

/-! ## Requests (R181, R186, R187) -/

/-- A taken SWEEP_START on the root `root` (R181); `busy` tells that an access of a stopped sweep is still in
progress (log 13). -/
def Sweep.start (x : Sweep) (mode : SweepMode) (root : TableIndex) (busy : Bool) : Sweep where
  state := .running
  mode := some mode
  root := root
  stale := if busy then some (x.stale.getD x.context) else .none

end Sys2Proof.Machine
end

