-- ==== Sys2Proof/Machine/Arbiter.lean ====
section
/-! DEFINITION. The arbiter of the Table Memory Port (R174) and the meanings of ARBITER_GRANT,
LOG_WORD_WRITE_COMPLETE, TABLE_READ_WORD_COMPLETE and TABLE_WRITE_WORD_COMPLETE. -/

namespace Sys2Proof.Machine

open Host (Outcome)

/-! ## Waiting accesses (R174; log 11) -/

/-- The access that the MU asks for (R177, R178). -/
def Mu.access? (m : Mu) : Option Access :=
  match m.table with
  | .none => .none
  | some (.read _ _ a _ _) => some (.read a)
  | some (.write _ _ a (w :: _)) => some (.write a w)
  | some (.write _ _ _ []) => .none

/-- The access that a requester asks for. -/
def State.asked (s : State) : Requester → Option Access
  | .resolver => s.resolver.access?
  | .logWriter => s.publisher.access?
  | .management => s.mu.access?
  | .sweep => s.sweep.access?

/-- The access that a requester has to ask for: its next one, only when the one before it has completed
(R174). -/
def State.waitingAccess (s : State) (q : Requester) : Option Access :=
  if s.tmp.busyWith q then .none else s.asked q

/-- The place of a requester in the order of R174. -/
def Requester.place : Requester → Nat
  | .resolver => 0 | .logWriter => 1 | .management => 2 | .sweep => 3

/-- The order of the requesters at a grant (R174). -/
def grantOrder (occupancy : Nat) : List Requester :=
  if occupancy < 12 then [.resolver, .logWriter, .management, .sweep]
  else [.logWriter, .resolver, .management, .sweep]

/-- Whether a requester has asked by the time of a grant: at once, but for an access that follows one of its own,
where it is the free choice of log 11. -/
def State.hasAsked (s : State) (q : Requester) : Bool :=
  decide (q ∉ s.tmp.following) || Config.asksByGrant s.freeCounter q.place

/-- The requesters with an access to ask for, in the order of the grant (R174). -/
def State.askers (s : State) : List Requester :=
  (grantOrder s.publisher.buffer.length).filter fun q => (s.waitingAccess q).isSome

/-- The requesters whose access waits at a grant, in its order (R174): those that have asked. A grant is made only
where an access waits, so that where the free choices leave none, all have asked (log 11). -/
def State.waiters (s : State) : List Requester :=
  if (s.askers.filter s.hasAsked).isEmpty then s.askers else s.askers.filter s.hasAsked

/-- The access that the arbiter grants next (R61, R174). -/
def State.nextGrant (s : State) : Option (Requester × Access) :=
  s.waiters.findSome? fun q => (s.waitingAccess q).map fun a => (q, a)

/-- The requesters whose next access follows an own one after a grant to `q`: `q`, and those before that still have
not asked (log 11). -/
def State.followingAfter (s : State) (q : Requester) : List Requester :=
  (grantOrder 0).filter fun r =>
    decide (r = q) || decide (r ∈ s.tmp.following ∧ r ∈ s.askers ∧ r ∉ s.waiters)

/-- The grant count of a requester rises (R188). -/
def Tmp.countGrant (t : Tmp) : Requester → Tmp
  | .resolver => { t with grantsResolver := bump t.grantsResolver }
  | .logWriter => { t with grantsLog := bump t.grantsLog }
  | .management => { t with grantsManagement := bump t.grantsManagement }
  | .sweep => { t with grantsSweep := bump t.grantsSweep }

/-- An access is granted, and is in progress from then on (R174). -/
def Tmp.grant (t : Tmp) (q : Requester) (a : Access) : Tmp := { t.countGrant q with inProgress := some (q, a) }

/-- An access is granted, with the free choices of the grant made (R174, log 11). -/
def State.grant (s : State) (q : Requester) (a : Access) : State :=
  { s with
    tmp := { s.tmp.grant q a with following := s.followingAfter q }
    freeCounter := s.freeCounter + 1 }

/-- ARBITER_GRANT (R61, R174): where no access is in progress and one waits. -/
def execArbiterGrant (s : State) : Outcome State Fault Refusal :=
  match s.tmp.inProgress, s.nextGrant with
  | .none, some (q, a) => .next (s.grant q a)
  | _, _ => .next s

/-! ## The log writer (R168) -/

/-- LOG_WORD_WRITE_COMPLETE (R168): where the access in progress is the log writer's. -/
def execLogWordWriteComplete (s : State) : Outcome State Fault Refusal :=
  match s.tmp.inProgress with
  | some (.logWriter, a) => .next { s.completeAccess a with publisher := s.publisher.wordWritten }
  | _ => .next s

/-! ## Replies (R192) and the table requests (R177, R178) -/

/-- The count of a status rises as its reply is placed (R193). -/
def MuCounts.status (k : MuCounts) : Status → MuCounts
  | .ok => { k with ok := bump k.ok }
  | .clamped => { k with clamped := bump k.clamped }
  | .busy => { k with busy := bump k.busy }
  | .state => { k with state := bump k.state }
  | .range => { k with range := bump k.range }
  | .protected_ => { k with protected_ := bump k.protected_ }
  | .format => { k with format := bump k.format }
  | .notSupported => { k with notSupported := bump k.notSupported }

/-- A reply is placed at the tail of the Reply Queue (R192). -/
def State.reply (s : State) (tag code : Byte) (status : Status) (data : List Byte) : State :=
  { s with mu := { s.mu with
      replies := s.mu.replies ++ [⟨s.lif.address, tag, code, status, data⟩]
      counts := s.mu.counts.status status } }

/-- The words of a reply (R177, R204). -/
def wordBytes (ws : List Word) : List Byte := (ws.map fun w => natBytes 4 w.toNat).flatten

/-- A word of a TABLE_READ has been read; the last one places the reply (R177). -/
def State.wordRead (s : State) (tag code : Byte) (addr : WordAddr) (left : Nat) (got : List Word) : State :=
  if left ≤ 1 then State.reply { s with mu := { s.mu with table := .none } } tag code .ok (wordBytes got)
  else { s with mu := { s.mu with table := some (.read tag code (addr + 1) (left - 1) got) } }

/-- TABLE_READ_WORD_COMPLETE (R177): where the access in progress is a read of the MU. -/
def execTableReadWordComplete (s : State) : Outcome State Fault Refusal :=
  match s.tmp.inProgress, s.mu.table with
  | some (.management, .read a), some (.read tag code addr left got) =>
    .next ((s.completeAccess (.read a)).wordRead tag code addr left (got ++ [s.word a]))
  | _, _ => .next s

/-- A word of a TABLE_WRITE has been written; the last one places the reply (R178). -/
def State.wordWritten (s : State) (tag code : Byte) (addr : WordAddr) (left : List Word) : State :=
  match left with
  | [] => State.reply { s with mu := { s.mu with table := .none } } tag code .ok []
  | _ :: _ => { s with mu := { s.mu with table := some (.write tag code (addr + 1) left) } }

/-- TABLE_WRITE_WORD_COMPLETE (R178): where the access in progress is a write of the MU. -/
def execTableWriteWordComplete (s : State) : Outcome State Fault Refusal :=
  match s.tmp.inProgress, s.mu.table with
  | some (.management, .write a w), some (.write tag code addr (_ :: left)) =>
    .next ((s.completeAccess (.write a w)).wordWritten tag code addr left)
  | _, _ => .next s

end Sys2Proof.Machine
end

