-- ==== Sys2Proof/Machine/Management.lean ====
section
/-! DEFINITION. The Management Unit (chapter 11): the beginning of a request, its header tests, and its reply.
-/

namespace Sys2Proof.Machine

/-! ## Request codes (R203, R206) -/

/-- The request codes of the part, TABLE_WRITE's four included (R203, R206). -/
def requestCodes : List Nat :=
  [0x01, 0x02, 0x03, 0x04, 0x05, 0x10, 0x11, 0x20, 0x21, 0x22, 0x23, 0x24, 0x30, 0x31, 0x32, 0x33] ++
    [0x34, 0x38, 0x39, 0x3A, 0x3B, 0x3C, 0x3D, 0x3E, 0x3F, 0x40, 0x41, 0x42, 0x44, 0x48, 0x49, 0x4A] ++
    [0x4B, 0x4C, 0x50, 0x51, 0x52, 0x53]

/-- The codes that hand results to the Publisher (chapter 11, section 11.5). -/
def resultCodes : List Nat :=
  [0x30, 0x31, 0x32, 0x33, 0x34, 0x38, 0x39, 0x3A, 0x3B, 0x3C, 0x3D, 0x3E, 0x40]

/-! ## Beginning (R190) -/

/-- The head of the Request Queue may be begun as to its results (R190). -/
def State.resultsFit (s : State) (r : Request) : Bool :=
  !resultCodes.contains r.code.toNat || decide (s.publisher.waiting.length ≤ 32)

/-- The request that the MU begins next, with the rest of the queue (R190). -/
def State.beginnable (s : State) : Option (Request × List Request) :=
  match s.mu.table, s.mu.queue with
  | .none, r :: rest =>
    if s.mu.replies.length < 4 && s.resultsFit r then some (r, rest) else .none
  | .none, [] => .none
  | some _, _ => .none

/-- A request is begun: it leaves the queue, and the count rises (R190, R193). -/
def State.begin (s : State) (rest : List Request) : State :=
  { s with mu := { s.mu with
      queue := rest
      counts := { s.mu.counts with begun := bump s.mu.counts.begun } } }

/-! ## Execution (R191, R192) -/

/-- What the execution of a request comes to: the state, and the reply that it places, if any. -/
structure Answer where
  state : State
  reply : Option (Status × List Byte)
  deriving DecidableEq, Repr

/-- A request that is taken with a status and data. -/
def Answer.taken (s : State) (data : List Byte) : Answer := ⟨s, some (.ok, data)⟩

/-- A refused request changes nothing and carries no data (R191, R192). -/
def Answer.refused (s : State) (status : Status) : Answer := ⟨s, some (status, [])⟩

/-- The reply of an executed request is placed (R192). -/
def Answer.place (a : Answer) (r : Request) : State :=
  match a.reply with
  | some (status, data) => a.state.reply r.tag r.code status data
  | .none => a.state

/-- The MU begins the head of the Request Queue where R190 lets it and its code is one of `mine`. -/
def State.serve (s : State) (mine : Nat → Bool) (run : Request → State → Answer) : State :=
  match s.beginnable with
  | some (r, rest) => if mine r.code.toNat then (run r (s.begin rest)).place r else s
  | .none => s

/-- The test of the declared length, ahead of the request's own tests (R191). -/
def withLength (lengths : List Nat) (run : Request → State → Answer) (r : Request) (s : State) : Answer :=
  if lengths.contains r.length.toNat then run r s else .refused s .format

/-- The MU serves a request with one code and one declared length (R203, R206). -/
def State.request (s : State) (code length : Nat) (run : Request → State → Answer) : State :=
  s.serve (fun k => k == code) (withLength [length] run)

/-- A parsed parameter set, or a refusal with RANGE. -/
def orRange {α : Type} (s : State) (p : Option α) (run : α → Answer) : Answer :=
  match p with
  | some x => run x
  | .none => .refused s .range

/-- A condition on the state, or a refusal with STATE. -/
def orState (s : State) (ok : Bool) (a : Answer) : Answer := if ok then a else .refused s .state

/-! ## Parameters; none where one is out of its range or names nothing -/

/-- The parameters of TRAP_LOAD (R82, R206). -/
def Request.trapParams (r : Request) : Option (Fin 4 × Option Trap) :=
  match finOf? 4 (r.byte 0).toNat, r.flag 1 with
  | some i, some false => some (i, .none)
  | some i, some true =>
    match r.index 32 2, r.index 32 3 with
    | some a, some b =>
      if 1 ≤ r.nat 4 3 ∧ r.nat 4 3 ≤ 200000 then some (i, some ⟨a, b, r.nat 4 3⟩) else .none
    | _, _ => .none
  | _, _ => .none

/-- The parameters of COURSE_POINT_LOAD (R77, R206). -/
def Request.pointParams (r : Request) : Option (PointNo × CoursePoint) :=
  match r.index 16 0, r.index 32 1, r.optLoop 2, r.optLoop 3 with
  | some q, some p, some b, some a =>
    if r.nat 4 3 ≤ 600000 then some (q, ⟨p, b, a, r.nat 4 3⟩) else .none
  | _, _, _, _ => .none

/-- The parameters of LOOP_CONFIG (R80, R206). -/
def Request.loopParams (r : Request) : Option (LoopNo × LoopSettings) :=
  match r.index 32 0, r.flag 1, PitRole.ofCode (r.byte 2).toNat with
  | some l, some e, some p =>
    if r.nat 5 2 ≤ 10000 then some (l, ⟨e, p, r.nat 3 1, r.nat 4 1, r.nat 5 2⟩) else .none
  | _, _, _ => .none

/-- The parameters of ROSTER_WRITE (R129, R206). -/
def Request.rosterParams (r : Request) : Option (CompNo × Nat × Nat) :=
  match r.index 96 0 with
  | some c => if r.nat 1 2 ≤ 999 ∧ r.nat 3 1 ≤ 7 then some (c, r.nat 1 2, r.nat 3 1) else .none
  | .none => .none

/-- The competitor of RELEASE and DISCARD, where 255 is ALL (R163, R164, R206). -/
def Request.who (r : Request) : Option (Option CompNo) :=
  if r.byte 0 = 255 then some .none else (r.index 96 0).map some

/-- The ring of LOG_SET: none to disable, or the base and the length (R169, R206). -/
def Request.ring (r : Request) : Option (Option (Nat × Nat)) :=
  match r.flag 0 with
  | some false => some .none
  | some true =>
    if 1 ≤ r.nat 2 1 ∧ r.nat 2 1 ≤ 64 ∧ r.nat 1 1 + r.nat 2 1 ≤ 256 then some (some (r.nat 1 1, r.nat 2 1))
    else .none
  | .none => .none

/-- The guard of GUARD_SET (R180, R206). -/
def Request.guardParams (r : Request) : Option Guard :=
  match r.flag 0, r.flag 1 with
  | some e, some i => if r.nat 2 1 ≤ r.nat 3 1 then some ⟨e, i, r.nat 2 1, r.nat 3 1⟩ else .none
  | _, _ => .none

/-- The slot map change of SLOT_MAP_WRITE (R13, R206). -/
def Request.mapParams (r : Request) : Option (Direction × Slot × Action) :=
  match Direction.ofCode (r.byte 0).toNat, r.index 40 1, Action.ofCode (r.byte 2).toNat with
  | some d, some k, some a => some (d, k, a)
  | _, _, _ => .none

/-- The run of places of ORDER_READ (R156, R206). -/
def Request.places (r : Request) : Option (Nat × Nat) :=
  if 1 ≤ r.nat 0 1 ∧ r.nat 0 1 ≤ 96 ∧ 1 ≤ r.nat 1 1 ∧ r.nat 1 1 ≤ 6 then some (r.nat 0 1, r.nat 1 1)
  else .none

/-- The words of TABLE_READ (R177, R206). -/
def Request.readRun (r : Request) : Option (WordAddr × Nat) :=
  if 1 ≤ r.nat 3 1 ∧ r.nat 3 1 ≤ 6 ∧ r.nat 0 3 + r.nat 3 1 ≤ 262144 then
    some (BitVec.ofNat 18 (r.nat 0 3), r.nat 3 1)
  else .none

end Sys2Proof.Machine
end

