-- ==== Sys2Proof/Machine/Pages.lean ====
section
/-! DEFINITION. The data of the reading requests: the pages of STATUS_READ and COMPETITOR_READ (R195 to R197,
R207) and of COURSE_READ (R85). -/

namespace Sys2Proof.Machine

/-! ## Fields -/

/-- A one-byte value. -/
def u8 (n : Nat) : List Byte := natBytes 1 n

/-- A two-byte value. -/
def u16 (n : Nat) : List Byte := natBytes 2 n

/-- A time in µs (R207). -/
def us (n : Nat) : List Byte := natBytes 6 n

/-- An optional time in µs (R207). -/
def us? (n : Option Nat) : List Byte := optBytes 6 n

/-- Two-byte values, one after another. -/
def u16s (l : List Nat) : List Byte := (l.map u16).flatten

/-! ## STATUS_READ (R196, R207) -/

/-- Session and clock. -/
def State.sessionPage (s : State) (part : Nat) : Option (List Byte) :=
  let k := s.cau.clock
  let e := s.engine.counts
  match part with
  | 0 => some (u8 s.session.state.code ++ u8 ((s.session.mode.map StartMode.code).getD 0) ++
      us? s.session.greenTime ++ flagByte s.session.neutral ++ u8 s.session.chequer.code ++
      us? (s.order.best.map SessionBest.time) ++
      optBytes 1 (s.order.best.map fun b => b.competitor.val) ++
      optBytes 2 (s.order.best.map SessionBest.lap) ++ u8 s.order.list.length)
  | 1 => some (u8 k.state.code ++ natBytes 4 k.cycle.toNat ++ u8 k.missingRun ++ u8 k.goodRun ++
      u16s [k.losses, k.steps, k.offSlotBeacons])
  | 2 => some (u16s [e.settled, e.forced, e.poolEmpty, e.passOnly, e.appliedInFull, e.implausible,
      e.entries, s.engine.silenceLimit])
  | 3 => some (u16s [e.pitMoves, e.trapRejected, e.mergedSectors, e.inferredLaps, e.silences])
  | _ => .none

/-- Loop alignment. -/
def State.alignmentPage (s : State) (loop : LoopNo) (part : Nat) : Option (List Byte) :=
  let r := s.cau.records[loop]
  match part with
  | 0 => some (u8 r.state.code ++ natBytes 4 r.anchorTick.toNat ++ us r.anchorTime ++ intBytes 2 r.rate ++
      us r.lastBeacon ++ u8 r.consecutive)
  | 1 => some (u16s [r.accepted, r.close, r.rateFaults, r.steps, r.unresolved, s.cau.residualTolerance] ++
      u8 s.cau.beaconTimeout ++ u16 s.cau.holdoverLimit)
  | _ => .none

/-- Intake counters. -/
def State.intakePage (s : State) (loop : LoopNo) (part : Nat) : Option (List Byte) :=
  let k := s.intake.counts[loop]
  match part with
  | 0 => some (u16s [k.accepted, k.clamped, k.misrouted, k.malformed, k.disabled, k.idleDiscard,
      k.unsynced, k.weak, k.future, k.stale, k.overflowed])
  | 1 => some (u16s [s.intake.offSlot, s.intake.episodes] ++ u8 s.intake.overflow.code ++
      u8 s.intake.queue.length ++ u16 s.intake.longestWait)
  | _ => .none

/-- The captured root of a walk in flight (R71). -/
def Serving.capturedRoot : Serving → Option TableIndex
  | .walking w => some w.root
  | .idle => .none
  | .delivering _ _ => .none

/-- Resolver counters. -/
def State.resolverPage (s : State) (part : Nat) : Option (List Byte) :=
  let r := s.resolver
  let k := r.counts
  match part with
  | 0 => some (u8 r.serving.code ++ optBytes 2 (r.root.map BitVec.toNat) ++
      optBytes 2 (r.serving.capturedRoot.map BitVec.toNat) ++ natBytes 4 r.generation.toNat ++
      u8 r.cache.length ++ u16s [k.served, k.hits, k.walks, k.reads, k.seenUpdates, k.competitors])
  | 1 => some (u16s [k.unknowns, k.unknownRepeats, k.noRoot, k.badType, k.badCompetitor, k.aliasChain,
      k.faultHits, k.fills, k.suppressed, k.evictions, k.flushes])
  | _ => .none

/-- The MU's state as R190 names it, IDLE 1 and EXECUTING 2: the MU executes while the read is made (R190). -/
def muStateCode : Nat := 2

/-- Pool and queue occupancies. -/
def State.poolPage (s : State) (part : Nat) : Option (List Byte) :=
  let k := s.settle.counts
  let m := s.mu.counts
  match part with
  | 0 => some (u16s [k.insertions, k.merges, k.backupOverruled, k.duplicates, k.late, k.expiries,
      k.forcedFull, k.poolEmpty, k.sessionDiscards, k.inactive, k.retireDiscards, k.closeDiscards])
  | 1 => some (u16s [s.settle.free, s.settle.heldCount, s.settle.highWater, s.settle.interval])
  | 2 => some (u16s [m.delivered, m.dropped, m.begun, m.ok, m.clamped, m.busy, m.state, m.range,
      m.protected_, m.format, m.notSupported] ++ u8 s.mu.queue.length ++ u8 s.mu.replies.length ++
      u8 muStateCode)
  | _ => .none

/-- Publisher counters. -/
def State.publisherPage (s : State) (part : Nat) : Option (List Byte) :=
  let p := s.publisher
  let k := p.counts
  match part with
  | 0 => some (u16s [k.published, k.held, k.released, k.discarded, k.clearDiscarded, k.holdOverflow,
      k.lineDrop, k.entriesWritten, k.alertLost, p.sequence.toNat])
  | 1 => some (u8 p.hold.length ++ u8 p.waiting.length ++ u8 p.buffer.length ++ u8 p.resultQueue.length ++
      flagByte p.logEnabled ++ u8 p.logBase ++ u8 p.logLength ++ u16 p.writeIndex ++ flagByte p.wrapped)
  | _ => .none

/-- A table and entry index of the sweep position; all ones when absent (R207). -/
def placeBytes (p : Option (TableIndex × Byte)) : List Byte :=
  optBytes 2 (p.map fun q => q.1.toNat) ++ optBytes 1 (p.map fun q => q.2.toNat)

/-- The kind and the word address of the next access of the sweep; none outside RUNNING and SUSPENDED (R207). -/
def Sweep.nextBytes (x : Sweep) : List Byte :=
  match x.state with
  | .idle => u8 0 ++ optBytes 3 .none
  | .running | .suspended =>
    u8 (match x.pos.next with | .entry => 1 | .flagUpdate _ => 2 | .target _ => 3) ++
      natBytes 3 (x.pos.access x.root).addr.toNat

/-- Fault addresses `first` and on, `n` of them (R207). -/
def SweepReport.addrBytes (r : SweepReport) (first n : Nat) : List Byte :=
  ((List.range n).map fun i => optBytes 3 (r.faultAddrs[first + i]?.map BitVec.toNat)).flatten

/-- Sweep report. -/
def State.sweepPage (s : State) (part : Nat) : Option (List Byte) :=
  let x := s.sweep
  let r := x.report
  let g := s.tmp.guard
  match part with
  | 0 => some (u8 x.state.code ++ u8 ((x.mode.map SweepMode.code).getD 0) ++ u16 x.root.toNat ++
      flagByte r.complete ++ u8 x.pos.root.toNat ++ placeBytes x.pos.branch ++ placeBytes x.pos.leaf ++
      x.nextBytes ++ u16s [r.visited, r.seenCleared, r.aliasAbsent, r.faults])
  | 1 => some (u16s [r.tables, r.competitors, r.aliases, r.absents] ++ r.addrBytes 0 5)
  | 2 => some (r.addrBytes 5 3 ++ flagByte g.enabled ++ flagByte g.invert ++ u8 g.first ++ u8 g.last ++
      u16s [s.tmp.protectedCount, s.tmp.grantsResolver, s.tmp.grantsLog, s.tmp.grantsManagement,
        s.tmp.grantsSweep])
  | n => if n ≤ 6 then some (((r.audit.toList.drop (24 * (n - 3))).take 24).map (BitVec.ofNat 8)) else .none

/-- Slot counts. -/
def Lane.slotPage (lane : Lane) (slot : Slot) : List Byte :=
  let k := lane.counts[slot]
  u8 lane.inForce[slot].code ++ u16s [k.bad, k.foreign, k.overwrite, lane.slips, lane.markErrors]

/-- The slot counts page of a selector: the slot upstream, the slot plus 64 downstream (R206). -/
def State.slotPage (s : State) (selector : Nat) : Option (List Byte) :=
  if selector < 64 then (finOf? 40 selector).map s.lif.up.slotPage
  else (finOf? 40 (selector - 64)).map s.lif.down.slotPage

/-- A page of STATUS_READ (R196, R206, R207). -/
def State.statusPage (s : State) (page selector : Nat) : Option (List Byte) :=
  match page with
  | 1 => s.sessionPage selector
  | 2 => (finOf? 32 (selector % 32)).bind fun l => s.alignmentPage l (selector / 32)
  | 3 => (finOf? 32 (selector % 32)).bind fun l => s.intakePage l (selector / 32)
  | 4 => s.resolverPage selector
  | 5 => s.poolPage selector
  | 6 => s.publisherPage selector
  | 7 => s.sweepPage selector
  | 8 => s.slotPage selector
  | _ => .none

/-! ## COMPETITOR_READ (R197, R207) -/

/-- Summary. -/
def State.summaryPage (s : State) (c : CompNo) (part : Nat) : Option (List Byte) :=
  let r := s.engine.records[c]
  match part with
  | 0 => some (u8 r.state.code ++ u16 r.raceNumber ++ u8 r.class_ ++ flagByte r.entered ++ u16 r.laps ++
      us r.lastCrossing ++ us? (r.lastApplied.map AppliedMark.time) ++
      u8 (lineCode (r.lastApplied.map AppliedMark.line)) ++ flagByte r.silenceAlerted)
  | 1 => some (u8 s.settle.lists[c].length ++ us? (s.settle.lists[c].head?.map Pending.time))
  | _ => .none

/-- Lap. -/
def Competitor.lapPage (r : Competitor) (part : Nat) : Option (List Byte) :=
  match part with
  | 0 => some (optBytes 1 (r.lastPoint.map fun p => p.point.val) ++ us? (r.lastPoint.map LastPoint.time) ++
      u8 (qualityCode (r.lastPoint.map LastPoint.quality)) ++ us? r.lapStart ++ u8 r.lapWorst.rank ++
      flagByte r.lapPit ++ flagByte r.sectorPit ++ flagByte r.lapNeutral ++ flagByte r.sectorNeutral)
  | 1 => some (u8 r.pitCount ++ us? r.pitEntry ++ us? (r.bestLap.map BestLap.time) ++
      optBytes 2 (r.bestLap.map BestLap.lap))
  | _ => .none

/-- A position of the sector table (R207). -/
def sectorBytes : Option SectorTime → List Byte
  | .none => us? .none ++ u8 0 ++ u8 0 ++ u8 0
  | some t => us t.time ++ u8 t.quality.rank ++ flagByte t.neutral ++ flagByte t.pit

/-- Sectors. -/
def Competitor.sectorPage (r : Competitor) (part : Nat) : Option (List Byte) :=
  if part ≤ 7 then some ((((r.sectors.toList.drop (2 * part)).take 2).map sectorBytes).flatten) else .none

/-- Best sectors. -/
def Competitor.bestPage (r : Competitor) (part : Nat) : Option (List Byte) :=
  if part ≤ 3 then some ((((r.bestSectors.toList.drop (4 * part)).take 4).map us?).flatten) else .none

/-- A trap start (R207). -/
def trapBytes : Option TrapStart → List Byte
  | .none => us? .none ++ u8 0
  | some t => us t.time ++ u8 t.quality.rank

/-- Traps. -/
def Competitor.trapPage (r : Competitor) (part : Nat) : Option (List Byte) :=
  if part ≤ 1 then some ((((r.trapStarts.toList.drop (2 * part)).take 2).map trapBytes).flatten) else .none

/-- A page of COMPETITOR_READ (R197, R206, R207). -/
def State.competitorPage (s : State) (c : CompNo) (page part : Nat) : Option (List Byte) :=
  match page with
  | 1 => s.summaryPage c part
  | 2 => s.engine.records[c].lapPage part
  | 3 => s.engine.records[c].sectorPage part
  | 4 => s.engine.records[c].bestPage part
  | 5 => s.engine.records[c].trapPage part
  | _ => .none

/-! ## COURSE_READ (R85; log 18) -/

/-- POINT. -/
def Course.pointPage (k : Course) (q : PointNo) : List Byte :=
  u8 k.count ++
    match k.points[q] with
    | .none => flagByte false
    | some p => flagByte true ++ u8 p.primary.val ++ optBytes 1 (p.backup.map Fin.val) ++
        optBytes 1 (p.pitAlt.map Fin.val) ++ natBytes 3 p.minTransit

/-- LOOP. -/
def LoopRec.page (r : LoopRec) : List Byte :=
  flagByte r.enabled ++ u8 r.role.code ++ optBytes 1 (r.role.index.map Fin.val) ++ u8 r.pitRole.code ++
    u8 r.window ++ u8 r.floor ++ u16 r.deadBand

/-- TRAP. -/
def trapPage : Option Trap → List Byte
  | .none => flagByte false
  | some t => flagByte true ++ u8 t.startLoop.val ++ u8 t.endLoop.val ++ natBytes 3 t.distance

/-- A page of COURSE_READ (R85, R206). -/
def Course.page (k : Course) (page index : Nat) : Option (List Byte) :=
  match page with
  | 1 => (finOf? 16 index).map k.pointPage
  | 2 => (finOf? 32 index).map fun l => k.loops[l].page
  | 3 => (finOf? 4 index).map fun i => trapPage k.traps[i]
  | _ => .none

end Sys2Proof.Machine
end

