-- ==== Sys2Proof/Machine/Requests.lean ====
section
/-! DEFINITION. The meanings of the requests (chapters 1, 4, 5, 7 to 11): each is the step in which the MU begins
the head of its queue, where the head has that request's code (R190, R191). -/

namespace Sys2Proof.Machine

open Host (Outcome)

/-! ## Codes that name no request -/

/-- UNSUPPORTED_REQUEST (R191, test 1). -/
def execUnsupportedRequest (s : State) : Outcome State Fault Refusal :=
  .next (s.serve (fun k => !requestCodes.contains k) fun _ s => .refused s .notSupported)

/-! ## The line (R13) -/

/-- A taken SLOT_MAP_WRITE writes the staged form (R13). -/
def State.stage (s : State) (d : Direction) (slot : Slot) (a : Action) : State :=
  let lane := s.lif.lane d
  { s with lif := s.lif.setLane d { lane with staged := lane.staged.set slot a } }

/-- SLOT_MAP_WRITE, after its header tests (R13). -/
def runSlotMapWrite (r : Request) (s : State) : Answer :=
  orRange s r.mapParams fun p => .taken (s.stage p.1 p.2.1 p.2.2) []

/-- SLOT_MAP_WRITE (R13). -/
def execSlotMapWrite (s : State) : Outcome State Fault Refusal := .next (s.request 0x01 3 runSlotMapWrite)

/-! ## Resolution (R51, R69) -/

/-- ROOT_SET, after its header tests (R51). -/
def runRootSet (r : Request) (s : State) : Answer :=
  if r.nat 0 2 ≤ 1023 then
    .taken { s with resolver := s.resolver.setRoot (BitVec.ofNat 10 (r.nat 0 2)) }
      (optBytes 2 (s.resolver.root.map BitVec.toNat))
  else .refused s .range

/-- ROOT_SET (R51). -/
def execRootSet (s : State) : Outcome State Fault Refusal := .next (s.request 0x10 2 runRootSet)

/-- RESOLVER_FLUSH, after its header tests (R69). -/
def runResolverFlush (r : Request) (s : State) : Answer :=
  orRange s (FlushMode.ofCode (r.nat 0 1)) fun m =>
    let f := s.resolver.flush m (BitVec.ofNat 24 (r.nat 1 3))
    .taken { s with resolver := f.1 } (u8 f.2)

/-- RESOLVER_FLUSH (R69). -/
def execResolverFlush (s : State) : Outcome State Fault Refusal := .next (s.request 0x11 4 runResolverFlush)

/-! ## The course (R77 to R82, R85) -/

/-- The session is in SETUP. -/
def State.inSetup (s : State) : Bool := decide (s.session.state = .setup)

/-- COURSE_POINT_LOAD, after its header tests (R77, R78). -/
def runCoursePointLoad (r : Request) (s : State) : Answer :=
  orState s s.inSetup <| orRange s r.pointParams fun p =>
    if s.course.acceptsPoint p.1 p.2 then
      let k := s.course.loadPoint p.1 p.2
      .taken { s with course := k } (u8 k.count)
    else .refused s .range

/-- COURSE_POINT_LOAD (R77, R78). -/
def execCoursePointLoad (s : State) : Outcome State Fault Refusal :=
  .next (s.request 0x20 7 runCoursePointLoad)

/-- COURSE_CLEAR, after its header tests (R79). -/
def runCourseClear (_r : Request) (s : State) : Answer :=
  orState s s.inSetup (.taken { s with course := s.course.cleared } [])

/-- COURSE_CLEAR (R79). -/
def execCourseClear (s : State) : Outcome State Fault Refusal := .next (s.request 0x21 0 runCourseClear)

/-- LOOP_CONFIG, after its header tests (R80, R81). -/
def runLoopConfig (r : Request) (s : State) : Answer :=
  orRange s r.loopParams fun p =>
    orState s (s.course.loops[p.1].accepts s.inSetup p.2) (.taken
      { s with course := { s.course with
          loops := upd s.course.loops p.1 fun rec => rec.configured p.2 } } [])

/-- LOOP_CONFIG (R80, R81). -/
def execLoopConfig (s : State) : Outcome State Fault Refusal := .next (s.request 0x22 7 runLoopConfig)

/-- TRAP_LOAD, after its header tests (R82). -/
def runTrapLoad (r : Request) (s : State) : Answer :=
  orState s s.inSetup <| orRange s r.trapParams fun p =>
    .taken { s with course := { s.course with traps := s.course.traps.set p.1 p.2 } } []

/-- TRAP_LOAD (R82). -/
def execTrapLoad (s : State) : Outcome State Fault Refusal := .next (s.request 0x23 7 runTrapLoad)

/-- COURSE_READ, after its header tests (R85). -/
def runCourseRead (r : Request) (s : State) : Answer :=
  orRange s (s.course.page (r.nat 0 1) (r.nat 1 1)) fun data => .taken s data

/-- COURSE_READ (R85). -/
def execCourseRead (s : State) : Outcome State Fault Refusal := .next (s.request 0x24 2 runCourseRead)

/-! ## Roster and race control (R129 to R133) -/

/-- The competitor of a request, its first parameter byte (R206). -/
def Request.comp (r : Request) : Option CompNo := r.index 96 0

/-- The state of a competitor. -/
def State.compState (s : State) (c : CompNo) : CompState := s.engine.records[c].state

/-- ROSTER_WRITE, after its header tests (R129). -/
def runRosterWrite (r : Request) (s : State) : Answer :=
  orRange s r.rosterParams fun p =>
    let s' := s.rosterWrite p.1 p.2.1 p.2.2
    .taken s' (u8 (s'.compState p.1).code)

/-- ROSTER_WRITE (R129). -/
def execRosterWrite (s : State) : Outcome State Fault Refusal := .next (s.request 0x30 4 runRosterWrite)

/-- ROSTER_REMOVE, after its header tests (R130). -/
def runRosterRemove (r : Request) (s : State) : Answer :=
  orRange s r.comp fun c =>
    orState s (decide (s.compState c = .standby) || decide (s.compState c = .retired))
      (.taken (s.rosterRemove c) [])

/-- ROSTER_REMOVE (R130). -/
def execRosterRemove (s : State) : Outcome State Fault Refusal := .next (s.request 0x31 1 runRosterRemove)

/-- RETIRE is taken for a competitor in this state (R131). -/
def CompState.retirable : CompState → Bool
  | .standby => true
  | .onTrack => true
  | .inPit => true
  | .inactive => false
  | .finished => false
  | .retired => false

/-- RETIRE, after its header tests (R131). -/
def runRetire (r : Request) (s : State) : Answer :=
  orRange s r.comp fun c => orState s (s.compState c).retirable (.taken (s.retire c) [])

/-- RETIRE (R131). -/
def execRetire (s : State) : Outcome State Fault Refusal := .next (s.request 0x32 1 runRetire)

/-- REINSTATE, after its header tests (R132). -/
def runReinstate (r : Request) (s : State) : Answer :=
  orRange s r.comp fun c => orState s (decide (s.compState c = .retired)) (.taken (s.reinstate c) [])

/-- REINSTATE (R132). -/
def execReinstate (s : State) : Outcome State Fault Refusal := .next (s.request 0x33 1 runReinstate)

/-- The session states in which LAP_ADJUST is taken (R133). -/
def SessionState.adjustable : SessionState → Bool
  | .live => true
  | .chequered => true
  | .closed => true
  | .setup => false
  | .standby => false

/-- The reply data of a LAP_ADJUST: the laps completed and the position (R133). -/
def State.adjustData (s : State) (c : CompNo) : List Byte :=
  u16 s.engine.records[c].laps ++ optBytes 1 (s.order.position c)

/-- The status of a LAP_ADJUST (R133). -/
def adjustStatus (laps : Nat) (delta : Int) : Status := if adjustClamps laps delta then .clamped else .ok

/-- LAP_ADJUST, after its header tests (R133). -/
def runLapAdjust (r : Request) (s : State) : Answer :=
  orRange s r.comp fun c =>
    orState s (s.session.state.adjustable && s.engine.records[c].entered)
      ⟨s.lapAdjust c (r.signed 1),
       some (adjustStatus s.engine.records[c].laps (r.signed 1),
         (s.lapAdjust c (r.signed 1)).adjustData c)⟩

/-- LAP_ADJUST (R133). -/
def execLapAdjust (s : State) : Outcome State Fault Refusal := .next (s.request 0x34 2 runLapAdjust)

/-! ## The session (R137 to R148, R156) -/

/-- The data of a finding and its index (R84, R137; log 18). -/
def Finding.data : Finding → List Byte
  | .noFinish => u8 1 ++ optBytes 1 .none
  | .pointMissing i => u8 2 ++ u8 i
  | .trapSelf i => u8 3 ++ u8 i
  | .valid => u8 4 ++ optBytes 1 .none

/-- OPEN, after its header tests (R137). -/
def runOpenSession (_r : Request) (s : State) : Answer :=
  orState s s.inSetup
    (if s.course.validity = .valid then .taken s.opened (Finding.data .valid)
     else ⟨s, some (.state, s.course.validity.data)⟩)

/-- OPEN (R137). -/
def execOpenSession (s : State) : Outcome State Fault Refusal := .next (s.request 0x38 0 runOpenSession)

/-- GREEN, after its header tests (R138). -/
def runGreen (r : Request) (s : State) : Answer :=
  orState s (decide (s.session.state = .standby)) <| orRange s (StartMode.ofCode (r.nat 0 1)) fun m =>
    .taken (s.greened m) (u8 s.waiting.length)

/-- GREEN (R138). -/
def execGreen (s : State) : Outcome State Fault Refusal := .next (s.request 0x39 1 runGreen)

/-- The session is running: LIVE or CHEQUERED (R141, R142). -/
def SessionState.running : SessionState → Bool
  | .live => true
  | .chequered => true
  | .setup => false
  | .standby => false
  | .closed => false

/-- NEUTRAL_ON, after its header tests (R141). -/
def runNeutralOn (_r : Request) (s : State) : Answer :=
  orState s s.session.state.running (.taken s.neutralOn [])

/-- NEUTRAL_ON (R141). -/
def execNeutralOn (s : State) : Outcome State Fault Refusal := .next (s.request 0x3A 0 runNeutralOn)

/-- NEUTRAL_OFF, after its header tests (R142). -/
def runNeutralOff (_r : Request) (s : State) : Answer :=
  orState s s.session.state.running (.taken s.neutralOff [])

/-- NEUTRAL_OFF (R142). -/
def execNeutralOff (s : State) : Outcome State Fault Refusal := .next (s.request 0x3B 0 runNeutralOff)

/-- CHEQUER, after its header tests (R143). -/
def runChequer (_r : Request) (s : State) : Answer :=
  orState s (decide (s.session.state = .live)) (.taken s.chequered [])

/-- CHEQUER (R143). -/
def execChequer (s : State) : Outcome State Fault Refusal := .next (s.request 0x3C 0 runChequer)

/-- The session states in which CLOSE is taken (R147). -/
def SessionState.closable : SessionState → Bool
  | .standby => true
  | .live => true
  | .chequered => true
  | .setup => false
  | .closed => false

/-- CLOSE, after its header tests (R147). -/
def runClose (_r : Request) (s : State) : Answer := orState s s.session.state.closable (.taken s.closed [])

/-- CLOSE (R147). -/
def execClose (s : State) : Outcome State Fault Refusal := .next (s.request 0x3D 0 runClose)

/-- CLEAR, after its header tests (R148). -/
def runClear (_r : Request) (s : State) : Answer :=
  orState s (decide (s.session.state = .closed)) (.taken s.cleared [])

/-- CLEAR (R148). -/
def execClear (s : State) : Outcome State Fault Refusal := .next (s.request 0x3E 0 runClear)

/-- The places of an ORDER_READ: the length, then number and laps of each place that exists (R156). -/
def State.orderData (s : State) (first count : Nat) : List Byte :=
  u8 s.order.list.length ++
    (((s.order.list.drop (first - 1)).take count).map fun c =>
      u8 c.val ++ u16 s.engine.records[c].laps).flatten

/-- ORDER_READ, after its header tests (R156). -/
def runOrderRead (r : Request) (s : State) : Answer :=
  orRange s r.places fun p => .taken s (s.orderData p.1 p.2)

/-- ORDER_READ (R156). -/
def execOrderRead (s : State) : Outcome State Fault Refusal := .next (s.request 0x3F 2 runOrderRead)

/-! ## Results (R163, R164, R169) -/

/-- The number of held results that RELEASE or DISCARD names (R163, R164). -/
def Publisher.namedCount (p : Publisher) (who : Option CompNo) : Nat := (p.hold.filter (Result.named who)).length

/-- RELEASE, after its header tests (R163). -/
def runRelease (r : Request) (s : State) : Answer :=
  orRange s r.who fun w =>
    .taken { s with publisher := s.publisher.release w } (u8 (s.publisher.namedCount w))

/-- RELEASE (R163). -/
def execRelease (s : State) : Outcome State Fault Refusal := .next (s.request 0x40 1 runRelease)

/-- DISCARD, after its header tests (R164). -/
def runDiscard (r : Request) (s : State) : Answer :=
  orRange s r.who fun w =>
    .taken { s with publisher := s.publisher.discard w } (u8 (s.publisher.namedCount w))

/-- DISCARD (R164). -/
def execDiscard (s : State) : Outcome State Fault Refusal := .next (s.request 0x41 1 runDiscard)

/-- A taken LOG_SET (R169). -/
def Publisher.setLog (p : Publisher) : Option (Nat × Nat) → Publisher
  | some (base, length) => p.enableLog base length
  | .none => p.disableLog

/-- LOG_SET, after its header tests (R169). -/
def runLogSet (r : Request) (s : State) : Answer :=
  orState s s.inSetup <| orRange s r.ring fun g => .taken { s with publisher := s.publisher.setLog g } []

/-- LOG_SET (R169). -/
def execLogSet (s : State) : Outcome State Fault Refusal := .next (s.request 0x42 3 runLogSet)

/-! ## Table memory (R177, R178, R180) -/

/-- TABLE_READ, after its header tests (R177). -/
def runTableRead (r : Request) (s : State) : Answer :=
  orRange s r.readRun fun p =>
    ⟨{ s with mu := { s.mu with table := some (.read r.tag r.code p.1 p.2 []) } }, .none⟩

/-- TABLE_READ (R177). -/
def execTableRead (s : State) : Outcome State Fault Refusal := .next (s.request 0x44 4 runTableRead)

/-- The number of words of a TABLE_WRITE, by its declared length (R203). -/
def Request.wordCount (r : Request) : Nat := (r.length.toNat - 2) / 4

/-- A guarded word is among those that a TABLE_WRITE names (R178, R179). -/
def Guard.touches (g : Guard) (addr count : Nat) : Bool :=
  (List.range count).any fun i => g.covers (addr + i)

/-- TABLE_WRITE, after its header tests (R178). -/
def runTableWrite (r : Request) (s : State) : Answer :=
  if 262144 < r.writeAddr + r.wordCount then .refused s .range
  else if s.tmp.guard.touches r.writeAddr r.wordCount then
    .refused { s with tmp := { s.tmp with protectedCount := bump s.tmp.protectedCount } } .protected_
  else
    ⟨{ s with mu := { s.mu with
        table := some (.write r.tag r.code (BitVec.ofNat 18 r.writeAddr) (r.words r.wordCount)) } }, .none⟩

/-- TABLE_WRITE, with its four codes and five declared lengths (R178, R203). -/
def execTableWrite (s : State) : Outcome State Fault Refusal :=
  .next (s.serve (fun k => [0x48, 0x49, 0x4A, 0x4B].contains k) (withLength [6, 10, 14, 18, 22] runTableWrite))

/-- GUARD_SET, after its header tests (R180). -/
def runGuardSet (r : Request) (s : State) : Answer :=
  orState s s.inSetup <| orRange s r.guardParams fun g => .taken { s with tmp := { s.tmp with guard := g } } []

/-- GUARD_SET (R180). -/
def execGuardSet (s : State) : Outcome State Fault Refusal := .next (s.request 0x4C 4 runGuardSet)

/-! ## The sweep (R181, R186, R187) -/

/-- A SWEEP_START with a valid mode (R181, test 3). -/
def State.startSweep (s : State) (m : SweepMode) : Answer :=
  match s.resolver.root with
  | .none => .refused s .state
  | some root => .taken { s with sweep := s.sweep.start m root (s.tmp.busyWith .sweep) } []

/-- SWEEP_START, after its header tests (R181). -/
def runSweepStart (r : Request) (s : State) : Answer :=
  if s.sweep.state = .idle then orRange s (SweepMode.ofCode (r.nat 0 1)) s.startSweep else .refused s .busy

/-- SWEEP_START (R181). -/
def execSweepStart (s : State) : Outcome State Fault Refusal := .next (s.request 0x50 1 runSweepStart)

/-- Sets the sweep state. -/
def State.setSweep (s : State) (x : SweepState) : State := { s with sweep := { s.sweep with state := x } }

/-- SUSPEND, after its header tests (R186). -/
def runSuspend (_r : Request) (s : State) : Answer :=
  orState s (decide (s.sweep.state = .running)) (.taken (s.setSweep .suspended) [])

/-- SUSPEND (R186). -/
def execSuspend (s : State) : Outcome State Fault Refusal := .next (s.request 0x51 0 runSuspend)

/-- RESUME, after its header tests (R186). -/
def runResume (_r : Request) (s : State) : Answer :=
  orState s (decide (s.sweep.state = .suspended)) (.taken (s.setSweep .running) [])

/-- RESUME (R186). -/
def execResume (s : State) : Outcome State Fault Refusal := .next (s.request 0x52 0 runResume)

/-- STOP, after its header tests (R187). -/
def runStop (_r : Request) (s : State) : Answer :=
  orState s (decide (s.sweep.state ≠ .idle)) (.taken (s.setSweep .idle) [])

/-- STOP (R187). -/
def execStop (s : State) : Outcome State Fault Refusal := .next (s.request 0x53 0 runStop)

/-! ## Parameters (R194) -/

/-- A value clamped to a range, for PARAM_WRITE (R194). -/
def clampNat (lo hi v : Nat) : Nat := max lo (min hi v)

/-- The five parameters of R194. -/
inductive Param where
  | settleInterval | silenceLimit | beaconTimeout | holdoverLimit | residualTolerance
  deriving DecidableEq, Repr

/-- The parameter of a parameter byte (R194, R206). -/
def Param.ofCode : Nat → Option Param
  | 1 => some .settleInterval
  | 2 => some .silenceLimit
  | 3 => some .beaconTimeout
  | 4 => some .holdoverLimit
  | 5 => some .residualTolerance
  | _ => .none

/-- The value that comes into force (R194). -/
def Param.clamp (p : Param) (v : Nat) : Nat :=
  match p with
  | .settleInterval => clampNat 0 2000 v
  | .silenceLimit => if v = 0 then 0 else clampNat 10 3600 v
  | .beaconTimeout => clampNat 1 60 v
  | .holdoverLimit => clampNat 10 3600 v
  | .residualTolerance => clampNat 10 5000 v

/-- A new timeout or limit applies from the next change of now: no test is owed under it (R34; log 7). -/
def Cau.untested (k : Cau) : Cau := { k with records := mapAll k.records fun r => { r with testOwed := false } }

/-- A parameter takes a value in its range, with the tests made at once (R34, R98, R128, R194). -/
def State.setParam (s : State) (p : Param) (v : Nat) : State :=
  match p with
  | .settleInterval => State.expireAll { s with settle := { s.settle with interval := v } }
  | .silenceLimit => State.silenceTestAll { s with engine := { s.engine with silenceLimit := v } }
  | .beaconTimeout => { s with cau := { s.cau.untested with beaconTimeout := v } }
  | .holdoverLimit => { s with cau := { s.cau.untested with holdoverLimit := v } }
  | .residualTolerance => { s with cau := { s.cau with residualTolerance := v } }

/-- PARAM_WRITE, after its header tests (R194). The reply carries the value in force in two bytes, whichever the
parameter (the model's choice, log 29). -/
def runParamWrite (r : Request) (s : State) : Answer :=
  orRange s (Param.ofCode (r.nat 0 1)) fun p =>
    ⟨s.setParam p (p.clamp (r.nat 1 2)),
     some (if p.clamp (r.nat 1 2) = r.nat 1 2 then .ok else .clamped, u16 (p.clamp (r.nat 1 2)))⟩

/-- PARAM_WRITE (R194). -/
def execParamWrite (s : State) : Outcome State Fault Refusal := .next (s.request 0x02 3 runParamWrite)

/-! ## Reading (R195, R197) -/

/-- The clear option sets the high-water mark to the number of entries held (R102, R195). -/
def State.clearMark (s : State) : State :=
  { s with settle := { s.settle with highWater := s.settle.heldCount } }

/-- A taken STATUS_READ, with the clear option or without (R195). -/
def State.statusAnswer (s : State) (page : Nat) (clear : Bool) (data : List Byte) : Answer :=
  if clear then (if page = 5 then .taken s.clearMark data else .refused s .range) else .taken s data

/-- STATUS_READ, after its header tests (R195). -/
def runStatusRead (r : Request) (s : State) : Answer :=
  orRange s (s.statusPage (r.nat 0 1) (r.nat 1 1)) fun data =>
    orRange s (r.flag 2) fun clear => s.statusAnswer (r.nat 0 1) clear data

/-- STATUS_READ (R195). -/
def execStatusRead (s : State) : Outcome State Fault Refusal := .next (s.request 0x03 3 runStatusRead)

/-- COMPETITOR_READ, after its header tests (R197). -/
def runCompetitorRead (r : Request) (s : State) : Answer :=
  orRange s r.comp fun c => orRange s (s.competitorPage c (r.nat 1 1) (r.nat 2 1)) fun data => .taken s data

/-- COMPETITOR_READ (R197). -/
def execCompetitorRead (s : State) : Outcome State Fault Refusal := .next (s.request 0x04 3 runCompetitorRead)

end Sys2Proof.Machine
end

