-- ==== Sys2Proof/Machine/Reset.lean ====
section
/-! DEFINITION. The part reset (R199) and the meanings of PART_RESET and RESET_PART. -/

namespace Sys2Proof.Machine

open Host (Outcome)

/-- Table memory after a part reset: as it was, with an access in progress completed whole (R173, R176). -/
def Tmp.memAtReset (t : Tmp) : List Host.Cell :=
  match t.inProgress with
  | some (_, a) => a.effect t.mem
  | .none => t.mem

/-- A part reset with the straps at `straps` (R199). The commands that wait, and the free-choice counter, are
the model's own and stay. -/
def State.partReset (s : State) (straps : BitVec 3) : State :=
  { State.resetWith straps with
    tmp := { mem := s.tmp.memAtReset }
    pending := s.pending
    freeCounter := s.freeCounter }

/-- PART_RESET (R199): the RESET pin. -/
def execPartReset (straps : BitVec 3) (s : State) : Outcome State Fault Refusal :=
  .next (s.partReset straps)

/-- RESET_PART (R198): begun like any request; well-formed, it places no reply. -/
def execResetPart (straps : BitVec 3) (s : State) : Outcome State Fault Refusal :=
  .next (s.request 0x05 0 fun _ s => ⟨s.partReset straps, .none⟩)

end Sys2Proof.Machine
end

