-- ==== Sys2Proof/Machine/Dispatch.lean ====
section
/-! DEFINITION. The meaning of each command: one arm per constructor, one direct call per arm. -/

namespace Sys2Proof.Machine

def exec (i : Instr) (s : State) : Host.Outcome State Fault Refusal :=
  match i with
  | .cycleMarkGood port count => Sys2Proof.Machine.execCycleMarkGood port count s
  | .cycleMarkBad port => Sys2Proof.Machine.execCycleMarkBad port s
  | .cycleMarkMissing port => Sys2Proof.Machine.execCycleMarkMissing port s
  | .searchingMarkPeriod => Sys2Proof.Machine.execSearchingMarkPeriod s
  | .cellReceipt dir slot cell => Sys2Proof.Machine.execCellReceipt dir slot cell s
  | .outboundCycleStart => Sys2Proof.Machine.execOutboundCycleStart s
  | .outboundSlotSend dir => Sys2Proof.Machine.execOutboundSlotSend dir s
  | .beaconHandling => Sys2Proof.Machine.execBeaconHandling s
  | .loopHoldover loop => Sys2Proof.Machine.execLoopHoldover loop s
  | .loopUnsynced loop => Sys2Proof.Machine.execLoopUnsynced loop s
  | .passingIntake => Sys2Proof.Machine.execPassingIntake s
  | .resolverLookup => Sys2Proof.Machine.execResolverLookup s
  | .arbiterGrant => Sys2Proof.Machine.execArbiterGrant s
  | .walkReadComplete => Sys2Proof.Machine.execWalkReadComplete s
  | .seenUpdateComplete => Sys2Proof.Machine.execSeenUpdateComplete s
  | .settleTaking => Sys2Proof.Machine.execSettleTaking s
  | .unknownDelivery => Sys2Proof.Machine.execUnknownDelivery s
  | .resolveFaultDelivery => Sys2Proof.Machine.execResolveFaultDelivery s
  | .settleExpiry competitor => Sys2Proof.Machine.execSettleExpiry competitor s
  | .silent competitor => Sys2Proof.Machine.execSilent competitor s
  | .logWordWriteComplete => Sys2Proof.Machine.execLogWordWriteComplete s
  | .unsupportedRequest => Sys2Proof.Machine.execUnsupportedRequest s
  | .slotMapWrite => Sys2Proof.Machine.execSlotMapWrite s
  | .rootSet => Sys2Proof.Machine.execRootSet s
  | .resolverFlush => Sys2Proof.Machine.execResolverFlush s
  | .coursePointLoad => Sys2Proof.Machine.execCoursePointLoad s
  | .courseClear => Sys2Proof.Machine.execCourseClear s
  | .loopConfig => Sys2Proof.Machine.execLoopConfig s
  | .trapLoad => Sys2Proof.Machine.execTrapLoad s
  | .courseRead => Sys2Proof.Machine.execCourseRead s
  | .rosterWrite => Sys2Proof.Machine.execRosterWrite s
  | .rosterRemove => Sys2Proof.Machine.execRosterRemove s
  | .retire => Sys2Proof.Machine.execRetire s
  | .reinstate => Sys2Proof.Machine.execReinstate s
  | .lapAdjust => Sys2Proof.Machine.execLapAdjust s
  | .openSession => Sys2Proof.Machine.execOpenSession s
  | .green => Sys2Proof.Machine.execGreen s
  | .neutralOn => Sys2Proof.Machine.execNeutralOn s
  | .neutralOff => Sys2Proof.Machine.execNeutralOff s
  | .chequer => Sys2Proof.Machine.execChequer s
  | .close => Sys2Proof.Machine.execClose s
  | .clear => Sys2Proof.Machine.execClear s
  | .orderRead => Sys2Proof.Machine.execOrderRead s
  | .release => Sys2Proof.Machine.execRelease s
  | .discard => Sys2Proof.Machine.execDiscard s
  | .logSet => Sys2Proof.Machine.execLogSet s
  | .tableRead => Sys2Proof.Machine.execTableRead s
  | .tableReadWordComplete => Sys2Proof.Machine.execTableReadWordComplete s
  | .tableWrite => Sys2Proof.Machine.execTableWrite s
  | .tableWriteWordComplete => Sys2Proof.Machine.execTableWriteWordComplete s
  | .guardSet => Sys2Proof.Machine.execGuardSet s
  | .sweepStart => Sys2Proof.Machine.execSweepStart s
  | .suspend => Sys2Proof.Machine.execSuspend s
  | .resume => Sys2Proof.Machine.execResume s
  | .stop => Sys2Proof.Machine.execStop s
  | .sweepReadComplete => Sys2Proof.Machine.execSweepReadComplete s
  | .sweepFlagUpdateComplete => Sys2Proof.Machine.execSweepFlagUpdateComplete s
  | .aliasTargetReadComplete => Sys2Proof.Machine.execAliasTargetReadComplete s
  | .paramWrite => Sys2Proof.Machine.execParamWrite s
  | .statusRead => Sys2Proof.Machine.execStatusRead s
  | .competitorRead => Sys2Proof.Machine.execCompetitorRead s
  | .resetPart straps => Sys2Proof.Machine.execResetPart straps s
  | .partReset straps => Sys2Proof.Machine.execPartReset straps s

end Sys2Proof.Machine
end

