-- ==== Sys2Proof/Safety.lean ====
section
/-! DEFINITION. What the statements about the part are written with: the condition under which a request is
begun, the MU after it, and the invariants of the part. -/

namespace Sys2Proof.Machine

/-! ## Requests -/

/-- The MU begins the request `r`, with `rest` behind it: `r` is the head of the queue and the conditions of
R190 hold. -/
abbrev Begins (s : State) (r : Request) (rest : List Request) : Prop :=
  s.mu.table = none ∧ s.mu.queue = r :: rest ∧ s.mu.replies.length < 4 ∧
    (r.code.toNat ∈ resultCodes → s.publisher.waiting.length ≤ 32)

/-- `r` is the request with this code and this declared length, and the MU begins it. -/
abbrev BeginsAs (s : State) (r : Request) (rest : List Request) (code length : Nat) : Prop :=
  Begins s r rest ∧ r.code.toNat = code ∧ r.length.toNat = length

/-- The MU after a request was begun and answered (R190, R192, R193): the request has left the queue, the reply
stands at the tail of the Reply Queue with the device address, tag, code, status and data, and the begun count
and the status's count have risen. -/
def servedMu (s : State) (r : Request) (rest : List Request) (status : Status) (data : List Byte) : Mu :=
  { s.mu with
    queue := rest
    replies := s.mu.replies ++ [⟨s.lif.address, r.tag, r.code, status, data⟩]
    counts := MuCounts.status { s.mu.counts with begun := bump s.mu.counts.begun } status }

/-- A refused request: it changes nothing but the MU, and its reply carries no data (R191, R192). -/
def refusedState (s : State) (r : Request) (rest : List Request) (status : Status) : State :=
  { s with mu := servedMu s r rest status [] }

/-- The MU after a request was begun and not answered: one that accesses table memory (R190). -/
def begunMu (s : State) (rest : List Request) (op : TableOp) : Mu :=
  { s.mu with
    queue := rest
    table := some op
    counts := { s.mu.counts with begun := bump s.mu.counts.begun } }

/-- The requests with one code and one declared length, TABLE_WRITE and RESET_PART apart: the command, the code and
the length (R203, R206). -/
def requestRows : List (Instr × Nat × Nat) :=
  [(.slotMapWrite, 0x01, 3), (.paramWrite, 0x02, 3), (.statusRead, 0x03, 3), (.competitorRead, 0x04, 3),
   (.rootSet, 0x10, 2), (.resolverFlush, 0x11, 4), (.coursePointLoad, 0x20, 7), (.courseClear, 0x21, 0),
   (.loopConfig, 0x22, 7), (.trapLoad, 0x23, 7), (.courseRead, 0x24, 2), (.rosterWrite, 0x30, 4),
   (.rosterRemove, 0x31, 1), (.retire, 0x32, 1), (.reinstate, 0x33, 1), (.lapAdjust, 0x34, 2)] ++
  [(.openSession, 0x38, 0), (.green, 0x39, 1), (.neutralOn, 0x3A, 0), (.neutralOff, 0x3B, 0),
   (.chequer, 0x3C, 0), (.close, 0x3D, 0), (.clear, 0x3E, 0), (.orderRead, 0x3F, 2),
   (.release, 0x40, 1), (.discard, 0x41, 1), (.logSet, 0x42, 3), (.tableRead, 0x44, 4),
   (.guardSet, 0x4C, 4), (.sweepStart, 0x50, 1), (.suspend, 0x51, 0), (.resume, 0x52, 0),
   (.stop, 0x53, 0)]

/-! ## Reports of the clock -/

/-- The state `t` after a missing-mark report to a clock in the state `s` (R17 to R19). -/
abbrev MissingReport (s t : State) : Prop :=
  (s.cau.clock.state = .unset → t = s) ∧
  (s.cau.clock.state = .locked → s.cau.clock.missingRun < 2 →
    t = s.withClock { s.cau.clock with
      cycle := s.cau.clock.cycle + 1, missingRun := s.cau.clock.missingRun + 1 }) ∧
  (s.cau.clock.state = .locked → 2 ≤ s.cau.clock.missingRun →
    t = { s.withClock { s.cau.clock with
            state := .freeRun
            cycle := s.cau.clock.cycle + 1
            missingRun := 0
            goodRun := 0
            losses := bump s.cau.clock.losses } with
          publisher := s.publisher.alert
            (alertResult ((s.cau.clock.cycle + 1).toNat * 1000) .clockLost none none .none) }) ∧
  (s.cau.clock.state = .freeRun →
    t = s.withClock { s.cau.clock with cycle := s.cau.clock.cycle + 1, goodRun := 0 })

/-- The state `t` after a clock in the state `s` adopts the count `n`: runs cleared and LOCKED, and where `n` is
not the expected count, a clock step and ALERT CLOCK_STEP (R18, R19). -/
abbrev Adopts (s t : State) (n : Tick) : Prop :=
  (n = s.cau.clock.cycle + 1 →
    t = s.withClock { s.cau.clock with cycle := n, state := .locked, missingRun := 0, goodRun := 0 }) ∧
  (n ≠ s.cau.clock.cycle + 1 →
    t = { s.withClock { s.cau.clock with
            cycle := n
            state := .locked
            missingRun := 0
            goodRun := 0
            steps := bump s.cau.clock.steps } with
          publisher := s.publisher.alert
            (alertResult (n.toNat * 1000) .clockStep none
              (some (max (-32767) (min 32767 (n - (s.cau.clock.cycle + 1)).toInt))) .none) })

/-! ## Beacons and passings -/

/-- A beacon in the slot of loop `l` heads the beacons delivered to a clock that is set, with `rest` behind it,
and its cycle is `b`: the latest one not after the current cycle with the low 16 bits that the beacon carries
(R21, R22). -/
abbrev BeaconAt (s : State) (l : LoopNo) (slot : Slot) (c : Cell) (rest : List (Slot × Cell)) (b : Nat) : Prop :=
  s.lif.toCau = (slot, c) :: rest ∧ slot.val = l.val ∧ s.cau.clock.state ≠ .unset ∧
    b ≤ s.cau.clock.cycle.toNat ∧ s.cau.clock.cycle.toNat < b + 65536 ∧ b % 65536 = beaconC16 c

/-- The state after the handling of a beacon of loop `l`: its record is `r`, which owes no timeout test any more
(log 7), and the alerts have been handed over. -/
def beaconHandled (s : State) (l : LoopNo) (rest : List (Slot × Cell)) (r : AlignRec) (alerts : List Result) :
    State :=
  { s with
    lif := { s.lif with toCau := rest }
    cau := { s.cau with records := s.cau.records.set l { r with testOwed := false } }
    publisher := s.publisher.alerts alerts }

/-- The track time of a cell's passing, with its CLAMPED_TIME mark (R42, R43). -/
def State.passingTime (s : State) (l : LoopNo) (p : PassingCell) : Nat × Bool :=
  s.cau.records[l].convert (p.tick s.course.loops[l].window)

/-- The place of a discard reason in the table of R37. -/
def Discard.order : Discard → Nat
  | .misrouted => 1 | .malformed => 2 | .disabled => 3 | .idleDiscard => 4 | .unsynced => 5 | .weak => 6
  | .future => 7 | .stale => 8

/-- A cell with the fields `p` in the slot of loop `l` fails one test of R37. -/
def Fails (s : State) (l : LoopNo) (p : PassingCell) : Discard → Prop
  | .misrouted => p.loop ≠ l.val
  | .malformed => p.hitCount = 0 ∨ 6 < p.hitCount
  | .disabled => s.course.loops[l].enabled = false
  | .idleDiscard => s.session.state = .setup ∨ s.session.state = .closed
  | .unsynced => s.cau.clock.state = .unset ∨ s.cau.records[l].state = .unsynced
  | .weak => peakStrength p.valid < s.course.loops[l].floor
  | .future => s.now + 1000000 < (s.passingTime l p).1
  | .stale => (s.passingTime l p).1 + 600000000 < s.now

/-! ## Table memory -/

/-- The state when the access in progress has completed and left table memory as `mem`. -/
def accessed (s : State) (mem : List Host.Cell) : State :=
  { s with tmp := { s.tmp with mem := mem, inProgress := none } }

/-- The read of the word of the walk `w` is in progress, and the word is read as `x`. -/
abbrev WalkReads (s : State) (w : Walk) (x : Word) : Prop :=
  s.tmp.inProgress = some (.resolver, .read w.addr) ∧ s.resolver.serving = .walking w ∧ w.phase = .reading ∧
    x = readWord s.tmp.mem w.addr

/-- The Resolver when a walk has read a word: the walk-read count rises (R57). -/
def Resolver.hasRead (r : Resolver) (serving : Serving) : Resolver :=
  { r with serving := serving, counts := { r.counts with reads := bump r.counts.reads } }

/-! ## Invariants -/

/-- Table memory is in its canonical form. -/
abbrev MemoryOk (s : State) : Prop := Memory.wf s.tmp.mem

/-- The pool adds up, a settle list holds at most 6 entries, and it stands in ascending order of T (R86, R87). -/
abbrev Settle.Ok (p : Settle) : Prop :=
  p.free + p.total = 256 ∧
    ∀ c : CompNo, p.lists[c].length ≤ 6 ∧ p.lists[c].Pairwise (fun a b => a.time ≤ b.time)

/-- The Settle Pool of the part keeps its bounds. -/
abbrev PoolOk (s : State) : Prop := s.settle.Ok

/-- The Publisher's lists keep their bounds; results are pending only while the log is enabled and the Log Write
Buffer is full; the log writer has an entry in hand exactly while the buffer holds one, and while the log is
disabled the buffer holds no other; the write index lies in the ring (R161, R162, R165 to R168). That the writer has
an entry in hand whenever the buffer holds one is the model's (log 10). -/
abbrev Publisher.Ok (p : Publisher) : Prop :=
  p.hold.length ≤ 32 ∧ p.resultQueue.length ≤ 64 ∧ p.buffer.length ≤ 16 ∧ p.waiting.length ≤ 96 ∧
    (p.waiting ≠ [] → p.logEnabled = true ∧ p.buffer.length = 16) ∧
    (p.writer = none ↔ p.buffer = []) ∧ (p.logEnabled = false → p.buffer.length ≤ 1) ∧
    p.writeIndex < p.logLength * 128

/-- The Publisher of the part keeps its bounds. -/
abbrev PublisherOk (s : State) : Prop := s.publisher.Ok

/-- The Running Order holds exactly the entered competitors, each once, sorted by R151 (R150). -/
abbrev Order.Ok (o : Order) (rs : Records) : Prop :=
  o.list.Nodup ∧ (∀ c : CompNo, c ∈ o.list ↔ rs[c].entered = true) ∧
    o.list.Pairwise (fun a b => sortsAhead rs a b = true)

/-- The Running Order is as R150 and R151 say; a competitor in INACTIVE or STANDBY is not entered, and in session
SETUP and STANDBY nobody is (R139, R140, R150). -/
abbrev OrderOk (s : State) : Prop :=
  s.order.Ok s.engine.records ∧
    (∀ c : CompNo, s.engine.records[c].state = .inactive ∨ s.engine.records[c].state = .standby →
      s.engine.records[c].entered = false) ∧
    (s.session.state = .setup ∨ s.session.state = .standby →
      ∀ c : CompNo, s.engine.records[c].entered = false)

/-- A walk is in flight. -/
def Serving.isWalking : Serving → Bool
  | .walking _ => true
  | .idle => false
  | .delivering _ _ => false

/-- The Resolver Cache holds at most 32 entries, at most one for each code, and no NO_ROOT entry and no word
address; while no root is set it is empty and no walk is in flight (R56, R66). -/
abbrev Resolver.Ok (r : Resolver) : Prop :=
  r.cache.length ≤ 32 ∧ (r.cache.map CacheEntry.code).Nodup ∧
    (∀ e ∈ r.cache, ∀ f a, e.outcome = .fault f a → f ≠ .noRoot ∧ a = none) ∧
    (r.root = none → r.cache = [] ∧ r.serving.isWalking = false)

/-- The Resolver of the part keeps its bounds. -/
abbrev ResolverOk (s : State) : Prop := s.resolver.Ok

/-- The Intake Queue, the Request Queue and the Reply Queue keep their bounds, and the Reply Queue has a place
for the reply of the table request in progress (R46, R189, R190, R192). -/
abbrev QueuesOk (s : State) : Prop :=
  s.intake.queue.length ≤ 32 ∧ s.mu.queue.length ≤ 4 ∧ s.mu.replies.length ≤ 4 ∧
    (s.mu.table ≠ none → s.mu.replies.length < 4)

/-- The dead-band of a line, in ms (R75). -/
def Course.bandOf (k : Course) : Line → Nat
  | .point q => match k.points[q] with
    | some p => k.loops[p.primary].deadBand
    | none => 0
  | .loop l => k.loops[l].deadBand

/-- No two entries of a settle list are at one line within its dead-band (R87); in session SETUP and CLOSED every
list is empty (R90, R101). -/
abbrev ListsApart (s : State) : Prop :=
  (s.session.state = .setup ∨ s.session.state = .closed → ∀ c : CompNo, s.settle.lists[c] = []) ∧
    ∀ c : CompNo, s.settle.lists[c].Pairwise fun a b => a.line = b.line →
      s.course.bandOf a.line * 1000 < ((a.time : Int) - b.time).natAbs

/-- The last applied passing time of a competitor is not above the time of any entry of its settle list, so that
applied times do not decrease (R91, R99). -/
abbrev AppliedOk (s : State) : Prop :=
  ∀ c : CompNo, ∀ m ∈ s.engine.records[c].lastApplied, ∀ e ∈ s.settle.lists[c], m.time ≤ e.time

/-- The point that a course role names is loaded: a load gives the roles of its point, and a clear takes every role
with the points (R78, R79). -/
abbrev Course.RolesLoaded (k : Course) : Prop :=
  ∀ (l : LoopNo) (q : PointNo), k.loops[l].role.index = some q → k.points[q] ≠ none

/-- An UNSET clock stands at 0 with no loop aligned (R17, R20, R40); the guard's first unit is not above its last
(R179); a session that is open has a valid course (R84), and none in SETUP or STANDBY is neutral (R136); the points
that the course roles name are loaded (R78, R79). -/
abbrev RegistersOk (s : State) : Prop :=
  (s.cau.clock.state = .unset → s.cau.clock.cycle = 0 ∧ ∀ l : LoopNo, s.cau.records[l].state = .unsynced) ∧
  (s.tmp.guard.first ≤ s.tmp.guard.last) ∧
  (s.session.state ≠ .setup → s.course.validity = .valid) ∧
  (s.session.state = .setup ∨ s.session.state = .standby → s.session.neutral = false) ∧
  s.course.RolesLoaded

/-! ## The ranges of registers and counts, block by block -/

/-- The top of the range of track time in µs (00_scope.md section 7). -/
abbrev topTime : Nat := 4294967295999

/-- Every number of the list is at most `n`. -/
abbrev Within (n : Nat) (l : List Nat) : Prop := ∀ v ∈ l, v ≤ n

/-- An optional number that is present is at most `n`. -/
abbrev OptWithin (n : Nat) (o : Option Nat) : Prop := ∀ v ∈ o, v ≤ n

/-- The counts of a direction (R3, R5, R12). -/
abbrev Lane.InRange (x : Lane) : Prop :=
  Within 65535 [x.markErrors, x.slips] ∧
    ∀ k : Slot, Within 65535 [x.counts[k].bad, x.counts[k].foreign, x.counts[k].overwrite]

/-- A missing-mark run of 3 and a good-mark run of 2 are over in the step that reaches them (R16, R18, R19). -/
abbrev TrackClock.InRange (k : TrackClock) : Prop :=
  k.missingRun ≤ 2 ∧ k.goodRun ≤ 1 ∧ Within 65535 [k.losses, k.steps, k.offSlotBeacons]

/-- A record of the Loop Alignment Table; three rate faults in a row are over in the step that reaches them (R23,
R29, R30). -/
abbrev AlignRec.InRange (r : AlignRec) : Prop :=
  -16384 ≤ r.rate ∧ r.rate ≤ 16383 ∧ r.consecutive ≤ 2 ∧ Within 4294967295000 [r.anchorTime, r.lastBeacon] ∧
    Within 65535 [r.accepted, r.close, r.rateFaults, r.steps, r.unresolved]

/-- The CAU, with the ranges of its parameters (R194). -/
abbrev Cau.InRange (k : Cau) : Prop :=
  k.clock.InRange ∧ (∀ l : LoopNo, k.records[l].InRange) ∧
    (10 ≤ k.residualTolerance ∧ k.residualTolerance ≤ 5000) ∧ (1 ≤ k.beaconTimeout ∧ k.beaconTimeout ≤ 60) ∧
    (10 ≤ k.holdoverLimit ∧ k.holdoverLimit ≤ 3600)

/-- The eleven counts of a loop (R48). -/
abbrev IntakeCounts.InRange (k : IntakeCounts) : Prop :=
  Within 65535 [k.accepted, k.clamped, k.misrouted, k.malformed, k.disabled, k.idleDiscard, k.unsynced, k.weak,
    k.future, k.stale, k.overflowed]

/-- Intake: its counts and the times of its records (R45, R48). -/
abbrev Intake.InRange (q : Intake) : Prop :=
  (∀ r ∈ q.queue, r.time ≤ topTime) ∧ Within 65535 [q.offSlot, q.episodes, q.longestWait] ∧
    ∀ l : LoopNo, q.counts[l].InRange

/-- The record that the Resolver serves. -/
def Serving.record? : Serving → Option IntakeRec
  | .idle => none
  | .walking w => some w.record
  | .delivering r _ => some r

/-- The seventeen counts of the Resolver (R71). -/
abbrev ResolverCounts.InRange (k : ResolverCounts) : Prop :=
  Within 65535 [k.served, k.hits, k.walks, k.reads, k.seenUpdates, k.competitors, k.unknowns, k.unknownRepeats,
    k.noRoot, k.badType, k.badCompetitor, k.aliasChain, k.faultHits, k.fills, k.suppressed, k.evictions, k.flushes]

/-- The Resolver: its counts and the time of the record that it serves (R45, R71). -/
abbrev Resolver.InRange (r : Resolver) : Prop :=
  (∀ x ∈ r.serving.record?, x.time ≤ topTime) ∧ r.counts.InRange

/-- The course: the point count is the highest loaded index plus one (R72); transits, windows, floors, dead-bands
and distances (R72, R74, R76). -/
abbrev Course.InRange (k : Course) : Prop :=
  k.count ≤ 16 ∧
    (∀ q : PointNo, k.points[q] ≠ none → q.val < k.count) ∧
    (∀ q : PointNo, q.val + 1 = k.count → k.points[q] ≠ none) ∧
    (∀ q : PointNo, ∀ p ∈ k.points[q], p.minTransit ≤ 600000) ∧
    (∀ l : LoopNo, k.loops[l].window ≤ 255 ∧ k.loops[l].floor ≤ 255 ∧ k.loops[l].deadBand ≤ 10000) ∧
    ∀ i : Fin 4, ∀ t ∈ k.traps[i], 1 ≤ t.distance ∧ t.distance ≤ 200000

/-- The twelve counts of Settle (R102). -/
abbrev SettleCounts.InRange (k : SettleCounts) : Prop :=
  Within 65535 [k.insertions, k.merges, k.backupOverruled, k.duplicates, k.late, k.expiries, k.forcedFull,
    k.poolEmpty, k.sessionDiscards, k.inactive, k.retireDiscards, k.closeDiscards]

/-- Settle: the interval, the high-water mark, the counts and the times of its entries (R86, R102, R194). -/
abbrev Settle.InRange (p : Settle) : Prop :=
  p.interval ≤ 2000 ∧ p.highWater ≤ 256 ∧ (∀ c : CompNo, ∀ e ∈ p.lists[c], e.time ≤ topTime) ∧ p.counts.InRange

/-- A competitor record: its numbers, its times, and its sector and trap tables (R104, R105). -/
abbrev Competitor.InRange (r : Competitor) : Prop :=
  (r.raceNumber ≤ 999 ∧ r.class_ ≤ 7 ∧ r.laps ≤ 65535 ∧ r.pitCount ≤ 255 ∧ r.lastCrossing ≤ topTime) ∧
    (OptWithin topTime (r.lastPoint.map LastPoint.time) ∧ OptWithin topTime r.lapStart ∧
      OptWithin topTime (r.lastApplied.map AppliedMark.time) ∧ OptWithin topTime r.pitEntry ∧
      OptWithin topTime (r.bestLap.map BestLap.time) ∧ OptWithin 65535 (r.bestLap.map BestLap.lap)) ∧
    (∀ i : PointNo, OptWithin topTime (r.sectors[i].map SectorTime.time)) ∧
    (∀ i : PointNo, OptWithin topTime r.bestSectors[i]) ∧
    ∀ i : Fin 4, OptWithin topTime (r.trapStarts[i].map TrapStart.time)

/-- The twelve counts of the Engine (R135). -/
abbrev EngineCounts.InRange (k : EngineCounts) : Prop :=
  Within 65535 [k.settled, k.forced, k.poolEmpty, k.passOnly, k.appliedInFull, k.implausible, k.entries, k.pitMoves,
    k.trapRejected, k.mergedSectors, k.inferredLaps, k.silences]

/-- The Engine (R104, R105, R135, R194). -/
abbrev Engine.InRange (e : Engine) : Prop :=
  (∀ c : CompNo, e.records[c].InRange) ∧
    (e.silenceLimit = 0 ∨ (10 ≤ e.silenceLimit ∧ e.silenceLimit ≤ 3600)) ∧ e.counts.InRange

/-- The session best (R154). -/
abbrev Order.InRange (o : Order) : Prop :=
  OptWithin topTime (o.best.map SessionBest.time) ∧ OptWithin 65535 (o.best.map SessionBest.lap)

/-- The nine counts of the Publisher (R170). -/
abbrev PublisherCounts.InRange (k : PublisherCounts) : Prop :=
  Within 65535 [k.published, k.held, k.released, k.discarded, k.clearDiscarded, k.holdOverflow, k.lineDrop,
    k.entriesWritten, k.alertLost]

/-- The Publisher: a ring inside table memory (R167, R169), its counts, and the track times of its results (R158). -/
abbrev Publisher.InRange (p : Publisher) : Prop :=
  (1 ≤ p.logLength ∧ p.logLength ≤ 64 ∧ p.logBase + p.logLength ≤ 256) ∧ p.counts.InRange ∧
    (∀ r ∈ p.hold, r.time ≤ topTime) ∧ (∀ r ∈ p.waiting, r.time ≤ topTime) ∧
    (∀ r ∈ p.buffer, r.time ≤ topTime) ∧ ∀ r ∈ p.resultQueue, r.time ≤ topTime

/-- The TMP: the guard and the counts (R179, R188). -/
abbrev Tmp.InRange (t : Tmp) : Prop :=
  Within 255 [t.guard.first, t.guard.last] ∧
    Within 65535 [t.protectedCount, t.grantsResolver, t.grantsLog, t.grantsManagement, t.grantsSweep]

/-- The report of a sweep (R183, R184). -/
abbrev SweepReport.InRange (r : SweepReport) : Prop :=
  Within 65535 [r.tables, r.competitors, r.aliases, r.absents, r.faults, r.visited, r.seenCleared, r.aliasAbsent] ∧
    r.faultAddrs.length ≤ 8 ∧ ∀ c : CompNo, r.audit[c] ≤ 255

/-- The counts of the MU (R193). -/
abbrev MuCounts.InRange (k : MuCounts) : Prop :=
  Within 65535 [k.delivered, k.dropped, k.begun, k.ok, k.clamped, k.busy, k.state, k.range, k.protected_, k.format,
    k.notSupported]

/-- Every register, parameter and count of every block stays in the range that the manual gives it, and every time
that the part holds in the range of track time. -/
abbrev RangesOk (s : State) : Prop :=
  (s.lif.up.InRange ∧ s.lif.down.InRange) ∧ s.cau.InRange ∧ s.intake.InRange ∧ s.resolver.InRange ∧
    s.course.InRange ∧ s.settle.InRange ∧ s.engine.InRange ∧ s.order.InRange ∧
    OptWithin topTime s.session.greenTime ∧ s.publisher.InRange ∧ s.tmp.InRange ∧ s.sweep.report.InRange ∧
    s.mu.counts.InRange

end Sys2Proof.Machine
end

