-- ==== Sys2Proof/WellFormed.lean ====
section
/-! DEFINITION. Well-formed commands: a command names only slots, loops and competitors that the part has. -/

namespace Sys2Proof

/-- The ranges of the operands: slots 0 to 39 (R1), loops 0 to 31 (R23), competitors 0 to 95 (R104). Every
other operand lies in its range by its type. -/
def Instr.wellFormed : Instr → Bool
  | .cellReceipt _ slot _ => decide (slot < 40)
  | .loopHoldover loop => decide (loop < 32)
  | .loopUnsynced loop => decide (loop < 32)
  | .settleExpiry competitor => decide (competitor < 96)
  | .silent competitor => decide (competitor < 96)
  | .cycleMarkGood _ _ | .cycleMarkBad _ | .cycleMarkMissing _ | .searchingMarkPeriod
  | .outboundCycleStart | .outboundSlotSend _ | .beaconHandling | .passingIntake | .resolverLookup
  | .arbiterGrant | .walkReadComplete | .seenUpdateComplete | .settleTaking | .unknownDelivery
  | .resolveFaultDelivery | .logWordWriteComplete | .unsupportedRequest | .slotMapWrite | .rootSet
  | .resolverFlush | .coursePointLoad | .courseClear | .loopConfig | .trapLoad | .courseRead
  | .rosterWrite | .rosterRemove | .retire | .reinstate | .lapAdjust | .openSession | .green
  | .neutralOn | .neutralOff | .chequer | .close | .clear | .orderRead | .release | .discard | .logSet
  | .tableRead | .tableReadWordComplete | .tableWrite | .tableWriteWordComplete | .guardSet
  | .sweepStart | .suspend | .resume | .stop | .sweepReadComplete | .sweepFlagUpdateComplete
  | .aliasTargetReadComplete | .paramWrite | .statusRead | .competitorRead | .resetPart _
  | .partReset _ => true

end Sys2Proof
end

