-- ==== Sys2Proof/Certificates/Slice0/Obligations.lean ====
section
/-! DEFINITION. The statements about the part. Logs named in a docstring are entries of notes/assumptions. -/

open Sys2Proof Sys2Proof.Machine

/-! ## Steps and reset -/

/-- A step is the front command on the part with the rest of the queue; with no command waiting the part idles (the
model's choice, logs 1 and 2). Every well-formed command has a next state, in every state (the faults are the
model's, log 16). -/
def Obligations.StepRunsFrontCommand : Prop :=
  ((∀ (s : State) (c : Instr) (rest : List Instr), s.pending = c :: rest →
    step s = exec c { s with pending := rest }) ∧
  ∀ s : State, s.pending = [] → step s = .next s) ∧
  (∀ (s : State) (c : Instr), Instr.wellFormed c = true → ∃ t, exec c s = .next t)

/-- What a part reset leaves in every block, for every position of the straps. State.reset has them all low (the
model's choice, log 6), reads table memory as 0 (log 4) and has no command waiting; the fields that are the
model's own (the cells delivered, the item last sent, the owed tests, the taking order, the requesters that
follow an access and the access of a stopped sweep: logs 3, 17, 7, 19, 11 and 13) stand at the values given. -/
def Obligations.ResetValues : Prop :=
  State.reset = State.resetWith 0 ∧ State.reset.tmp.mem = [] ∧ State.reset.pending = [] ∧
  ∀ straps : BitVec 3,
    let t := State.resetWith straps
    t.lif.address = straps ∧ t.lif.outCount = 0 ∧
    (∀ k : Slot, t.lif.up.inForce[k] =
      if k.val < 32 then .copy else if k.val = 32 + straps.toNat then .insert else .pass) ∧
    (∀ k : Slot, t.lif.down.inForce[k] = if k.val = 32 then .inspect else .pass) ∧
    t.lif.up.staged = t.lif.up.inForce ∧ t.lif.down.staged = t.lif.down.inForce ∧
    t.lif.started = false ∧
    (∀ d : Direction, (t.lif.lane d).framing = .searching ∧ (t.lif.lane d).slips = 0 ∧
      (t.lif.lane d).markErrors = 0 ∧ (t.lif.lane d).outSlot = none ∧ (t.lif.lane d).lineOut = none ∧
      ∀ k : Slot, (t.lif.lane d).buffer[k] = .empty ∧ (t.lif.lane d).counts[k] = ⟨0, 0, 0⟩) ∧
    t.lif.toIntake = [] ∧ t.lif.toCau = [] ∧
    t.cau.clock =
      { state := .unset, cycle := 0, missingRun := 0, goodRun := 0, losses := 0, steps := 0, offSlotBeacons := 0 } ∧
    t.now = 0 ∧
    (∀ l : LoopNo, t.cau.records[l] =
      { state := .unsynced, anchorTick := 0, anchorTime := 0, rate := 0, lastBeacon := 0, accepted := 0, close := 0
        rateFaults := 0, steps := 0, unresolved := 0, consecutive := 0, testOwed := false }) ∧
    t.cau.residualTolerance = 250 ∧ t.cau.beaconTimeout = 5 ∧ t.cau.holdoverLimit = 120 ∧
    t.intake.queue = [] ∧ t.intake.overflow = .normal ∧ t.intake.offSlot = 0 ∧ t.intake.episodes = 0 ∧
    t.intake.longestWait = 0 ∧ (∀ l : LoopNo, t.intake.counts[l] = ⟨0, 0, 0, 0, 0, 0, 0, 0, 0, 0, 0⟩) ∧
    t.resolver = ⟨none, 0, .idle, [], ⟨0, 0, 0, 0, 0, 0, 0, 0, 0, 0, 0, 0, 0, 0, 0, 0, 0⟩⟩ ∧
    t.course.count = 0 ∧ (∀ q : PointNo, t.course.points[q] = none) ∧
    (∀ l : LoopNo, t.course.loops[l] = ⟨false, .none, .none, 24, 40, 1000⟩) ∧
    (∀ i : Fin 4, t.course.traps[i] = none) ∧
    t.settle.interval = 150 ∧ t.settle.free = 256 ∧ t.settle.highWater = 0 ∧ t.settle.nextOrder = 0 ∧
    (∀ c : CompNo, t.settle.lists[c] = []) ∧ t.settle.counts = ⟨0, 0, 0, 0, 0, 0, 0, 0, 0, 0, 0, 0⟩ ∧
    (∀ c : CompNo, t.engine.records[c] =
      { state := .inactive, raceNumber := 0, class_ := 0, entered := false, laps := 0, lastPoint := none
        lapStart := none, lapWorst := .good, sectors := Vector.replicate 16 none, lastCrossing := 0
        lastApplied := none, pitCount := 0, pitEntry := none, lapPit := false, sectorPit := false
        lapNeutral := false, sectorNeutral := false, bestLap := none, bestSectors := Vector.replicate 16 none
        trapStarts := Vector.replicate 4 none, silenceAlerted := false, silenceTestOwed := false }) ∧
    t.engine.silenceLimit = 300 ∧ t.engine.counts = ⟨0, 0, 0, 0, 0, 0, 0, 0, 0, 0, 0, 0⟩ ∧
    t.order = ⟨[], none⟩ ∧ t.session = ⟨.setup, none, none, false, .none⟩ ∧
    t.publisher =
      { hold := [], waiting := [], buffer := [], resultQueue := [], sequence := 0, logEnabled := false, logBase := 0
        logLength := 1, writeIndex := 0, wrapped := false, writer := none
        counts := ⟨0, 0, 0, 0, 0, 0, 0, 0, 0⟩ } ∧
    t.tmp =
      { mem := [], inProgress := none, following := [], guard := ⟨false, false, 0, 0⟩, protectedCount := 0
        grantsResolver := 0, grantsLog := 0, grantsManagement := 0, grantsSweep := 0 } ∧
    t.sweep =
      { state := .idle, mode := none, root := 0, pos := ⟨0, none, none, .entry⟩
        report := ⟨0, 0, 0, 0, 0, [], 0, 0, Vector.replicate 96 0, 0, false⟩, stale := none } ∧
    t.mu = ⟨[], [], none, ⟨0, 0, 0, 0, 0, 0, 0, 0, 0, 0, 0⟩⟩

/-- PART_RESET completes in every state: every block at its reset values with the straps read again, table memory
unchanged but for the access in progress, which is made whole; the model's own queue of commands and free-choice
counter stay (logs 1 and 8). RESET_PART, begun with no parameters, is the same reset and places no reply; with a
wrong declared length it is refused with FORMAT. -/
def Obligations.PartReset : Prop :=
  (∀ (straps : BitVec 3) (s : State),
    let t (mem : List Host.Cell) : State :=
      { State.resetWith straps with
        tmp := { mem := mem }, pending := s.pending, freeCounter := s.freeCounter }
    (s.tmp.inProgress = none → exec (.partReset straps) s = .next (t s.tmp.mem)) ∧
    (∀ q a, s.tmp.inProgress = some (q, .read a) → exec (.partReset straps) s = .next (t s.tmp.mem)) ∧
    (∀ q a w, s.tmp.inProgress = some (q, .write a w) →
      exec (.partReset straps) s = .next (t (writeWord s.tmp.mem a w))) ∧
    (∀ q a l b, s.tmp.inProgress = some (q, .flag a l b) →
      exec (.partReset straps) s = .next (t (match seenUpdate l b (readWord s.tmp.mem a) with
        | some w => writeWord s.tmp.mem a w
        | none => s.tmp.mem)))) ∧
  (∀ (straps : BitVec 3) (s : State) (r : Request) (rest : List Request),
    Begins s r rest → r.code.toNat = 0x05 →
    (r.length.toNat = 0 → exec (.resetPart straps) s = exec (.partReset straps) s) ∧
    (r.length.toNat ≠ 0 → exec (.resetPart straps) s = .next (refusedState s r rest .format)))

/-! ## The loop line and the track clock -/

/-- Marks set the framing of Track-in, and a bad one raises its mark-error count; they reach nothing else of the
part. A bad or a missing mark on a port that is SEARCHING, Track-in or Control-in, is no step of it and changes
nothing (log 1). -/
def Obligations.MarksSetFraming : Prop :=
  ∀ s : State,
    (∀ n, exec (.cycleMarkGood .trackIn n) s =
      .next { s with lif := { s.lif with up := { s.lif.up with framing := .framed } } }) ∧
    (s.lif.up.framing = .framed →
      exec (.cycleMarkBad .trackIn) s =
        .next { s with lif := { s.lif with up :=
          { s.lif.up with framing := .searching, markErrors := bump s.lif.up.markErrors } } } ∧
      exec (.cycleMarkMissing .trackIn) s =
        .next { s with lif := { s.lif with up := { s.lif.up with framing := .searching } } }) ∧
    (s.lif.up.framing = .searching →
      exec (.cycleMarkBad .trackIn) s = .next s ∧ exec (.cycleMarkMissing .trackIn) s = .next s) ∧
    (s.lif.down.framing = .searching →
      exec (.cycleMarkBad .controlIn) s = .next s ∧ exec (.cycleMarkMissing .controlIn) s = .next s)

/-- A good mark on Control-in frames the port and is reported to the track clock: taken at once while UNSET, adopted
while LOCKED, counted while FREE_RUN and adopted on the second in a row. A bad or absent mark on a framed
Control-in, which returns to SEARCHING, and a period without a mark while it is SEARCHING, are reported as
missing. A change of the clock changes the clock alone, and owes every loop and competitor its test where now
changed (the marks of the owed tests are the model's own, log 7). -/
def Obligations.ControlInMarksMoveClock : Prop :=
  (∀ (s : State) (n : Tick),
    let f := { s with lif := { s.lif with down := { s.lif.down with framing := .framed } } }
    ∃ t, exec (.cycleMarkGood .controlIn n) s = .next t ∧
      (s.cau.clock.state = .unset →
        t = f.withClock { s.cau.clock with cycle := n, state := .locked, missingRun := 0, goodRun := 0 }) ∧
      (s.cau.clock.state = .locked → Adopts f t n) ∧
      (s.cau.clock.state = .freeRun → s.cau.clock.goodRun = 0 →
        t = f.withClock { s.cau.clock with cycle := s.cau.clock.cycle + 1, goodRun := 1 }) ∧
      (s.cau.clock.state = .freeRun → s.cau.clock.goodRun ≠ 0 → Adopts f t n)) ∧
  (∀ s : State,
    (s.lif.down.framing = .framed →
      (∃ t, exec (.cycleMarkBad .controlIn) s = .next t ∧
        MissingReport
          { s with lif := { s.lif with down :=
            { s.lif.down with framing := .searching, markErrors := bump s.lif.down.markErrors } } } t) ∧
      (∃ t, exec (.cycleMarkMissing .controlIn) s = .next t ∧
        MissingReport
          { s with lif := { s.lif with down := { s.lif.down with framing := .searching } } } t) ∧
      exec .searchingMarkPeriod s = .next s) ∧
    (s.lif.down.framing = .searching → ∃ t, exec .searchingMarkPeriod s = .next t ∧ MissingReport s t)) ∧
  (∀ (s : State) (k : TrackClock),
    (k.cycle = s.cau.clock.cycle → s.withClock k = { s with cau := { s.cau with clock := k } }) ∧
    (k.cycle ≠ s.cau.clock.cycle →
      ∃ t, s.withClock k = t ∧
        t = { s with
          cau := { s.cau with clock := k, records := t.cau.records }
          engine := { s.engine with records := t.engine.records } } ∧
        (∀ l : LoopNo, t.cau.records[l] = { s.cau.records[l] with testOwed := true }) ∧
        ∀ c : CompNo, t.engine.records[c] = { s.engine.records[c] with silenceTestOwed := true }))

/-- The receipt of a cell on a framed port: what its slot's action places, counts and delivers; nothing is received
while the port is SEARCHING, and a slot above 39 is a fault (log 16). What a received cell carries: the check
over its first 30 bytes, bit by bit, against bytes 30 and 31; its kind by byte 0, every value but the six named
ones FOREIGN; and the destination, tag, code, declared length and 22 parameter bytes of a REQUEST. The lists of
delivered cells, and that a dropped request counts as delivered, are the model's (logs 3 and 15). -/
def Obligations.CellReceipt : Prop :=
  (∀ (s : State) (d : Direction) (k : Slot) (c : Cell),
    let lane := s.lif.lane d
    let a := lane.inForce[k]
    let good := cellCheckGood c
    let mine := cellKind c = .request ∧ requestDest c = s.lif.address.toNat
    let passing := d = .upstream ∧ cellKind c = .passing
    let beacon := d = .upstream ∧ cellKind c = .beacon
    let used := good = true ∧ (a = .copy ∨ a = .take) ∧ cellKind c ≠ .idle
    let toMu := (used ∧ d = .downstream ∧ mine) ∨ (good = true ∧ a = .inspect ∧ mine)
    (lane.framing = .searching → exec (.cellReceipt d k.val c) s = .next s) ∧
    (lane.framing = .framed → ∃ t, exec (.cellReceipt d k.val c) s = .next t ∧
      t = { s with lif := t.lif, mu := t.mu } ∧
      t.lif = { s.lif.setLane d (t.lif.lane d) with toIntake := t.lif.toIntake, toCau := t.lif.toCau } ∧
      t.lif.lane d = { lane with
        buffer := lane.buffer.set k
          (if (a = .take ∧ used) ∨ (a = .inspect ∧ toMu) then .taken else .cell c)
        slips := if lane.buffer[k] = .empty then lane.slips else bump lane.slips
        counts := lane.counts.set k { lane.counts[k] with
          bad := if (a = .copy ∨ a = .take ∨ a = .inspect) ∧ good = false
            then bump lane.counts[k].bad else lane.counts[k].bad
          foreign := if used ∧ ¬ passing ∧ ¬ beacon ∧ ¬ toMu
            then bump lane.counts[k].foreign else lane.counts[k].foreign } } ∧
      t.lif.toIntake = (if used ∧ passing then s.lif.toIntake ++ [(k, c)] else s.lif.toIntake) ∧
      t.lif.toCau = (if used ∧ beacon then s.lif.toCau ++ [(k, c)] else s.lif.toCau) ∧
      t.mu = (if toMu then
          { s.mu with
            queue := if s.mu.queue.length < 4 then s.mu.queue ++ [readRequest c] else s.mu.queue
            counts := { s.mu.counts with
              delivered := bump s.mu.counts.delivered
              dropped := if s.mu.queue.length < 4 then s.mu.counts.dropped
                else bump s.mu.counts.dropped } }
        else s.mu)) ∧
    ∀ n : Nat, 40 ≤ n → exec (.cellReceipt d n c) s = .fault .noSuchSlot) ∧
  (let feed (r : BitVec 16) (bit : Bool) : BitVec 16 := if r.msb = bit then r <<< 1 else (r <<< 1) ^^^ 0x1021
  let check (l : List Byte) : BitVec 16 :=
    ((l.map fun b => (List.range 8).map fun i => b.getLsbD (7 - i)).flatten).foldl feed 0xFFFF
  let kinds : List (Nat × CellKind) :=
    [(0x00, .idle), (0x11, .passing), (0x12, .beacon), (0x21, .request), (0x22, .reply), (0x31, .result)]
  ∀ cell : Cell,
    (cellCheckGood cell = true ↔ cell[30] ++ cell[31] = check (cell.toList.take 30)) ∧
    (∀ row ∈ kinds, cell[0].toNat = row.1 → cellKind cell = row.2) ∧
    (cell[0].toNat ∉ kinds.map Prod.fst → cellKind cell = .foreign) ∧
    requestDest cell = cell[1].toNat ∧
    (readRequest cell).tag = cell[2] ∧ (readRequest cell).code = cell[3] ∧ (readRequest cell).length = cell[4] ∧
    ∀ i, (h : i < 22) → (readRequest cell).params[i] = cell[5 + i])

/-- Both directions start an outbound cycle together: the first after a part reset carries the count as reset, a
later one the clock's cycle count, or one more than the last while the clock is UNSET; the staged maps come into
force and slot 0 is next. The sending of the next slot: IDLE under BLOCK, a reply before a result under upstream
INSERT, with OVERWRITE where a cell other than IDLE is lost, and the position's content in every other case;
with no slot left nothing is sent (log 17). The bytes of what is sent: the check of a mark and of a cell, whose
method gives 0x29B1 over the digits 1 to 9; zeros in every unused byte; an IDLE cell, a REPLY, a RESULT with its
common fields, its 20 flag bits and the fields of its kind, and word j of its log entry. That every absent field
of a RESULT carries all ones, or 0 for a code, is the model's reading (log 23), and the values of a time's
presence byte are its choice (log 32). -/
def Obligations.OutboundCycles : Prop :=
  (∀ s : State,
    let n := if s.lif.started = false then s.lif.outCount
      else if s.cau.clock.state = .unset then s.lif.outCount + 1 else s.cau.clock.cycle
    exec .outboundCycleStart s = .next { s with lif := { s.lif with
      outCount := n
      started := true
      up := { s.lif.up with
        inForce := s.lif.up.staged, outSlot := some 0, lineOut := some (.mark n (markCheck n)) }
      down := { s.lif.down with
        inForce := s.lif.down.staged, outSlot := some 0, lineOut := some (.mark n (markCheck n)) } } }) ∧
  (∀ (s : State) (d : Direction),
    let lane := s.lif.lane d
    let sent (l : Lane) (k : Slot) (c : Cell) : Lane := { l with
      buffer := l.buffer.set k .empty
      outSlot := if h : k.val + 1 < 40 then some ⟨k.val + 1, h⟩ else none
      lineOut := some (.cell k c) }
    let held (k : Slot) : Cell := match lane.buffer[k] with
      | .cell c => c
      | .empty => idleCell
      | .taken => idleCell
    let lost (k : Slot) : Bool := match lane.buffer[k] with
      | .cell c => decide (cellKind c ≠ .idle)
      | .empty => false
      | .taken => false
    let counted (k : Slot) : Lane := { lane with
      counts := match lost k with
        | true => lane.counts.set k { lane.counts[k] with overwrite := bump lane.counts[k].overwrite }
        | false => lane.counts }
    (lane.outSlot = none → exec (.outboundSlotSend d) s = .next s) ∧
    ∀ k : Slot, lane.outSlot = some k →
      (lane.inForce[k] = .block → exec (.outboundSlotSend d) s =
        .next { s with lif := s.lif.setLane d (sent lane k idleCell) }) ∧
      (lane.inForce[k] ≠ .block → (lane.inForce[k] ≠ .insert ∨ d = .downstream ∨
          (s.mu.replies = [] ∧ s.publisher.resultQueue = [])) →
        exec (.outboundSlotSend d) s = .next { s with lif := s.lif.setLane d (sent lane k (held k)) }) ∧
      (lane.inForce[k] = .insert → d = .upstream →
        (∀ r rest, s.mu.replies = r :: rest → exec (.outboundSlotSend d) s = .next { s with
          lif := { s.lif with up := sent (counted k) k r.toCell }
          mu := { s.mu with replies := rest } }) ∧
        (∀ r rest, s.mu.replies = [] → s.publisher.resultQueue = r :: rest →
          exec (.outboundSlotSend d) s = .next { s with
            lif := { s.lif with up := sent (counted k) k r.toCell }
            publisher := { s.publisher with resultQueue := rest } }))) ∧
  (let feed (r : BitVec 16) (bit : Bool) : BitVec 16 := if r.msb = bit then r <<< 1 else (r <<< 1) ^^^ 0x1021
  let check (l : List Byte) : BitVec 16 :=
    ((l.map fun b => (List.range 8).map fun i => b.getLsbD (7 - i)).flatten).foldl feed 0xFFFF
  let bytes (l : List (Nat × Nat)) : List Byte := (l.map fun f => natBytes f.1 f.2).flatten
  let carries (c : Cell) (l : List Byte) : Prop :=
    let filled := (l ++ List.replicate 30 0).take 30
    c.toList = filled ++ [(check filled).extractLsb' 8 8, (check filled).extractLsb' 0 8]
  let opt (n : Nat) (v : Option Nat) : Nat × Nat := (n, v.getD (256 ^ n - 1))
  let code (v : Option Nat) : Nat × Nat := (1, v.getD 0)
  let time (v : Option Int) : List (Nat × Nat) := match v with
    | none => [(1, 0), (3, 16777215)]
    | some tu => [(1, 1), (3, tu.toNat)]
  let gap (g : Option Gap) : List (Nat × Nat) := match g with
    | none => [(1, 0), (3, 16777215)]
    | some (.time tu) => [(1, 1), (3, tu)]
    | some (.laps n) => [(1, 2), (3, n)]
  (∀ v : Nat, natBytes 0 v = [] ∧ ∀ n : Nat, natBytes (n + 1) v = natBytes n (v / 256) ++ [BitVec.ofNat 8 v]) ∧
  check [0x31, 0x32, 0x33, 0x34, 0x35, 0x36, 0x37, 0x38, 0x39] = 0x29B1 ∧
  (∀ n : Tick, markCheck n =
    check [n.extractLsb' 24 8, n.extractLsb' 16 8, n.extractLsb' 8 8, n.extractLsb' 0 8]) ∧
  carries idleCell [0x00] ∧
  ([Status.ok, .clamped, .busy, .state, .range, .protected_, .format, .notSupported].map Status.code =
      [1, 2, 3, 4, 5, 6, 7, 8] ∧
    [ResultKind.lap, .sector, .pass, .trap, .pitIn, .pitOut, .unknown, .late, .state, .session, .alert].map
      ResultKind.code = [1, 2, 3, 4, 5, 6, 7, 8, 9, 10, 11] ∧
    [Quality.good, .backup, .coarse, .unsettled, .holdover].map Quality.rank = [1, 2, 3, 4, 5] ∧
    [Level.root, .branch, .leaf, .aliasTarget].map Level.code = [1, 2, 3, 4] ∧
    [FaultCode.noRoot, .badType, .badCompetitor, .aliasChain].map FaultCode.code = [1, 2, 3, 4] ∧
    [StateChange.roster, .remove, .retire, .reinstate, .adjust].map StateChange.code = [1, 2, 3, 4, 5] ∧
    [CompState.inactive, .standby, .onTrack, .inPit, .finished, .retired].map CompState.code = [1, 2, 3, 4, 5, 6] ∧
    [SessionChange.opened, .green, .neutralOn, .neutralOff, .chequer, .close, .clear].map SessionChange.code =
      [1, 2, 3, 4, 5, 6, 7] ∧
    [SessionState.setup, .standby, .live, .chequered, .closed].map SessionState.code = [1, 2, 3, 4, 5] ∧
    [StartMode.flying, .grid].map StartMode.code = [1, 2] ∧
    [AlertCode.clockLost, .clockStep, .loopState, .loopStep, .intakeOverflow, .resolveFault, .silent, .holdOverflow,
      .sweepDone].map AlertCode.code = [1, 2, 3, 4, 5, 6, 7, 8, 9] ∧
    [AlignState.unsynced, .acquiring, .locked, .holdover].map AlignState.code = [1, 2, 3, 4] ∧
    [SweepMode.clearSeen, .audit].map SweepMode.code = [1, 2]) ∧
  (∀ r : Reply, carries r.toCell
    (bytes [(1, 0x22), (1, r.source.toNat), (1, r.tag.toNat), (1, r.code.toNat), (1, r.status.code)] ++ r.data)) ∧
  ∀ r : Result,
    let f := r.flags
    let bit (i : Nat) (b : Bool) : Nat := if b = true then 2 ^ i else 0
    let flags : Nat := bit 0 f.clampedTime + bit 1 f.saturated + bit 2 f.afterFinish + bit 3 f.retired +
      bit 4 f.implausible + bit 5 f.entered + bit 6 f.merged + bit 7 f.neutral + bit 8 f.pit + bit 9 f.pitLap +
      bit 10 f.lineMissed + bit 11 f.personalBest + bit 12 f.sessionBest + bit 13 f.finish + bit 14 f.entryMissed +
      bit 15 f.exitMissed + bit 16 f.inactive + bit 17 f.withheld + bit 18 f.released + bit 19 f.unreviewed
    let sent (l : List (Nat × Nat)) : Prop := carries r.toCell (bytes
      ([(1, 0x31), (1, r.kind.code), opt 2 (r.sequence.map BitVec.toNat), (3, flags),
        code (r.quality.map Quality.rank), opt 1 (r.competitor.map fun x => x.1.val),
        opt 2 (r.competitor.map Prod.snd), opt 1 (r.loop.map Fin.val), (6, r.time)] ++ l))
    (r.kind = .lap → sent ([opt 2 r.lapNumber] ++ time r.value ++ [opt 1 r.position] ++ gap r.gap)) ∧
    (r.kind = .sector → sent [opt 1 r.point, opt 1 r.span, opt 3 (r.value.map Int.toNat)]) ∧
    (r.kind = .pass → sent ([opt 1 r.point, opt 1 r.position] ++ gap r.gap)) ∧
    (r.kind = .trap → sent [opt 1 r.point, opt 2 (r.value.map Int.toNat)]) ∧
    (r.kind = .pitIn ∨ r.kind = .pitOut → ∀ n, r.extra = .pit n → sent ((1, n) :: time r.value)) ∧
    (r.kind = .unknown → ∀ note level, r.extra = .unknown note level →
      sent [opt 3 (r.code.map BitVec.toNat), code (level.map Level.code), opt 3 (note.map BitVec.toNat)]) ∧
    (r.kind = .late → sent [opt 3 (r.code.map BitVec.toNat), opt 3 (r.value.map Int.toNat)]) ∧
    (r.kind = .state → ∀ change new delta, r.extra = .state change new delta →
      sent ([(1, change.code), code (new.map CompState.code), opt 1 (delta.map fun d => (BitVec.ofInt 8 d).toNat),
        opt 2 r.lapNumber, opt 1 r.position] ++ gap r.gap)) ∧
    (r.kind = .session → ∀ change after mode, r.extra = .session change after mode →
      sent [(1, change.code), (1, after.code), code (mode.map StartMode.code)]) ∧
    (r.kind = .alert → ∀ alert arg, r.extra = .alert alert arg →
      let argument : Nat := match arg with
        | .none => 0
        | .loopState x => x.code
        | .fault x _ => x.code
        | .resultKind x => x.code
        | .sweepMode x => x.code
      let word : Option WordAddr := match arg with
        | .fault _ a => a
        | .none => none
        | .loopState _ => none
        | .resultKind _ => none
        | .sweepMode _ => none
      sent [(1, alert.code), opt 4 (r.value.map fun v => (BitVec.ofInt 32 v).toNat), (1, argument),
        opt 3 (r.code.map BitVec.toNat), opt 3 (word.map BitVec.toNat)]) ∧
    ∀ j, j < 8 →
      let byte (i : Nat) : Byte := r.toCell.toList.getD (4 * j + i) 0
      r.logWord j = byte 0 ++ byte 1 ++ byte 2 ++ byte 3)

/-! ## Beacons, alignment and conversion -/

/-- BEACON_HANDLING where no rate is measured. A beacon in a slot of no loop is counted off-slot, one that meets an
UNSET clock is dropped (whether one that is both is counted is the model's free value, log 25), one whose cycle
would be negative is counted unresolved, and with none delivered nothing is handled (log 1). A beacon anchors
its loop's record in UNSYNCED, and where its residual exceeds the tolerance, as a restart or as a step (the end
of the owed test is the model's own, log 7). The tick and the low 16 bits of the cycle that a BEACON cell
carries are those of its bytes 2 to 5 and 6 to 7. The list of delivered beacons is the model's (log 3). -/
def Obligations.BeaconAnchors : Prop :=
  ((∀ s : State, s.lif.toCau = [] → exec .beaconHandling s = .next s) ∧
  ∀ (s : State) (slot : Slot) (c : Cell) (rest : List (Slot × Cell)), s.lif.toCau = (slot, c) :: rest →
    let f : State := { s with lif := { s.lif with toCau := rest } }
    let k := s.cau.clock
    let counted : State := { f with cau := { s.cau with
      clock := { k with offSlotBeacons := bump k.offSlotBeacons } } }
    (32 ≤ slot.val → k.state ≠ .unset → exec .beaconHandling s = .next counted) ∧
    (32 ≤ slot.val → k.state = .unset →
      exec .beaconHandling s = .next f ∨ exec .beaconHandling s = .next counted) ∧
    (slot.val < 32 → k.state = .unset → exec .beaconHandling s = .next f) ∧
    ∀ l : LoopNo, slot.val = l.val → k.state ≠ .unset → k.cycle.toNat < beaconC16 c →
      let r := s.cau.records[l]
      exec .beaconHandling s = .next { f with cau := { s.cau with
        records := s.cau.records.set l { r with unresolved := bump r.unresolved } } }) ∧
  (∀ (s : State) (l : LoopNo) (slot : Slot) (c : Cell) (rest : List (Slot × Cell)) (b : Nat),
    BeaconAt s l slot c rest b →
    let r := s.cau.records[l]
    let a : AlignRec := { r with
      anchorTick := beaconTick c, anchorTime := b * 1000, lastBeacon := b * 1000, consecutive := 0 }
    let residual : Int := r.predict (beaconTick c) - (b * 1000 : Nat)
    let step := alertResult s.now .loopStep (some l) (some (max (-32767) (min 32767 residual))) .none
    let moved (x : AlignState) := alertResult s.now .loopState (some l) none (.loopState x)
    (r.state = .unsynced → exec .beaconHandling s =
      .next (beaconHandled s l rest { a with state := .acquiring } [moved .acquiring])) ∧
    (s.cau.residualTolerance < residual.natAbs →
      (r.state = .acquiring → exec .beaconHandling s = .next (beaconHandled s l rest a [])) ∧
      (r.state = .locked → exec .beaconHandling s =
        .next (beaconHandled s l rest { a with steps := bump r.steps } [step])) ∧
      (r.state = .holdover → exec .beaconHandling s =
        .next (beaconHandled s l rest { a with steps := bump r.steps, state := .locked }
          [step, moved .locked])))) ∧
  (∀ cell : Cell,
    beaconTick cell = cell[2] ++ cell[3] ++ cell[4] ++ cell[5] ∧
    beaconC16 cell = 256 * cell[6].toNat + cell[7].toNat)

/-- A beacon within the residual tolerance of a record that is not UNSYNCED: close, a rate fault, or accepted (the
end of the owed test is the model's own, log 7). -/
def Obligations.BeaconMeasuresRate : Prop :=
  ∀ (s : State) (l : LoopNo) (slot : Slot) (c : Cell) (rest : List (Slot × Cell)) (b : Nat),
    BeaconAt s l slot c rest b →
    let r := s.cau.records[l]
    let residual : Int := r.predict (beaconTick c) - (b * 1000 : Nat)
    let e : Int := (beaconTick c - r.anchorTick).toInt
    let measured := roundTies ((((b * 1000 : Nat) : Int) - r.anchorTime - e) * 16777216) e.toNat
    let a : AlignRec := { r with
      anchorTick := beaconTick c, anchorTime := b * 1000, lastBeacon := b * 1000, consecutive := 0
      accepted := bump r.accepted, state := .locked }
    let quarter := max (-16384) (min 16383 (r.rate + roundTies (measured - r.rate) 4))
    let moved (x : AlignState) := alertResult s.now .loopState (some l) none (.loopState x)
    let done (r' : AlignRec) (alerts : List Result) :=
      exec .beaconHandling s = .next (beaconHandled s l rest r' alerts)
    r.state ≠ .unsynced → residual.natAbs ≤ s.cau.residualTolerance →
      (e < 100000 → done { r with close := bump r.close, lastBeacon := max r.lastBeacon (b * 1000) } []) ∧
      (100000 ≤ e →
        (measured < -16384 ∨ 16383 < measured →
          (r.consecutive < 2 → done
            { r with rateFaults := bump r.rateFaults, consecutive := r.consecutive + 1 } []) ∧
          (2 ≤ r.consecutive → done
            { r with rateFaults := bump r.rateFaults, consecutive := 0, state := .unsynced }
            [moved .unsynced])) ∧
        (-16384 ≤ measured → measured ≤ 16383 →
          (r.state = .acquiring → done { a with rate := measured } [moved .locked]) ∧
          (r.state = .locked → done { a with rate := quarter } []) ∧
          (r.state = .holdover → done { a with rate := quarter } [moved .locked])))

/-- The conversion of a tick: elapsed ticks as a signed 32-bit difference, the correction E × k / 2^24 rounded to
nearest with ties away from zero, and the time clamped to the range of track time with its mark. The same
rounding is that of a rate and of a quarter of one. -/
def Obligations.TickConversion : Prop :=
  (∀ (r : AlignRec) (tick : Tick) (e c : Int), -2147483648 ≤ e → e ≤ 2147483647 →
    tick = r.anchorTick + BitVec.ofInt 32 e →
    2 * (e * r.rate - c * 16777216).natAbs ≤ 16777216 →
    (2 * (e * r.rate - c * 16777216).natAbs = 16777216 → (e * r.rate).natAbs < (c * 16777216).natAbs) →
    r.predict tick = r.anchorTime + e + c ∧
    r.convert tick =
      if r.anchorTime + e + c < 0 then (0, true)
      else if 4294967295999 < r.anchorTime + e + c then (4294967295999, true)
      else ((r.anchorTime + e + c).toNat, false)) ∧
  (∀ (n q : Int) (d : Nat), 0 < d →
    (roundTies n d = q ↔
      2 * (n - q * d).natAbs ≤ d ∧ (2 * (n - q * d).natAbs = d → n.natAbs < (q * d).natAbs)))

/-- The beacon timeout and the holdover limit: at a test that the last change of now owes, a LOCKED record past the
timeout becomes HOLDOVER and an ACQUIRING or HOLDOVER one past the limit UNSYNCED, each with its alert; every
other record stays (that a test is owed is the model's own, log 7). A loop above 31 is a fault (log 16). -/
def Obligations.LoopTimeouts : Prop :=
  (∀ (s : State) (l : LoopNo),
    let r := s.cau.records[l]
    let moved (r' : AlignRec) : State := { s with
      cau := { s.cau with records := s.cau.records.set l r' }
      publisher := s.publisher.alert (alertResult s.now .loopState (some l) none (.loopState r'.state)) }
    (r.testOwed = true → r.state = .locked → r.lastBeacon + s.cau.beaconTimeout * 1000000 < s.now →
      exec (.loopHoldover l.val) s = .next (moved { r with state := .holdover })) ∧
    (r.testOwed = true → r.state = .acquiring ∨ r.state = .holdover →
      r.lastBeacon + s.cau.holdoverLimit * 1000000 < s.now →
      exec (.loopUnsynced l.val) s =
        .next (moved { r with state := .unsynced, consecutive := 0, testOwed := false })) ∧
    (r.testOwed = false ∨ r.state ≠ .locked ∨ s.now ≤ r.lastBeacon + s.cau.beaconTimeout * 1000000 →
      exec (.loopHoldover l.val) s = .next s) ∧
    (r.testOwed = false ∨ r.state = .locked ∨ r.state = .unsynced ∨
        s.now ≤ r.lastBeacon + s.cau.holdoverLimit * 1000000 →
      exec (.loopUnsynced l.val) s = .next s)) ∧
  ∀ (s : State) (n : Nat), 32 ≤ n →
    exec (.loopHoldover n) s = .fault .noSuchLoop ∧ exec (.loopUnsynced n) s = .fault .noSuchLoop

/-! ## Passing Intake -/

/-- The reduction of the hits of a cell: the peak strength is the greatest, the mean offset is the whole quotient of
2N + D divided by 2D over the hits that reach the threshold, and the order of the hits does not matter. -/
def Obligations.HitReduction : Prop :=
  (∀ (p : PassingCell) (window : Nat), p.valid ≠ [] →
    let top := peakStrength p.valid
    let low := top - window
    let weight (h : Nat × Nat) : Nat := if low ≤ h.2 then h.2 - low + 1 else 0
    let n := (p.valid.map fun h => h.1 * weight h).sum
    let d := (p.valid.map weight).sum
    (∀ h ∈ p.valid, h.2 ≤ top) ∧ (∃ h ∈ p.valid, h.2 = top) ∧ 0 < d ∧
      p.tick window = p.base + BitVec.ofNat 32 ((2 * n + d) / (2 * d))) ∧
  ∀ (p p' : PassingCell) (window : Nat), p.valid.Perm p'.valid → p.base = p'.base →
    p.tick window = p'.tick window

/-- PASSING_INTAKE: a cell that fails a test is discarded, and the count of the first test that it fails rises for
the loop of its slot; one in a slot of no loop is counted off-slot; with none delivered nothing is processed
(log 1). A cell that passes every test yields its intake record, which joins a queue of fewer than 32; at a full
queue it is dropped and counted, and the first drop of an episode raises the alert. The loop, code, h, base tick
and six hits of a PASSING cell are those of its bytes, and the first h hits count. The list of delivered cells
is the model's (log 3). -/
def Obligations.PassingIntake : Prop :=
  ((∀ s : State, s.lif.toIntake = [] → exec .passingIntake s = .next s) ∧
  ∀ (s : State) (slot : Slot) (c : Cell) (rest : List (Slot × Cell)), s.lif.toIntake = (slot, c) :: rest →
    let f : State := { s with lif := { s.lif with toIntake := rest } }
    (32 ≤ slot.val → exec .passingIntake s =
      .next { f with intake := { s.intake with offSlot := bump s.intake.offSlot } }) ∧
    ∀ (l : LoopNo) (d : Discard), slot.val = l.val → Fails s l (readPassing c) d →
      (∀ x : Discard, x.order < d.order → ¬ Fails s l (readPassing c) x) →
      let k := s.intake.counts[l]
      let counted : IntakeCounts := match d with
        | .misrouted => { k with misrouted := bump k.misrouted }
        | .malformed => { k with malformed := bump k.malformed }
        | .disabled => { k with disabled := bump k.disabled }
        | .idleDiscard => { k with idleDiscard := bump k.idleDiscard }
        | .unsynced => { k with unsynced := bump k.unsynced }
        | .weak => { k with weak := bump k.weak }
        | .future => { k with future := bump k.future }
        | .stale => { k with stale := bump k.stale }
      exec .passingIntake s =
        .next { f with intake := { s.intake with counts := s.intake.counts.set l counted } }) ∧
  (∀ (s : State) (slot : Slot) (c : Cell) (rest : List (Slot × Cell)) (l : LoopNo),
    s.lif.toIntake = (slot, c) :: rest → slot.val = l.val → (∀ d : Discard, ¬ Fails s l (readPassing c) d) →
    let p := readPassing c
    let f : State := { s with lif := { s.lif with toIntake := rest } }
    let k := s.intake.counts[l]
    let time := s.passingTime l p
    ∃ q : Quality,
      (s.cau.records[l].state = .acquiring → q = .coarse) ∧ (s.cau.records[l].state = .locked → q = .good) ∧
      (s.cau.records[l].state = .holdover → q = .holdover) ∧
      (s.intake.queue.length < 32 → exec .passingIntake s = .next { f with intake := { s.intake with
        queue := s.intake.queue ++ [⟨l, p.code, time.1, q, time.2, peakStrength p.valid, s.cau.clock.cycle⟩]
        counts := s.intake.counts.set l { k with
          accepted := bump k.accepted
          clamped := match time.2 with | true => bump k.clamped | false => k.clamped } } }) ∧
      (32 ≤ s.intake.queue.length → s.intake.overflow = .overflowing →
        exec .passingIntake s = .next { f with intake := { s.intake with
          counts := s.intake.counts.set l { k with overflowed := bump k.overflowed } } }) ∧
      (32 ≤ s.intake.queue.length → s.intake.overflow = .normal →
        exec .passingIntake s = .next { f with
          intake := { s.intake with
            overflow := .overflowing
            episodes := bump s.intake.episodes
            counts := s.intake.counts.set l { k with overflowed := bump k.overflowed } }
          publisher := s.publisher.alert (alertResult s.now .intakeOverflow (some l) none .none) })) ∧
  (∀ cell : Cell,
    let p := readPassing cell
    let byte (i : Nat) : Nat := (cell.toList.getD i 0).toNat
    p.loop = cell[1].toNat ∧ p.code = cell[2] ++ cell[3] ++ cell[4] ∧ p.hitCount = cell[5].toNat ∧
      p.base = cell[6] ++ cell[7] ++ cell[8] ++ cell[9] ∧
      p.hits = (List.range 6).map (fun i =>
        (256 * byte (10 + 3 * i) + byte (11 + 3 * i), byte (12 + 3 * i))) ∧
      p.valid = p.hits.take cell[5].toNat)

/-! ## The Resolver and table memory -/

/-- RESOLVER_LOOKUP: the head leaves the Intake Queue, whose longest wait rises to the head's own where that is
longer and whose overflow episode ends where at most 16 records are left; and its code hits the cache or misses
it. While the Resolver serves, or with an empty queue, nothing is looked up (log 1). -/
def Obligations.ResolverLookup : Prop :=
  (∀ s : State, s.resolver.serving ≠ .idle ∨ s.intake.queue = [] → exec .resolverLookup s = .next s) ∧
  ∀ (s : State) (x : IntakeRec) (rest : List IntakeRec), s.resolver.serving = .idle → s.intake.queue = x :: rest →
    let r := s.resolver
    let wait := (s.cau.clock.cycle - x.arrival).toInt.toNat
    let f : State := { s with intake := { s.intake with
      queue := rest
      overflow := if rest.length ≤ 16 then .normal else s.intake.overflow
      longestWait := max s.intake.longestWait (min wait 65535) } }
    let k : ResolverCounts := { r.counts with served := bump r.counts.served }
    (∀ (a b : List CacheEntry) (e : CacheEntry), r.cache = a ++ e :: b → e.code = x.code →
      (∀ y ∈ a ++ b, y.code ≠ x.code) →
      let c := e :: (a ++ b)
      let h : ResolverCounts := { k with hits := bump k.hits }
      (∀ n w t, e.outcome = .competitor n w t → exec .resolverLookup s = .next { f with
        resolver := { r with cache := c, serving := .delivering x e.outcome, counts := h } }) ∧
      (∀ n l, e.outcome = .absent n l → exec .resolverLookup s = .next { f with
        resolver := { r with cache := c, counts := { h with unknownRepeats := bump h.unknownRepeats } } }) ∧
      (∀ n l, e.outcome = .fault n l → exec .resolverLookup s = .next { f with
        resolver := { r with cache := c, counts := { h with faultHits := bump h.faultHits } } })) ∧
    ((∀ y ∈ r.cache, y.code ≠ x.code) →
      (r.root = none → exec .resolverLookup s = .next { f with
        resolver := { r with serving := .delivering x (.fault .noRoot none), counts := k } }) ∧
      (∀ root, r.root = some root → exec .resolverLookup s = .next { f with
        resolver := { r with
          serving := .walking ⟨x, root, r.generation, .root, root ++ x.code.extractLsb' 16 8, false, .reading⟩
          counts := { k with walks := bump k.walks } } }))

/-- The completion of a walk's read: the walk stops at ABSENT, BAD, a bad competitor number or a second alias; at
any other entry read with SEEN clear it asks for the flag update, and otherwise it goes on or stops with its
competitor. The completion of a walk's flag update: table memory takes it, the SEEN-update count rises, and the
walk goes on with the entry as it read it. That an access has its effect at its completion is the model's (log
12). -/
def Obligations.WalkSteps : Prop :=
  (∀ (s : State) (w : Walk) (x : Word), WalkReads s w x →
    let done (r : Resolver) := exec .walkReadComplete s = .next { accessed s s.tmp.mem with resolver := r }
    let stop (o : WalkOutcome) := done ((s.resolver.hasRead s.resolver.serving).walkComplete w o)
    let go (w' : Walk) := done (s.resolver.hasRead (.walking w'))
    (∀ n, readEntry w.level x = .absent n → stop (.absent n w.level)) ∧
    (readEntry w.level x = .bad → stop (.fault .badType (some w.addr))) ∧
    (∀ t h, readEntry w.level x = .table t true h →
      (w.level = .root → go { w with
        level := .branch, addr := t ++ w.record.code.extractLsb' 8 8, withhold := w.withhold || h }) ∧
      (w.level = .branch → go { w with
        level := .leaf, addr := t ++ w.record.code.extractLsb' 0 8, withhold := w.withhold || h })) ∧
    (∀ t h, readEntry w.level x = .table t false h → go { w with phase := .updating x }) ∧
    (∀ n seen h keep, readEntry w.level x = .competitor n seen h keep →
      (96 ≤ n → stop (.fault .badCompetitor (some w.addr))) ∧
      ∀ c : CompNo, c.val = n →
        (seen = true → stop (.competitor c (w.withhold || h) keep)) ∧
        (seen = false → go { w with phase := .updating x })) ∧
    (∀ target seen h, readEntry w.level x = .aliasTo target seen h →
      (w.level = .aliasTarget → stop (.fault .aliasChain (some w.addr))) ∧
      (w.level = .leaf →
        (seen = true → go { w with level := .aliasTarget, addr := target, withhold := w.withhold || h }) ∧
        (seen = false → go { w with phase := .updating x })))) ∧
  (∀ (s : State) (w : Walk) (x : Word), s.resolver.serving = .walking w → w.phase = .updating x →
    s.tmp.inProgress = some (.resolver, .flag w.addr w.level true) →
    let f := accessed s ((Access.flag w.addr w.level true).effect s.tmp.mem)
    let r (serving : Serving) : Resolver := { s.resolver with
      serving := serving
      counts := { s.resolver.counts with seenUpdates := bump s.resolver.counts.seenUpdates } }
    let go (w' : Walk) := exec .seenUpdateComplete s = .next { f with resolver := r (.walking w') }
    (∀ t seen h, readEntry w.level x = .table t seen h →
      (w.level = .root → go { w with
        level := .branch, addr := t ++ w.record.code.extractLsb' 8 8, withhold := w.withhold || h
        phase := .reading }) ∧
      (w.level = .branch → go { w with
        level := .leaf, addr := t ++ w.record.code.extractLsb' 0 8, withhold := w.withhold || h
        phase := .reading })) ∧
    (∀ (c : CompNo) seen h keep, readEntry w.level x = .competitor c.val seen h keep →
      exec .seenUpdateComplete s = .next { f with
        resolver := (r s.resolver.serving).walkComplete w (.competitor c (w.withhold || h) keep) }) ∧
    ∀ target seen h, w.level = .leaf → readEntry w.level x = .aliasTo target seen h →
      go { w with level := .aliasTarget, addr := target, withhold := w.withhold || h, phase := .reading })

/-- The end of a walk: its outcome fills the cache, without a word address, where no flush or root was taken since
its start, and is delivered in either case. -/
def Obligations.WalkCompletion : Prop :=
  ∀ (r : Resolver) (w : Walk) (o : WalkOutcome),
    let e : CacheEntry := ⟨w.record.code, match o with
      | .fault f _ => .fault f none
      | .competitor n h k => .competitor n h k
      | .absent n l => .absent n l⟩
    let k := r.counts
    let filled (c : List CacheEntry) (k : ResolverCounts) : Resolver := { r with
      cache := e :: c, serving := .delivering w.record o, counts := { k with fills := bump k.fills } }
    (w.generation ≠ r.generation → r.walkComplete w o = { r with
      serving := .delivering w.record o, counts := { k with suppressed := bump k.suppressed } }) ∧
    (w.generation = r.generation →
      (∀ (a b : List CacheEntry) (y : CacheEntry), r.cache = a ++ y :: b → y.code = w.record.code →
        (∀ z ∈ a ++ b, z.code ≠ w.record.code) → r.walkComplete w o = filled (a ++ b) k) ∧
      ((∀ z ∈ r.cache, z.code ≠ w.record.code) →
        (r.cache.length < 32 → r.walkComplete w o = filled r.cache k) ∧
        (∀ (a : List CacheEntry) (y : CacheEntry), r.cache = a ++ [y] → 32 ≤ r.cache.length →
          r.walkComplete w o = filled a { k with evictions := bump k.evictions })))

/-- The delivery of ABSENT as an UNKNOWN result and of FAULT as an ALERT RESOLVE_FAULT, while the Log Write Buffer
holds fewer than 16 results; while it is full, and with no such outcome in hand, nothing is delivered (log 1).
That the alert leaves CLAMPED_TIME clear, and that its time is now at the delivery, are the model's (logs 26 and
27). -/
def Obligations.ResolverDeliveries : Prop :=
  ∀ s : State,
    let r := s.resolver
    let k := r.counts
    let given (x : Result) (k' : ResolverCounts) : State := { s with
      publisher := s.publisher.give x
      resolver := { r with serving := .idle, counts := k' } }
    (∀ (x : IntakeRec) (note : Code) (level : Level), r.serving = .delivering x (.absent note level) →
      (s.publisher.buffer.length < 16 → exec .unknownDelivery s = .next (given
        { kind := .unknown, flags := { clampedTime := x.clamped }, quality := some x.quality,
          code := some x.code, loop := some x.loop, time := x.time,
          extra := .unknown (some note) (some level) }
        { k with unknowns := bump k.unknowns })) ∧
      (16 ≤ s.publisher.buffer.length → exec .unknownDelivery s = .next s) ∧
      exec .resolveFaultDelivery s = .next s) ∧
    (∀ (x : IntakeRec) (f : FaultCode) (a : Option WordAddr), r.serving = .delivering x (.fault f a) →
      (s.publisher.buffer.length < 16 → exec .resolveFaultDelivery s = .next (given
        { kind := .alert, loop := some x.loop, code := some x.code, time := s.now,
          extra := .alert .resolveFault (.fault f a) }
        (match f with
        | .noRoot => { k with noRoot := bump k.noRoot }
        | .badType => { k with badType := bump k.badType }
        | .badCompetitor => { k with badCompetitor := bump k.badCompetitor }
        | .aliasChain => { k with aliasChain := bump k.aliasChain }))) ∧
      (16 ≤ s.publisher.buffer.length → exec .resolveFaultDelivery s = .next s) ∧
      exec .unknownDelivery s = .next s) ∧
    (∀ (x : IntakeRec) n h t, r.serving = .delivering x (.competitor n h t) →
      exec .unknownDelivery s = .next s ∧ exec .resolveFaultDelivery s = .next s) ∧
    (r.serving = .idle → exec .unknownDelivery s = .next s ∧ exec .resolveFaultDelivery s = .next s)

/-- A word as an entry of its level: type in bits 31 and 30, SEEN in 29, WITHHOLD in 28, RETAIN in 27, and the field
in the low bits. A word write replaces its word and no other. A flag update changes bit 29 of its word alone,
where the word holds a kind that carries SEEN at the level and the flag differs from the value asked for;
otherwise table memory stays as it is. The bytes of a word are the model's (log 5). -/
def Obligations.TableMemoryWords : Prop :=
  (∀ w : Word,
    let type := (w.extractLsb' 30 2).toNat
    (∀ level, level = Level.root ∨ level = .branch → readEntry level w =
      if type = 0 then .absent (w.extractLsb' 0 24)
      else if type = 1 then .table (w.extractLsb' 0 10) (w.getLsbD 29) (w.getLsbD 28) else .bad) ∧
    (∀ level, level = Level.leaf ∨ level = .aliasTarget → readEntry level w =
      if type = 0 then .absent (w.extractLsb' 0 24)
      else if type = 1 then
        .competitor (w.extractLsb' 0 7).toNat (w.getLsbD 29) (w.getLsbD 28) (w.getLsbD 27)
      else if type = 2 then .aliasTo (w.extractLsb' 0 18) (w.getLsbD 29) (w.getLsbD 28) else .bad)) ∧
  (∀ (m : List Host.Cell) (a b : WordAddr) (w : Word), Memory.wf m →
    readWord (writeWord m a w) b = (if b = a then w else readWord m b) ∧
    ∀ j : Nat, j / 4 ≠ a.toNat → memByte (writeWord m a w) j = memByte m j) ∧
  (∀ (m : List Host.Cell) (a : WordAddr) (level : Level) (seen : Bool), Memory.wf m →
    let m' := (Access.flag a level seen).effect m
    let type := ((readWord m a).extractLsb' 30 2).toNat
    let carries := type = 1 ∨ (type = 2 ∧ (level = .leaf ∨ level = .aliasTarget))
    (carries → (readWord m a).getLsbD 29 ≠ seen →
      (readWord m' a).getLsbD 29 = seen ∧
      (∀ i : Nat, i ≠ 29 → (readWord m' a).getLsbD i = (readWord m a).getLsbD i) ∧
      ∀ b : WordAddr, b ≠ a → readWord m' b = readWord m b) ∧
    (¬ carries ∨ (readWord m a).getLsbD 29 = seen → m' = m))

/-- The arbiter grants the access of the first requester whose access waits, with the log writer ahead of the
Resolver from 12 entries in the Log Write Buffer on; with an access in progress, or none waiting, it grants none
(log 1). A requester has asked at once, but for an access that follows one of its own: whether that one is asked
for by the grant is free, so that an access of a lower requester may be granted between two of a walk (R61).
What each asks for: a walk its read or its flag update, the log writer the next word of the head of the buffer,
the MU the next word of its table request, and a RUNNING sweep its next access. The free choice, and that a
first access waits as soon as it can be asked for, are the model's (log 11). -/
def Obligations.ArbiterGrant : Prop :=
  (∀ s : State,
    let asked (q : Requester) : Prop :=
      s.asked q ≠ none ∧ (q ∉ s.tmp.following ∨ Config.asksByGrant s.freeCounter q.place = true)
    let waits (q : Requester) : Prop := asked q ∨ (s.asked q ≠ none ∧ ∀ r, ¬ asked r)
    let granted (q : Requester) (a : Access) (t : Tmp) : Prop := ∃ l : List Requester,
      exec .arbiterGrant s = .next { s with
        tmp := { t with inProgress := some (q, a), following := l }, freeCounter := s.freeCounter + 1 } ∧
      ∀ r, r ∈ l ↔ r = q ∨ (r ∈ s.tmp.following ∧ s.asked r ≠ none ∧ ¬ waits r)
    (s.tmp.inProgress ≠ none → exec .arbiterGrant s = .next s) ∧
    (s.tmp.inProgress = none →
      ((∀ q, s.asked q = none) → exec .arbiterGrant s = .next s) ∧
      (∀ a, s.asked .resolver = some a → waits .resolver →
        s.publisher.buffer.length < 12 ∨ ¬ waits .logWriter →
        granted .resolver a { s.tmp with grantsResolver := bump s.tmp.grantsResolver }) ∧
      (∀ a, s.asked .logWriter = some a → waits .logWriter →
        12 ≤ s.publisher.buffer.length ∨ ¬ waits .resolver →
        granted .logWriter a { s.tmp with grantsLog := bump s.tmp.grantsLog }) ∧
      (∀ a, s.asked .management = some a → waits .management → ¬ waits .resolver → ¬ waits .logWriter →
        granted .management a { s.tmp with grantsManagement := bump s.tmp.grantsManagement }) ∧
      (∀ a, s.asked .sweep = some a → waits .sweep → ¬ waits .resolver → ¬ waits .logWriter →
        ¬ waits .management →
        granted .sweep a { s.tmp with grantsSweep := bump s.tmp.grantsSweep }))) ∧
  (∀ s : State,
    (∀ w, s.resolver.serving = .walking w →
      (w.phase = .reading → s.asked .resolver = some (.read w.addr)) ∧
      (∀ x, w.phase = .updating x → s.asked .resolver = some (.flag w.addr w.level true))) ∧
    (s.resolver.serving.isWalking = false → s.asked .resolver = none) ∧
    (∀ w r rest, s.publisher.writer = some w → s.publisher.buffer = r :: rest → s.asked .logWriter =
      some (.write (w.entry + BitVec.ofNat 18 w.written)
        (BitVec.ofNat 32 (cellNat r.toCell (4 * w.written) 4)))) ∧
    (s.publisher.writer = none → s.asked .logWriter = none) ∧
    (∀ tag code a left got, s.mu.table = some (.read tag code a left got) →
      s.asked .management = some (.read a)) ∧
    (∀ tag code a w ws, s.mu.table = some (.write tag code a (w :: ws)) →
      s.asked .management = some (.write a w)) ∧
    (s.mu.table = none → s.asked .management = none) ∧
    (s.sweep.state = .running → s.asked .sweep = some (s.sweep.pos.access s.sweep.root)) ∧
    (s.sweep.state ≠ .running → s.asked .sweep = none))

/-- TABLE_READ and TABLE_WRITE: in range, and for a write outside the guard, the MU goes on to execute word by word;
otherwise the request is refused, and a guarded one is counted. The completion of a word: the next word is due,
or with the last one the reply is placed with OK and the words read; with no such access in progress nothing
completes (log 1). That an access has its effect at its completion is the model's (log 12). -/
def Obligations.TableRequests : Prop :=
  (∀ (s : State) (r : Request) (rest : List Request),
    (BeginsAs s r rest 0x44 4 →
      let count := r.nat 3 1
      (1 ≤ count → count ≤ 6 → r.nat 0 3 + count ≤ 262144 → exec .tableRead s = .next { s with
        mu := begunMu s rest (.read r.tag r.code (BitVec.ofNat 18 (r.nat 0 3)) count []) }) ∧
      (count = 0 ∨ 6 < count ∨ 262144 < r.nat 0 3 + count →
        exec .tableRead s = .next (refusedState s r rest .range))) ∧
    ∀ n : Nat, Begins s r rest → 72 ≤ r.code.toNat → r.code.toNat ≤ 75 → 1 ≤ n → n ≤ 5 →
      r.length.toNat = 2 + 4 * n →
      let addr := (r.code.toNat - 72) * 65536 + r.nat 0 2
      let g := s.tmp.guard
      let guarded (a : Nat) : Prop :=
        g.enabled = true ∧ ((g.first ≤ a / 1024 ∧ a / 1024 ≤ g.last) ↔ g.invert = false)
      let words := (List.range n).map fun i => BitVec.ofNat 32 (r.nat (2 + 4 * i) 4)
      (262144 < addr + n → exec .tableWrite s = .next (refusedState s r rest .range)) ∧
      (addr + n ≤ 262144 → (∃ i, i < n ∧ guarded (addr + i)) →
        exec .tableWrite s = .next { refusedState s r rest .protected_ with
          tmp := { s.tmp with protectedCount := bump s.tmp.protectedCount } }) ∧
      (addr + n ≤ 262144 → (∀ i, i < n → ¬ guarded (addr + i)) → exec .tableWrite s = .next { s with
        mu := begunMu s rest (.write r.tag r.code (BitVec.ofNat 18 addr) words) })) ∧
  (∀ s : State,
    let replied (tag code : Byte) (data : List Byte) : Mu := { s.mu with
      table := none
      replies := s.mu.replies ++ [⟨s.lif.address, tag, code, .ok, data⟩]
      counts := { s.mu.counts with ok := bump s.mu.counts.ok } }
    (∀ tag code a left got, s.tmp.inProgress = some (.management, .read a) →
      s.mu.table = some (.read tag code a left got) →
      let got' := got ++ [readWord s.tmp.mem a]
      (1 < left → exec .tableReadWordComplete s = .next { accessed s s.tmp.mem with
        mu := { s.mu with table := some (.read tag code (a + 1) (left - 1) got') } }) ∧
      (left = 1 → exec .tableReadWordComplete s = .next { accessed s s.tmp.mem with
        mu := replied tag code (got'.map fun w => natBytes 4 w.toNat).flatten })) ∧
    (∀ tag code a w ws, s.tmp.inProgress = some (.management, .write a w) →
      s.mu.table = some (.write tag code a (w :: ws)) →
      (ws ≠ [] → exec .tableWriteWordComplete s = .next { accessed s (writeWord s.tmp.mem a w) with
        mu := { s.mu with table := some (.write tag code (a + 1) ws) } }) ∧
      (ws = [] → exec .tableWriteWordComplete s = .next { accessed s (writeWord s.tmp.mem a w) with
        mu := replied tag code [] })) ∧
    ((∀ a, s.tmp.inProgress ≠ some (.management, a)) →
      exec .tableReadWordComplete s = .next s ∧ exec .tableWriteWordComplete s = .next s))

/-- GUARD_SET: in SETUP it writes all four values of the guard, with the first unit not above the last. How a flag
byte is read is the model's (logs 14 and 30). -/
def Obligations.GuardSet : Prop :=
  ∀ (s : State) (r : Request) (rest : List Request), BeginsAs s r rest 0x4C 4 →
    (s.session.state ≠ .setup → exec .guardSet s = .next (refusedState s r rest .state)) ∧
    (s.session.state = .setup →
      (r.nat 3 1 < r.nat 2 1 →
        exec .guardSet s = .next (refusedState s r rest .range)) ∧
      ∀ enabled invert, r.flag 0 = some enabled → r.flag 1 = some invert → r.nat 2 1 ≤ r.nat 3 1 →
        exec .guardSet s = .next { s with
          tmp := { s.tmp with guard := ⟨enabled, invert, r.nat 2 1, r.nat 3 1⟩ }
          mu := servedMu s r rest .ok [] })

/-! ## The Settle Pool and the silence test -/

/-- A resolved passing that Settle takes and does not keep: dropped in SETUP and CLOSED, reported UNKNOWN for an
INACTIVE competitor, reported LATE, or counted as a duplicate. While the buffer is full, and with no competitor
in hand, nothing is taken (log 1). The line of a passing, its dead-band and its backup flag by the course role
of its loop, where the point that the role names is loaded, as in every reachable state. -/
def Obligations.SettleTurnsAway : Prop :=
  ((∀ s : State, (∀ x n h k, s.resolver.serving ≠ .delivering x (.competitor n h k)) ∨
    16 ≤ s.publisher.buffer.length → exec .settleTaking s = .next s) ∧
  ∀ (s : State) (x : IntakeRec) (c : CompNo) (h keep : Bool),
    s.resolver.serving = .delivering x (.competitor c h keep) → s.publisher.buffer.length < 16 →
    let r := s.engine.records[c]
    let k := s.settle.counts
    let line := s.course.lineOf x.loop
    let quality := if line.backup = true ∧ x.quality = .good then .backup else x.quality
    let taken (k' : SettleCounts) (p : Publisher) : State := { s with
      settle := { s.settle with counts := k' }
      publisher := p
      resolver := { s.resolver with
        serving := .idle
        counts := { s.resolver.counts with competitors := bump s.resolver.counts.competitors } } }
    let open_ := s.session.state ≠ .setup ∧ s.session.state ≠ .closed
    (¬ open_ → exec .settleTaking s =
      .next (taken { k with sessionDiscards := bump k.sessionDiscards } s.publisher)) ∧
    (open_ → r.state = .inactive → exec .settleTaking s = .next (taken { k with inactive := bump k.inactive }
      (s.publisher.give { kind := .unknown, flags := { clampedTime := x.clamped, inactive := true }
                          quality := some quality, competitor := some (c, r.raceNumber)
                          code := some x.code, loop := some x.loop, time := x.time
                          extra := .unknown none none }))) ∧
    (∀ m, open_ → r.state ≠ .inactive → r.lastApplied = some m →
      (x.time < m.time → exec .settleTaking s = .next (taken { k with late := bump k.late }
        (s.publisher.take s.now
          { kind := .late
            flags := { clampedTime := x.clamped, withheld := h
                       saturated := decide (16777215 < (m.time - x.time) / 100) }
            quality := some quality, competitor := some (c, r.raceNumber)
            code := some x.code, loop := some x.loop, time := x.time
            value := some ((min ((m.time - x.time) / 100) 16777215 : Nat) : Int) }))) ∧
      (m.time ≤ x.time → m.line = line.line → x.time - m.time ≤ line.deadBand * 1000 →
        exec .settleTaking s = .next (taken { k with duplicates := bump k.duplicates } s.publisher)))) ∧
  (∀ (k : Course) (l : LoopNo),
    let role := k.loops[l].role
    (∀ (q : PointNo) (p : CoursePoint), k.points[q] = some p →
      (role = .primary q → k.lineOf l = ⟨.point q, k.loops[p.primary].deadBand, false⟩) ∧
      (role = .backup q → k.lineOf l = ⟨.point q, k.loops[p.primary].deadBand, true⟩)) ∧
    (∀ q : PointNo, role = .pitAlt q → k.lineOf l = ⟨.loop l, k.loops[l].deadBand, false⟩) ∧
    (role = .none → k.lineOf l = ⟨.loop l, k.loops[l].deadBand, false⟩))

/-- A resolved passing that Settle keeps or applies: merged where an entry matches; else the earliest of seven is
forced, or the pool is empty, or it is inserted; each with the applications that it yields, in their order. That
an inserted entry counts toward the high-water mark though it expires at once is the model's (log 31). The
taking order as a number, and no expiry test after a forced application, are the model's (logs 19 and 22). -/
def Obligations.SettleKeeps : Prop :=
  ∀ (s : State) (x : IntakeRec) (c : CompNo) (h keep : Bool),
    s.resolver.serving = .delivering x (.competitor c h keep) → s.publisher.buffer.length < 16 →
    s.session.state ≠ .setup → s.session.state ≠ .closed → s.engine.records[c].state ≠ .inactive →
    let line := s.course.lineOf x.loop
    (∀ m, s.engine.records[c].lastApplied = some m →
      m.time ≤ x.time ∧ (m.line ≠ line.line ∨ line.deadBand * 1000 < x.time - m.time)) →
    let z := s.settle
    let l := z.lists[c]
    let p : Pending := ⟨x.code, x.loop, line.line, line.backup, x.time,
      if line.backup = true ∧ x.quality = .good then .backup else x.quality,
      x.clamped, x.strength, h, z.nextOrder⟩
    let k := z.counts
    let low (q : Pending) : Pending := { q with quality := if q.quality = .holdover then .holdover else .unsettled }
    let after (z' : Settle) : State := { s with
      settle := z'
      resolver := { s.resolver with
        serving := .idle
        counts := { s.resolver.counts with competitors := bump s.resolver.counts.competitors } } }
    let list (l' : List Pending) (free : Nat) (k' : SettleCounts) : Settle :=
      { z with lists := z.lists.set c l', free := free, nextOrder := z.nextOrder + 1, counts := k' }
    let expired (z' : Settle) : Prop := exec .settleTaking s = .next
      ((after (z'.expire c s.now).1).applyAll (z'.expire c s.now).2)
    let alone := ∀ e ∈ l, e.line ≠ p.line ∨ line.deadBand * 1000 < ((p.time : Int) - e.time).natAbs
    (¬ alone →
      let m := mergeChain line.deadBand 7 p l k
      expired (list m.1 (z.free + l.length - m.1.length) m.2)) ∧
    (∀ e es, alone → l = e :: es → 6 ≤ l.length →
      (e.time ≤ p.time → exec .settleTaking s = .next ((after (list (placePending p es)
        (z.free + l.length - (placePending p es).length)
        { k with forcedFull := bump k.forcedFull })).apply ⟨.forced, c, low e⟩)) ∧
      (p.time < e.time → exec .settleTaking s = .next ((after { z with
        nextOrder := z.nextOrder + 1, counts := { k with forcedFull := bump k.forcedFull } }).apply
          ⟨.forced, c, low p⟩))) ∧
    (alone → l.length < 6 → z.free = 0 →
      let first := l.takeWhile fun e => decide (e.time ≤ p.time)
      let left := l.dropWhile fun e => decide (e.time ≤ p.time)
      exec .settleTaking s = .next ((after (list left (l.length - left.length)
        { k with poolEmpty := bumpBy k.poolEmpty (first.length + 1) })).applyAll
          ((first ++ [p]).map fun e => ⟨.poolEmpty, c, low e⟩))) ∧
    (alone → l.length < 6 → 0 < z.free →
      let z' := list (placePending p l) (z.free + l.length - (placePending p l).length)
        { k with insertions := bump k.insertions }
      expired { z' with highWater := max z.highWater (256 - z'.free) })

/-- The place of a passing in a list in ascending order of T and taking order. The survivor of a merge of a passing
with a pending entry: the one without the backup flag, else the stronger, else the earlier, else the pending
entry; it keeps its fields but for a WITHHOLD of either. A merge is with the first entry that matches, is
counted, and goes on with the remaining entries until none matches. The end of a chain of merges: no entry of
the passing's line stands within the dead-band of another, and the list has not grown. -/
def Obligations.Merging : Prop :=
  (∀ (p : Pending) (l : List Pending),
    l.Pairwise (fun a b => a.time < b.time ∨ (a.time = b.time ∧ a.order ≤ b.order)) →
    (placePending p l).length = l.length + 1 ∧ (placePending p l).Perm (p :: l) ∧
    (placePending p l).Pairwise (fun a b => a.time < b.time ∨ (a.time = b.time ∧ a.order ≤ b.order)) ∧
    ((∀ e ∈ l, e.order < p.order) → ∃ a b, l = a ++ b ∧ placePending p l = a ++ p :: b ∧
      (∀ e ∈ a, e.time ≤ p.time) ∧ ∀ e ∈ b, p.time < e.time)) ∧
  (∀ p e : Pending,
    let new : Pending := { p with withhold := p.withhold || e.withhold }
    let old : Pending := { e with withhold := p.withhold || e.withhold }
    (p.backup = false → e.backup = true → p.mergeWith e = new) ∧
    (p.backup = true → e.backup = false → p.mergeWith e = old) ∧
    (p.backup = e.backup →
      (e.strength < p.strength → p.mergeWith e = new) ∧
      (p.strength < e.strength → p.mergeWith e = old) ∧
      (p.strength = e.strength →
        (p.time < e.time → p.mergeWith e = new) ∧ (e.time ≤ p.time → p.mergeWith e = old)))) ∧
  (∀ (band n : Nat) (p : Pending) (l : List Pending) (k : SettleCounts),
    (∀ e : Pending, p.matches band e = true ↔
      e.line = p.line ∧ ((p.time : Int) - e.time).natAbs ≤ band * 1000) ∧
    ((∀ e ∈ l, p.matches band e = false) → mergeChain band (n + 1) p l k = (placePending p l, k)) ∧
    ∀ (a b : List Pending) (e : Pending), l = a ++ e :: b → (∀ x ∈ a, p.matches band x = false) →
      p.matches band e = true →
      mergeChain band (n + 1) p l k = mergeChain band n (p.mergeWith e) (a ++ b) { k with
        merges := bump k.merges
        backupOverruled := if p.backup = e.backup then k.backupOverruled else bump k.backupOverruled }) ∧
  (∀ (band : Nat) (p : Pending) (l : List Pending) (k : SettleCounts), l.length ≤ 6 →
    (∃ e ∈ l, p.matches band e = true) →
    let apart (a b : Pending) : Prop := a.line = p.line → b.line = p.line →
      band * 1000 < ((a.time : Int) - b.time).natAbs
    l.Pairwise apart →
    (mergeChain band 7 p l k).1.length ≤ l.length ∧ (mergeChain band 7 p l k).1.Pairwise apart)

/-- SETTLE_EXPIRY: a due head is applied as SETTLED while the buffer has a place, and otherwise stays. The expiry at
the end of a taking: the due heads leave the list in their order, and no head that is left is due. A competitor
above 95 is a fault (log 16). That heads left behind a full buffer are applied by later commands of this kind is
the model's (log 9). -/
def Obligations.SettleExpiry : Prop :=
  (∀ (s : State) (c : CompNo),
    let z := s.settle
    (∀ e es, z.lists[c] = e :: es → e.time + z.interval * 1000 ≤ s.now → s.publisher.buffer.length < 16 →
      exec (.settleExpiry c.val) s = .next (State.apply { s with settle := { z with
        lists := z.lists.set c es
        free := z.free + 1
        counts := { z.counts with expiries := bump z.counts.expiries } } } ⟨.settled, c, e⟩)) ∧
    (z.lists[c] = [] ∨ 16 ≤ s.publisher.buffer.length → exec (.settleExpiry c.val) s = .next s) ∧
    (∀ e es, z.lists[c] = e :: es → s.now < e.time + z.interval * 1000 →
      exec (.settleExpiry c.val) s = .next s)) ∧
  (∀ (z : Settle) (c : CompNo) (now : Nat) (a b : List Pending), z.lists[c] = a ++ b →
    (∀ e ∈ a, e.time + z.interval * 1000 ≤ now) →
    (∀ e es, b = e :: es → now < e.time + z.interval * 1000) →
    z.expire c now = ({ z with
      lists := z.lists.set c b
      free := z.free + a.length
      counts := { z.counts with expiries := min (z.counts.expiries + a.length) 65535 } },
      a.map fun e => ⟨.settled, c, e⟩)) ∧
  ∀ (s : State) (n : Nat), 96 ≤ n → exec (.settleExpiry n) s = .fault .noSuchCompetitor

/-- SILENT: where the last change of now owes the test, a racing competitor past the silence limit is marked,
counted and reported, once; otherwise nothing changes (that a test is owed is the model's own, log 7). A
competitor above 95 is a fault (log 16). -/
def Obligations.SilentAlert : Prop :=
  (∀ (s : State) (c : CompNo),
    let r := s.engine.records[c]
    (∀ m, r.silenceTestOwed = true → r.state = .onTrack ∨ r.state = .inPit → r.silenceAlerted = false →
      r.lastApplied = some m → s.engine.silenceLimit ≠ 0 →
      m.time + s.engine.silenceLimit * 1000000 < s.now →
      let tu := (s.now - m.time) / 100
      exec (.silent c.val) s = .next { s with
        engine := { s.engine with
          records := s.engine.records.set c { r with silenceAlerted := true, silenceTestOwed := false }
          counts := { s.engine.counts with silences := bump s.engine.counts.silences } }
        publisher := s.publisher.alert
          { kind := .alert, flags := { saturated := decide (16777215 < tu) }
            competitor := some (c, r.raceNumber), time := s.now
            value := some ((min tu 16777215 : Nat) : Int), extra := .alert .silent .none } }) ∧
    (r.silenceTestOwed = false ∨ r.silenceAlerted = true ∨ r.lastApplied = none ∨
        s.engine.silenceLimit = 0 ∨ (r.state ≠ .onTrack ∧ r.state ≠ .inPit) →
      exec (.silent c.val) s = .next s) ∧
    (∀ m, r.lastApplied = some m → s.now ≤ m.time + s.engine.silenceLimit * 1000000 →
      exec (.silent c.val) s = .next s)) ∧
  ∀ (s : State) (n : Nat), 96 ≤ n → exec (.silent n) s = .fault .noSuchCompetitor

/-! ## The Competitor Engine -/

/-- A passing that is only noted: one PASS result, the last applied time and line, the silence mark cleared, and two
counts (that no silence test is owed any more is the model's own, log 7). An IMPLAUSIBLE passing, a crossing
that comes sooner than the minimum transits from the last point allow: one PASS result with the flag, two
counts, and no change of the record. -/
def Obligations.NotedAndImplausible : Prop :=
  (∀ (s : State) (a : Application),
    let r := s.engine.records[a.comp]
    let p := a.passing
    let k := s.engine.counts
    (s.session.state ≠ .live ∧ s.session.state ≠ .chequered) ∨ (r.state ≠ .onTrack ∧ r.state ≠ .inPit) →
    let received : EngineCounts := match a.kind with
      | .settled => { k with settled := bump k.settled }
      | .forced => { k with forced := bump k.forced }
      | .poolEmpty => { k with poolEmpty := bump k.poolEmpty }
    s.apply a = { s with
      engine := { s.engine with
        records := s.engine.records.set a.comp { r with
          lastApplied := some ⟨p.time, p.line⟩, silenceAlerted := false, silenceTestOwed := false }
        counts := { received with passOnly := bump received.passOnly } }
      publisher := s.publisher.take s.now
        { kind := .pass
          flags := { clampedTime := p.clamped, withheld := p.withhold
                     afterFinish := decide (s.session.state ≠ .standby) && decide (r.state = .finished)
                     retired := decide (r.state = .retired) }
          quality := some p.quality, competitor := some (a.comp, r.raceNumber), loop := some p.loop
          point := match s.course.loops[p.loop].role with
            | .primary q => some q.val
            | .backup q => some q.val
            | .pitAlt _ => none
            | .none => none
          time := p.time } }) ∧
  (∀ (s : State) (a : Application) (q : PointNo) (lp : LastPoint),
    let r := s.engine.records[a.comp]
    let p := a.passing
    let loop := s.course.loops[p.loop]
    let k := s.engine.counts
    let n := s.course.count
    let skip := (((q.val : Int) - lp.point.val - 1) % (n : Int)).toNat
    let minimum := ((List.range (skip + 1)).map fun j => s.course.minTransit ((lp.point.val + 1 + j) % n) * 1000).sum
    s.session.state = .live ∨ s.session.state = .chequered → r.state = .onTrack ∨ r.state = .inPit →
    loop.role = .primary q ∨ loop.role = .backup q ∨ (loop.role = .pitAlt q ∧ loop.pitRole ≠ .exit) →
    r.entered = true → r.lastPoint = some lp → (p.time : Int) - lp.time < minimum →
    let received : EngineCounts := match a.kind with
      | .settled => { k with settled := bump k.settled }
      | .forced => { k with forced := bump k.forced }
      | .poolEmpty => { k with poolEmpty := bump k.poolEmpty }
    s.apply a = { s with
      engine := { s.engine with counts := { received with implausible := bump received.implausible } }
      publisher := s.publisher.take s.now
        { kind := .pass, flags := { clampedTime := p.clamped, withheld := p.withhold, implausible := true }
          quality := some p.quality, competitor := some (a.comp, r.raceNumber), loop := some p.loop
          point := some q.val, time := p.time } })

/-- A passing applied in full, unless it is implausible: from the state as it stands, with the count of its kind
risen and no result, the pit steps, the trap step, the course step of a crossing, and the final step, in this
order; its results then go to the Publisher in their order. The final step: a PASS result where nothing else was
reported, the last point of an entered competitor, the last applied time and line, the silence mark cleared, and
the count (that no silence test is owed any more is the model's own, log 7). -/
def Obligations.FullApplication : Prop :=
  (∀ (s : State) (a : Application),
    let r := s.engine.records[a.comp]
    let loop := s.course.loops[a.passing.loop]
    let k := s.engine.counts
    let x : Ctx :=
      { comp := a.comp, passing := a.passing, loop := loop, course := s.course, session := s.session.state
        neutral := s.session.neutral, records := s.engine.records }
    let start : Work :=
      { car := r, order := s.order, chequer := s.session.chequer, results := []
        counts := match a.kind with
          | .settled => { k with settled := bump k.settled }
          | .forced => { k with forced := bump k.forced }
          | .poolEmpty => { k with poolEmpty := bump k.poolEmpty } }
    let finished (w : Work) : State := { s with
      engine := { s.engine with records := s.engine.records.set a.comp w.car, counts := w.counts }
      order := w.order
      session := { s.session with chequer := w.chequer }
      publisher := w.results.foldl (fun p r => p.take s.now r) s.publisher }
    let w := x.trapStep (x.pitSteps start)
    s.session.state = .live ∨ s.session.state = .chequered → r.state = .onTrack ∨ r.state = .inPit →
    (∀ q, loop.crossing = some q → r.entered = false ∨ r.lastPoint = none ∨
      ∀ lp, r.lastPoint = some lp →
        (s.course.required lp.point (skipped s.course.count lp.point q) : Int) ≤ a.passing.time - lp.time) →
    (∀ q, loop.role = .primary q ∨ loop.role = .backup q ∨ (loop.role = .pitAlt q ∧ loop.pitRole ≠ .exit) →
      s.apply a = finished (x.finalStep (x.courseStep w q) (some q))) ∧
    (loop.role = .none ∨ (∃ q, loop.role = .pitAlt q ∧ loop.pitRole = .exit) →
      s.apply a = finished (x.finalStep w none))) ∧
  (∀ (x : Ctx) (w : Work) (crossing : Option PointNo),
    let p := x.passing
    x.finalStep w crossing = { w with
      results := if w.results = [] then [{ x.result w .pass with point := crossing.map Fin.val }] else w.results
      car := { w.car with
        lastPoint := match crossing with
          | some q => if w.car.entered = true then some ⟨q, p.time, p.quality⟩ else w.car.lastPoint
          | none => w.car.lastPoint
        lastApplied := some ⟨p.time, p.line⟩, silenceAlerted := false, silenceTestOwed := false }
      counts := { w.counts with appliedInFull := bump w.counts.appliedInFull } })

/-- The results of one application, in order: at most two pit results, at most four TRAP results, at most one
SECTOR, and at most one LAP or PASS; there is always one; they carry the passing's WITHHOLD and CLAMPED_TIME,
competitor, loop and time; and the application touches no other competitor's record. -/
def Obligations.ApplicationResults : Prop :=
  ∀ (s : State) (a : Application),
    let w := (s.ctx a).apply (s.work a)
    s.apply a = { s with
      engine := { s.engine with records := s.engine.records.set a.comp w.car, counts := w.counts }
      order := w.order
      session := { s.session with chequer := w.chequer }
      publisher := s.publisher.takeAll s.now w.results } ∧
    w.results ≠ [] ∧
    (∃ pits traps sectors last, w.results = pits ++ traps ++ sectors ++ last ∧
      pits.length ≤ 2 ∧ (∀ r ∈ pits, r.kind = .pitIn ∨ r.kind = .pitOut) ∧
      traps.length ≤ 4 ∧ (∀ r ∈ traps, r.kind = .trap) ∧
      sectors.length ≤ 1 ∧ (∀ r ∈ sectors, r.kind = .sector) ∧
      last.length ≤ 1 ∧ ∀ r ∈ last, r.kind = .lap ∨ r.kind = .pass) ∧
    ∀ r ∈ w.results, r.flags.withheld = a.passing.withhold ∧ r.flags.clampedTime = a.passing.clamped ∧
      r.competitor = some (a.comp, s.engine.records[a.comp].raceNumber) ∧ r.loop = some a.passing.loop ∧
      r.time = a.passing.time

/-- The pit step and the inferred pit step: what a passing at an entry or an exit, or at a loop whose role tells
that a move was missed, does to the record, with its results; any other passing makes no pit move. That a pit
count which stays at 255 sets no SATURATED is the model's (log 33). -/
def Obligations.PitMoves : Prop :=
  ∀ (x : Ctx) (w : Work),
    let r := w.car
    let t := x.passing.time
    let count := if r.pitCount < 255 then r.pitCount + 1 else 255
    let inside : Competitor := { r with
      state := .inPit, pitCount := count, pitEntry := some t, lapPit := true, sectorPit := true }
    let outside : Competitor := { r with state := .onTrack, pitEntry := none, lapPit := true, sectorPit := true }
    let seen : Competitor := { r with pitCount := count, lapPit := true, sectorPit := true }
    let result (kind : ResultKind) (entryMissed exitMissed : Bool) (lane : Option Nat) (n : Nat) : Result :=
      { x.result w kind with
        flags := { clampedTime := x.passing.clamped, withheld := x.passing.withhold
                   entryMissed := entryMissed, exitMissed := exitMissed
                   saturated := match lane with | some us => decide (16777215 < us / 100) | none => false }
        value := lane.map fun us => ((min (us / 100) 16777215 : Nat) : Int)
        extra := .pit n }
    let moved (car : Competitor) (y : Result) : Work := { w with
      car := car, results := w.results ++ [y], counts := { w.counts with pitMoves := bump w.counts.pitMoves } }
    let entry := x.loop.pitRole = .entry
    let exit := x.loop.pitRole = .exit
    let alt := ∃ q, x.loop.role = .pitAlt q
    let main := ∃ q, x.loop.role = .primary q ∨ x.loop.role = .backup q
    (entry → r.state = .onTrack → x.pitSteps w = moved inside (result .pitIn false false none count)) ∧
    (entry → r.state = .inPit → x.pitSteps w = { w with
      car := inside
      results := w.results ++ [result .pitOut false true none count, result .pitIn false false none count]
      counts := { w.counts with pitMoves := bump (bump w.counts.pitMoves) } }) ∧
    (exit → r.state = .inPit → x.pitSteps w =
      moved outside (result .pitOut false false (r.pitEntry.map fun e => t - e) r.pitCount)) ∧
    (exit → r.state = .onTrack → x.pitSteps w = moved seen (result .pitOut true false none count)) ∧
    (¬ entry → ¬ exit →
      (alt → r.state = .onTrack → x.pitSteps w = moved inside (result .pitIn true false none count)) ∧
      (main → r.state = .inPit → x.pitSteps w = moved outside (result .pitOut false true none r.pitCount)) ∧
      (¬ alt → r.state = .onTrack → x.pitSteps w = w) ∧ (¬ main → r.state = .inPit → x.pitSteps w = w))

/-- The trap step: the trap entries 0 to 3 in this order, each on the record as the one before left it. A trap entry
at a passing: its end loop closes the start held, with a TRAP result where 1 to 2,000,000 µs have passed, and
its start loop then opens it anew; an entry that is empty or names another loop is not touched. The speed, in
tenths of km/h: 36,000 times the distance over the time, rounded half up, and 9,999 with SATURATED above that;
with the manual's two examples and a speed of 0. The fields that every result takes from its passing. -/
def Obligations.TrapMeasurement : Prop :=
  (∀ (x : Ctx) (w : Work),
    x.trapStep w = x.trapEntry (x.trapEntry (x.trapEntry (x.trapEntry w 0) 1) 2) 3) ∧
  (∀ (x : Ctx) (w : Work) (i : Fin 4),
    let r := w.car
    let p := x.passing
    let cleared : Competitor := { r with trapStarts := r.trapStarts.set i none }
    let opened (w' : Work) : Work := { w' with car := { w'.car with
      trapStarts := w'.car.trapStarts.set i (some ⟨p.time, p.quality⟩) } }
    (x.course.traps[i] = none → x.trapEntry w i = w) ∧
    ∀ t, x.course.traps[i] = some t →
      (t.endLoop ≠ p.loop → t.startLoop ≠ p.loop → x.trapEntry w i = w) ∧
      (t.endLoop ≠ p.loop → t.startLoop = p.loop → x.trapEntry w i = opened w) ∧
      (t.endLoop = p.loop → ∃ w', x.trapEntry w i = (if t.startLoop = p.loop then opened w' else w') ∧
        (r.trapStarts[i] = none → w' = w) ∧
        ∀ b, r.trapStarts[i] = some b →
          (b.time < p.time → p.time ≤ b.time + 2000000 → w' = { w with
            car := cleared
            results := w.results ++ [{ x.result w .trap with
              flags := { clampedTime := p.clamped, withheld := p.withhold
                         saturated := (trapSpeed t.distance (p.time - b.time)).2 }
              quality := some (if b.quality.rank < p.quality.rank then p.quality else b.quality)
              point := some i.val
              value := some ((trapSpeed t.distance (p.time - b.time)).1 : Int) }] }) ∧
          (p.time ≤ b.time ∨ b.time + 2000000 < p.time → w' = { w with
            car := cleared, counts := { w.counts with trapRejected := bump w.counts.trapRejected } }))) ∧
  ((∀ distance delta : Nat, 0 < delta →
    let v := (2 * 36000 * distance + delta) / (2 * delta)
    (v ≤ 9999 → trapSpeed distance delta = (v, false)) ∧
    (9999 < v → trapSpeed distance delta = (9999, true))) ∧
  (∀ distance delta : Nat, 0 < delta → 2 * 36000 * distance < delta → trapSpeed distance delta = (0, false)) ∧
  trapSpeed 20000 223456 = (3222, false) ∧ trapSpeed 20000 2000 = (9999, true)) ∧
  (∀ (x : Ctx) (w : Work) (kind : ResultKind), x.result w kind =
    { kind := kind, flags := { clampedTime := x.passing.clamped, withheld := x.passing.withhold }
      quality := some x.passing.quality, competitor := some (x.comp, w.car.raceNumber)
      loop := some x.passing.loop, time := x.passing.time })

/-- A crossing by a competitor that is not entered: of point 0 before the chequer is taken it enters the competitor,
who joins the Running Order and is reported by a PASS with ENTERED; any other changes nothing. The first
crossing without a last point restarts the timing, with no sector and no lap. A crossing from a last point
closes the sector or the merged stretch, and then completes a lap where it is of point 0, or where point 0 was
skipped. -/
def Obligations.CourseStep : Prop :=
  (∀ (x : Ctx) (w : Work) (q : PointNo), w.car.entered = false →
    let t := x.passing.time
    let inPit := decide (w.car.state = .inPit)
    let car : Competitor := { w.car with
      entered := true, laps := 0, lastPoint := some ⟨0, t, x.passing.quality⟩
      lapWorst := x.passing.quality, lapStart := some t, lastCrossing := t
      lapNeutral := x.neutral, sectorNeutral := x.neutral, lapPit := inPit, sectorPit := inPit }
    let records := x.records.set x.comp car
    let order := w.order.place records x.comp
    (q = 0 → w.chequer ≠ .taken → x.courseStep w q = { w with
      car := car, order := order, counts := { w.counts with entries := bump w.counts.entries }
      results := w.results ++ [({ x.result w .pass with
        flags := { clampedTime := x.passing.clamped, withheld := x.passing.withhold, entered := true }
        point := some 0 } : Result).placed order records x.comp] }) ∧
    (q ≠ 0 ∨ w.chequer = .taken → x.courseStep w q = w)) ∧
  (∀ (x : Ctx) (w : Work) (q : PointNo), w.car.entered = true → w.car.lastPoint = none →
    x.courseStep w q = { w with car := { w.car with
      lastPoint := some ⟨q, x.passing.time, x.passing.quality⟩
      lapWorst := x.passing.quality
      sectorNeutral := x.neutral
      sectorPit := decide (w.car.state = .inPit)
      lapStart := if q = 0 then some x.passing.time else none } }) ∧
  (∀ (x : Ctx) (w : Work) (q : PointNo) (lp : LastPoint), w.car.entered = true → w.car.lastPoint = some lp →
    let skip := (((q.val : Int) - lp.point.val - 1) % (x.course.count : Int)).toNat
    let w' := x.closeSector w lp skip
    (q = 0 → x.courseStep w q = x.completeLap w' false) ∧
    (q ≠ 0 → skip ≠ 0 → q ≤ lp.point → x.courseStep w q = x.completeLap w' true) ∧
    (q ≠ 0 → skip = 0 ∨ lp.point < q → x.courseStep w q = w'))

/-- The closing of a sector: its time, quality, flags and table, the best sector, and the flags of the next one; a
merged stretch leaves its sectors unknown and sets no best. -/
def Obligations.SectorClosing : Prop :=
  ∀ (x : Ctx) (w : Work) (lp : LastPoint) (skip : Nat),
    let r := w.car
    let p := x.passing
    let us := p.time - lp.time
    let worse (a b : Quality) : Quality := if a.rank < b.rank then b else a
    let best := skip = 0 ∧ r.sectorNeutral = false ∧ r.sectorPit = false ∧ us / 100 ≤ 16777215 ∧
      ∀ b, r.bestSectors[lp.point] = some b → us < b
    ∃ w', x.closeSector w lp skip = w' ∧
      w' = { w with car := w'.car, counts := w'.counts, results := w'.results } ∧
      w'.car = { r with
        sectors := w'.car.sectors, lapWorst := worse r.lapWorst p.quality
        bestSectors := w'.car.bestSectors, sectorNeutral := x.neutral
        sectorPit := decide (r.state = .inPit) } ∧
      (skip = 0 → w'.counts = w.counts ∧ w'.car.sectors = r.sectors.set lp.point
        (some ⟨us, worse lp.quality p.quality, r.sectorNeutral, r.sectorPit⟩)) ∧
      (skip ≠ 0 → w'.counts = { w.counts with mergedSectors := bump w.counts.mergedSectors } ∧
        ∀ i : PointNo, w'.car.sectors[i] =
          if ∃ j, j ≤ skip ∧ (lp.point.val + j) % x.course.count = i.val then none else r.sectors[i]) ∧
      (best → w'.car.bestSectors = r.bestSectors.set lp.point (some us)) ∧
      (¬ best → w'.car.bestSectors = r.bestSectors) ∧
      w'.results = w.results ++ [{ x.result w .sector with
        flags := { clampedTime := p.clamped, withheld := p.withhold
                   saturated := decide (16777215 < us / 100), merged := decide (skip ≠ 0)
                   neutral := r.sectorNeutral, pit := r.sectorPit
                   personalBest := !decide (w'.car.bestSectors = r.bestSectors) }
        quality := some (worse lp.quality p.quality), point := some lp.point.val, span := some (skip + 1)
        value := some ((min (us / 100) 16777215 : Nat) : Int) }]

/-- The completion of a lap, crossed or inferred: the chequer is asked with the head as it stood, the competitor is
reinserted, the bests are tested, the LAP result is made, and the fields of the next lap start. Session's
answer: no with no chequer, yes for the head alone while it is pending, which takes it, and yes once it is
taken. -/
def Obligations.LapCompletion : Prop :=
  (∀ (x : Ctx) (w : Work) (inferred : Bool),
    let r := w.car
    let p := x.passing
    let answer := w.chequer.answer w.order.list.head? x.comp
    let laps := if r.laps < 65535 then r.laps + 1 else 65535
    let us : Option Nat := if inferred then none else r.lapStart.map fun b => p.time - b
    let counts := fun t : Nat => r.lapNeutral = false ∧ r.lapPit = false ∧ t / 100 ≤ 16777215
    let lapped : Competitor := { r with
      laps := laps, lapStart := if inferred then none else some p.time, lastCrossing := p.time
      state := if answer.1 then .finished else r.state }
    let records := x.records.set x.comp lapped
    let inPit := decide (lapped.state = .inPit)
    ∃ w', x.completeLap w inferred = w' ∧
      w'.chequer = answer.2 ∧
      w'.counts = (if inferred then { w.counts with inferredLaps := bump w.counts.inferredLaps } else w.counts) ∧
      w'.car = { lapped with
        sectors := Vector.replicate 16 none, lapNeutral := x.neutral, sectorNeutral := x.neutral
        lapPit := inPit, sectorPit := inPit, lapWorst := p.quality, bestLap := w'.car.bestLap } ∧
      w'.order.list = (w.order.place records x.comp).list ∧
      (∀ t, us = some t → counts t → (∀ b, r.bestLap = some b → t < b.time) →
        w'.car.bestLap = some ⟨t, laps⟩) ∧
      ((∀ t, us = some t → ¬ counts t ∨ ∃ b, r.bestLap = some b ∧ b.time ≤ t) → w'.car.bestLap = r.bestLap) ∧
      (∀ t, us = some t → counts t → (∀ b, w.order.best = some b → t < b.time) →
        w'.order.best = some ⟨t, x.comp, laps⟩) ∧
      ((∀ t, us = some t → ¬ counts t ∨ ∃ b, w.order.best = some b ∧ b.time ≤ t) →
        w'.order.best = w.order.best) ∧
      w'.results = w.results ++ [({ x.result w .lap with
        flags := { clampedTime := p.clamped, withheld := p.withhold
                   saturated := decide (r.laps = 65535) || decide (∃ t ∈ us, 16777215 < t / 100)
                   pitLap := r.lapPit, neutral := r.lapNeutral, lineMissed := decide (us = none)
                   personalBest := !decide (w'.car.bestLap = r.bestLap)
                   sessionBest := !decide (w'.order.best = w.order.best), finish := answer.1 }
        quality := some (if r.lapWorst.rank < p.quality.rank then p.quality else r.lapWorst)
        lapNumber := some laps
        value := us.map fun t => ((min (t / 100) 16777215 : Nat) : Int) } : Result).placed w'.order
          records x.comp]) ∧
  (∀ (c : CompNo) (head : Option CompNo),
    Chequer.none.answer head c = (false, .none) ∧
    (head = some c → Chequer.pending.answer head c = (true, .taken)) ∧
    (head ≠ some c → Chequer.pending.answer head c = (false, .pending)) ∧
    Chequer.taken.answer head c = (true, .taken))

/-! ## The Running Order -/

/-- A join or a reinsertion: of a list sorted by R151, the others keep their order and the competitor stands behind
everyone who sorts ahead of it and ahead of everyone else. The position and the gap of a result: no gap at the
head, and behind a competitor the time between their last crossings, or the laps between them. -/
def Obligations.OrderPlacing : Prop :=
  (∀ (o : Order) (rs : Records) (c : CompNo),
    let others := o.list.filter fun d => decide (d ≠ c)
    let ahead (a b : CompNo) : Prop := rs[b].laps < rs[a].laps ∨ (rs[a].laps = rs[b].laps ∧
      (rs[a].lastCrossing < rs[b].lastCrossing ∨ (rs[a].lastCrossing = rs[b].lastCrossing ∧ a < b)))
    others.Pairwise ahead →
    (o.remove c).list = others ∧ (o.place rs c).best = o.best ∧ (o.place rs c).list.Pairwise ahead ∧
    ∃ a b, others = a ++ b ∧ (o.place rs c).list = a ++ c :: b ∧ (∀ d ∈ a, ahead d c) ∧ ∀ d ∈ b, ahead c d) ∧
  (∀ (r : Result) (o : Order) (rs : Records) (c : CompNo) (a b : List CompNo),
    o.list = a ++ c :: b → c ∉ a → c ∉ b →
    (a = [] → r.placed o rs c = { r with position := some 1, gap := none }) ∧
    ∀ (a' : List CompNo) (d : CompNo), a = a' ++ [d] →
      (rs[c].laps = rs[d].laps →
        let tu := (rs[c].lastCrossing - rs[d].lastCrossing) / 100
        r.placed o rs c = { r with
          position := some (a.length + 1)
          gap := some (.time (min tu 16777215))
          flags := { r.flags with saturated := r.flags.saturated || decide (16777215 < tu) } }) ∧
      (rs[c].laps ≠ rs[d].laps → r.placed o rs c = { r with
        position := some (a.length + 1), gap := some (.laps (rs[d].laps - rs[c].laps)) }))

/-! ## The Result Publisher -/

/-- A result to be published goes out at once where the pending list is empty and the buffer holds fewer than 16,
and otherwise joins the pending list. Publication numbers it and offers it to the Result Queue; while the log is
disabled it leaves the buffer at once, and while it is enabled it joins the buffer, where the idle log writer
takes the next entry of the ring. That the log writer takes an entry's address as soon as the entry heads the
buffer is the model's (log 10). -/
def Obligations.Publication : Prop :=
  ∀ (p : Publisher) (r : Result),
    let x : Result := { r with sequence := some p.sequence }
    let room := p.resultQueue.length < 64
    let out : Publisher := { p with
      sequence := p.sequence + 1
      resultQueue := if room then p.resultQueue ++ [x] else p.resultQueue
      counts := { p.counts with
        published := bump p.counts.published
        lineDrop := if room then p.counts.lineDrop else bump p.counts.lineDrop } }
    (p.waiting = [] → p.buffer.length < 16 → p.give r = p.publish r) ∧
    (p.waiting ≠ [] ∨ 16 ≤ p.buffer.length → p.give r = { p with waiting := p.waiting ++ [r] }) ∧
    (p.logEnabled = false → p.publish r = out) ∧
    (p.logEnabled = true →
      (p.writer ≠ none → p.publish r = { out with buffer := p.buffer ++ [x] }) ∧
      (p.writer = none →
        let taken : Publisher := { out with
          buffer := p.buffer ++ [x]
          writer := some ⟨BitVec.ofNat 18 (p.logBase * 1024 + p.writeIndex * 8), 0⟩ }
        (p.writeIndex + 1 < p.logLength * 128 → p.publish r = { taken with writeIndex := p.writeIndex + 1 }) ∧
        (p.logLength * 128 ≤ p.writeIndex + 1 → p.publish r = { taken with writeIndex := 0, wrapped := true })))

/-- What the Publisher does with a result by its WITHHELD flag: it is published, or held; a full Hold List first
gives up its head with UNREVIEWED and an ALERT HOLD_OVERFLOW. An alert of a producer that does not wait is lost
at a full pending list. -/
def Obligations.WithheldResults : Prop :=
  ∀ (p : Publisher) (now : Nat) (r : Result),
    (r.flags.withheld = false → p.take now r = p.give r) ∧
    (r.flags.withheld = true →
      (p.hold.length < 32 → p.take now r =
        { p with hold := p.hold ++ [r], counts := { p.counts with held := bump p.counts.held } }) ∧
      (∀ h rest, p.hold = h :: rest → 32 ≤ p.hold.length →
        let g := (({ p with hold := rest } : Publisher).give
          { h with flags := { h.flags with unreviewed := true } }).give
          { kind := .alert, competitor := h.competitor, time := now
            extra := .alert .holdOverflow (.resultKind h.kind) }
        g.hold = rest ∧ g.counts.held = p.counts.held ∧ g.counts.holdOverflow = p.counts.holdOverflow ∧
        p.take now r = { g with
          hold := rest ++ [r]
          counts := { g.counts with
            held := bump p.counts.held, holdOverflow := bump p.counts.holdOverflow } })) ∧
    (p.waiting.length < 96 → p.alert r = p.give r) ∧
    (96 ≤ p.waiting.length →
      p.alert r = { p with counts := { p.counts with alertLost := bump p.counts.alertLost } })

/-- The completion of a word write of the log writer: the next word is due, or with the eighth the entry leaves the
buffer and the head of the pending list is published into its place. With no such write in progress nothing
completes (log 1). LOG_SET: in SETUP it names a ring from its first entry, or disables the log, which lets go of
the entries behind the one being written and of the pending list; any other session state, or a ring that does
not fit, is refused (an entry's address is taken as soon as the entry heads the buffer, log 10). How a flag byte
is read is the model's (logs 14 and 30). -/
def Obligations.LogWriterAndLogSet : Prop :=
  (∀ s : State,
    let p := s.publisher
    ((∀ a, s.tmp.inProgress ≠ some (.logWriter, a)) → exec .logWordWriteComplete s = .next s) ∧
    ∀ a v w, s.tmp.inProgress = some (.logWriter, .write a v) → p.writer = some w →
      let done (p' : Publisher) : Prop := exec .logWordWriteComplete s =
        .next { accessed s (writeWord s.tmp.mem a v) with publisher := p' }
      let left : Publisher := { p with
        writer := none
        buffer := p.buffer.tail
        counts := { p.counts with entriesWritten := bump p.counts.entriesWritten } }
      (w.written < 7 → done { p with writer := some { w with written := w.written + 1 } }) ∧
      (7 ≤ w.written →
        (∀ r rest, p.waiting = r :: rest → done (({ left with waiting := rest } : Publisher).publish r)) ∧
        (p.waiting = [] →
          (p.logEnabled = false ∨ p.buffer.tail = [] → done left) ∧
          (p.logEnabled = true → p.buffer.tail ≠ [] →
            let taken : Publisher := { left with
              writer := some ⟨BitVec.ofNat 18 (p.logBase * 1024 + p.writeIndex * 8), 0⟩ }
            (p.writeIndex + 1 < p.logLength * 128 → done { taken with writeIndex := p.writeIndex + 1 }) ∧
            (p.logLength * 128 ≤ p.writeIndex + 1 → done { taken with writeIndex := 0, wrapped := true }))))) ∧
  (∀ (s : State) (r : Request) (rest : List Request), BeginsAs s r rest 0x42 3 →
    let p := s.publisher
    let base := r.nat 1 1
    let length := r.nat 2 1
    let set (p' : Publisher) : Prop :=
      exec .logSet s = .next { s with publisher := p', mu := servedMu s r rest .ok [] }
    (s.session.state ≠ .setup → exec .logSet s = .next (refusedState s r rest .state)) ∧
    (s.session.state = .setup →
      (r.flag 0 = some true → 1 ≤ length → length ≤ 64 → base + length ≤ 256 →
        let q : Publisher := { p with
          logEnabled := true, logBase := base, logLength := length, writeIndex := 0, wrapped := false }
        (p.writer ≠ none ∨ p.buffer = [] → set q) ∧
        (p.writer = none → p.buffer ≠ [] →
          set { q with writer := some ⟨BitVec.ofNat 18 (base * 1024), 0⟩, writeIndex := 1 })) ∧
      (r.flag 0 = some false → set (p.waiting.foldl Publisher.publish { p with
        logEnabled := false
        buffer := if p.writer = none then [] else p.buffer.take 1
        waiting := [] })) ∧
      (r.flag 0 = some true → length = 0 ∨ 64 < length ∨ 256 < base + length →
        exec .logSet s = .next (refusedState s r rest .range))))

/-- RELEASE and DISCARD: the held results of one competitor, or of all, leave the Hold List in their order; RELEASE
publishes each with RELEASED, DISCARD none; the reply gives their number, and a competitor above 95 that is not
ALL is out of range. -/
def Obligations.HoldListRequests : Prop :=
  ∀ (s : State) (r : Request) (rest : List Request),
    let p := s.publisher
    let named (who : Option CompNo) (x : Result) : Bool :=
      match who with | none => true | some c => decide (x.competitor.map Prod.fst = some c)
    let out (who : Option CompNo) := p.hold.filter (named who)
    let left (who : Option CompNo) := p.hold.filter fun x => !(named who x)
    let asks (who : Option CompNo) : Prop :=
      match who with | none => (r.byte 0).toNat = 255 | some c => (r.byte 0).toNat = c.val
    (BeginsAs s r rest 0x40 1 →
      (∀ who, asks who → exec .release s = .next { s with
        mu := servedMu s r rest .ok (natBytes 1 (out who).length)
        publisher := (out who).foldl
          (fun q x => q.give { x with flags := { x.flags with released := true } })
          { p with
            hold := left who
            counts := { p.counts with released := min (p.counts.released + (out who).length) 65535 } } }) ∧
      (96 ≤ (r.byte 0).toNat → (r.byte 0).toNat ≠ 255 →
        exec .release s = .next (refusedState s r rest .range))) ∧
    (BeginsAs s r rest 0x41 1 →
      (∀ who, asks who → exec .discard s = .next { s with
        mu := servedMu s r rest .ok (natBytes 1 (out who).length)
        publisher := { p with
          hold := left who
          counts := { p.counts with discarded := min (p.counts.discarded + (out who).length) 65535 } } }) ∧
      (96 ≤ (r.byte 0).toNat → (r.byte 0).toNat ≠ 255 →
        exec .discard s = .next (refusedState s r rest .range)))

/-! ## Requests -/

/-- A request code that names no request is refused with NOT_SUPPORTED, whatever its length, and a declared length
other than the code's own with FORMAT. A parameter field is the number that its bytes carry, most significant
first; a flag byte of 0 is clear and one of 1 set; one that means neither is refused with RANGE (what a byte of
2 to 255 means is the model's free value, log 14). The codes that name a request are those of section 12.3, and
no other. That a flag byte of 0 is clear and one of 1 set is the model's reading (logs 14 and 30). -/
def Obligations.RequestHeaders : Prop :=
  (∀ (s : State) (r : Request) (rest : List Request), Begins s r rest → r.code.toNat ∉ requestCodes →
    exec .unsupportedRequest s = .next (refusedState s r rest .notSupported)) ∧
  (∀ n : Nat, n ∈ requestCodes ↔
    (0x01 ≤ n ∧ n ≤ 0x05) ∨ (0x10 ≤ n ∧ n ≤ 0x11) ∨ (0x20 ≤ n ∧ n ≤ 0x24) ∨ (0x30 ≤ n ∧ n ≤ 0x34) ∨
    (0x38 ≤ n ∧ n ≤ 0x42) ∨ n = 0x44 ∨ (0x48 ≤ n ∧ n ≤ 0x4C) ∨ (0x50 ≤ n ∧ n ≤ 0x53)) ∧
  (∀ (s : State) (r : Request) (rest : List Request), Begins s r rest →
    (∀ row ∈ requestRows, r.code.toNat = row.2.1 → r.length.toNat ≠ row.2.2 →
      exec row.1 s = .next (refusedState s r rest .format)) ∧
    (72 ≤ r.code.toNat → r.code.toNat ≤ 75 → r.length.toNat ∉ [6, 10, 14, 18, 22] →
      exec .tableWrite s = .next (refusedState s r rest .format))) ∧
  (∀ (r : Request) (i : Nat), i < 22 →
    r.nat i 1 = (r.byte i).toNat ∧
    (i + 1 < 22 → r.nat i 2 = 256 * (r.byte i).toNat + (r.byte (i + 1)).toNat) ∧
    (i + 2 < 22 → r.nat i 3 =
      65536 * (r.byte i).toNat + 256 * (r.byte (i + 1)).toNat + (r.byte (i + 2)).toNat) ∧
    ((r.byte i).toNat = 0 → r.flag i = some false) ∧ ((r.byte i).toNat = 1 → r.flag i = some true)) ∧
  (∀ (s : State) (r : Request) (rest : List Request),
    let setup := s.session.state = .setup
    let refused (c : Instr) : Prop := exec c s = .next (refusedState s r rest .range)
    (BeginsAs s r rest 0x22 7 → r.flag 1 = none → refused .loopConfig) ∧
    (BeginsAs s r rest 0x23 7 → setup → r.flag 1 = none → refused .trapLoad) ∧
    (BeginsAs s r rest 0x42 3 → setup → r.flag 0 = none → refused .logSet) ∧
    (BeginsAs s r rest 0x4C 4 → setup → r.flag 0 = none ∨ r.flag 1 = none → refused .guardSet))

/-- While the MU may begin no request, or where the head has another code, a request's command changes nothing (the
model's choice for an event whose condition is not met, log 1). The requests that wait while the pending list
holds more than 32 results are those that hand results to the Publisher: ROSTER_WRITE to LAP_ADJUST, OPEN to
CLEAR, RELEASE, and no other. -/
def Obligations.RequestWaits : Prop :=
  (∀ s : State,
    let waits (r : Request) : Prop := s.mu.table ≠ none ∨ 4 ≤ s.mu.replies.length ∨
      (r.code.toNat ∈ resultCodes ∧ 32 < s.publisher.waiting.length)
    (∀ row ∈ requestRows,
      (s.mu.queue = [] → exec row.1 s = .next s) ∧
      ∀ r rest, s.mu.queue = r :: rest → waits r ∨ r.code.toNat ≠ row.2.1 → exec row.1 s = .next s) ∧
    (s.mu.queue = [] → exec .tableWrite s = .next s ∧ exec .unsupportedRequest s = .next s ∧
      ∀ straps, exec (.resetPart straps) s = .next s) ∧
    ∀ r rest, s.mu.queue = r :: rest →
      (waits r ∨ r.code.toNat < 72 ∨ 75 < r.code.toNat → exec .tableWrite s = .next s) ∧
      (waits r ∨ r.code.toNat ∈ requestCodes → exec .unsupportedRequest s = .next s) ∧
      (waits r ∨ r.code.toNat ≠ 5 → ∀ straps, exec (.resetPart straps) s = .next s)) ∧
  (∀ n : Nat, n ∈ resultCodes ↔ (0x30 ≤ n ∧ n ≤ 0x34) ∨ (0x38 ≤ n ∧ n ≤ 0x3E) ∨ n = 0x40)

/-- SLOT_MAP_WRITE writes one action into the staged map of a direction; a direction, slot or action outside the
named ones is out of range. -/
def Obligations.SlotMapWrite : Prop :=
  ∀ (s : State) (r : Request) (rest : List Request), BeginsAs s r rest 0x01 3 →
    let direction (d : Direction) : Nat := match d with | .upstream => 0 | .downstream => 1
    (∀ (d : Direction) (k : Slot) (a : Action), r.nat 0 1 = direction d → r.nat 1 1 = k.val → r.nat 2 1 = a.code →
      let lane := s.lif.lane d
      exec .slotMapWrite s = .next { s with
        lif := s.lif.setLane d { lane with staged := lane.staged.set k a }
        mu := servedMu s r rest .ok [] }) ∧
    (1 < r.nat 0 1 ∨ 40 ≤ r.nat 1 1 ∨ 5 < r.nat 2 1 →
      exec .slotMapWrite s = .next (refusedState s r rest .range))

/-- ROOT_SET sets the root, empties the cache and raises the generation count once, and replies with the previous
root; an index above 1,023 is out of range. RESOLVER_FLUSH removes the entries of its mode, raises the
generation and flush counts, and replies with the number removed; a mode outside the three is out of range. No
other command but the two part resets changes the root or the generation count. -/
def Obligations.ResolverRequests : Prop :=
  (∀ (s : State) (r : Request) (rest : List Request), BeginsAs s r rest 0x10 2 →
    (∀ i : TableIndex, r.nat 0 2 = i.toNat → exec .rootSet s = .next { s with
      resolver := { s.resolver with root := some i, cache := [], generation := s.resolver.generation + 1 }
      mu := servedMu s r rest .ok
        (match s.resolver.root with | none => [255, 255] | some old => natBytes 2 old.toNat) }) ∧
    (1023 < r.nat 0 2 → exec .rootSet s = .next (refusedState s r rest .range))) ∧
  (∀ (s : State) (r : Request) (rest : List Request), BeginsAs s r rest 0x11 4 →
    let x := s.resolver
    let flushed (keep : CacheEntry → Bool) : Prop := exec .resolverFlush s = .next { s with
      resolver := { x with
        cache := x.cache.filter keep
        generation := x.generation + 1
        counts := { x.counts with flushes := bump x.counts.flushes } }
      mu := servedMu s r rest .ok (natBytes 1 (x.cache.length - (x.cache.filter keep).length)) }
    (r.nat 0 1 = 1 → flushed fun _ => false) ∧
    (r.nat 0 1 = 2 → flushed fun e => match e.outcome with
      | .competitor _ _ retain => retain
      | .absent _ _ => false
      | .fault _ _ => false) ∧
    (r.nat 0 1 = 3 → flushed fun e => decide (e.code.toNat ≠ r.nat 1 3)) ∧
    (r.nat 0 1 = 0 ∨ 3 < r.nat 0 1 → exec .resolverFlush s = .next (refusedState s r rest .range))) ∧
  (∀ (s t : State) (c : Instr), c ≠ .rootSet → c ≠ .resolverFlush →
    (∀ straps, c ≠ .partReset straps ∧ c ≠ .resetPart straps) → exec c s = .next t →
    t.resolver.root = s.resolver.root ∧ t.resolver.generation = s.resolver.generation)

/-- COURSE_POINT_LOAD: in SETUP, with its fields in range and its loops distinct and free for the point, it stores
the point, gives its loops their roles and takes them from the point's other loops; the first test that fails
decides the refusal. -/
def Obligations.CoursePointLoad : Prop :=
  ∀ (s : State) (r : Request) (rest : List Request), BeginsAs s r rest 0x20 7 →
    let k := s.course
    let loop (i : Nat) (l : Option LoopNo) : Prop :=
      match l with | none => r.nat i 1 = 255 | some l => r.nat i 1 = l.val
    let out (i : Nat) : Prop := 32 ≤ r.nat i 1 ∧ r.nat i 1 ≠ 255
    (s.session.state ≠ .setup → exec .coursePointLoad s = .next (refusedState s r rest .state)) ∧
    (s.session.state = .setup →
      (16 ≤ r.nat 0 1 ∨ 32 ≤ r.nat 1 1 ∨ out 2 ∨ out 3 ∨ 600000 < r.nat 4 3 →
        exec .coursePointLoad s = .next (refusedState s r rest .range)) ∧
      ∀ (q : PointNo) (primary : LoopNo) (backup alt : Option LoopNo), r.nat 0 1 = q.val →
        r.nat 1 1 = primary.val → loop 2 backup → loop 3 alt → r.nat 4 3 ≤ 600000 →
        let named := primary :: (backup.toList ++ alt.toList)
        let free (l : LoopNo) : Prop := k.loops[l].role.index = none ∨ k.loops[l].role.index = some q
        (¬ named.Nodup ∨ (∃ l ∈ named, ¬ free l) →
          exec .coursePointLoad s = .next (refusedState s r rest .range)) ∧
        (named.Nodup → (∀ l ∈ named, free l) → ∃ loops : Vector LoopRec 32,
          exec .coursePointLoad s = .next { s with
            course := { k with
              points := k.points.set q (some ⟨primary, backup, alt, r.nat 4 3⟩)
              count := max k.count (q.val + 1)
              loops := loops }
            mu := servedMu s r rest .ok (natBytes 1 (max k.count (q.val + 1))) } ∧
          ∀ l : LoopNo,
            let role : CourseRole :=
              if l = primary then .primary q
              else if backup = some l then .backup q
              else if alt = some l then .pitAlt q
              else if k.loops[l].role.index = some q then .none
              else k.loops[l].role
            loops[l] = { k.loops[l] with role := role }))

/-- COURSE_CLEAR: in SETUP it unloads every point, sets the count to 0 and takes every course role away, with the
trap pairs and the other fields kept; in any other session state it is refused. -/
def Obligations.CourseClear : Prop :=
  ∀ (s : State) (r : Request) (rest : List Request), BeginsAs s r rest 0x21 0 →
    (s.session.state ≠ .setup → exec .courseClear s = .next (refusedState s r rest .state)) ∧
    (s.session.state = .setup → ∃ (points : Vector (Option CoursePoint) 16) (loops : Vector LoopRec 32),
      exec .courseClear s = .next { s with
        course := { s.course with points := points, count := 0, loops := loops }
        mu := servedMu s r rest .ok [] } ∧
      (∀ q : PointNo, points[q] = none) ∧
      ∀ l : LoopNo, loops[l] = { s.course.loops[l] with role := .none })

/-- LOOP_CONFIG: its ranges are tested first; in SETUP it writes its five fields, and in every other session state
it does so only where the pit role and the dead-band are those held. TRAP_LOAD: in SETUP it loads or empties one
trap entry. How a flag byte is read is the model's (logs 14 and 30). -/
def Obligations.LoopAndTrapRequests : Prop :=
  (∀ (s : State) (r : Request) (rest : List Request), BeginsAs s r rest 0x22 7 →
    (32 ≤ r.nat 0 1 ∨ r.nat 2 1 = 0 ∨ 3 < r.nat 2 1 ∨ 10000 < r.nat 5 2 →
      exec .loopConfig s = .next (refusedState s r rest .range)) ∧
    ∀ (l : LoopNo) (enabled : Bool) (role : PitRole), r.nat 0 1 = l.val → r.flag 1 = some enabled →
      r.nat 2 1 = role.code → r.nat 5 2 ≤ 10000 →
      let old := s.course.loops[l]
      let same := role = old.pitRole ∧ r.nat 5 2 = old.deadBand
      (s.session.state = .setup ∨ same → exec .loopConfig s = .next { s with
        course := { s.course with loops := s.course.loops.set l { old with
          enabled := enabled, pitRole := role, window := r.nat 3 1, floor := r.nat 4 1, deadBand := r.nat 5 2 } }
        mu := servedMu s r rest .ok [] }) ∧
      (s.session.state ≠ .setup → ¬ same → exec .loopConfig s = .next (refusedState s r rest .state))) ∧
  (∀ (s : State) (r : Request) (rest : List Request), BeginsAs s r rest 0x23 7 →
    let set (i : Fin 4) (t : Option Trap) : Prop := exec .trapLoad s = .next { s with
      course := { s.course with traps := s.course.traps.set i t }
      mu := servedMu s r rest .ok [] }
    let bad := 32 ≤ r.nat 2 1 ∨ 32 ≤ r.nat 3 1 ∨ r.nat 4 3 = 0 ∨ 200000 < r.nat 4 3
    (s.session.state ≠ .setup → exec .trapLoad s = .next (refusedState s r rest .state)) ∧
    (s.session.state = .setup →
      (4 ≤ r.nat 0 1 ∨ (r.flag 1 = some true ∧ bad) →
        exec .trapLoad s = .next (refusedState s r rest .range)) ∧
      ∀ i : Fin 4, r.nat 0 1 = i.val →
        (r.flag 1 = some false → set i none) ∧
        ∀ a b : LoopNo, r.flag 1 = some true → r.nat 2 1 = a.val → r.nat 3 1 = b.val → 1 ≤ r.nat 4 3 →
          r.nat 4 3 ≤ 200000 → set i (some ⟨a, b, r.nat 4 3⟩)))

/-- The reading requests change nothing but the MU: COURSE_READ, ORDER_READ, COMPETITOR_READ, and STATUS_READ, whose
clear option on the pool page sets the high-water mark to the number of entries held. The pages that they have,
that the data of each fits the 25 data bytes of a REPLY cell, and the values that each page and part carries, in
their order and with their widths: an absent number is all ones, a flag 1 or 0, and a named value its place in
its list. How the clear option's byte is read is the model's (logs 14 and 30), and so are the layout and the
flags of COURSE_READ (log 18), the bytes of an absent item (log 23), no next access of a sweep that is IDLE (log
20), and the MU's own state in the reply (log 21). -/
def Obligations.ReadRequests : Prop :=
  (∀ (s : State) (r : Request) (rest : List Request),
    let replied (data : List Byte) : State := { s with mu := servedMu s r rest .ok data }
    let begun := s.begin rest
    (BeginsAs s r rest 0x24 2 →
      (∀ data, begun.course.page (r.nat 0 1) (r.nat 1 1) = some data →
        exec .courseRead s = .next (replied data)) ∧
      (begun.course.page (r.nat 0 1) (r.nat 1 1) = none →
        exec .courseRead s = .next (refusedState s r rest .range))) ∧
    (BeginsAs s r rest 0x3F 2 →
      let places := (s.order.list.drop (r.nat 0 1 - 1)).take (r.nat 1 1)
      (1 ≤ r.nat 0 1 → r.nat 0 1 ≤ 96 → 1 ≤ r.nat 1 1 → r.nat 1 1 ≤ 6 →
        exec .orderRead s = .next (replied (natBytes 1 s.order.list.length ++
          (places.map fun c => natBytes 1 c.val ++ natBytes 2 s.engine.records[c].laps).flatten))) ∧
      (r.nat 0 1 = 0 ∨ 96 < r.nat 0 1 ∨ r.nat 1 1 = 0 ∨ 6 < r.nat 1 1 →
        exec .orderRead s = .next (refusedState s r rest .range))) ∧
    (BeginsAs s r rest 0x04 3 →
      (∀ (c : CompNo) data, r.nat 0 1 = c.val → begun.competitorPage c (r.nat 1 1) (r.nat 2 1) = some data →
        exec .competitorRead s = .next (replied data)) ∧
      (96 ≤ r.nat 0 1 ∨ (∀ c : CompNo, begun.competitorPage c (r.nat 1 1) (r.nat 2 1) = none) →
        exec .competitorRead s = .next (refusedState s r rest .range))) ∧
    (BeginsAs s r rest 0x03 3 →
      (∀ data, begun.statusPage (r.nat 0 1) (r.nat 1 1) = some data →
        (r.flag 2 = some false → exec .statusRead s = .next (replied data)) ∧
        (r.flag 2 = some true → r.nat 0 1 = 5 → exec .statusRead s = .next { replied data with
          settle := { s.settle with highWater := 256 - s.settle.free } }) ∧
        (r.flag 2 = none ∨ (r.flag 2 = some true ∧ r.nat 0 1 ≠ 5) →
          exec .statusRead s = .next (refusedState s r rest .range))) ∧
      (begun.statusPage (r.nat 0 1) (r.nat 1 1) = none →
        exec .statusRead s = .next (refusedState s r rest .range)))) ∧
  (∀ s : State,
    (∀ page part, (s.statusPage page part).isSome = true ↔
      (page = 1 ∧ part ≤ 3) ∨ (page = 2 ∧ part ≤ 63) ∨ (page = 3 ∧ part ≤ 63) ∨ (page = 4 ∧ part ≤ 1) ∨
      (page = 5 ∧ part ≤ 2) ∨ (page = 6 ∧ part ≤ 1) ∨ (page = 7 ∧ part ≤ 6) ∨
      (page = 8 ∧ (part ≤ 39 ∨ (64 ≤ part ∧ part ≤ 103)))) ∧
    (∀ (c : CompNo) page part, (s.competitorPage c page part).isSome = true ↔
      (page = 1 ∧ part ≤ 1) ∨ (page = 2 ∧ part ≤ 1) ∨ (page = 3 ∧ part ≤ 7) ∨ (page = 4 ∧ part ≤ 3) ∨
      (page = 5 ∧ part ≤ 1)) ∧
    (∀ page i, (s.course.page page i).isSome = true ↔
      (page = 1 ∧ i ≤ 15) ∨ (page = 2 ∧ i ≤ 31) ∨ (page = 3 ∧ i ≤ 3)) ∧
    (∀ page part data, s.statusPage page part = some data → data.length ≤ 25) ∧
    (∀ (c : CompNo) page part data, s.competitorPage c page part = some data → data.length ≤ 25) ∧
    ∀ page i data, s.course.page page i = some data → data.length ≤ 25) ∧
  (let counts (l : List Nat) : List (Nat × Nat) := l.map fun v => (2, v)
  let opt (n : Nat) (v : Option Nat) : Nat × Nat := (n, v.getD (256 ^ n - 1))
  let flag (b : Bool) : Nat × Nat := (1, if b = true then 1 else 0)
  let code (v : Option Nat) : Nat × Nat := (1, v.getD 0)
  let place (p : Option (TableIndex × Byte)) : List (Nat × Nat) :=
    [opt 2 (p.map fun q => q.1.toNat), opt 1 (p.map fun q => q.2.toNat)]
  let bytes (l : List (Nat × Nat)) : List Byte := (l.map fun f => natBytes f.1 f.2).flatten
  (∀ v : Nat, natBytes 0 v = [] ∧ ∀ n : Nat, natBytes (n + 1) v = natBytes n (v / 256) ++ [BitVec.ofNat 8 v]) ∧
  ([SessionState.setup, .standby, .live, .chequered, .closed].map SessionState.code = [1, 2, 3, 4, 5] ∧
    [StartMode.flying, .grid].map StartMode.code = [1, 2] ∧
    [Chequer.none, .pending, .taken].map Chequer.code = [1, 2, 3] ∧
    [ClockState.unset, .locked, .freeRun].map ClockState.code = [1, 2, 3] ∧
    [AlignState.unsynced, .acquiring, .locked, .holdover].map AlignState.code = [1, 2, 3, 4] ∧
    [Overflow.normal, .overflowing].map Overflow.code = [1, 2] ∧
    (∀ w a o, [Serving.idle, .walking w, .delivering a o].map Serving.code = [1, 2, 3]) ∧
    [SweepMode.clearSeen, .audit].map SweepMode.code = [1, 2] ∧
    [SweepState.idle, .running, .suspended].map SweepState.code = [1, 2, 3] ∧
    [CompState.inactive, .standby, .onTrack, .inPit, .finished, .retired].map CompState.code = [1, 2, 3, 4, 5, 6] ∧
    [Quality.good, .backup, .coarse, .unsettled, .holdover].map Quality.rank = [1, 2, 3, 4, 5] ∧
    [PitRole.none, .entry, .exit].map PitRole.code = [1, 2, 3] ∧
    (∀ q, [CourseRole.none, .primary q, .backup q, .pitAlt q].map CourseRole.code = [1, 2, 3, 4]) ∧
    [Action.pass, .copy, .take, .inspect, .block, .insert].map Action.code = [0, 1, 2, 3, 4, 5]) ∧
  ∀ s : State,
    let shows (page part : Nat) (l : List (Nat × Nat)) : Prop := s.statusPage page part = some (bytes l)
    let k := s.cau.clock
    let e := s.engine.counts
    let rc := s.resolver.counts
    let sc := s.settle.counts
    let m := s.mu.counts
    let p := s.publisher
    let x := s.sweep
    let f := x.report
    let addr (i : Nat) : Nat × Nat := opt 3 (f.faultAddrs[i]?.map BitVec.toNat)
    let walkRoot : Option TableIndex := match s.resolver.serving with
      | .walking w => some w.root
      | .idle => none
      | .delivering _ _ => none
    shows 1 0 [(1, s.session.state.code), code (s.session.mode.map StartMode.code), opt 6 s.session.greenTime,
      flag s.session.neutral, (1, s.session.chequer.code), opt 6 (s.order.best.map SessionBest.time),
      opt 1 (s.order.best.map fun b => b.competitor.val), opt 2 (s.order.best.map SessionBest.lap),
      (1, s.order.list.length)] ∧
    shows 1 1 ([(1, k.state.code), (4, k.cycle.toNat), (1, k.missingRun), (1, k.goodRun)] ++
      counts [k.losses, k.steps, k.offSlotBeacons]) ∧
    shows 1 2 (counts [e.settled, e.forced, e.poolEmpty, e.passOnly, e.appliedInFull, e.implausible, e.entries,
      s.engine.silenceLimit]) ∧
    shows 1 3 (counts [e.pitMoves, e.trapRejected, e.mergedSectors, e.inferredLaps, e.silences]) ∧
    (∀ l : LoopNo,
      let a := s.cau.records[l]
      let c := s.intake.counts[l]
      shows 2 l.val [(1, a.state.code), (4, a.anchorTick.toNat), (6, a.anchorTime),
        (2, (BitVec.ofInt 16 a.rate).toNat), (6, a.lastBeacon), (1, a.consecutive)] ∧
      shows 2 (l.val + 32) (counts [a.accepted, a.close, a.rateFaults, a.steps, a.unresolved,
        s.cau.residualTolerance] ++ [(1, s.cau.beaconTimeout), (2, s.cau.holdoverLimit)]) ∧
      shows 3 l.val (counts [c.accepted, c.clamped, c.misrouted, c.malformed, c.disabled, c.idleDiscard, c.unsynced,
        c.weak, c.future, c.stale, c.overflowed]) ∧
      shows 3 (l.val + 32) (counts [s.intake.offSlot, s.intake.episodes] ++ [(1, s.intake.overflow.code),
        (1, s.intake.queue.length), (2, s.intake.longestWait)])) ∧
    shows 4 0 ([(1, s.resolver.serving.code), opt 2 (s.resolver.root.map BitVec.toNat),
      opt 2 (walkRoot.map BitVec.toNat), (4, s.resolver.generation.toNat), (1, s.resolver.cache.length)] ++
      counts [rc.served, rc.hits, rc.walks, rc.reads, rc.seenUpdates, rc.competitors]) ∧
    shows 4 1 (counts [rc.unknowns, rc.unknownRepeats, rc.noRoot, rc.badType, rc.badCompetitor, rc.aliasChain,
      rc.faultHits, rc.fills, rc.suppressed, rc.evictions, rc.flushes]) ∧
    shows 5 0 (counts [sc.insertions, sc.merges, sc.backupOverruled, sc.duplicates, sc.late, sc.expiries,
      sc.forcedFull, sc.poolEmpty, sc.sessionDiscards, sc.inactive, sc.retireDiscards, sc.closeDiscards]) ∧
    shows 5 1 (counts [s.settle.free, 256 - s.settle.free, s.settle.highWater, s.settle.interval]) ∧
    shows 5 2 (counts [m.delivered, m.dropped, m.begun, m.ok, m.clamped, m.busy, m.state, m.range, m.protected_,
      m.format, m.notSupported] ++ [(1, s.mu.queue.length), (1, s.mu.replies.length), (1, 2)]) ∧
    shows 6 0 (counts [p.counts.published, p.counts.held, p.counts.released, p.counts.discarded,
      p.counts.clearDiscarded, p.counts.holdOverflow, p.counts.lineDrop, p.counts.entriesWritten,
      p.counts.alertLost, p.sequence.toNat]) ∧
    shows 6 1 [(1, p.hold.length), (1, p.waiting.length), (1, p.buffer.length), (1, p.resultQueue.length),
      flag p.logEnabled, (1, p.logBase), (1, p.logLength), (2, p.writeIndex), flag p.wrapped] ∧
    shows 7 0 ([(1, x.state.code), code (x.mode.map SweepMode.code), (2, x.root.toNat), flag f.complete,
      (1, x.pos.root.toNat)] ++ place x.pos.branch ++ place x.pos.leaf ++
      (match x.state with
        | .idle => [(1, 0), (3, 16777215)]
        | .running | .suspended => [(1, match x.pos.next with | .entry => 1 | .flagUpdate _ => 2 | .target _ => 3),
            (3, (x.pos.access x.root).addr.toNat)]) ++
      counts [f.visited, f.seenCleared, f.aliasAbsent, f.faults]) ∧
    shows 7 1 (counts [f.tables, f.competitors, f.aliases, f.absents] ++ [addr 0, addr 1, addr 2, addr 3, addr 4]) ∧
    shows 7 2 ([addr 5, addr 6, addr 7, flag s.tmp.guard.enabled, flag s.tmp.guard.invert, (1, s.tmp.guard.first),
      (1, s.tmp.guard.last)] ++ counts [s.tmp.protectedCount, s.tmp.grantsResolver, s.tmp.grantsLog,
      s.tmp.grantsManagement, s.tmp.grantsSweep]) ∧
    (∀ part, part < 4 →
      shows 7 (part + 3) ((List.range 24).map fun j => (1, f.audit.toList.getD (24 * part + j) 0))) ∧
    (∀ (d : Direction) (i : Slot),
      let lane := s.lif.lane d
      shows 8 (match d with | .upstream => i.val | .downstream => i.val + 64) ((1, lane.inForce[i].code) ::
        counts [lane.counts[i].bad, lane.counts[i].foreign, lane.counts[i].overwrite, lane.slips,
          lane.markErrors])) ∧
    (∀ c : CompNo,
      let r := s.engine.records[c]
      let list := s.settle.lists[c]
      let reads (page part : Nat) (l : List (Nat × Nat)) : Prop := s.competitorPage c page part = some (bytes l)
      let line : Nat := match r.lastApplied.map AppliedMark.line with
        | none => 255
        | some (.point q) => q.val
        | some (.loop l) => 32 + l.val
      let sector (v : Option SectorTime) : List (Nat × Nat) :=
        [opt 6 (v.map SectorTime.time), code (v.map fun a => a.quality.rank),
          flag ((v.map SectorTime.neutral).getD false), flag ((v.map SectorTime.pit).getD false)]
      let trap (v : Option TrapStart) : List (Nat × Nat) :=
        [opt 6 (v.map TrapStart.time), code (v.map fun a => a.quality.rank)]
      reads 1 0 [(1, r.state.code), (2, r.raceNumber), (1, r.class_), flag r.entered, (2, r.laps),
        (6, r.lastCrossing), opt 6 (r.lastApplied.map AppliedMark.time), (1, line), flag r.silenceAlerted] ∧
      reads 1 1 [(1, list.length), opt 6 (list.head?.map Pending.time)] ∧
      reads 2 0 [opt 1 (r.lastPoint.map fun a => a.point.val), opt 6 (r.lastPoint.map LastPoint.time),
        code (r.lastPoint.map fun a => a.quality.rank), opt 6 r.lapStart, (1, r.lapWorst.rank), flag r.lapPit,
        flag r.sectorPit, flag r.lapNeutral, flag r.sectorNeutral] ∧
      reads 2 1 [(1, r.pitCount), opt 6 r.pitEntry, opt 6 (r.bestLap.map BestLap.time),
        opt 2 (r.bestLap.map BestLap.lap)] ∧
      (∀ part, part < 8 → reads 3 part (sector (r.sectors.toList.getD (2 * part) none) ++
        sector (r.sectors.toList.getD (2 * part + 1) none))) ∧
      (∀ part, part < 4 →
        reads 4 part ((List.range 4).map fun j => opt 6 (r.bestSectors.toList.getD (4 * part + j) none))) ∧
      ∀ part, part < 2 → reads 5 part (trap (r.trapStarts.toList.getD (2 * part) none) ++
        trap (r.trapStarts.toList.getD (2 * part + 1) none))) ∧
    (∀ q : PointNo, s.course.page 1 q.val = some (bytes ((1, s.course.count) :: match s.course.points[q] with
      | none => [flag false]
      | some a => [flag true, (1, a.primary.val), opt 1 (a.backup.map Fin.val), opt 1 (a.pitAlt.map Fin.val),
          (3, a.minTransit)]))) ∧
    (∀ l : LoopNo,
      let a := s.course.loops[l]
      let point : Option PointNo := match a.role with
        | .none => none
        | .primary q => some q
        | .backup q => some q
        | .pitAlt q => some q
      s.course.page 2 l.val = some (bytes [flag a.enabled, (1, a.role.code), opt 1 (point.map Fin.val),
        (1, a.pitRole.code), (1, a.window), (1, a.floor), (2, a.deadBand)])) ∧
    ∀ i : Fin 4, s.course.page 3 i.val = some (bytes (match s.course.traps[i] with
      | none => [flag false]
      | some a => [flag true, (1, a.startLoop.val), (1, a.endLoop.val), (3, a.distance)])))

/-- ROSTER_WRITE: a competitor in INACTIVE joins with its race number and class, in the state that the session
gives, and is reported; any other has them replaced; a number out of its range is refused. ROSTER_REMOVE, RETIRE
and REINSTATE: each is taken for a competitor in its states and refused with STATE in the others, changes the
record as its rule says, and is reported; a number above 95 is out of range. That a reinstated competitor owes
no silence test is the model's (log 7). -/
def Obligations.RosterRequests : Prop :=
  (∀ (s : State) (r : Request) (rest : List Request), BeginsAs s r rest 0x30 4 →
    let race := r.nat 1 2
    let cls := r.nat 3 1
    (96 ≤ r.nat 0 1 ∨ 999 < race ∨ 7 < cls → exec .rosterWrite s = .next (refusedState s r rest .range)) ∧
    ∀ c : CompNo, r.nat 0 1 = c.val → race ≤ 999 → cls ≤ 7 →
      let old := s.engine.records[c]
      let written (x : CompState) : Engine := { s.engine with
        records := s.engine.records.set c { old with state := x, raceNumber := race, class_ := cls } }
      (old.state ≠ .inactive → exec .rosterWrite s = .next { s with
        engine := written old.state, mu := servedMu s r rest .ok (natBytes 1 old.state.code) }) ∧
      ∀ x : CompState, x = (if s.session.state = .live ∨ s.session.state = .chequered then .onTrack else .standby) →
        old.state = .inactive → exec .rosterWrite s = .next { s with
          engine := written x
          publisher := s.publisher.give
            { kind := .state, competitor := some (c, race), time := s.now
              extra := .state .roster (some x) none }
          mu := servedMu s r rest .ok (natBytes 1 x.code) }) ∧
  (∀ (s : State) (r : Request) (rest : List Request),
    let set (c : CompNo) (x : Competitor) : Engine := { s.engine with records := s.engine.records.set c x }
    let report (c : CompNo) (race : Nat) (k : StateChange) (x : CompState) : Publisher := s.publisher.give
      { kind := .state, competitor := some (c, race), time := s.now, extra := .state k (some x) none }
    let discarded (c : CompNo) : Settle := { s.settle with
      lists := s.settle.lists.set c []
      free := s.settle.free + s.settle.lists[c].length
      counts := { s.settle.counts with
        retireDiscards := min (s.settle.counts.retireDiscards + s.settle.lists[c].length) 65535 } }
    (BeginsAs s r rest 0x31 1 →
      (96 ≤ r.nat 0 1 → exec .rosterRemove s = .next (refusedState s r rest .range)) ∧
      ∀ c : CompNo, r.nat 0 1 = c.val →
        let x := s.engine.records[c]
        (x.state = .standby ∨ x.state = .retired → exec .rosterRemove s = .next { s with
          settle := discarded c
          order := if x.entered = true then { s.order with list := s.order.list.filter fun d => decide (d ≠ c) }
            else s.order
          engine := set c {}
          publisher := report c 0 .remove .inactive
          mu := servedMu s r rest .ok [] }) ∧
        (x.state ≠ .standby → x.state ≠ .retired →
          exec .rosterRemove s = .next (refusedState s r rest .state))) ∧
    (BeginsAs s r rest 0x32 1 →
      (96 ≤ r.nat 0 1 → exec .retire s = .next (refusedState s r rest .range)) ∧
      ∀ c : CompNo, r.nat 0 1 = c.val →
        let x := s.engine.records[c]
        let taken := x.state = .standby ∨ x.state = .onTrack ∨ x.state = .inPit
        (taken → exec .retire s = .next { s with
          settle := discarded c
          engine := set c { x with
            state := .retired, trapStarts := Vector.replicate 4 none, pitEntry := none
            silenceAlerted := false }
          publisher := report c x.raceNumber .retire .retired
          mu := servedMu s r rest .ok [] }) ∧
        (¬ taken → exec .retire s = .next (refusedState s r rest .state))) ∧
    (BeginsAs s r rest 0x33 1 →
      (96 ≤ r.nat 0 1 → exec .reinstate s = .next (refusedState s r rest .range)) ∧
      ∀ c : CompNo, r.nat 0 1 = c.val →
        let x := s.engine.records[c]
        let back := if s.session.state = .setup ∨ s.session.state = .standby then CompState.standby else .onTrack
        (x.state = .retired → exec .reinstate s = .next { s with
          engine := set c { x with
            state := back, lastPoint := none, silenceAlerted := false, silenceTestOwed := false }
          publisher := report c x.raceNumber .reinstate back
          mu := servedMu s r rest .ok [] }) ∧
        (x.state ≠ .retired → exec .reinstate s = .next (refusedState s r rest .state))))

/-- LAP_ADJUST: for an entered competitor in LIVE, CHEQUERED or CLOSED the laps change by the delta, both clamped,
the competitor is reinserted, and the adjustment is reported and replied, CLAMPED where either was clamped. -/
def Obligations.LapAdjust : Prop :=
  ∀ (s : State) (r : Request) (rest : List Request), BeginsAs s r rest 0x34 2 →
    (96 ≤ r.nat 0 1 → exec .lapAdjust s = .next (refusedState s r rest .range)) ∧
    ∀ c : CompNo, r.nat 0 1 = c.val →
      let x := s.engine.records[c]
      let taken := (s.session.state = .live ∨ s.session.state = .chequered ∨ s.session.state = .closed) ∧
        x.entered = true
      (¬ taken → exec .lapAdjust s = .next (refusedState s r rest .state)) ∧
      (taken →
        let delta : Int := (r.byte 1).toInt
        let near : Int := max (-10) (min 10 delta)
        let laps : Nat := (max 0 (min 65535 ((x.laps : Int) + near))).toNat
        let records := s.engine.records.set c { x with laps := laps }
        let order := s.order.place records c
        let status : Status := if delta = near ∧ (laps : Int) = x.laps + near then .ok else .clamped
        exec .lapAdjust s = .next { s with
          engine := { s.engine with records := records }
          order := order
          publisher := s.publisher.take s.now (({ kind := .state, competitor := some (c, x.raceNumber)
                                                  lapNumber := some laps, time := s.now
                                                  extra := .state .adjust none (some ((laps : Int) - x.laps)) } :
            Result).placed order records c)
          mu := servedMu s r rest status (natBytes 2 laps ++ optBytes 1 (order.position c)) })

/-- OPEN: in SETUP with a valid course the session is in STANDBY; a course that is not valid is refused with its
finding, and any other session state without one. GREEN: in STANDBY it starts the session with its mode, moves
every competitor in STANDBY to ON_TRACK, and with GRID also enters it at the green time and places it in the
Running Order in ascending number; the reply gives their number (that a moved competitor owes no silence test is
the model's own, log 7). The finding codes in the reply of OPEN, and that a GRID start leaves the entries count,
are the model's (logs 18 and 28). -/
def Obligations.SessionStart : Prop :=
  (∀ (s : State) (r : Request) (rest : List Request), BeginsAs s r rest 0x38 0 →
    (s.session.state ≠ .setup → exec .openSession s = .next (refusedState s r rest .state)) ∧
    (s.session.state = .setup →
      (s.course.validity = .valid → exec .openSession s = .next { s with
        session := { s.session with state := .standby }
        publisher := s.publisher.give
          { kind := .session, time := s.now, extra := .session .opened .standby none }
        mu := servedMu s r rest .ok [4, 255] }) ∧
      (s.course.validity = .noFinish →
        exec .openSession s = .next { s with mu := servedMu s r rest .state [1, 255] }) ∧
      (∀ i, s.course.validity = .pointMissing i →
        exec .openSession s = .next { s with mu := servedMu s r rest .state (2 :: natBytes 1 i) }) ∧
      ∀ i, s.course.validity = .trapSelf i →
        exec .openSession s = .next { s with mu := servedMu s r rest .state (3 :: natBytes 1 i) })) ∧
  (∀ k : Course,
    let missing (q : PointNo) := q.val < k.count ∧ k.points[q] = none
    let self (i : Fin 4) := ∃ t, k.traps[i] = some t ∧ t.startLoop = t.endLoop
    (k.count = 0 ∨ k.points[(0 : PointNo)] = none → k.validity = .noFinish) ∧
    (k.count ≠ 0 → k.count ≤ 16 → k.points[(0 : PointNo)] ≠ none →
      (∀ q, missing q → (∀ j, j < q → ¬ missing j) → k.validity = .pointMissing q.val) ∧
      ((∀ q, ¬ missing q) →
        (∀ i, self i → (∀ j, j < i → ¬ self j) → k.validity = .trapSelf i.val) ∧
        ((∀ i, ¬ self i) → k.validity = .valid)))) ∧
  (∀ (s : State) (r : Request) (rest : List Request), BeginsAs s r rest 0x39 1 →
    let moved : List CompNo := (allFin 96).filter fun c => decide (s.engine.records[c].state = .standby)
    let on (x : Competitor) : Competitor := { x with state := .onTrack, silenceTestOwed := false }
    let entered (x : Competitor) : Competitor := { on x with
      entered := true, laps := 0, lastPoint := some ⟨0, s.now, .good⟩, lapWorst := .good
      lapStart := some s.now, lastCrossing := s.now, lapNeutral := s.session.neutral
      sectorNeutral := s.session.neutral, lapPit := false, sectorPit := false }
    let green (m : StartMode) (records : Records) (order : Order) : Prop := exec .green s = .next { s with
      engine := { s.engine with records := records }
      order := order
      session := { s.session with state := .live, mode := some m, greenTime := some s.now }
      publisher := s.publisher.give
        { kind := .session, time := s.now, extra := .session .green .live (some m) }
      mu := servedMu s r rest .ok (natBytes 1 moved.length) }
    (s.session.state ≠ .standby → exec .green s = .next (refusedState s r rest .state)) ∧
    (s.session.state = .standby →
      (r.nat 0 1 = 0 ∨ 2 < r.nat 0 1 → exec .green s = .next (refusedState s r rest .range)) ∧
      (r.nat 0 1 = 1 → ∃ records : Records, green .flying records s.order ∧ ∀ c : CompNo, records[c] =
        if s.engine.records[c].state = .standby then on s.engine.records[c] else s.engine.records[c]) ∧
      (r.nat 0 1 = 2 → ∃ records : Records,
        green .grid records (moved.foldl (fun o c => o.place records c) s.order) ∧ ∀ c : CompNo, records[c] =
          if s.engine.records[c].state = .standby then entered s.engine.records[c] else s.engine.records[c])))

/-- NEUTRAL_ON and NEUTRAL_OFF: in LIVE and CHEQUERED they set and clear the neutral flag, the first also the two
flags of every entered competitor, with a SESSION result where the flag changed. CHEQUER leaves the chequer
PENDING; CLOSE discards every settle list; CLEAR resets the records but for the roster, empties the Running
Order and the Hold List, and returns the session to SETUP. Each is refused in the other session states. -/
def Obligations.SessionRunAndEnd : Prop :=
  (∀ (s : State) (r : Request) (rest : List Request),
    let running := s.session.state = .live ∨ s.session.state = .chequered
    let result (k : SessionChange) : Result :=
      { kind := .session, time := s.now, extra := .session k s.session.state none }
    (BeginsAs s r rest 0x3A 0 →
      (¬ running → exec .neutralOn s = .next (refusedState s r rest .state)) ∧
      (running → ∃ records : Records, exec .neutralOn s = .next { s with
          session := { s.session with neutral := true }
          engine := { s.engine with records := records }
          publisher := match s.session.neutral with
            | true => s.publisher
            | false => s.publisher.give (result .neutralOn)
          mu := servedMu s r rest .ok [] } ∧
        ∀ c : CompNo, records[c] = match s.engine.records[c].entered with
          | true => { s.engine.records[c] with lapNeutral := true, sectorNeutral := true }
          | false => s.engine.records[c])) ∧
    (BeginsAs s r rest 0x3B 0 →
      (¬ running → exec .neutralOff s = .next (refusedState s r rest .state)) ∧
      (running → exec .neutralOff s = .next { s with
        session := { s.session with neutral := false }
        publisher := match s.session.neutral with
          | true => s.publisher.give (result .neutralOff)
          | false => s.publisher
        mu := servedMu s r rest .ok [] }))) ∧
  (∀ (s : State) (r : Request) (rest : List Request),
    let x := s.session.state
    let given (p : Publisher) (k : SessionChange) (after : SessionState) : Publisher :=
      p.give { kind := .session, time := s.now, extra := .session k after none }
    let freed (k : SettleCounts) : Settle := { s.settle with
      lists := Vector.replicate 96 [], free := 256, counts := k }
    let held := (s.settle.lists.toList.map List.length).sum
    (BeginsAs s r rest 0x3C 0 →
      (x ≠ .live → exec .chequer s = .next (refusedState s r rest .state)) ∧
      (x = .live → exec .chequer s = .next { s with
        session := { s.session with state := .chequered, chequer := .pending }
        publisher := given s.publisher .chequer .chequered
        mu := servedMu s r rest .ok [] })) ∧
    (BeginsAs s r rest 0x3D 0 →
      (x = .setup ∨ x = .closed → exec .close s = .next (refusedState s r rest .state)) ∧
      (x = .standby ∨ x = .live ∨ x = .chequered → exec .close s = .next { s with
        session := { s.session with state := .closed }
        settle := freed { s.settle.counts with
          closeDiscards := min (s.settle.counts.closeDiscards + held) 65535 }
        publisher := given s.publisher .close .closed
        mu := servedMu s r rest .ok [] })) ∧
    (BeginsAs s r rest 0x3E 0 →
      (x ≠ .closed → exec .clear s = .next (refusedState s r rest .state)) ∧
      (x = .closed → ∃ records : Records, exec .clear s = .next { s with
          engine := { s.engine with records := records }
          order := ⟨[], none⟩
          publisher := given { s.publisher with
              hold := []
              counts := { s.publisher.counts with
                clearDiscarded := min (s.publisher.counts.clearDiscarded + s.publisher.hold.length) 65535 } }
            .clear .setup
          settle := freed s.settle.counts
          session := ⟨.setup, none, none, false, .none⟩
          mu := servedMu s r rest .ok [] } ∧
        ∀ c : CompNo, records[c] =
          let old := s.engine.records[c]
          { ({} : Competitor) with
            state := if old.state = .inactive then .inactive else .standby
            raceNumber := old.raceNumber, class_ := old.class_ })))

/-- PARAM_WRITE: the value that comes into force is the nearest in the parameter's range, and the reply carries it,
with CLAMPED where it differs; a new settle interval or silence limit is tested at once, the lists with a due
head and the silent competitors one after another in a free order (the order is the model's free value, log 8).
The alignment parameters change nothing else, but that no timeout test is owed under the old value (the model's
own, log 7). The two bytes of the value in the reply are the model's (log 29). -/
def Obligations.ParamWrite : Prop :=
  (∀ (s : State) (r : Request) (rest : List Request), BeginsAs s r rest 0x02 3 →
    let v := r.nat 1 2
    let replied (t : State) (value : Nat) : Prop := exec .paramWrite s = .next { t with
      mu := servedMu s r rest (if value = v then .ok else .clamped) (natBytes 2 value) }
    (r.nat 0 1 = 0 ∨ 5 < r.nat 0 1 → exec .paramWrite s = .next (refusedState s r rest .range)) ∧
    (r.nat 0 1 = 1 → replied (State.expireAll { s with settle := { s.settle with interval := min v 2000 } })
      (min v 2000)) ∧
    (∀ n, n = (if v = 0 then 0 else if v < 10 then 10 else min v 3600) → r.nat 0 1 = 2 →
      replied (State.silenceTestAll { s with engine := { s.engine with silenceLimit := n } }) n) ∧
    (∀ n, n = (if v = 0 then 1 else min v 60) → r.nat 0 1 = 3 → ∃ records : Vector AlignRec 32,
      replied { s with cau := { s.cau with beaconTimeout := n, records := records } } n ∧
        ∀ l : LoopNo, records[l] = { s.cau.records[l] with testOwed := false }) ∧
    (∀ n, n = (if v < 10 then 10 else min v 3600) → r.nat 0 1 = 4 → ∃ records : Vector AlignRec 32,
      replied { s with cau := { s.cau with holdoverLimit := n, records := records } } n ∧
        ∀ l : LoopNo, records[l] = { s.cau.records[l] with testOwed := false }) ∧
    ∀ n, n = (if v < 10 then 10 else min v 5000) → r.nat 0 1 = 5 →
      replied { s with cau := { s.cau with residualTolerance := n } } n) ∧
  (∀ s : State,
    let f : State := { s with freeCounter := s.freeCounter + 1 }
    (∃ l : List CompNo, l.Perm s.dueLists ∧
      s.expireAll = l.foldl (fun s c => s.expireList c s.settle.lists[c].length) f) ∧
    (∀ c : CompNo, c ∈ s.dueLists ↔
      ∃ e es, s.settle.lists[c] = e :: es ∧ e.time + s.settle.interval * 1000 ≤ s.now) ∧
    (∀ (c : CompNo) (n : Nat) (t : State), exec (.settleExpiry c.val) s = .next t →
      s.expireList c 0 = s ∧ s.expireList c (n + 1) = t.expireList c n) ∧
    (∃ (l : List CompNo) (records : Records), l.Perm s.silentCars ∧
      let t := l.foldl State.silenceTest f
      s.silenceTestAll = { t with engine := { t.engine with records := records } } ∧
      ∀ c : CompNo, records[c] = { t.engine.records[c] with silenceTestOwed := false }) ∧
    (∀ c : CompNo, c ∈ s.silentCars →
      let owed : State := { s with engine := { s.engine with
        records := s.engine.records.set c { s.engine.records[c] with silenceTestOwed := true } } }
      exec (.silent c.val) owed = .next (s.silenceTest c)) ∧
    ∀ c : CompNo, c ∈ s.silentCars ↔
      let r := s.engine.records[c]
      (r.state = .onTrack ∨ r.state = .inPit) ∧ r.silenceAlerted = false ∧ s.engine.silenceLimit ≠ 0 ∧
        ∃ m, r.lastApplied = some m ∧ m.time + s.engine.silenceLimit * 1000000 < s.now)

/-! ## The sweep -/

/-- SWEEP_START, SUSPEND, RESUME and STOP: the states in which each is taken, and what it sets; a STOP leaves the
report as it stands. A SWEEP_START with an access of a stopped sweep still in progress keeps what that access is
(the model's own, log 13). The position of a sweep that has ended stays as it was (log 20). -/
def Obligations.SweepRequests : Prop :=
  ∀ (s : State) (r : Request) (rest : List Request),
    let x := s.sweep
    let put (x' : Sweep) : State := { s with sweep := x', mu := servedMu s r rest .ok [] }
    (BeginsAs s r rest 0x50 1 →
      (x.state ≠ .idle → exec .sweepStart s = .next (refusedState s r rest .busy)) ∧
      (x.state = .idle →
        (r.nat 0 1 = 0 ∨ 2 < r.nat 0 1 → exec .sweepStart s = .next (refusedState s r rest .range)) ∧
        ∀ m : SweepMode, r.nat 0 1 = m.code →
          (s.resolver.root = none → exec .sweepStart s = .next (refusedState s r rest .state)) ∧
          ∀ root, s.resolver.root = some root →
            let started (stale : Option SweepContext) : Prop := exec .sweepStart s = .next (put
              { state := .running, mode := some m, root := root, pos := ⟨0, none, none, .entry⟩
                report := ⟨0, 0, 0, 0, 0, [], 0, 0, Vector.replicate 96 0, 0, false⟩, stale := stale })
            ((∀ a, s.tmp.inProgress ≠ some (.sweep, a)) → started none) ∧
            ∀ a, s.tmp.inProgress = some (.sweep, a) → started (some (x.stale.getD x.context)))) ∧
    (BeginsAs s r rest 0x51 0 →
      (x.state = .running → exec .suspend s = .next (put { x with state := .suspended })) ∧
      (x.state ≠ .running → exec .suspend s = .next (refusedState s r rest .state))) ∧
    (BeginsAs s r rest 0x52 0 →
      (x.state = .suspended → exec .resume s = .next (put { x with state := .running })) ∧
      (x.state ≠ .suspended → exec .resume s = .next (refusedState s r rest .state))) ∧
    (BeginsAs s r rest 0x53 0 →
      (x.state ≠ .idle → exec .stop s = .next (put { x with state := .idle })) ∧
      (x.state = .idle → exec .stop s = .next (refusedState s r rest .state)))

/-- The three sweep completions: an access of the sweep in progress is completed by the command of its kind, with
its effect on table memory and on the report; the position moves on, or the last access ends the sweep with its
alert; a sweep stopped meanwhile stays IDLE. An access of a stopped sweep that completes after the next
SWEEP_START has its effect on table memory, and moves nothing; whether it counts in the new report is the
model's free value (log 13). Without such an access nothing completes (log 1). That an access has its effect at
its completion is the model's (log 12); a sweep without a mode, which no run reaches, is read as one in
CLEAR_SEEN (log 19). That SWEEP_DONE carries no SATURATED where its fault count stands at 65,535 is the model's
(log 34). -/
def Obligations.SweepCompletions : Prop :=
  ∀ (s : State) (i : Instr),
    let x := s.sweep
    let kind (n : SweepNext) : Instr := match n with
      | .entry => .sweepReadComplete
      | .flagUpdate _ => .sweepFlagUpdateComplete
      | .target _ => .aliasTargetReadComplete
    i = .sweepReadComplete ∨ i = .sweepFlagUpdateComplete ∨ i = .aliasTargetReadComplete →
    ((∀ a, s.tmp.inProgress ≠ some (.sweep, a)) → exec i s = .next s) ∧
    ∀ a, s.tmp.inProgress = some (.sweep, a) →
      let w := readWord s.tmp.mem a.addr
      let f := accessed s (a.effect s.tmp.mem)
      let report := x.context.report a.addr w x.report
      (x.stale = none →
        (i ≠ kind x.pos.next → exec i s = .next s) ∧
        (i = kind x.pos.next →
          (x.state = .idle → exec i s = .next { f with sweep := { x with report := report } }) ∧
          (x.state ≠ .idle →
            (∀ p, x.moved w = some p →
              exec i s = .next { f with sweep := { x with report := report, pos := p } }) ∧
            (x.moved w = none → exec i s = .next { f with
              sweep := { x with state := .idle, report := { report with complete := true } }
              publisher := s.publisher.alert
                { kind := .alert, time := s.now, value := some (report.faults : Int)
                  extra := .alert .sweepDone (.sweepMode (x.mode.getD .clearSeen)) } })))) ∧
      ∀ k, x.stale = some k →
        (i ≠ kind k.next → exec i s = .next s) ∧
        (i = kind k.next → exec i s = .next { f with sweep := { x with
          stale := none
          report := match Config.staleSweepCounts with
            | true => k.report a.addr w x.report
            | false => x.report } })

/-- The next access of a sweep, by its position: its kind, its word and its level; and the position after it. What
each access of a sweep adds to the report and what it does next: an entry read by the kind of the entry, a flag
update, and the read of an alias target. The traversal: from an entry that names a table to that table's entry
0, at root and branch level; else to the next entry of the table, or after its entry 255 to the next entry of
the level above; after root entry 255 nowhere. A sweep without a mode, which no run reaches, is read as one in
CLEAR_SEEN (log 19). -/
def Obligations.SweepReporting : Prop :=
  (∀ (x : Sweep) (w : Word) (r : Byte) (b l : Option (TableIndex × Byte)) (n : SweepNext), x.pos = ⟨r, b, l, n⟩ →
    let level : Level := if l ≠ none then .leaf else if b ≠ none then .branch else .root
    let place : TableIndex × Byte := l.getD (b.getD (x.root, r))
    let addr : WordAddr := BitVec.ofNat 18 (place.1.toNat * 256 + place.2.toNat)
    let k : SweepContext := ⟨x.mode.getD .clearSeen, level, n⟩
    x.context = k ∧
    x.pos.access x.root = (match n with
      | .entry => .read addr
      | .flagUpdate _ => .flag addr level false
      | .target a => .read a) ∧
    (∀ m, k.move w = .stay m → x.moved w = some ⟨r, b, l, m⟩) ∧
    ∀ into, k.move w = .move into → x.moved w = x.pos.after into) ∧
  (∀ (mode : SweepMode) (level : Level) (a : WordAddr) (w : Word) (r : SweepReport),
    let k : SweepContext := ⟨mode, level, .entry⟩
    let v : SweepReport := { r with visited := bump r.visited }
    let bad : SweepReport := { v with
      faults := bump r.faults
      faultAddrs := if r.faultAddrs.length < 8 then r.faultAddrs ++ [a] else r.faultAddrs }
    (∀ n, readEntry level w = .absent n →
      k.report a w r = { v with absents := bump r.absents } ∧ k.move w = .move none) ∧
    (readEntry level w = .bad → k.report a w r = bad ∧ k.move w = .move none) ∧
    (∀ t seen h, readEntry level w = .table t seen h → k.report a w r = { v with tables := bump r.tables } ∧
      k.move w = (if mode = .clearSeen ∧ seen = true then .stay (.flagUpdate (some t)) else .move (some t))) ∧
    (∀ n seen h keep, readEntry level w = .competitor n seen h keep →
      k.move w = (if mode = .clearSeen ∧ seen = true then .stay (.flagUpdate none) else .move none) ∧
      (96 ≤ n → k.report a w r = bad) ∧
      ∀ c : CompNo, c.val = n →
        (mode = .clearSeen → k.report a w r = { v with competitors := bump r.competitors }) ∧
        (mode = .audit → k.report a w r = { v with
          competitors := bump r.competitors
          audit := r.audit.set c (if r.audit[c] < 255 then r.audit[c] + 1 else 255) })) ∧
    ∀ t seen h, readEntry level w = .aliasTo t seen h → k.report a w r = { v with aliases := bump r.aliases } ∧
      k.move w = (if mode = .audit then .stay (.target t)
        else if seen = true then .stay (.flagUpdate none) else .move none)) ∧
  (∀ (mode : SweepMode) (level : Level) (a t : WordAddr) (w : Word) (r : SweepReport) (into : Option TableIndex),
    let u : SweepContext := ⟨mode, level, .flagUpdate into⟩
    let k : SweepContext := ⟨mode, level, .target t⟩
    let bad : SweepReport := { r with
      faults := bump r.faults
      faultAddrs := if r.faultAddrs.length < 8 then r.faultAddrs ++ [a] else r.faultAddrs }
    u.move w = .move into ∧ k.move w = .move none ∧
    (seenUpdate level false w = none → u.report a w r = r) ∧
    (seenUpdate level false w ≠ none → u.report a w r = { r with seenCleared := bump r.seenCleared }) ∧
    (∀ n, readEntry .aliasTarget w = .absent n → k.report a w r = { r with aliasAbsent := bump r.aliasAbsent }) ∧
    (∀ n seen h keep, readEntry .aliasTarget w = .competitor n seen h keep →
      (96 ≤ n → k.report a w r = bad) ∧
      ∀ c : CompNo, c.val = n → k.report a w r = { r with
        audit := r.audit.set c (if r.audit[c] < 255 then r.audit[c] + 1 else 255) }) ∧
    (∀ x seen h, readEntry .aliasTarget w = .aliasTo x seen h → k.report a w r = bad) ∧
    (readEntry .aliasTarget w = .bad → k.report a w r = bad)) ∧
  (∀ (r : Byte) (b l : TableIndex × Byte) (n : SweepNext) (t : TableIndex),
    let root : SweepPos := ⟨r, none, none, n⟩
    let branch : SweepPos := ⟨r, some b, none, n⟩
    let leaf : SweepPos := ⟨r, some b, some l, n⟩
    root.after (some t) = some ⟨r, some (t, 0), none, .entry⟩ ∧
    branch.after (some t) = some ⟨r, some b, some (t, 0), .entry⟩ ∧
    (r ≠ 255 → root.after none = some ⟨r + 1, none, none, .entry⟩) ∧
    (r = 255 → root.after none = none) ∧
    (b.2 ≠ 255 → branch.after none = some ⟨r, some (b.1, b.2 + 1), none, .entry⟩) ∧
    (b.2 = 255 → branch.after none = root.after none) ∧
    (l.2 ≠ 255 → leaf.after none = some ⟨r, some b, some (l.1, l.2 + 1), .entry⟩) ∧
    (l.2 = 255 → leaf.after none = branch.after none))

/-! ## Invariants -/

/-- The machine right after reset satisfies every invariant stated here, whatever the straps; and so does the part
after either part reset, in any state whose table memory is in its canonical form. -/
def Obligations.InvariantsAtReset : Prop :=
  (∀ straps : BitVec 3,
    let t := State.resetWith straps
    MemoryOk t ∧ PoolOk t ∧ ListsApart t ∧ AppliedOk t ∧ PublisherOk t ∧ OrderOk t ∧ ResolverOk t ∧ QueuesOk t ∧
      RegistersOk t ∧ RangesOk t) ∧
  (∀ (s : State) (straps : BitVec 3), MemoryOk s → ∃ t, exec (.partReset straps) s = .next t ∧
    MemoryOk t ∧ PoolOk t ∧ ListsApart t ∧ AppliedOk t ∧ PublisherOk t ∧ OrderOk t ∧ ResolverOk t ∧ QueuesOk t ∧
      RegistersOk t ∧ RangesOk t) ∧
  ∀ (s : State) (r : Request) (rest : List Request) (straps : BitVec 3), MemoryOk s → BeginsAs s r rest 0x05 0 →
    ∃ t, exec (.resetPart straps) s = .next t ∧
      MemoryOk t ∧ PoolOk t ∧ ListsApart t ∧ AppliedOk t ∧ PublisherOk t ∧ OrderOk t ∧ ResolverOk t ∧ QueuesOk t ∧
        RegistersOk t ∧ RangesOk t

/-- Every step keeps the Settle Pool and the Publisher in their bounds: 256 entries, lists of at most 6 in ascending
order with no two entries of one line within its dead-band, and no list of results above its size, with results
pending only behind a full buffer. Every step keeps every entry of a list at or above its competitor's last
applied passing time, and that time never decreases while the record holds one. That the log writer has an entry
in hand whenever the buffer holds one is the model's (log 10). -/
def Obligations.StepKeepsPoolAndPublisher : Prop :=
  (∀ s t : State, PoolOk s → PublisherOk s → step s = .next t → PoolOk t ∧ PublisherOk t) ∧
  (∀ s t : State, PoolOk s → ListsApart s → step s = .next t → ListsApart t) ∧
  ∀ s t : State, PoolOk s → AppliedOk s → step s = .next t →
    AppliedOk t ∧
      ∀ (c : CompNo) (m m' : AppliedMark), s.engine.records[c].lastApplied = some m →
        t.engine.records[c].lastApplied = some m' → m.time ≤ m'.time

/-- Every step keeps the Running Order the sorted list of the entered competitors. -/
def Obligations.StepKeepsOrder : Prop :=
  ∀ s t : State, OrderOk s → step s = .next t → OrderOk t

/-- Every step keeps table memory in its canonical form, the Resolver Cache in its bounds, the queues of Intake and
of the Management Unit in theirs, and its registers as the manual relates them: an UNSET clock at 0 with no loop
aligned, the guard's first unit not above its last, a valid course while a session is open, no neutral flag
before LIVE, and every point that a course role names loaded. Every step also keeps every register, parameter
and count of every block in the range that the manual gives it: the runs of marks, the parameters of the CAU, of
Settle and of the Engine, the counts at most 65,535, the ring of the log inside table memory, the race numbers
and classes, the point count, and every time that the part holds in the range of track time. -/
def Obligations.StepKeepsMemoryCacheQueuesRegisters : Prop :=
  (∀ s t : State, MemoryOk s → step s = .next t → MemoryOk t) ∧
  (∀ s t : State, ResolverOk s → step s = .next t → ResolverOk t) ∧
  (∀ s t : State, QueuesOk s → step s = .next t → QueuesOk t) ∧
  ((∀ s t : State, RegistersOk s → step s = .next t → RegistersOk t) ∧
  ∀ s t : State, RangesOk s → step s = .next t → RangesOk t)

/-- The session state changes only as the table of session requests has it, or to SETUP by a part reset. -/
def Obligations.SessionStateMoves : Prop :=
  ∀ (s t : State) (c : Instr) (rest : List Instr), s.pending = c :: rest → step s = .next t →
    let a := s.session.state
    let b := t.session.state
    a = b ∨ (c = .openSession ∧ a = .setup ∧ b = .standby) ∨ (c = .green ∧ a = .standby ∧ b = .live) ∨
      (c = .chequer ∧ a = .live ∧ b = .chequered) ∨
      (c = .close ∧ (a = .standby ∨ a = .live ∨ a = .chequered) ∧ b = .closed) ∨
      (c = .clear ∧ a = .closed ∧ b = .setup) ∨
      ((∃ straps, c = .partReset straps ∨ c = .resetPart straps) ∧ b = .setup)
end

