-- ==== Sys2Proof/Laws/State.lean ====
section
/-! SUPPORT. What each update of the part's state leaves in each field. -/

namespace Sys2Proof.Machine

/-! Alerts change the Publisher alone. -/

@[simp] theorem State.alerts_lif (s : State) (rs : List Result) :
    (s.alerts rs).lif = s.lif := rfl

@[simp] theorem State.alerts_cau (s : State) (rs : List Result) :
    (s.alerts rs).cau = s.cau := rfl

@[simp] theorem State.alerts_intake (s : State) (rs : List Result) :
    (s.alerts rs).intake = s.intake := rfl

@[simp] theorem State.alerts_resolver (s : State) (rs : List Result) :
    (s.alerts rs).resolver = s.resolver := rfl

@[simp] theorem State.alerts_course (s : State) (rs : List Result) :
    (s.alerts rs).course = s.course := rfl

@[simp] theorem State.alerts_settle (s : State) (rs : List Result) :
    (s.alerts rs).settle = s.settle := rfl

@[simp] theorem State.alerts_engine (s : State) (rs : List Result) :
    (s.alerts rs).engine = s.engine := rfl

@[simp] theorem State.alerts_order (s : State) (rs : List Result) :
    (s.alerts rs).order = s.order := rfl

@[simp] theorem State.alerts_session (s : State) (rs : List Result) :
    (s.alerts rs).session = s.session := rfl

@[simp] theorem State.alerts_publisher (s : State) (rs : List Result) :
    (s.alerts rs).publisher = s.publisher.alerts rs := rfl

@[simp] theorem State.alerts_tmp (s : State) (rs : List Result) :
    (s.alerts rs).tmp = s.tmp := rfl

@[simp] theorem State.alerts_sweep (s : State) (rs : List Result) :
    (s.alerts rs).sweep = s.sweep := rfl

@[simp] theorem State.alerts_mu (s : State) (rs : List Result) :
    (s.alerts rs).mu = s.mu := rfl

@[simp] theorem State.alerts_pending (s : State) (rs : List Result) :
    (s.alerts rs).pending = s.pending := rfl

@[simp] theorem State.alerts_freeCounter (s : State) (rs : List Result) :
    (s.alerts rs).freeCounter = s.freeCounter := rfl

/-! The completion of an access changes the TMP alone. -/

@[simp] theorem State.completeAccess_lif (s : State) (a : Access) :
    (s.completeAccess a).lif = s.lif := rfl

@[simp] theorem State.completeAccess_cau (s : State) (a : Access) :
    (s.completeAccess a).cau = s.cau := rfl

@[simp] theorem State.completeAccess_intake (s : State) (a : Access) :
    (s.completeAccess a).intake = s.intake := rfl

@[simp] theorem State.completeAccess_resolver (s : State) (a : Access) :
    (s.completeAccess a).resolver = s.resolver := rfl

@[simp] theorem State.completeAccess_course (s : State) (a : Access) :
    (s.completeAccess a).course = s.course := rfl

@[simp] theorem State.completeAccess_settle (s : State) (a : Access) :
    (s.completeAccess a).settle = s.settle := rfl

@[simp] theorem State.completeAccess_engine (s : State) (a : Access) :
    (s.completeAccess a).engine = s.engine := rfl

@[simp] theorem State.completeAccess_order (s : State) (a : Access) :
    (s.completeAccess a).order = s.order := rfl

@[simp] theorem State.completeAccess_session (s : State) (a : Access) :
    (s.completeAccess a).session = s.session := rfl

@[simp] theorem State.completeAccess_publisher (s : State) (a : Access) :
    (s.completeAccess a).publisher = s.publisher := rfl

@[simp] theorem State.completeAccess_tmp (s : State) (a : Access) :
    (s.completeAccess a).tmp = s.tmp.complete a := rfl

@[simp] theorem State.completeAccess_sweep (s : State) (a : Access) :
    (s.completeAccess a).sweep = s.sweep := rfl

@[simp] theorem State.completeAccess_mu (s : State) (a : Access) :
    (s.completeAccess a).mu = s.mu := rfl

@[simp] theorem State.completeAccess_pending (s : State) (a : Access) :
    (s.completeAccess a).pending = s.pending := rfl

@[simp] theorem State.completeAccess_freeCounter (s : State) (a : Access) :
    (s.completeAccess a).freeCounter = s.freeCounter := rfl

/-! The beginning of a request changes the MU alone. -/

@[simp] theorem State.begin_lif (s : State) (rest : List Request) :
    (s.begin rest).lif = s.lif := rfl

@[simp] theorem State.begin_cau (s : State) (rest : List Request) :
    (s.begin rest).cau = s.cau := rfl

@[simp] theorem State.begin_intake (s : State) (rest : List Request) :
    (s.begin rest).intake = s.intake := rfl

@[simp] theorem State.begin_resolver (s : State) (rest : List Request) :
    (s.begin rest).resolver = s.resolver := rfl

@[simp] theorem State.begin_course (s : State) (rest : List Request) :
    (s.begin rest).course = s.course := rfl

@[simp] theorem State.begin_settle (s : State) (rest : List Request) :
    (s.begin rest).settle = s.settle := rfl

@[simp] theorem State.begin_engine (s : State) (rest : List Request) :
    (s.begin rest).engine = s.engine := rfl

@[simp] theorem State.begin_order (s : State) (rest : List Request) :
    (s.begin rest).order = s.order := rfl

@[simp] theorem State.begin_session (s : State) (rest : List Request) :
    (s.begin rest).session = s.session := rfl

@[simp] theorem State.begin_publisher (s : State) (rest : List Request) :
    (s.begin rest).publisher = s.publisher := rfl

@[simp] theorem State.begin_tmp (s : State) (rest : List Request) :
    (s.begin rest).tmp = s.tmp := rfl

@[simp] theorem State.begin_sweep (s : State) (rest : List Request) :
    (s.begin rest).sweep = s.sweep := rfl

@[simp] theorem State.begin_mu (s : State) (rest : List Request) :
    (s.begin rest).mu =
      { s.mu with queue := rest, counts := { s.mu.counts with begun := bump s.mu.counts.begun } } := rfl

@[simp] theorem State.begin_pending (s : State) (rest : List Request) :
    (s.begin rest).pending = s.pending := rfl

@[simp] theorem State.begin_freeCounter (s : State) (rest : List Request) :
    (s.begin rest).freeCounter = s.freeCounter := rfl

/-! A reply changes the MU alone. -/

@[simp] theorem State.reply_lif (s : State) (tag code : Byte) (status : Status) (data : List Byte) :
    (s.reply tag code status data).lif = s.lif := rfl

@[simp] theorem State.reply_cau (s : State) (tag code : Byte) (status : Status) (data : List Byte) :
    (s.reply tag code status data).cau = s.cau := rfl

@[simp] theorem State.reply_intake (s : State) (tag code : Byte) (status : Status) (data : List Byte) :
    (s.reply tag code status data).intake = s.intake := rfl

@[simp] theorem State.reply_resolver (s : State) (tag code : Byte) (status : Status) (data : List Byte) :
    (s.reply tag code status data).resolver = s.resolver := rfl

@[simp] theorem State.reply_course (s : State) (tag code : Byte) (status : Status) (data : List Byte) :
    (s.reply tag code status data).course = s.course := rfl

@[simp] theorem State.reply_settle (s : State) (tag code : Byte) (status : Status) (data : List Byte) :
    (s.reply tag code status data).settle = s.settle := rfl

@[simp] theorem State.reply_engine (s : State) (tag code : Byte) (status : Status) (data : List Byte) :
    (s.reply tag code status data).engine = s.engine := rfl

@[simp] theorem State.reply_order (s : State) (tag code : Byte) (status : Status) (data : List Byte) :
    (s.reply tag code status data).order = s.order := rfl

@[simp] theorem State.reply_session (s : State) (tag code : Byte) (status : Status) (data : List Byte) :
    (s.reply tag code status data).session = s.session := rfl

@[simp] theorem State.reply_publisher (s : State) (tag code : Byte) (status : Status) (data : List Byte) :
    (s.reply tag code status data).publisher = s.publisher := rfl

@[simp] theorem State.reply_tmp (s : State) (tag code : Byte) (status : Status) (data : List Byte) :
    (s.reply tag code status data).tmp = s.tmp := rfl

@[simp] theorem State.reply_sweep (s : State) (tag code : Byte) (status : Status) (data : List Byte) :
    (s.reply tag code status data).sweep = s.sweep := rfl

@[simp] theorem State.reply_mu (s : State) (tag code : Byte) (status : Status) (data : List Byte) :
    (s.reply tag code status data).mu =
      { s.mu with replies := s.mu.replies ++ [⟨s.lif.address, tag, code, status, data⟩], counts := s.mu.counts.status status } := rfl

@[simp] theorem State.reply_pending (s : State) (tag code : Byte) (status : Status) (data : List Byte) :
    (s.reply tag code status data).pending = s.pending := rfl

@[simp] theorem State.reply_freeCounter (s : State) (tag code : Byte) (status : Status) (data : List Byte) :
    (s.reply tag code status data).freeCounter = s.freeCounter := rfl

/-! A SESSION result changes the Publisher alone. -/

@[simp] theorem State.sessionChange_lif (s : State) (k : SessionChange) (m : Option StartMode) :
    (s.sessionChange k m).lif = s.lif := rfl

@[simp] theorem State.sessionChange_cau (s : State) (k : SessionChange) (m : Option StartMode) :
    (s.sessionChange k m).cau = s.cau := rfl

@[simp] theorem State.sessionChange_intake (s : State) (k : SessionChange) (m : Option StartMode) :
    (s.sessionChange k m).intake = s.intake := rfl

@[simp] theorem State.sessionChange_resolver (s : State) (k : SessionChange) (m : Option StartMode) :
    (s.sessionChange k m).resolver = s.resolver := rfl

@[simp] theorem State.sessionChange_course (s : State) (k : SessionChange) (m : Option StartMode) :
    (s.sessionChange k m).course = s.course := rfl

@[simp] theorem State.sessionChange_settle (s : State) (k : SessionChange) (m : Option StartMode) :
    (s.sessionChange k m).settle = s.settle := rfl

@[simp] theorem State.sessionChange_engine (s : State) (k : SessionChange) (m : Option StartMode) :
    (s.sessionChange k m).engine = s.engine := rfl

@[simp] theorem State.sessionChange_order (s : State) (k : SessionChange) (m : Option StartMode) :
    (s.sessionChange k m).order = s.order := rfl

@[simp] theorem State.sessionChange_session (s : State) (k : SessionChange) (m : Option StartMode) :
    (s.sessionChange k m).session = s.session := rfl

@[simp] theorem State.sessionChange_publisher (s : State) (k : SessionChange) (m : Option StartMode) :
    (s.sessionChange k m).publisher = s.publisher.take s.now (sessionResult s.now k s.session.state m) := rfl

@[simp] theorem State.sessionChange_tmp (s : State) (k : SessionChange) (m : Option StartMode) :
    (s.sessionChange k m).tmp = s.tmp := rfl

@[simp] theorem State.sessionChange_sweep (s : State) (k : SessionChange) (m : Option StartMode) :
    (s.sessionChange k m).sweep = s.sweep := rfl

@[simp] theorem State.sessionChange_mu (s : State) (k : SessionChange) (m : Option StartMode) :
    (s.sessionChange k m).mu = s.mu := rfl

@[simp] theorem State.sessionChange_pending (s : State) (k : SessionChange) (m : Option StartMode) :
    (s.sessionChange k m).pending = s.pending := rfl

@[simp] theorem State.sessionChange_freeCounter (s : State) (k : SessionChange) (m : Option StartMode) :
    (s.sessionChange k m).freeCounter = s.freeCounter := rfl

/-! A change of state by request changes one record and the Publisher. -/

@[simp] theorem State.changeRecord_lif (s : State) (c : CompNo) (r : Competitor) (k : StateChange) :
    (s.changeRecord c r k).lif = s.lif := rfl

@[simp] theorem State.changeRecord_cau (s : State) (c : CompNo) (r : Competitor) (k : StateChange) :
    (s.changeRecord c r k).cau = s.cau := rfl

@[simp] theorem State.changeRecord_intake (s : State) (c : CompNo) (r : Competitor) (k : StateChange) :
    (s.changeRecord c r k).intake = s.intake := rfl

@[simp] theorem State.changeRecord_resolver (s : State) (c : CompNo) (r : Competitor) (k : StateChange) :
    (s.changeRecord c r k).resolver = s.resolver := rfl

@[simp] theorem State.changeRecord_course (s : State) (c : CompNo) (r : Competitor) (k : StateChange) :
    (s.changeRecord c r k).course = s.course := rfl

@[simp] theorem State.changeRecord_settle (s : State) (c : CompNo) (r : Competitor) (k : StateChange) :
    (s.changeRecord c r k).settle = s.settle := rfl

@[simp] theorem State.changeRecord_engine (s : State) (c : CompNo) (r : Competitor) (k : StateChange) :
    (s.changeRecord c r k).engine = { s.engine with records := s.engine.records.set c r } := rfl

@[simp] theorem State.changeRecord_order (s : State) (c : CompNo) (r : Competitor) (k : StateChange) :
    (s.changeRecord c r k).order = s.order := rfl

@[simp] theorem State.changeRecord_session (s : State) (c : CompNo) (r : Competitor) (k : StateChange) :
    (s.changeRecord c r k).session = s.session := rfl

@[simp] theorem State.changeRecord_publisher (s : State) (c : CompNo) (r : Competitor) (k : StateChange) :
    (s.changeRecord c r k).publisher =
      s.publisher.take s.now (stateResult s.now c r.raceNumber k (some r.state) .none) := rfl

@[simp] theorem State.changeRecord_tmp (s : State) (c : CompNo) (r : Competitor) (k : StateChange) :
    (s.changeRecord c r k).tmp = s.tmp := rfl

@[simp] theorem State.changeRecord_sweep (s : State) (c : CompNo) (r : Competitor) (k : StateChange) :
    (s.changeRecord c r k).sweep = s.sweep := rfl

@[simp] theorem State.changeRecord_mu (s : State) (c : CompNo) (r : Competitor) (k : StateChange) :
    (s.changeRecord c r k).mu = s.mu := rfl

@[simp] theorem State.changeRecord_pending (s : State) (c : CompNo) (r : Competitor) (k : StateChange) :
    (s.changeRecord c r k).pending = s.pending := rfl

@[simp] theorem State.changeRecord_freeCounter (s : State) (c : CompNo) (r : Competitor) (k : StateChange) :
    (s.changeRecord c r k).freeCounter = s.freeCounter := rfl

/-! An application changes one record, the Running Order, the chequer, the counts and the Publisher. -/

@[simp] theorem State.finishWork_lif (s : State) (c : CompNo) (w : Work) :
    (s.finishWork c w).lif = s.lif := rfl

@[simp] theorem State.finishWork_cau (s : State) (c : CompNo) (w : Work) :
    (s.finishWork c w).cau = s.cau := rfl

@[simp] theorem State.finishWork_intake (s : State) (c : CompNo) (w : Work) :
    (s.finishWork c w).intake = s.intake := rfl

@[simp] theorem State.finishWork_resolver (s : State) (c : CompNo) (w : Work) :
    (s.finishWork c w).resolver = s.resolver := rfl

@[simp] theorem State.finishWork_course (s : State) (c : CompNo) (w : Work) :
    (s.finishWork c w).course = s.course := rfl

@[simp] theorem State.finishWork_settle (s : State) (c : CompNo) (w : Work) :
    (s.finishWork c w).settle = s.settle := rfl

@[simp] theorem State.finishWork_engine (s : State) (c : CompNo) (w : Work) :
    (s.finishWork c w).engine =
      { s.engine with records := s.engine.records.set c w.car, counts := w.counts } := rfl

@[simp] theorem State.finishWork_order (s : State) (c : CompNo) (w : Work) :
    (s.finishWork c w).order = w.order := rfl

@[simp] theorem State.finishWork_session (s : State) (c : CompNo) (w : Work) :
    (s.finishWork c w).session = { s.session with chequer := w.chequer } := rfl

@[simp] theorem State.finishWork_publisher (s : State) (c : CompNo) (w : Work) :
    (s.finishWork c w).publisher = s.publisher.takeAll s.now w.results := rfl

@[simp] theorem State.finishWork_tmp (s : State) (c : CompNo) (w : Work) :
    (s.finishWork c w).tmp = s.tmp := rfl

@[simp] theorem State.finishWork_sweep (s : State) (c : CompNo) (w : Work) :
    (s.finishWork c w).sweep = s.sweep := rfl

@[simp] theorem State.finishWork_mu (s : State) (c : CompNo) (w : Work) :
    (s.finishWork c w).mu = s.mu := rfl

@[simp] theorem State.finishWork_pending (s : State) (c : CompNo) (w : Work) :
    (s.finishWork c w).pending = s.pending := rfl

@[simp] theorem State.finishWork_freeCounter (s : State) (c : CompNo) (w : Work) :
    (s.finishWork c w).freeCounter = s.freeCounter := rfl

/-! A staged slot action changes the LIF alone. -/

@[simp] theorem State.stage_lif (s : State) (d : Direction) (k : Slot) (a : Action) :
    (s.stage d k a).lif = s.lif.setLane d { s.lif.lane d with staged := (s.lif.lane d).staged.set k a } := rfl

@[simp] theorem State.stage_cau (s : State) (d : Direction) (k : Slot) (a : Action) :
    (s.stage d k a).cau = s.cau := rfl

@[simp] theorem State.stage_intake (s : State) (d : Direction) (k : Slot) (a : Action) :
    (s.stage d k a).intake = s.intake := rfl

@[simp] theorem State.stage_resolver (s : State) (d : Direction) (k : Slot) (a : Action) :
    (s.stage d k a).resolver = s.resolver := rfl

@[simp] theorem State.stage_course (s : State) (d : Direction) (k : Slot) (a : Action) :
    (s.stage d k a).course = s.course := rfl

@[simp] theorem State.stage_settle (s : State) (d : Direction) (k : Slot) (a : Action) :
    (s.stage d k a).settle = s.settle := rfl

@[simp] theorem State.stage_engine (s : State) (d : Direction) (k : Slot) (a : Action) :
    (s.stage d k a).engine = s.engine := rfl

@[simp] theorem State.stage_order (s : State) (d : Direction) (k : Slot) (a : Action) :
    (s.stage d k a).order = s.order := rfl

@[simp] theorem State.stage_session (s : State) (d : Direction) (k : Slot) (a : Action) :
    (s.stage d k a).session = s.session := rfl

@[simp] theorem State.stage_publisher (s : State) (d : Direction) (k : Slot) (a : Action) :
    (s.stage d k a).publisher = s.publisher := rfl

@[simp] theorem State.stage_tmp (s : State) (d : Direction) (k : Slot) (a : Action) :
    (s.stage d k a).tmp = s.tmp := rfl

@[simp] theorem State.stage_sweep (s : State) (d : Direction) (k : Slot) (a : Action) :
    (s.stage d k a).sweep = s.sweep := rfl

@[simp] theorem State.stage_mu (s : State) (d : Direction) (k : Slot) (a : Action) :
    (s.stage d k a).mu = s.mu := rfl

@[simp] theorem State.stage_pending (s : State) (d : Direction) (k : Slot) (a : Action) :
    (s.stage d k a).pending = s.pending := rfl

@[simp] theorem State.stage_freeCounter (s : State) (d : Direction) (k : Slot) (a : Action) :
    (s.stage d k a).freeCounter = s.freeCounter := rfl

/-! A request of the sweep state changes the sweep alone. -/

@[simp] theorem State.setSweep_lif (s : State) (x : SweepState) :
    (s.setSweep x).lif = s.lif := rfl

@[simp] theorem State.setSweep_cau (s : State) (x : SweepState) :
    (s.setSweep x).cau = s.cau := rfl

@[simp] theorem State.setSweep_intake (s : State) (x : SweepState) :
    (s.setSweep x).intake = s.intake := rfl

@[simp] theorem State.setSweep_resolver (s : State) (x : SweepState) :
    (s.setSweep x).resolver = s.resolver := rfl

@[simp] theorem State.setSweep_course (s : State) (x : SweepState) :
    (s.setSweep x).course = s.course := rfl

@[simp] theorem State.setSweep_settle (s : State) (x : SweepState) :
    (s.setSweep x).settle = s.settle := rfl

@[simp] theorem State.setSweep_engine (s : State) (x : SweepState) :
    (s.setSweep x).engine = s.engine := rfl

@[simp] theorem State.setSweep_order (s : State) (x : SweepState) :
    (s.setSweep x).order = s.order := rfl

@[simp] theorem State.setSweep_session (s : State) (x : SweepState) :
    (s.setSweep x).session = s.session := rfl

@[simp] theorem State.setSweep_publisher (s : State) (x : SweepState) :
    (s.setSweep x).publisher = s.publisher := rfl

@[simp] theorem State.setSweep_tmp (s : State) (x : SweepState) :
    (s.setSweep x).tmp = s.tmp := rfl

@[simp] theorem State.setSweep_sweep (s : State) (x : SweepState) :
    (s.setSweep x).sweep = { s.sweep with state := x } := rfl

@[simp] theorem State.setSweep_mu (s : State) (x : SweepState) :
    (s.setSweep x).mu = s.mu := rfl

@[simp] theorem State.setSweep_pending (s : State) (x : SweepState) :
    (s.setSweep x).pending = s.pending := rfl

@[simp] theorem State.setSweep_freeCounter (s : State) (x : SweepState) :
    (s.setSweep x).freeCounter = s.freeCounter := rfl

/-! The clear option changes the high-water mark alone. -/

@[simp] theorem State.clearMark_lif (s : State) :
    (s.clearMark).lif = s.lif := rfl

@[simp] theorem State.clearMark_cau (s : State) :
    (s.clearMark).cau = s.cau := rfl

@[simp] theorem State.clearMark_intake (s : State) :
    (s.clearMark).intake = s.intake := rfl

@[simp] theorem State.clearMark_resolver (s : State) :
    (s.clearMark).resolver = s.resolver := rfl

@[simp] theorem State.clearMark_course (s : State) :
    (s.clearMark).course = s.course := rfl

@[simp] theorem State.clearMark_settle (s : State) :
    (s.clearMark).settle = { s.settle with highWater := s.settle.heldCount } := rfl

@[simp] theorem State.clearMark_engine (s : State) :
    (s.clearMark).engine = s.engine := rfl

@[simp] theorem State.clearMark_order (s : State) :
    (s.clearMark).order = s.order := rfl

@[simp] theorem State.clearMark_session (s : State) :
    (s.clearMark).session = s.session := rfl

@[simp] theorem State.clearMark_publisher (s : State) :
    (s.clearMark).publisher = s.publisher := rfl

@[simp] theorem State.clearMark_tmp (s : State) :
    (s.clearMark).tmp = s.tmp := rfl

@[simp] theorem State.clearMark_sweep (s : State) :
    (s.clearMark).sweep = s.sweep := rfl

@[simp] theorem State.clearMark_mu (s : State) :
    (s.clearMark).mu = s.mu := rfl

@[simp] theorem State.clearMark_pending (s : State) :
    (s.clearMark).pending = s.pending := rfl

@[simp] theorem State.clearMark_freeCounter (s : State) :
    (s.clearMark).freeCounter = s.freeCounter := rfl

/-! A timeout of a loop changes one alignment record and the Publisher. -/

@[simp] theorem State.moveLoop_lif (s : State) (l : LoopNo) (r : AlignRec) :
    (s.moveLoop l r).lif = s.lif := rfl

@[simp] theorem State.moveLoop_cau (s : State) (l : LoopNo) (r : AlignRec) :
    (s.moveLoop l r).cau = { s.cau with records := s.cau.records.set l r } := rfl

@[simp] theorem State.moveLoop_intake (s : State) (l : LoopNo) (r : AlignRec) :
    (s.moveLoop l r).intake = s.intake := rfl

@[simp] theorem State.moveLoop_resolver (s : State) (l : LoopNo) (r : AlignRec) :
    (s.moveLoop l r).resolver = s.resolver := rfl

@[simp] theorem State.moveLoop_course (s : State) (l : LoopNo) (r : AlignRec) :
    (s.moveLoop l r).course = s.course := rfl

@[simp] theorem State.moveLoop_settle (s : State) (l : LoopNo) (r : AlignRec) :
    (s.moveLoop l r).settle = s.settle := rfl

@[simp] theorem State.moveLoop_engine (s : State) (l : LoopNo) (r : AlignRec) :
    (s.moveLoop l r).engine = s.engine := rfl

@[simp] theorem State.moveLoop_order (s : State) (l : LoopNo) (r : AlignRec) :
    (s.moveLoop l r).order = s.order := rfl

@[simp] theorem State.moveLoop_session (s : State) (l : LoopNo) (r : AlignRec) :
    (s.moveLoop l r).session = s.session := rfl

@[simp] theorem State.moveLoop_publisher (s : State) (l : LoopNo) (r : AlignRec) :
    (s.moveLoop l r).publisher = s.publisher.alerts [RecordAlert.toResult s.now l (.state r.state)] := rfl

@[simp] theorem State.moveLoop_tmp (s : State) (l : LoopNo) (r : AlignRec) :
    (s.moveLoop l r).tmp = s.tmp := rfl

@[simp] theorem State.moveLoop_sweep (s : State) (l : LoopNo) (r : AlignRec) :
    (s.moveLoop l r).sweep = s.sweep := rfl

@[simp] theorem State.moveLoop_mu (s : State) (l : LoopNo) (r : AlignRec) :
    (s.moveLoop l r).mu = s.mu := rfl

@[simp] theorem State.moveLoop_pending (s : State) (l : LoopNo) (r : AlignRec) :
    (s.moveLoop l r).pending = s.pending := rfl

@[simp] theorem State.moveLoop_freeCounter (s : State) (l : LoopNo) (r : AlignRec) :
    (s.moveLoop l r).freeCounter = s.freeCounter := rfl

/-! A grant changes the TMP and the free-choice counter. -/

@[simp] theorem State.grant_lif (s : State) (q : Requester) (a : Access) :
    (s.grant q a).lif = s.lif := rfl

@[simp] theorem State.grant_cau (s : State) (q : Requester) (a : Access) :
    (s.grant q a).cau = s.cau := rfl

@[simp] theorem State.grant_intake (s : State) (q : Requester) (a : Access) :
    (s.grant q a).intake = s.intake := rfl

@[simp] theorem State.grant_resolver (s : State) (q : Requester) (a : Access) :
    (s.grant q a).resolver = s.resolver := rfl

@[simp] theorem State.grant_course (s : State) (q : Requester) (a : Access) :
    (s.grant q a).course = s.course := rfl

@[simp] theorem State.grant_settle (s : State) (q : Requester) (a : Access) :
    (s.grant q a).settle = s.settle := rfl

@[simp] theorem State.grant_engine (s : State) (q : Requester) (a : Access) :
    (s.grant q a).engine = s.engine := rfl

@[simp] theorem State.grant_order (s : State) (q : Requester) (a : Access) :
    (s.grant q a).order = s.order := rfl

@[simp] theorem State.grant_session (s : State) (q : Requester) (a : Access) :
    (s.grant q a).session = s.session := rfl

@[simp] theorem State.grant_publisher (s : State) (q : Requester) (a : Access) :
    (s.grant q a).publisher = s.publisher := rfl

@[simp] theorem State.grant_tmp (s : State) (q : Requester) (a : Access) :
    (s.grant q a).tmp = { s.tmp.grant q a with following := s.followingAfter q } := rfl

@[simp] theorem State.grant_sweep (s : State) (q : Requester) (a : Access) :
    (s.grant q a).sweep = s.sweep := rfl

@[simp] theorem State.grant_mu (s : State) (q : Requester) (a : Access) :
    (s.grant q a).mu = s.mu := rfl

@[simp] theorem State.grant_pending (s : State) (q : Requester) (a : Access) :
    (s.grant q a).pending = s.pending := rfl

@[simp] theorem State.grant_freeCounter (s : State) (q : Requester) (a : Access) :
    (s.grant q a).freeCounter = s.freeCounter + 1 := rfl

/-! A change of the clock changes the CAU and the marks of the owed silence tests. -/

@[simp] theorem State.withClock_lif (s : State) (k : TrackClock) : (s.withClock k).lif = s.lif := by
  unfold State.withClock; split <;> rfl

@[simp] theorem State.withClock_intake (s : State) (k : TrackClock) : (s.withClock k).intake = s.intake := by
  unfold State.withClock; split <;> rfl

@[simp] theorem State.withClock_resolver (s : State) (k : TrackClock) : (s.withClock k).resolver = s.resolver := by
  unfold State.withClock; split <;> rfl

@[simp] theorem State.withClock_course (s : State) (k : TrackClock) : (s.withClock k).course = s.course := by
  unfold State.withClock; split <;> rfl

@[simp] theorem State.withClock_settle (s : State) (k : TrackClock) : (s.withClock k).settle = s.settle := by
  unfold State.withClock; split <;> rfl

@[simp] theorem State.withClock_order (s : State) (k : TrackClock) : (s.withClock k).order = s.order := by
  unfold State.withClock; split <;> rfl

@[simp] theorem State.withClock_session (s : State) (k : TrackClock) : (s.withClock k).session = s.session := by
  unfold State.withClock; split <;> rfl

@[simp] theorem State.withClock_publisher (s : State) (k : TrackClock) : (s.withClock k).publisher = s.publisher := by
  unfold State.withClock; split <;> rfl

@[simp] theorem State.withClock_tmp (s : State) (k : TrackClock) : (s.withClock k).tmp = s.tmp := by
  unfold State.withClock; split <;> rfl

@[simp] theorem State.withClock_sweep (s : State) (k : TrackClock) : (s.withClock k).sweep = s.sweep := by
  unfold State.withClock; split <;> rfl

@[simp] theorem State.withClock_mu (s : State) (k : TrackClock) : (s.withClock k).mu = s.mu := by
  unfold State.withClock; split <;> rfl

@[simp] theorem State.withClock_pending (s : State) (k : TrackClock) : (s.withClock k).pending = s.pending := by
  unfold State.withClock; split <;> rfl

@[simp] theorem State.withClock_freeCounter (s : State) (k : TrackClock) : (s.withClock k).freeCounter = s.freeCounter := by
  unfold State.withClock; split <;> rfl

@[simp] theorem State.withClock_clock (s : State) (k : TrackClock) : (s.withClock k).cau.clock = k := by
  unfold State.withClock; split <;> rfl

@[simp] theorem State.withClock_now (s : State) (k : TrackClock) : (s.withClock k).now = k.now := by
  simp [State.now]

@[simp] theorem Tmp.grant_mem (t : Tmp) (q : Requester) (a : Access) : (t.grant q a).mem = t.mem := by
  cases q <;> rfl

@[simp] theorem Tmp.grant_guard (t : Tmp) (q : Requester) (a : Access) : (t.grant q a).guard = t.guard := by
  cases q <;> rfl

@[simp] theorem Tmp.grant_inProgress (t : Tmp) (q : Requester) (a : Access) :
    (t.grant q a).inProgress = some (q, a) := rfl

/-- The lane of one direction after the other, or the same, was replaced. -/
@[simp] theorem Lif.lane_setLane_same (l : Lif) (d : Direction) (x : Lane) : (l.setLane d x).lane d = x := by
  cases d <;> rfl

@[simp] theorem Lif.setLane_lane (l : Lif) (d : Direction) : l.setLane d (l.lane d) = l := by
  cases d <;> rfl

/-- No alert changes nothing. -/
@[simp] theorem State.alerts_nil (s : State) : s.alerts [] = s := rfl

/-- One alert goes to the Publisher. -/
theorem State.alerts_one (s : State) (r : Result) :
    s.alerts [r] = { s with publisher := s.publisher.alert r } := rfl

end Sys2Proof.Machine
end

