-- ==== Sys2Proof/Laws/Vectors.lean ====
section
/-! SUPPORT. What reading a record of a table gives after each table operation, and the indices of a table. -/

namespace Sys2Proof.Machine

@[simp] theorem mapAll_get {α β : Type} {n : Nat} (v : Vector α n) (f : α → β) (i : Fin n) :
    (mapAll v f)[i] = f v[i] := by
  simp [mapAll, Fin.getElem_fin]

@[simp] theorem mapAll_getElem {α β : Type} {n : Nat} (v : Vector α n) (f : α → β) (i : Nat) (h : i < n) :
    (mapAll v f)[i] = f v[i] := by
  simp [mapAll]

@[simp] theorem upd_get_same {α : Type} {n : Nat} (v : Vector α n) (i : Fin n) (f : α → α) :
    (upd v i f)[i] = f v[i] := by
  simp [upd, Fin.getElem_fin]

theorem upd_get_other {α : Type} {n : Nat} (v : Vector α n) (i j : Fin n) (f : α → α) (h : j ≠ i) :
    (upd v i f)[j] = v[j] := by
  have : i.val ≠ j.val := fun e => h (Fin.ext e.symm)
  simp [upd, Fin.getElem_fin, Vector.getElem_set_ne, this]

theorem upd_eq_set {α : Type} {n : Nat} (v : Vector α n) (i : Fin n) (f : α → α) :
    upd v i f = v.set i (f v[i]) := rfl

@[simp] theorem set_get_same {α : Type} {n : Nat} (v : Vector α n) (i : Fin n) (x : α) :
    (v.set i x)[i] = x := by
  simp [Fin.getElem_fin]

theorem set_get_other {α : Type} {n : Nat} (v : Vector α n) (i j : Fin n) (x : α) (h : j ≠ i) :
    (v.set i x)[j] = v[j] := by
  have : i.val ≠ j.val := fun e => h (Fin.ext e.symm)
  simp [Fin.getElem_fin, Vector.getElem_set_ne, this]

theorem set_get {α : Type} {n : Nat} (v : Vector α n) (i j : Fin n) (x : α) :
    (v.set i x)[j] = if j = i then x else v[j] := by
  by_cases h : j = i
  · subst h; simp
  · rw [set_get_other _ _ _ _ h, if_neg h]

@[simp] theorem set_get_self {α : Type} {n : Nat} (v : Vector α n) (i : Fin n) : v.set i v[i] = v := by
  apply Vector.ext
  intro j hj
  by_cases h : i.val = j <;> simp_all [Fin.getElem_fin]

/-- Two tables with the same records are equal. -/
theorem table_ext {α : Type} {n : Nat} (v w : Vector α n) (h : ∀ i : Fin n, v[i] = w[i]) : v = w :=
  Vector.ext fun i hi => h ⟨i, hi⟩

@[simp] theorem finOf_val {n : Nat} (i : Fin n) : finOf? n i.val = some i := by
  simp [finOf?, i.isLt]

theorem finOf_eq_some {n k : Nat} (i : Fin n) : finOf? n k = some i ↔ k = i.val := by
  unfold finOf?
  split
  · simp [Fin.ext_iff]
  · rename_i h
    constructor
    · intro e; cases e
    · intro e; exact absurd (e ▸ i.isLt) h

theorem finOf_eq_none {n k : Nat} : finOf? n k = none ↔ n ≤ k := by
  unfold finOf?
  split
  · simp; omega
  · simp; omega

theorem mem_allFin {n : Nat} (i : Fin n) : i ∈ allFin n := by
  simp only [allFin, List.mem_filterMap, List.mem_range]
  exact ⟨i.val, i.isLt, by simp⟩

theorem allFin_nodup (n : Nat) : (allFin n).Nodup := by
  refine (List.nodup_range (n := n)).filterMap ?_
  intro a b c ha hb
  have ha' : finOf? n a = some c := ha
  have hb' : finOf? n b = some c := hb
  rw [finOf_eq_some] at ha' hb'
  omega

/-- A free order of a list holds what the list holds. -/
theorem insertByKey_perm (n : Nat) (c : CompNo) (l : List CompNo) : (insertByKey n c l).Perm (c :: l) := by
  induction l with
  | nil => exact .refl _
  | cons d rest ih =>
    unfold insertByKey
    split
    · exact .refl _
    · exact (ih.cons d).trans (.swap c d rest)

theorem freeOrder_perm (n : Nat) (l : List CompNo) : (freeOrder n l).Perm l := by
  induction l with
  | nil => exact .refl _
  | cons c rest ih => exact (insertByKey_perm n c _).trans (ih.cons c)

end Sys2Proof.Machine
end

