-- ==== Sys2Proof/Laws/Order.lean ====
section
/-! SUPPORT. The Running Order: R151 orders the competitors totally, and a join, a reinsertion and a removal keep
the list sorted, without doubles, and holding exactly the entered competitors. -/

namespace Sys2Proof.Machine

/-- `a` sorts ahead of `b`, in words. -/
theorem sortsAhead_iff (rs : Records) (a b : CompNo) :
    sortsAhead rs a b = true ↔ rs[b].laps < rs[a].laps ∨ (rs[a].laps = rs[b].laps ∧
      (rs[a].lastCrossing < rs[b].lastCrossing ∨ (rs[a].lastCrossing = rs[b].lastCrossing ∧ a.val < b.val))) := by
  simp [sortsAhead]

theorem sortsAhead_trans (rs : Records) {a b c : CompNo} (h1 : sortsAhead rs a b = true)
    (h2 : sortsAhead rs b c = true) : sortsAhead rs a c = true := by
  rw [sortsAhead_iff] at *
  generalize rs[a].laps = la, rs[b].laps = lb, rs[c].laps = lc, rs[a].lastCrossing = ta,
    rs[b].lastCrossing = tb, rs[c].lastCrossing = tc at *
  omega

theorem sortsAhead_total (rs : Records) {a b : CompNo} (h : a ≠ b) (hn : ¬ sortsAhead rs a b = true) :
    sortsAhead rs b a = true := by
  have hv : a.val ≠ b.val := fun e => h (Fin.ext e)
  rw [sortsAhead_iff] at *
  generalize rs[a].laps = la, rs[b].laps = lb, rs[a].lastCrossing = ta, rs[b].lastCrossing = tb at *
  omega

/-- The keys of R151 alone decide the order. -/
theorem sortsAhead_congr (rs rs' : Records) (a b : CompNo)
    (ha : rs[a].laps = rs'[a].laps ∧ rs[a].lastCrossing = rs'[a].lastCrossing)
    (hb : rs[b].laps = rs'[b].laps ∧ rs[b].lastCrossing = rs'[b].lastCrossing) :
    sortsAhead rs a b = sortsAhead rs' a b := by
  simp only [sortsAhead, ha, hb]

theorem placeSorted_perm (rs : Records) (c : CompNo) (l : List CompNo) : (placeSorted rs c l).Perm (c :: l) := by
  induction l with
  | nil => exact .refl _
  | cons d rest ih =>
    unfold placeSorted
    split
    · exact (ih.cons d).trans (.swap c d rest)
    · exact .refl _

theorem placeSorted_sorted (rs : Records) (c : CompNo) (l : List CompNo) (hc : c ∉ l)
    (h : l.Pairwise (fun a b => sortsAhead rs a b = true)) :
    (placeSorted rs c l).Pairwise (fun a b => sortsAhead rs a b = true) := by
  induction l with
  | nil => simp [placeSorted]
  | cons d rest ih =>
    have h' := List.pairwise_cons.1 h
    simp only [List.mem_cons, not_or] at hc
    unfold placeSorted
    split
    · rename_i hd
      refine List.pairwise_cons.2 ⟨fun x hx => ?_, ih hc.2 h'.2⟩
      rcases List.mem_cons.1 ((placeSorted_perm rs c rest).mem_iff.1 hx) with rfl | hx
      · exact hd
      · exact h'.1 x hx
    · rename_i hd
      have hcd := sortsAhead_total rs (Ne.symm hc.1) hd
      refine List.pairwise_cons.2 ⟨fun x hx => ?_, h⟩
      rcases List.mem_cons.1 hx with rfl | hx
      · exact hcd
      · exact sortsAhead_trans rs hcd (h'.1 x hx)

/-- The session best is no part of the list. -/
theorem Order.ok_congr {o o' : Order} {rs : Records} (h : o.list = o'.list) (ho : o'.Ok rs) : o.Ok rs := by
  unfold Order.Ok at *; rw [h]; exact ho

/-- A record that keeps its keys and whether it is entered keeps the order. -/
theorem order_ok_set (o : Order) (rs : Records) (c : CompNo) (r : Competitor) (h : o.Ok rs)
    (he : r.entered = rs[c].entered) (hl : r.laps = rs[c].laps) (ht : r.lastCrossing = rs[c].lastCrossing) :
    o.Ok (rs.set c r) := by
  have hk : ∀ d : CompNo, (rs.set c r)[d].entered = rs[d].entered ∧ (rs.set c r)[d].laps = rs[d].laps ∧
      (rs.set c r)[d].lastCrossing = rs[d].lastCrossing := by
    intro d
    rw [set_get]
    split
    · rename_i hd; subst hd; exact ⟨he, hl, ht⟩
    · exact ⟨rfl, rfl, rfl⟩
  refine ⟨h.1, fun d => by rw [(hk d).1]; exact h.2.1 d, h.2.2.imp fun {a b} hab => ?_⟩
  rw [sortsAhead_congr _ rs a b (hk a).2 (hk b).2]; exact hab

/-- A join or a reinsertion: the list held exactly the entered competitors before, apart from the one placed. -/
theorem place_ok (o : Order) (rs : Records) (c : CompNo) (r : Competitor) (h : o.Ok rs)
    (he : r.entered = true) : (o.place (rs.set c r) c).Ok (rs.set c r) := by
  have hc : c ∉ (o.remove c).list := by simp [Order.remove]
  have hp := placeSorted_perm (rs.set c r) c (o.remove c).list
  refine ⟨?_, fun d => ?_, ?_⟩
  · exact hp.nodup_iff.2 (List.nodup_cons.2 ⟨hc, h.1.filter _⟩)
  · show d ∈ placeSorted _ _ _ ↔ _
    rw [hp.mem_iff, set_get, List.mem_cons]
    split
    · rename_i hd; simp [← hd, he]
    · rename_i hd
      rw [← h.2.1 d]
      simp [Order.remove, Ne.symm hd, eq_comm]
  · refine placeSorted_sorted _ _ _ hc ?_
    refine (h.2.2.filter _).imp_of_mem fun {a b} ha hb hab => ?_
    have ha' : a ≠ c := by simpa using (List.mem_filter.1 ha).2
    have hb' : b ≠ c := by simpa using (List.mem_filter.1 hb).2
    rw [sortsAhead_congr _ rs a b (by rw [set_get, if_neg ha']; exact ⟨rfl, rfl⟩)
      (by rw [set_get, if_neg hb']; exact ⟨rfl, rfl⟩)]
    exact hab

/-- A removal, of a competitor that is not entered any more. -/
theorem remove_ok (o : Order) (rs : Records) (c : CompNo) (r : Competitor) (h : o.Ok rs)
    (he : r.entered = false) : (o.remove c).Ok (rs.set c r) := by
  refine ⟨h.1.filter _, fun d => ?_, ?_⟩
  · rw [set_get]
    split
    · rename_i hd; simp [Order.remove, ← hd, he]
    · rename_i hd
      rw [← h.2.1 d]
      simp [Order.remove, Ne.symm hd, eq_comm]
  · refine (h.2.2.filter _).imp_of_mem fun {a b} ha hb hab => ?_
    have ha' : a ≠ c := by simpa using (List.mem_filter.1 ha).2
    have hb' : b ≠ c := by simpa using (List.mem_filter.1 hb).2
    rw [sortsAhead_congr _ rs a b (by rw [set_get, if_neg ha']; exact ⟨rfl, rfl⟩)
      (by rw [set_get, if_neg hb']; exact ⟨rfl, rfl⟩)]
    exact hab

end Sys2Proof.Machine
end

