-- ==== Sys2Proof/Laws/Publisher.lean ====
section
/-! SUPPORT. What the Publisher's operations leave: the bounds of its lists, and the fields that none of them
changes. -/

namespace Sys2Proof.Machine

/-- Everything that `Publisher.Ok` says but for the bound of the pending list. -/
def Publisher.Sound (p : Publisher) : Prop :=
  p.hold.length ≤ 32 ∧ p.resultQueue.length ≤ 64 ∧ p.buffer.length ≤ 16 ∧
    (p.waiting ≠ [] → p.logEnabled = true ∧ p.buffer.length = 16) ∧
    (p.writer = none ↔ p.buffer = []) ∧ (p.logEnabled = false → p.buffer.length ≤ 1) ∧
    p.writeIndex < p.logLength * 128

theorem Publisher.ok_iff (p : Publisher) : p.Ok ↔ p.Sound ∧ p.waiting.length ≤ 96 := by
  unfold Publisher.Sound Publisher.Ok; tauto

/-! ## Publication -/

/-- The log writer's start leaves everything but the writer, the write index and the wrapped flag. -/
theorem startWriter_fields (p : Publisher) :
    p.startWriter.hold = p.hold ∧ p.startWriter.waiting = p.waiting ∧ p.startWriter.buffer = p.buffer ∧
      p.startWriter.resultQueue = p.resultQueue ∧ p.startWriter.sequence = p.sequence ∧
      p.startWriter.logEnabled = p.logEnabled ∧ p.startWriter.logBase = p.logBase ∧
      p.startWriter.logLength = p.logLength ∧ p.startWriter.counts = p.counts := by
  unfold Publisher.startWriter
  split
  · split <;> simp
  · simp

theorem startWriter_sound (p : Publisher) (h1 : p.hold.length ≤ 32) (h2 : p.resultQueue.length ≤ 64)
    (h3 : p.buffer.length ≤ 16) (h4 : p.waiting ≠ [] → p.logEnabled = true ∧ p.buffer.length = 16)
    (h5 : p.writer ≠ none → p.buffer ≠ []) (h6 : p.logEnabled = false → p.buffer.length ≤ 1)
    (h7 : p.logEnabled = false → p.writer = none → p.buffer = [])
    (h8 : p.writeIndex < p.logLength * 128) : p.startWriter.Sound := by
  unfold Publisher.startWriter
  split
  · rename_i h
    simp only [Bool.and_eq_true, Option.isNone_iff_eq_none, Bool.not_eq_true', List.isEmpty_eq_false_iff] at h
    split
    · exact ⟨h1, h2, h3, h4, by simp [h.2], h6, by assumption⟩
    · exact ⟨h1, h2, h3, h4, by simp [h.2], h6, by simp only; omega⟩
  · rename_i h
    refine ⟨h1, h2, h3, h4, ⟨fun hw => ?_, fun hb => ?_⟩, h6, h8⟩
    · cases hl : p.logEnabled
      · exact h7 hl hw
      · simpa [hl, hw] using h
    · by_contra hw
      exact h5 hw hb

/-- Publication leaves the Hold List and the pending list. -/
theorem publish_fields (p : Publisher) (r : Result) :
    (p.publish r).hold = p.hold ∧ (p.publish r).waiting = p.waiting ∧
      (p.publish r).logEnabled = p.logEnabled ∧ (p.publish r).logLength = p.logLength ∧
      (p.publish r).counts.held = p.counts.held ∧ (p.publish r).counts.holdOverflow = p.counts.holdOverflow := by
  have h := fun q : Publisher => startWriter_fields q
  unfold Publisher.publish
  dsimp only
  split
  · refine ⟨(h _).1, (h _).2.1, (h _).2.2.2.2.2.1, (h _).2.2.2.2.2.2.2.1, ?_, ?_⟩ <;>
      rw [(h _).2.2.2.2.2.2.2.2] <;> rfl
  · refine ⟨(h _).1, (h _).2.1, (h _).2.2.2.2.2.1, (h _).2.2.2.2.2.2.2.1, ?_, ?_⟩ <;>
      rw [(h _).2.2.2.2.2.2.2.2] <;> rfl

theorem publish_sound (p : Publisher) (r : Result) (h1 : p.hold.length ≤ 32)
    (h2 : p.resultQueue.length ≤ 64) (h3 : p.buffer.length < 16)
    (h4 : p.waiting ≠ [] → p.logEnabled = true ∧ p.buffer.length = 15)
    (h5 : p.writer ≠ none → p.buffer ≠ []) (h6 : p.logEnabled = false → p.buffer.length ≤ 1)
    (h7 : p.logEnabled = false → p.writer = none → p.buffer = [])
    (h8 : p.writeIndex < p.logLength * 128) : (p.publish r).Sound := by
  have hq : (if p.resultQueue.length < 64 then
      p.resultQueue ++ [{ r with sequence := some p.sequence }] else p.resultQueue).length ≤ 64 := by
    split
    · simp; omega
    · exact h2
  unfold Publisher.publish
  cases hl : p.logEnabled
  · apply startWriter_sound <;> simp only [Publisher.number, hl]
    · simpa using h1
    · simpa using hq
    · simp; omega
    · intro hw; exact absurd (h4 (by simpa using hw)).1 (by simp [hl])
    · simpa using h5
    · intro _; simpa using h6 hl
    · intro _ hw; simpa using h7 hl (by simpa using hw)
    · simpa using h8
  · apply startWriter_sound <;> simp only [Publisher.number, hl]
    · simpa using h1
    · simpa using hq
    · simp; omega
    · intro hw; simpa using (h4 (by simpa using hw)).2
    · simp
    · simp
    · simp
    · simpa using h8

/-! ## Giving, taking, alerts -/

/-- A result that is given leaves the Hold List, and the pending list grows by at most one; it does not grow from
nothing while the buffer has a place. -/
theorem give_fields (p : Publisher) (r : Result) :
    (p.give r).hold = p.hold ∧ (p.give r).waiting.length ≤ p.waiting.length + 1 ∧
      (p.waiting = [] → p.buffer.length < 16 → (p.give r).waiting = []) ∧
      (p.give r).logEnabled = p.logEnabled := by
  have h := publish_fields p r
  unfold Publisher.give
  split
  · refine ⟨h.1, by rw [h.2.1]; omega, fun hw _ => by rw [h.2.1]; exact hw, h.2.2.1⟩
  · rename_i hc
    refine ⟨rfl, by simp, fun hw hb => ?_, rfl⟩
    simp [hw, Publisher.accepting, hb] at hc

theorem give_sound (p : Publisher) (r : Result) (h : p.Sound) : (p.give r).Sound := by
  obtain ⟨h1, h2, h3, h4, h5, h6, h7⟩ := h
  unfold Publisher.give
  split
  · rename_i hc
    simp only [Bool.and_eq_true, List.isEmpty_iff, Publisher.accepting, decide_eq_true_eq] at hc
    exact publish_sound p r h1 h2 hc.2 (fun hw => absurd hc.1 hw) (fun hw hb => hw (h5.2 hb)) h6
      (fun _ hw => h5.1 hw) h7
  · rename_i hc
    refine ⟨h1, h2, h3, fun _ => ?_, h5, h6, h7⟩
    simp only [Bool.and_eq_true, List.isEmpty_iff, Publisher.accepting, decide_eq_true_eq, not_and] at hc
    by_cases hw : p.waiting = []
    · have hb := hc hw
      refine ⟨?_, by simp only; omega⟩
      cases hl : p.logEnabled
      · have := h6 hl; omega
      · rfl
    · exact h4 hw

/-- Results given one after another. -/
theorem giveAll_sound (f : Result → Result) (rs : List Result) (p : Publisher) (h : p.Sound) :
    (rs.foldl (fun q x => q.give (f x)) p).Sound ∧
      (rs.foldl (fun q x => q.give (f x)) p).waiting.length ≤ p.waiting.length + rs.length ∧
      (rs.foldl (fun q x => q.give (f x)) p).hold = p.hold := by
  induction rs generalizing p with
  | nil => exact ⟨h, by simp, rfl⟩
  | cons r rest ih =>
    obtain ⟨a, b, c⟩ := ih (p.give (f r)) (give_sound p (f r) h)
    have hf := give_fields p (f r)
    refine ⟨a, ?_, c.trans hf.1⟩
    simp only [List.foldl_cons, List.length_cons]
    have := hf.2.1
    omega

theorem alert_ok (p : Publisher) (r : Result) (h : p.Ok) : (p.alert r).Ok := by
  rw [Publisher.ok_iff] at h ⊢
  unfold Publisher.alert
  split
  · have := (give_fields p r).2.1
    exact ⟨give_sound p r h.1, by omega⟩
  · exact h

theorem alerts_ok (rs : List Result) (p : Publisher) (h : p.Ok) : (p.alerts rs).Ok := by
  unfold Publisher.alerts
  induction rs generalizing p with
  | nil => exact h
  | cons r rest ih => exact ih _ (alert_ok p r h)

/-- A held result leaves the bounds, and lets the pending list grow by at most two; a pending list that is empty
before a buffer with a place grows by at most one. -/
theorem holdResult_sound (p : Publisher) (now : Nat) (r : Result) (h : p.Sound) :
    (p.holdResult now r).Sound ∧ (p.holdResult now r).waiting.length ≤ p.waiting.length + 2 ∧
      (p.waiting = [] → p.buffer.length < 16 → (p.holdResult now r).waiting.length ≤ 1) := by
  unfold Publisher.holdResult
  rcases hh : p.hold with _ | ⟨x, rest⟩
  · obtain ⟨h1, h2, h3, h4, h5, h6, h7⟩ := h
    refine ⟨⟨by simp, h2, h3, h4, h5, h6, h7⟩, by simp, fun hw _ => by simp [hw]⟩
  · have h1 := h.1
    rw [hh] at h1
    simp only
    split
    · rename_i hl
      obtain ⟨_, h2, h3, h4, h5, h6, h7⟩ := h
      refine ⟨⟨?_, h2, h3, h4, h5, h6, h7⟩, by simp, fun hw _ => by simp [hw]⟩
      simp at hl ⊢; omega
    · obtain ⟨_, h2, h3, h4, h5, h6, h7⟩ := h
      have hs : Publisher.Sound { p with hold := rest } :=
        ⟨by simp at h1 ⊢; omega, h2, h3, h4, h5, h6, h7⟩
      obtain ⟨a, b, c⟩ := giveAll_sound id (overflowResults now x) _ hs
      have hlen : (overflowResults now x).length = 2 := rfl
      simp only [id_eq, hlen] at a b c
      have hg : (overflowResults now x).foldl Publisher.give { p with hold := rest } =
          (overflowResults now x).foldl (fun q x => q.give x) { p with hold := rest } := rfl
      rw [hg]
      refine ⟨⟨?_, a.2.1, a.2.2.1, a.2.2.2.1, a.2.2.2.2.1, a.2.2.2.2.2.1, a.2.2.2.2.2.2⟩, b, ?_⟩
      · simp only [c, List.length_append, List.length_cons, List.length_nil]
        simp at h1; omega
      · intro hw hb
        have f1 := give_fields { p with hold := rest } { x with flags := { x.flags with unreviewed := true } }
        have f2 := give_fields (({ p with hold := rest } : Publisher).give
          { x with flags := { x.flags with unreviewed := true } })
          { alertResult now .holdOverflow .none .none (.resultKind x.kind) with competitor := x.competitor }
        have e : (overflowResults now x).foldl (fun q x => q.give x) { p with hold := rest } =
          (({ p with hold := rest } : Publisher).give
            { x with flags := { x.flags with unreviewed := true } }).give
            { alertResult now .holdOverflow .none .none (.resultKind x.kind) with
              competitor := x.competitor } := rfl
        rw [e]
        have := f1.2.2.1 hw hb
        have := f2.2.1
        simp_all

theorem take_sound (p : Publisher) (now : Nat) (r : Result) (h : p.Sound) :
    (p.take now r).Sound ∧ (p.take now r).waiting.length ≤ p.waiting.length + 2 ∧
      (p.waiting = [] → p.buffer.length < 16 → (p.take now r).waiting.length ≤ 1) := by
  unfold Publisher.take
  split
  · exact holdResult_sound p now r h
  · have f := give_fields p r
    refine ⟨give_sound p r h, by omega, fun hw hb => ?_⟩
    rw [f.2.2.1 hw hb]; simp

theorem takeAll_sound (now : Nat) (rs : List Result) (p : Publisher) (h : p.Sound) :
    (p.takeAll now rs).Sound ∧ (p.takeAll now rs).waiting.length ≤ p.waiting.length + 2 * rs.length := by
  unfold Publisher.takeAll
  induction rs generalizing p with
  | nil => exact ⟨h, by simp⟩
  | cons r rest ih =>
    obtain ⟨a, b, _⟩ := take_sound p now r h
    obtain ⟨c, d⟩ := ih _ a
    exact ⟨c, by simp only [List.foldl_cons, List.length_cons]; omega⟩

/-- The results of one event that begins while the Publisher accepts: the pending list, empty at first, holds at most
two for each result less one. -/
theorem takeAll_accepting (now : Nat) (rs : List Result) (p : Publisher) (h : p.Sound)
    (hb : p.buffer.length < 16) :
    (p.takeAll now rs).Sound ∧ (p.takeAll now rs).waiting.length ≤ 2 * rs.length - 1 := by
  have hw : p.waiting = [] := by
    by_contra hn
    have := (h.2.2.2.1 hn).2
    omega
  cases rs with
  | nil => exact ⟨h, by simp [Publisher.takeAll, hw]⟩
  | cons r rest =>
    obtain ⟨a, _, c⟩ := take_sound p now r h
    obtain ⟨d, e⟩ := takeAll_sound now rest _ a
    have hc := c hw hb
    refine ⟨d, ?_⟩
    show ((p.take now r).takeAll now rest).waiting.length ≤ _
    simp only [List.length_cons]
    omega

/-- A result without WITHHELD that a request hands. -/
theorem take_small (p : Publisher) (now : Nat) (r : Result) (h : p.Ok) (hw : p.waiting.length ≤ 32) :
    (p.take now r).Ok := by
  rw [Publisher.ok_iff] at h ⊢
  obtain ⟨a, b, _⟩ := take_sound p now r h.1
  exact ⟨a, by omega⟩

/-! ## The log -/

theorem wordWritten_ok (p : Publisher) (h : p.Ok) : p.wordWritten.Ok := by
  have h0 := h
  rw [Publisher.ok_iff] at h ⊢
  obtain ⟨⟨h1, h2, h3, h4, h5, h6, h7⟩, h8⟩ := h
  unfold Publisher.wordWritten
  split
  · rw [← Publisher.ok_iff]; exact h0
  · rename_i w hw
    have hb : p.buffer ≠ [] := fun hb => by simp [h5.2 hb] at hw
    split
    · refine ⟨⟨h1, h2, h3, h4, by simp [hb], h6, h7⟩, h8⟩
    · have ht : p.buffer.tail.length = p.buffer.length - 1 := by simp
      unfold Publisher.refill
      simp only
      split
      · rename_i hwt
        have f := startWriter_fields { p with
          writer := none, buffer := p.buffer.tail
          counts := { p.counts with entriesWritten := bump p.counts.entriesWritten } }
        refine ⟨?_, by rw [f.2.1]; exact h8⟩
        apply startWriter_sound <;> simp only
        · exact h1
        · exact h2
        · omega
        · intro hn; exact absurd hwt hn
        · simp
        · intro hl; have := h6 hl; omega
        · intro hl _; have := h6 hl
          exact List.length_eq_zero_iff.1 (by omega)
        · exact h7
      · rename_i r rest hwt
        have hne : p.waiting ≠ [] := by rw [hwt]; simp
        have h4' := h4 hne
        have f := publish_fields { p with
          writer := none, buffer := p.buffer.tail, waiting := rest
          counts := { p.counts with entriesWritten := bump p.counts.entriesWritten } } r
        refine ⟨?_, by rw [f.2.1]; simp [hwt] at h8; simp only; omega⟩
        apply publish_sound <;> simp only
        · exact h1
        · exact h2
        · omega
        · intro _; exact ⟨h4'.1, by omega⟩
        · simp
        · intro hl; simp [h4'.1] at hl
        · intro hl; simp [h4'.1] at hl
        · exact h7

theorem enableLog_ok (p : Publisher) (base length : Nat) (hl : 1 ≤ length) (h : p.Ok) :
    (p.enableLog base length).Ok := by
  rw [Publisher.ok_iff] at h ⊢
  obtain ⟨⟨h1, h2, h3, h4, h5, h6, h7⟩, h8⟩ := h
  unfold Publisher.enableLog
  refine ⟨?_, by rw [(startWriter_fields _).2.1]; exact h8⟩
  apply startWriter_sound <;> simp only
  · exact h1
  · exact h2
  · exact h3
  · intro hn; exact ⟨trivial, (h4 hn).2⟩
  · intro hw hb; exact hw (h5.2 hb)
  · simp
  · simp
  · omega

theorem publishAll_disabled (rs : List Result) (p : Publisher) (h : p.Sound) (hl : p.logEnabled = false)
    (hw : p.waiting = []) : (rs.foldl Publisher.publish p).Ok := by
  induction rs generalizing p with
  | nil => rw [Publisher.ok_iff]; exact ⟨h, by simp [hw]⟩
  | cons r rest ih =>
    have f := publish_fields p r
    obtain ⟨h1, h2, h3, h4, h5, h6, h7⟩ := h
    refine ih _ (publish_sound p r h1 h2 ?_ ?_ ?_ h6 ?_ h7) (f.2.2.1.trans hl) (f.2.1.trans hw)
    · have := h6 hl; omega
    · intro hn; exact absurd hw hn
    · intro hn hb; exact hn (h5.2 hb)
    · intro _ hn; exact h5.1 hn

theorem disableLog_ok (p : Publisher) (h : p.Ok) : p.disableLog.Ok := by
  rw [Publisher.ok_iff] at h
  obtain ⟨⟨h1, h2, h3, h4, h5, h6, h7⟩, h8⟩ := h
  unfold Publisher.disableLog
  apply publishAll_disabled
  · refine ⟨h1, h2, ?_, by simp, ?_, ?_, h7⟩
    · simp only; split <;> simp
    · rcases hw : p.writer with _ | w
      · simp
      · have hb : p.buffer ≠ [] := fun hb => by simp [h5.2 hb] at hw
        simp [hb]
    · intro _; simp only; split <;> simp
  · rfl
  · rfl

theorem setLog_ok (p : Publisher) (g : Option (Nat × Nat)) (hg : ∀ x, g = some x → 1 ≤ x.2) (h : p.Ok) :
    (p.setLog g).Ok := by
  rcases g with _ | ⟨base, length⟩
  · exact disableLog_ok p h
  · exact enableLog_ok p base length (hg _ rfl) h

/-! ## RELEASE, DISCARD, CLEAR, the line -/

theorem release_ok (p : Publisher) (who : Option CompNo) (h : p.Ok) (hw : p.waiting.length ≤ 32) :
    (p.release who).Ok := by
  rw [Publisher.ok_iff] at h ⊢
  obtain ⟨⟨h1, h2, h3, h4, h5, h6, h7⟩, h8⟩ := h
  have hf : (p.hold.filter (Result.named who)).length ≤ 32 := (List.length_filter_le ..).trans h1
  obtain ⟨a, b, _⟩ := giveAll_sound (fun r => { r with flags := { r.flags with released := true } })
    (p.hold.filter (Result.named who))
    { p with
      hold := p.hold.filter (fun r => !(r.named who))
      counts := { p.counts with
        released := bumpBy p.counts.released (p.hold.filter (Result.named who)).length } }
    ⟨(List.length_filter_le ..).trans h1, h2, h3, h4, h5, h6, h7⟩
  exact ⟨a, b.trans (by simp only; omega)⟩

theorem discard_ok (p : Publisher) (who : Option CompNo) (h : p.Ok) : (p.discard who).Ok := by
  obtain ⟨h1, h2⟩ := h
  exact ⟨(List.length_filter_le ..).trans h1, h2⟩

theorem clearHold_ok (p : Publisher) (h : p.Ok) : p.clearHold.Ok := by
  obtain ⟨h1, h2⟩ := h
  exact ⟨by simp [Publisher.clearHold], h2⟩

theorem lineTook_ok (p : Publisher) (r : Result) (rest : List Result) (hq : p.resultQueue = r :: rest)
    (h : p.Ok) : ({ p with resultQueue := rest } : Publisher).Ok := by
  obtain ⟨h1, h2, h3⟩ := h
  refine ⟨h1, ?_, h3⟩
  rw [hq] at h2; simp at h2 ⊢; omega

end Sys2Proof.Machine
end

