-- ==== Sys2Proof/Laws/Engine.lean ====
section
/-! SUPPORT. What an application leaves: how many results each of its steps may add, which steps keep the keys of
the Running Order, and that the whole keeps the Running Order as R150 and R151 say. -/

namespace Sys2Proof.Machine

/-! ## What each step may do -/

/-- A competitor that is in the session (R105). -/
abbrev CompState.inSession (c : CompState) : Prop := c ≠ .inactive ∧ c ≠ .standby

/-- The records of the application: the table with the competitor's record as it is now. -/
abbrev Ctx.now (x : Ctx) (w : Work) : Records := x.records.set x.comp w.car

/-- A step that adds at most `k` results, keeps the Running Order's list and the keys of R151, and leaves the
competitor in the session. -/
def Work.Adds (k : Nat) (w w' : Work) : Prop :=
  w'.results.length ≤ w.results.length + k ∧ w'.order.list = w.order.list ∧
    w'.car.entered = w.car.entered ∧ w'.car.laps = w.car.laps ∧ w'.car.lastCrossing = w.car.lastCrossing ∧
    (w.car.state.inSession → w'.car.state.inSession)

theorem Work.Adds.refl (k : Nat) (w : Work) : w.Adds k w :=
  ⟨by omega, rfl, rfl, rfl, rfl, id⟩

theorem Work.Adds.trans {j k : Nat} {a b c : Work} (h : a.Adds j b) (g : b.Adds k c) : a.Adds (j + k) c := by
  obtain ⟨hnumber, h⟩ := h
  refine ⟨by have := g.1; omega, g.2.1.trans h.1, g.2.2.1.trans h.2.1, g.2.2.2.1.trans h.2.2.1, ?_, fun i => ?_⟩
  · exact g.2.2.2.2.1.trans h.2.2.2.1
  · exact g.2.2.2.2.2 (h.2.2.2.2 i)

theorem Work.Adds.mono {j k : Nat} {a b : Work} (h : a.Adds j b) (hk : j ≤ k) : a.Adds k b := by
  obtain ⟨h1, h2⟩ := h
  exact ⟨by omega, h2⟩

/-- Such a step keeps the Running Order. -/
theorem Work.Adds.order {k : Nat} {x : Ctx} {w w' : Work} (h : w.Adds k w') (ho : w.order.Ok (x.now w)) :
    w'.order.Ok (x.now w') := by
  obtain ⟨_, h2, h3, h4, h5, _⟩ := h
  have := order_ok_set w'.order (x.now w) x.comp w'.car (Order.ok_congr h2 ho)
    (by rw [h3]; simp) (by rw [h4]; simp) (by rw [h5]; simp)
  simpa [Ctx.now] using this

theorem pitSteps_adds (x : Ctx) (w : Work) : w.Adds 2 (x.pitSteps w) := by
  unfold Ctx.pitSteps Ctx.pitStep Ctx.inferPit
  split
  · rename_i w' h
    split at h <;> cases h
    all_goals
      refine ⟨by simp [Work.pitMove, Work.emit], rfl, rfl, rfl, rfl, fun _ => ?_⟩
    all_goals simp_all [Work.pitMove, Work.emit, Competitor.pitIn, Competitor.pitOut, Competitor.pitSeen,
        CompState.inSession]
  · split
    all_goals
      refine ⟨by simp [Work.pitMove, Work.emit], rfl, rfl, rfl, rfl, fun h => ?_⟩
    all_goals first
      | exact h
      | simp [Work.pitMove, Work.emit, Competitor.pitIn, Competitor.pitOut, CompState.inSession]

theorem trapEntry_adds (x : Ctx) (w : Work) (i : Fin 4) : w.Adds 1 (x.trapEntry w i) := by
  unfold Ctx.trapEntry
  split
  · exact .refl _ _
  · rename_i t _
    have he : w.Adds 1 (x.trapEnd i t w) := by
      unfold Ctx.trapEnd
      split
      · exact .refl _ _
      · dsimp only
        split
        · exact ⟨by simp [Work.emit], rfl, rfl, rfl, rfl, id⟩
        · exact ⟨by simp, rfl, rfl, rfl, rfl, id⟩
    have hb : ∀ w, Work.Adds 0 w (x.trapBegin i w) := fun w => ⟨by simp [Ctx.trapBegin], rfl, rfl, rfl, rfl, id⟩
    dsimp only
    split <;> split
    · exact he.trans (hb _)
    · exact (hb _).mono (by omega)
    · exact he
    · exact .refl _ _

theorem trapStep_adds (x : Ctx) (w : Work) : w.Adds 4 (x.trapStep w) := by
  have h : ∀ (l : List (Fin 4)) (w : Work), w.Adds l.length (l.foldl x.trapEntry w) := by
    intro l
    induction l with
    | nil => exact fun w => .refl _ _
    | cons i l ih =>
      intro w
      exact ((trapEntry_adds x w i).trans (ih _)).mono (by simp; omega)
  exact h (allFin 4) w

theorem closeSector_adds (x : Ctx) (w : Work) (lp : LastPoint) (s : Nat) : w.Adds 1 (x.closeSector w lp s) :=
  ⟨by simp [Ctx.closeSector, Work.emit], rfl, rfl, rfl, rfl, id⟩

theorem resume_adds (x : Ctx) (w : Work) (q : PointNo) : w.Adds 0 (x.resume w q) :=
  ⟨by simp [Ctx.resume], rfl, rfl, rfl, rfl, id⟩

theorem finalStep_adds (x : Ctx) (w : Work) (q : Option PointNo) (h : w.results.length ≤ 8) :
    (x.finalStep w q).results.length ≤ 8 ∧ w.Adds 1 (x.finalStep w q) := by
  unfold Ctx.finalStep
  split
  · rename_i he
    have he' : w.results = [] := by simpa using he
    exact ⟨by simp [Work.emit, he'], by simp [Work.emit], rfl, rfl, rfl, rfl, id⟩
  · exact ⟨h, by simp, rfl, rfl, rfl, rfl, id⟩

/-! ## The course step -/

/-- A step of an application that adds at most `k` results and keeps the Running Order, the competitor staying in
the session. -/
def Ctx.Keeps (x : Ctx) (k : Nat) (w w' : Work) : Prop :=
  w'.results.length ≤ w.results.length + k ∧ (w.order.Ok (x.now w) → w'.order.Ok (x.now w')) ∧
    (w.car.state.inSession → w'.car.state.inSession)

theorem Work.Adds.keeps {k : Nat} {x : Ctx} {w w' : Work} (h : w.Adds k w') : x.Keeps k w w' :=
  ⟨h.1, h.order, h.2.2.2.2.2⟩

theorem Ctx.Keeps.trans {x : Ctx} {j k : Nat} {a b c : Work} (h : x.Keeps j a b) (g : x.Keeps k b c) :
    x.Keeps (j + k) a c :=
  ⟨by have := h.1; have := g.1; omega, fun i => g.2.1 (h.2.1 i), fun i => g.2.2 (h.2.2 i)⟩

theorem withBest_list (o : Order) (c : CompNo) (lap : Nat) (b : Option (Nat × Bool × Bool)) :
    (o.withBest c lap b).list = o.list := by
  unfold Order.withBest; split <;> rfl

theorem withBest_keys (r : Competitor) (lap : Nat) (b : Option (Nat × Bool × Bool)) :
    (r.withBest lap b).entered = r.entered ∧ (r.withBest lap b).laps = r.laps ∧
      (r.withBest lap b).lastCrossing = r.lastCrossing ∧ (r.withBest lap b).state = r.state := by
  unfold Competitor.withBest; split <;> exact ⟨rfl, rfl, rfl, rfl⟩

theorem enter_keeps (x : Ctx) (w : Work) : x.Keeps 1 w (x.enter w) := by
  refine ⟨by simp [Ctx.enter, Work.emit], fun h => ?_, fun h => h⟩
  have := place_ok w.order (x.now w) x.comp (w.car.enter x.passing.time x.passing.quality x.neutral) h rfl
  simpa [Ctx.now, Ctx.enter, Work.emit] using this

theorem completeLap_keeps (x : Ctx) (w : Work) (inferred : Bool) (he : w.car.entered = true) :
    x.Keeps 1 w (x.completeLap w inferred) := by
  refine ⟨by simp [Ctx.completeLap, Work.emit], fun h => ?_, fun h => ?_⟩
  · let r := x.lapRecord w inferred (w.chequer.answer w.order.list.head? x.comp).1
    let b := x.lapBests w inferred
    have hp := place_ok w.order (x.now w) x.comp r h he
    obtain ⟨k1, k2, k3, _⟩ := withBest_keys r r.laps b
    have := order_ok_set ((w.order.place ((x.now w).set x.comp r) x.comp).withBest x.comp r.laps b) _ x.comp
      ((r.withBest r.laps b).newLap x.passing.quality x.neutral)
      (Order.ok_congr (withBest_list ..) hp) (by simp [Competitor.newLap, k1]) (by simp [Competitor.newLap, k2])
      (by simp [Competitor.newLap, k3])
    simpa [Ctx.now, Ctx.completeLap, Work.emit, r, b] using this
  · show ((Competitor.withBest _ _ _).newLap _ _).state.inSession
    simp only [Competitor.newLap]
    rw [(withBest_keys _ _ _).2.2.2]
    simp only [Ctx.lapRecord]
    split
    · exact ⟨by simp, by simp⟩
    · exact h

theorem courseStep_keeps (x : Ctx) (w : Work) (q : PointNo) : x.Keeps 2 w (x.courseStep w q) := by
  unfold Ctx.courseStep
  split
  · rename_i he
    split
    · exact ((resume_adds x w q).mono (by omega)).keeps
    · rename_i lp _
      have hc := closeSector_adds x w lp (skipped x.course.count lp.point q)
      have he' : (x.closeSector w lp (skipped x.course.count lp.point q)).car.entered = true :=
        hc.2.2.1.trans he
      unfold Ctx.measured
      dsimp only
      split
      · exact hc.keeps.trans (completeLap_keeps x _ false he')
      · split
        · exact hc.keeps.trans (completeLap_keeps x _ true he')
        · exact (hc.mono (by omega)).keeps
  · split
    · have h := enter_keeps x w
      exact ⟨by have := h.1; omega, h.2⟩
    · exact (Work.Adds.refl _ _).keeps

/-! ## The whole application -/

/-- An application adds at most 8 results, keeps the Running Order, and leaves a competitor of INACTIVE or STANDBY
not entered. -/
theorem apply_spec (x : Ctx) (w : Work) (hr : w.results = []) :
    (x.apply w).results.length ≤ 8 ∧ (w.order.Ok (x.now w) → (x.apply w).order.Ok (x.now (x.apply w))) ∧
      ((x.apply w).car.state.inSession ∨
        ((x.apply w).car.state = w.car.state ∧ (x.apply w).car.entered = w.car.entered)) ∧
      ((x.session = .live ∨ x.session = .chequered) ∨ (x.apply w).car.entered = w.car.entered) := by
  unfold Ctx.apply
  split
  · rename_i hf
    simp only [appliesInFull, Bool.and_eq_true, Bool.or_eq_true, decide_eq_true_eq] at hf
    have hs : w.car.state.inSession := by
      rcases hf.2 with h | h <;> rw [h] <;> exact ⟨by simp, by simp⟩
    unfold Ctx.applyFull
    dsimp only
    split
    · exact ⟨by simp [Work.emit, hr], id, .inl hs, .inl hf.1⟩
    · have h6 : x.Keeps 6 w (x.trapStep (x.pitSteps w)) :=
        ((pitSteps_adds x w).trans (trapStep_adds x _)).keeps
      have h8 : ∀ w', x.Keeps 8 w w' →
          (x.finalStep w' x.loop.crossing).results.length ≤ 8 ∧
            (w.order.Ok (x.now w) → (x.finalStep w' x.loop.crossing).order.Ok
              (x.now (x.finalStep w' x.loop.crossing))) ∧
            (x.finalStep w' x.loop.crossing).car.state.inSession := by
        intro w' h
        have hl : w'.results.length ≤ 8 := by have := h.1; rw [hr] at this; simpa using this
        obtain ⟨a, b⟩ := finalStep_adds x w' x.loop.crossing hl
        exact ⟨a, fun i => b.order (h.2.1 i), b.2.2.2.2.2 (h.2.2 hs)⟩
      have h := h8 (match x.loop.crossing with
        | some q => x.courseStep (x.trapStep (x.pitSteps w)) q
        | .none => x.trapStep (x.pitSteps w)) (by
          split
          · exact h6.trans (courseStep_keeps x _ _)
          · exact ⟨by have := h6.1; omega, h6.2⟩)
      exact ⟨h.1, h.2.1, .inl h.2.2, .inl hf.1⟩
  · have ha : w.Adds 1 (x.note w) := ⟨by simp [Ctx.note, Work.emit], rfl, rfl, rfl, rfl, id⟩
    exact ⟨by simp [Ctx.note, Work.emit, hr], ha.order, .inr ⟨rfl, rfl⟩, .inr rfl⟩

/-! ## The part -/

/-- The results of one application that the Publisher takes. -/
theorem State.apply_publisher (s : State) (a : Application) :
    ∃ rs : List Result, rs.length ≤ 8 ∧ (s.apply a).publisher = s.publisher.takeAll s.now rs :=
  ⟨_, (apply_spec (s.ctx a) (s.work a) rfl).1, rfl⟩

/-- An application leaves everything but the Engine, the Running Order, the chequer state and the Publisher. -/
theorem State.apply_frame (s : State) (a : Application) :
    s.apply a = { s with
      engine := (s.apply a).engine
      order := (s.apply a).order
      session := { s.session with chequer := (s.apply a).session.chequer }
      publisher := (s.apply a).publisher } := rfl

theorem State.apply_now (s : State) (a : Application) : (s.apply a).now = s.now := rfl

/-- Applications one after another: the results that the Publisher takes, at most 8 for each. -/
theorem State.applyAll_publisher (as : List Application) (s : State) :
    ∃ rs : List Result, rs.length ≤ 8 * as.length ∧
      (s.applyAll as).publisher = s.publisher.takeAll s.now rs ∧ (s.applyAll as).now = s.now := by
  induction as generalizing s with
  | nil => exact ⟨[], by simp, rfl, rfl⟩
  | cons a as ih =>
    obtain ⟨r1, h1, e1⟩ := s.apply_publisher a
    obtain ⟨r2, h2, e2, e3⟩ := ih (s.apply a)
    refine ⟨r1 ++ r2, by simp; omega, ?_, e3⟩
    show ((s.apply a).applyAll as).publisher = _
    rw [e2, e1, s.apply_now a]
    simp [Publisher.takeAll]

/-- Applications leave everything but the Engine, the Running Order, the chequer state and the Publisher. -/
theorem State.applyAll_frame (as : List Application) (s : State) :
    s.applyAll as = { s with
      engine := (s.applyAll as).engine
      order := (s.applyAll as).order
      session := { s.session with chequer := (s.applyAll as).session.chequer }
      publisher := (s.applyAll as).publisher } := by
  induction as generalizing s with
  | nil => rfl
  | cons a as ih =>
    show (s.apply a).applyAll as = _
    rw [ih (s.apply a)]
    rfl

/-- An application keeps the Running Order as R150 and R151 say. -/
theorem State.apply_order (s : State) (a : Application) (h : OrderOk s) : OrderOk (s.apply a) := by
  obtain ⟨h1, h2, h3⟩ := h
  obtain ⟨-, g2, g3, g4⟩ := apply_spec (s.ctx a) (s.work a) rfl
  have hw : (s.ctx a).now (s.work a) = s.engine.records := set_get_self _ _
  refine ⟨g2 (by rw [hw]; exact h1), fun c hc => ?_, fun hs c => ?_⟩
  · have e : (s.apply a).engine.records[c] = if c = a.comp then ((s.ctx a).apply (s.work a)).car
        else s.engine.records[c] := set_get _ _ _ _
    rw [e] at hc ⊢
    split at hc
    · rename_i hca
      rw [if_pos hca]
      rcases g3 with g | ⟨g, g'⟩
      · rcases hc with hc | hc
        · exact absurd hc g.1
        · exact absurd hc g.2
      · rw [g]  at hc
        rw [g']
        exact h2 a.comp hc
    · rename_i hca
      rw [if_neg hca]
      exact h2 c hc
  · have e : (s.apply a).engine.records[c] = if c = a.comp then ((s.ctx a).apply (s.work a)).car
        else s.engine.records[c] := set_get _ _ _ _
    have hs' : s.session.state = .setup ∨ s.session.state = .standby := hs
    rw [e]
    split
    · rcases g4 with g | g
      · have g' : s.session.state = .live ∨ s.session.state = .chequered := g
        rcases hs' with hs' | hs' <;> rw [hs'] at g' <;> simp at g'
      · rw [g]; exact h3 hs' a.comp
    · exact h3 hs' c

theorem State.applyAll_order (as : List Application) (s : State) (h : OrderOk s) : OrderOk (s.applyAll as) := by
  induction as generalizing s with
  | nil => exact h
  | cons a as ih => exact ih _ (s.apply_order a h)

end Sys2Proof.Machine
end

