-- ==== Sys2Proof/Laws/Settle.lean ====
section
/-! SUPPORT. What the Settle Pool's operations leave: the sum of the pool, the length and the order of a list, and
the number of applications that they hand over. -/

namespace Sys2Proof.Machine

/-! ## Lists -/

/-- A settle list in the order of R87, as to its times. -/
abbrev Ascending (l : List Pending) : Prop := l.Pairwise (fun a b => a.time ≤ b.time)

theorem placePending_length (p : Pending) (l : List Pending) : (placePending p l).length = l.length + 1 := by
  induction l with
  | nil => rfl
  | cons e rest ih => unfold placePending; split <;> simp [ih]

theorem placePending_perm (p : Pending) (l : List Pending) : (placePending p l).Perm (p :: l) := by
  induction l with
  | nil => exact .refl _
  | cons e rest ih =>
    unfold placePending
    split
    · exact (ih.cons e).trans (.swap p e rest)
    · exact .refl _

theorem placePending_ascending (p : Pending) (l : List Pending) (h : Ascending l) :
    Ascending (placePending p l) := by
  induction l with
  | nil => simp [placePending, Ascending]
  | cons e rest ih =>
    have h' := List.pairwise_cons.1 h
    unfold placePending
    split
    · rename_i hu
      refine List.pairwise_cons.2 ⟨fun x hx => ?_, ih h'.2⟩
      rcases List.mem_cons.1 ((placePending_perm p rest).mem_iff.1 hx) with rfl | hx
      · simp [Pending.upTo] at hu; omega
      · exact h'.1 x hx
    · rename_i hu
      have hp : p.time ≤ e.time := by simp [Pending.upTo] at hu; omega
      refine List.pairwise_cons.2 ⟨fun x hx => ?_, h⟩
      rcases List.mem_cons.1 hx with rfl | hx
      · exact hp
      · have := h'.1 x hx; omega

theorem sum_set {n : Nat} (v : Vector (List Pending) n) (c : Fin n) (l : List Pending) :
    ((v.set c l).toList.map List.length).sum + v[c].length = (v.toList.map List.length).sum + l.length := by
  have h : ∀ (xs : List (List Pending)) (k : Nat) (hk : k < xs.length),
      ((xs.set k l).map List.length).sum + xs[k].length = (xs.map List.length).sum + l.length := by
    intro xs
    induction xs with
    | nil => intro k hk; simp at hk
    | cons x rest ih =>
      intro k hk
      cases k with
      | zero => simp; omega
      | succ k =>
        have := ih k (by simpa using hk)
        simp only [List.set_cons_succ, List.map_cons, List.sum_cons, List.getElem_cons_succ]
        omega
  have := h v.toList c.val (by simp)
  simpa [Vector.toList_set, Fin.getElem_fin] using this

/-! ## The pool -/

/-- A list is replaced by one that the pool has the entries for. -/
theorem setList_ok (p : Settle) (c : CompNo) (l : List Pending) (h : p.Ok) (hl : l.length ≤ 6)
    (ha : Ascending l) (hf : l.length ≤ p.lists[c].length + p.free) : (p.setList c l).Ok := by
  obtain ⟨h1, h2⟩ := h
  have hs := sum_set p.lists c l
  have hle : p.lists[c].length ≤ p.total := by
    have : p.lists[c] ∈ p.lists.toList := by simp [Fin.getElem_fin]
    exact List.single_le_sum (by simp) _ (List.mem_map_of_mem this)
  refine ⟨?_, fun d => ?_⟩
  · show p.free + p.lists[c].length - l.length + ((p.lists.set c l).toList.map List.length).sum = 256
    have h1' : p.free + (p.lists.toList.map List.length).sum = 256 := h1
    omega
  · show (p.lists.set c l)[d].length ≤ 6 ∧ Ascending (p.lists.set c l)[d]
    rw [set_get]
    split
    · exact ⟨hl, ha⟩
    · exact h2 d

/-- The bounds of the pool are about its lists and its free count alone. -/
theorem Settle.ok_congr {p q : Settle} (hl : p.lists = q.lists) (hf : p.free = q.free) (h : q.Ok) : p.Ok := by
  unfold Settle.Ok Settle.total at *
  rw [hl, hf]; exact h

theorem emptied_ok (p : Settle) : p.emptied.Ok := by
  refine ⟨?_, fun c => ?_⟩
  · show 256 + ((Vector.replicate 96 ([] : List Pending)).toList.map List.length).sum = 256
    decide
  · show ((Vector.replicate 96 ([] : List Pending))[c]).length ≤ 6 ∧
      Ascending ((Vector.replicate 96 ([] : List Pending))[c])
    simp only [Fin.getElem_fin, Vector.getElem_replicate]
    simp [Ascending]

theorem closed_ok (p : Settle) : p.closed.Ok := Settle.ok_congr (q := p.emptied) rfl rfl (emptied_ok p)

theorem discardList_ok (p : Settle) (c : CompNo) (h : p.Ok) : (p.discardList c).Ok :=
  Settle.ok_congr (q := p.setList c []) rfl rfl (setList_ok p c [] h (by simp) (by simp [Ascending]) (by simp))

/-! ## Expiry -/

theorem expire_ok (p : Settle) (c : CompNo) (now : Nat) (h : p.Ok) :
    (p.expire c now).1.Ok ∧ (p.expire c now).2.length ≤ 6 := by
  have hd : (p.lists[c].dropWhile (Pending.due now p.interval)).length ≤ p.lists[c].length :=
    (List.dropWhile_suffix _).length_le
  have ht : (p.lists[c].takeWhile (Pending.due now p.interval)).length ≤ p.lists[c].length :=
    (List.takeWhile_prefix _).length_le
  have h6 := (h.2 c).1
  refine ⟨?_, by simp only [Settle.expire, List.length_map]; omega⟩
  exact Settle.ok_congr (q := p.setList c _) rfl rfl
    (setList_ok p c _ h (by omega) ((h.2 c).2.sublist (List.dropWhile_suffix _).sublist) (by omega))

theorem expireHead_ok (p : Settle) (c : CompNo) (e : Pending) (rest : List Pending)
    (hl : p.lists[c] = e :: rest) (h : p.Ok) : (p.expireHead c rest).Ok := by
  have h2 := h.2 c
  rw [hl] at h2
  refine Settle.ok_congr (q := p.setList c rest) rfl rfl
    (setList_ok p c rest h ?_ (List.pairwise_cons.1 h2.2).2 ?_)
  · simp at h2; omega
  · rw [hl]; simp; omega

/-! ## Merging -/

theorem mergeWith_time (p e : Pending) : (p.mergeWith e).time = p.time ∨ (p.mergeWith e).time = e.time := by
  unfold Pending.mergeWith; split <;> simp

theorem mergeWith_line (p e : Pending) (h : e.line = p.line) : (p.mergeWith e).line = p.line := by
  unfold Pending.mergeWith; split <;> simp [h]

/-- A chain of merges gives an ascending list, longer by at most the passing; one that begins with a match gives a
list no longer than before. -/
theorem mergeChain_spec (band fuel : Nat) (p : Pending) (l : List Pending) (k : SettleCounts)
    (h : Ascending l) :
    Ascending (mergeChain band fuel p l k).1 ∧ (mergeChain band fuel p l k).1.length ≤ l.length + 1 ∧
      (fuel ≠ 0 → (∃ e ∈ l, p.matches band e = true) → (mergeChain band fuel p l k).1.length ≤ l.length) := by
  induction fuel generalizing p l k with
  | zero => exact ⟨placePending_ascending p l h, by simp [mergeChain, placePending_length], fun hn => absurd rfl hn⟩
  | succ fuel ih =>
    unfold mergeChain
    rcases hf : l.find? (p.matches band) with _ | e
    · refine ⟨placePending_ascending p l h, by simp [placePending_length], fun _ hm => ?_⟩
      obtain ⟨e, he, hm⟩ := hm
      exact absurd hm (List.find?_eq_none.1 hf e he)
    · have he := List.mem_of_find?_eq_some hf
      have hl : (l.erase e).length + 1 = l.length := by
        rw [List.length_erase_of_mem he]
        have := List.length_pos_of_mem he
        omega
      obtain ⟨a, b, _⟩ := ih (p.mergeWith e) (l.erase e) (k.merged p e) (h.sublist List.erase_sublist)
      exact ⟨a, by simp only; omega, fun _ _ => by simp only; omega⟩

theorem merge_ok (p : Settle) (c : CompNo) (band now : Nat) (q : Pending) (h : p.Ok)
    (hm : p.lists[c].any (q.matches band) = true) :
    (p.merge c band now q).1.Ok ∧ (p.merge c band now q).2.length ≤ 6 := by
  obtain ⟨a, _, b⟩ := mergeChain_spec band 7 q p.lists[c] p.counts (h.2 c).2
  have hb := b (by simp) (by simpa using hm)
  refine expire_ok _ c now (Settle.ok_congr (q := p.setList c _) rfl rfl (setList_ok p c _ h ?_ a ?_))
  · have := (h.2 c).1; omega
  · omega

/-! ## Tests 4 to 6 -/

theorem force_ok (p : Settle) (c : CompNo) (q e : Pending) (rest : List Pending)
    (hl : p.lists[c] = e :: rest) (h : p.Ok) :
    (p.force c q e rest).1.Ok ∧ (p.force c q e rest).2.length ≤ 6 := by
  have h2 := h.2 c
  rw [hl] at h2
  unfold Settle.force
  split
  · refine ⟨Settle.ok_congr (q := p.setList c _) rfl rfl (setList_ok p c _ h ?_ ?_ ?_), by simp⟩
    · rw [placePending_length]; simpa using h2.1
    · exact placePending_ascending q rest (List.pairwise_cons.1 h2.2).2
    · rw [placePending_length, hl]; simp
  · exact ⟨Settle.ok_congr (q := p) rfl rfl h, by simp⟩

theorem bypass_ok (p : Settle) (c : CompNo) (q : Pending) (h : p.Ok) (hl : p.lists[c].length < 6) :
    (p.bypass c q).1.Ok ∧ (p.bypass c q).2.length ≤ 6 := by
  have hd : (p.lists[c].dropWhile (fun e => decide (e.time ≤ q.time))).length ≤ p.lists[c].length :=
    (List.dropWhile_suffix _).length_le
  have ht : (p.lists[c].takeWhile (fun e => decide (e.time ≤ q.time))).length ≤ p.lists[c].length :=
    (List.takeWhile_prefix _).length_le
  refine ⟨Settle.ok_congr (q := p.setList c _) rfl rfl (setList_ok p c _ h (by omega) ?_ (by omega)), ?_⟩
  · exact (h.2 c).2.sublist (List.dropWhile_suffix _).sublist
  · simp only [Settle.bypass, List.length_map, List.length_append, List.length_singleton]; omega

theorem insert_ok (p : Settle) (c : CompNo) (now : Nat) (q : Pending) (h : p.Ok)
    (hl : p.lists[c].length < 6) (hf : p.free ≠ 0) :
    (p.insert c now q).1.Ok ∧ (p.insert c now q).2.length ≤ 6 := by
  refine expire_ok _ c now (Settle.ok_congr (q := p.setList c (placePending q p.lists[c])) rfl rfl
    (setList_ok p c _ h ?_ (placePending_ascending q _ (h.2 c).2) ?_)) <;> rw [placePending_length] <;> omega

theorem admit_ok (p : Settle) (c : CompNo) (now : Nat) (q : Pending) (h : p.Ok) :
    (p.enroll c now q).1.Ok ∧ (p.enroll c now q).2.length ≤ 6 := by
  unfold Settle.enroll
  split
  · rename_i e rest hl
    split
    · exact force_ok p c q e rest hl h
    · rename_i h6
      split
      · exact bypass_ok p c q h (by rw [hl]; omega)
      · exact insert_ok p c now q h (by rw [hl]; omega) (by assumption)
  · rename_i hl
    split
    · exact bypass_ok p c q h (by rw [hl]; simp)
    · exact insert_ok p c now q h (by rw [hl]; simp) (by assumption)

theorem keep_ok (p : Settle) (c : CompNo) (band now : Nat) (q : Pending) (h : p.Ok) :
    (p.keep c band now q).1.Ok ∧ (p.keep c band now q).2.length ≤ 6 := by
  unfold Settle.keep
  split
  · exact merge_ok p c band now q h (by assumption)
  · exact admit_ok p c now q h

theorem taken_ok (p : Settle) (c : CompNo) (band now : Nat) (q : Pending) (h : p.Ok) :
    (p.taken c band now q).settle.Ok ∧ (p.taken c band now q).apply.length ≤ 6 ∧
      (p.taken c band now q).results = [] := by
  have hk := keep_ok { p with nextOrder := p.nextOrder + 1 } c band now q (Settle.ok_congr (q := p) rfl rfl h)
  exact ⟨hk.1, hk.2, rfl⟩

/-- A taking keeps the bounds of the pool; it hands over at most 6 applications, or one result. -/
theorem settleTake_ok (p : Settle) (session : SessionState) (rec : Competitor) (info : LineInfo)
    (now : Nat) (r : Resolved) (h : p.Ok) :
    let t := p.take session rec info now r
    t.settle.Ok ∧ ((t.results = [] ∧ t.apply.length ≤ 6) ∨ (t.results.length = 1 ∧ t.apply = [])) := by
  have hc : ∀ k : SettleCounts, Settle.Ok { p with counts := k } := fun k => Settle.ok_congr (q := p) rfl rfl h
  have ht := fun c band q => taken_ok p c band now q h
  unfold Settle.take Settle.test
  dsimp only
  split
  · exact ⟨hc _, .inl ⟨rfl, by simp⟩⟩
  · split
    · exact ⟨hc _, .inr ⟨rfl, rfl⟩⟩
    · split
      · exact ⟨(ht _ _ _).1, .inl ⟨(ht _ _ _).2.2, (ht _ _ _).2.1⟩⟩
      · split
        · exact ⟨hc _, .inr ⟨rfl, rfl⟩⟩
        · split
          · exact ⟨hc _, .inl ⟨rfl, by simp⟩⟩
          · exact ⟨(ht _ _ _).1, .inl ⟨(ht _ _ _).2.2, (ht _ _ _).2.1⟩⟩

end Sys2Proof.Machine
end

