-- ==== Sys2Proof/Laws/Applied.lean ====
section
/-! SUPPORT. What a taking hands over to be applied, in time and for which competitor, and what an application does
to the last applied passing of a record (R91 to R99). -/

namespace Sys2Proof.Machine

/-! ## What Settle hands over -/

/-- The times of the applications of a taking, then those of the entries that stay in the list. -/
abbrev handedTimes (as : List Application) (l : List Pending) : List Nat :=
  as.map (fun a => a.passing.time) ++ l.map Pending.time

/-- What Settle makes of a passing `q` of the competitor `c`: the applications are of `c`, only its list changes, the
times ascend from the first application to the last entry that stays, and each is that of `q` or of an entry of the
list. -/
abbrev Settle.Hands (p : Settle) (c : CompNo) (q : Pending) (t : Settle) (as : List Application) : Prop :=
  (∀ a ∈ as, a.comp = c) ∧
    ∃ l, t.lists = p.lists.set c l ∧ (handedTimes as l).Pairwise (· ≤ ·) ∧
      ∀ v ∈ handedTimes as l, v = q.time ∨ ∃ e ∈ p.lists[c], v = e.time

/-- Times that ascend, and each of which is one of a list's or `q`'s. -/
theorem expire_hands (p : Settle) (c : CompNo) (now : Nat) (l : List Pending) (z : Settle) (hz : z.lists = p.lists.set c l)
    (h : Ascending l) (q : Pending) (hl : ∀ e ∈ l, e.time = q.time ∨ ∃ x ∈ p.lists[c], e.time = x.time) :
    p.Hands c q (z.expire c now).1 (z.expire c now).2 := by
  have hc : z.lists[c] = l := by rw [hz]; simp
  have hs : (z.expire c now).1.lists = p.lists.set c (z.lists[c].dropWhile (Pending.due now z.interval)) := by
    show z.lists.set c _ = _
    rw [hz]
    exact Vector.set_set _ _
  refine ⟨fun a ha => ?_, _, hs, ?_⟩
  · simp only [Settle.expire, List.mem_map] at ha
    obtain ⟨_, _, rfl⟩ := ha
    rfl
  · have e : handedTimes (z.expire c now).2 (z.lists[c].dropWhile (Pending.due now z.interval)) = l.map Pending.time := by
      simp only [handedTimes, Settle.expire, List.map_map, hc]
      conv_rhs => rw [← List.takeWhile_append_dropWhile (p := Pending.due now z.interval) (l := l), List.map_append]
      rfl
    rw [e]
    refine ⟨List.pairwise_map.2 h, fun v hv => ?_⟩
    obtain ⟨x, hx, rfl⟩ := List.mem_map.1 hv
    exact hl x hx

/-- A chain of merges keeps times of the passing and of the list. -/
theorem mergeChain_times (band fuel : Nat) (p : Pending) (l : List Pending) (k : SettleCounts) (q : Pending)
    (L : List Pending) (hp : p.time = q.time ∨ ∃ x ∈ L, p.time = x.time) (hl : ∀ e ∈ l, ∃ x ∈ L, e.time = x.time) :
    ∀ e ∈ (mergeChain band fuel p l k).1, e.time = q.time ∨ ∃ x ∈ L, e.time = x.time := by
  have place : ∀ p : Pending, (p.time = q.time ∨ ∃ x ∈ L, p.time = x.time) → ∀ l : List Pending,
      (∀ e ∈ l, ∃ x ∈ L, e.time = x.time) → ∀ e ∈ placePending p l, e.time = q.time ∨ ∃ x ∈ L, e.time = x.time := by
    intro p hp l hl e he
    rcases List.mem_cons.1 ((placePending_perm p l).mem_iff.1 he) with rfl | he
    · exact hp
    · exact .inr (hl e he)
  induction fuel generalizing p l k with
  | zero => exact place p hp l hl
  | succ fuel ih =>
    unfold mergeChain
    split
    · exact place p hp l hl
    · rename_i e hf
      refine ih _ _ _ ?_ fun x hx => hl x (List.mem_of_mem_erase hx)
      rcases mergeWith_time p e with h | h
      · rw [h]; exact hp
      · rw [h]; exact .inr (hl e (List.mem_of_find?_eq_some hf))

theorem merge_hands (p : Settle) (c : CompNo) (band now : Nat) (q : Pending) (h : Ascending p.lists[c]) :
    p.Hands c q (p.merge c band now q).1 (p.merge c band now q).2 := by
  refine expire_hands p c now _ _ rfl ?_ q ?_
  · exact (mergeChain_spec band 7 q p.lists[c] p.counts h).1
  · exact mergeChain_times band 7 q p.lists[c] p.counts q p.lists[c] (.inl rfl) fun e he => ⟨e, he, rfl⟩

/-- A list with the passing placed in it has the times of the list and of the passing. -/
theorem placePending_times (q : Pending) (l L : List Pending) (hl : ∀ e ∈ l, e ∈ L) :
    ∀ e ∈ placePending q l, e.time = q.time ∨ ∃ x ∈ L, e.time = x.time := by
  intro e he
  rcases List.mem_cons.1 ((placePending_perm q l).mem_iff.1 he) with rfl | he
  · exact .inl rfl
  · exact .inr ⟨e, hl e he, rfl⟩

theorem insert_hands (p : Settle) (c : CompNo) (now : Nat) (q : Pending) (h : Ascending p.lists[c]) :
    p.Hands c q (p.insert c now q).1 (p.insert c now q).2 :=
  expire_hands p c now _ _ rfl (placePending_ascending q _ h) q (placePending_times q _ _ fun _ he => he)

theorem force_hands (p : Settle) (c : CompNo) (q e : Pending) (rest : List Pending) (hl : p.lists[c] = e :: rest)
    (h : Ascending p.lists[c]) : p.Hands c q (p.force c q e rest).1 (p.force c q e rest).2 := by
  rw [hl] at h
  obtain ⟨h1, h2⟩ := List.pairwise_cons.1 h
  unfold Settle.force
  dsimp only
  split
  · rename_i hq
    refine ⟨fun a ha => (by rw [List.mem_singleton.1 ha]), _, rfl, List.pairwise_cons.2 ⟨fun v hv => ?_, ?_⟩, fun v hv => ?_⟩
    · obtain ⟨x, hx, rfl⟩ := List.mem_map.1 hv
      rcases List.mem_cons.1 ((placePending_perm q rest).mem_iff.1 hx) with rfl | hx
      · exact hq
      · exact h1 x hx
    · exact List.pairwise_map.2 (placePending_ascending q rest h2)
    · rcases List.mem_cons.1 hv with rfl | hv
      · exact .inr ⟨e, by rw [hl]; exact List.mem_cons_self, rfl⟩
      · obtain ⟨x, hx, rfl⟩ := List.mem_map.1 hv
        exact placePending_times q rest _ (fun y hy => by rw [hl]; exact List.mem_cons_of_mem _ hy) x hx
  · rename_i hq
    refine ⟨fun a ha => (by rw [List.mem_singleton.1 ha]), p.lists[c], by simp, ?_, fun v hv => ?_⟩
    · refine List.pairwise_cons.2 ⟨fun v hv => ?_, by rw [hl]; exact List.pairwise_map.2 h⟩
      obtain ⟨x, hx, rfl⟩ := List.mem_map.1 hv
      rw [hl] at hx
      show q.time ≤ x.time
      rcases List.mem_cons.1 hx with rfl | hx
      · omega
      · have := h1 x hx; omega
    · rcases List.mem_cons.1 hv with rfl | hv
      · exact .inl rfl
      · obtain ⟨x, hx, rfl⟩ := List.mem_map.1 hv
        exact .inr ⟨x, hx, rfl⟩

/-- In an ascending list the entries left behind by those up to a time are all above it. -/
theorem dropWhile_above (l : List Pending) (T : Nat) (h : Ascending l) :
    ∀ e ∈ l.dropWhile (fun e => decide (e.time ≤ T)), T < e.time := by
  induction l with
  | nil => intro e he; cases he
  | cons x l ih =>
    obtain ⟨h1, h2⟩ := List.pairwise_cons.1 h
    intro e he
    rw [List.dropWhile_cons] at he
    split at he
    · exact ih h2 e he
    · rename_i hx
      have hx' : T < x.time := by simpa using hx
      rcases List.mem_cons.1 he with rfl | he
      · exact hx'
      · have := h1 e he; omega

theorem bypass_hands (p : Settle) (c : CompNo) (q : Pending) (h : Ascending p.lists[c]) :
    p.Hands c q (p.bypass c q).1 (p.bypass c q).2 := by
  have e : handedTimes (p.bypass c q).2 (p.lists[c].dropWhile fun e => decide (e.time ≤ q.time)) =
      (p.lists[c].takeWhile fun e => decide (e.time ≤ q.time)).map Pending.time ++
        q.time :: (p.lists[c].dropWhile fun e => decide (e.time ≤ q.time)).map Pending.time := by
    simp [handedTimes, Settle.bypass, Pending.unsettled, Function.comp_def]
  refine ⟨fun a ha => ?_, _, rfl, ?_⟩
  · simp only [Settle.bypass, List.mem_map] at ha
    obtain ⟨_, _, rfl⟩ := ha
    rfl
  · rw [e]
    have ht : ∀ x ∈ p.lists[c].takeWhile (fun e => decide (e.time ≤ q.time)), x.time ≤ q.time := fun x hx => by
      simpa using List.mem_takeWhile_imp hx
    have hd := dropWhile_above p.lists[c] q.time h
    refine ⟨List.pairwise_append.2 ⟨?_, List.pairwise_cons.2 ⟨fun v hv => ?_, ?_⟩, fun a ha b hb => ?_⟩, fun v hv => ?_⟩
    · exact List.pairwise_map.2 (h.sublist (List.takeWhile_prefix _).sublist)
    · obtain ⟨x, hx, rfl⟩ := List.mem_map.1 hv
      exact Nat.le_of_lt (hd x hx)
    · exact List.pairwise_map.2 (h.sublist (List.dropWhile_suffix _).sublist)
    · obtain ⟨x, hx, rfl⟩ := List.mem_map.1 ha
      have hx := ht x hx
      rcases List.mem_cons.1 hb with rfl | hb
      · exact hx
      · obtain ⟨y, hy, rfl⟩ := List.mem_map.1 hb
        have := hd y hy; omega
    · rcases List.mem_append.1 hv with hv | hv
      · obtain ⟨x, hx, rfl⟩ := List.mem_map.1 hv
        exact .inr ⟨x, (List.takeWhile_prefix _).subset hx, rfl⟩
      · rcases List.mem_cons.1 hv with rfl | hv
        · exact .inl rfl
        · obtain ⟨x, hx, rfl⟩ := List.mem_map.1 hv
          exact .inr ⟨x, (List.dropWhile_suffix _).subset hx, rfl⟩

theorem keep_hands (p : Settle) (c : CompNo) (band now : Nat) (q : Pending) (h : Ascending p.lists[c]) :
    p.Hands c q (p.keep c band now q).1 (p.keep c band now q).2 := by
  unfold Settle.keep Settle.enroll
  split
  · exact merge_hands p c band now q h
  · split
    · split
      · exact force_hands p c q _ _ (by assumption) h
      · split
        · exact bypass_hands p c q h
        · exact insert_hands p c now q h
    · split
      · exact bypass_hands p c q h
      · exact insert_hands p c now q h

/-- A taking: nothing is applied and no list changes, or what is kept or applied is not below the competitor's last
applied time, and the times ascend from the first application to the last entry that stays (R91, R99). -/
theorem settleTake_hands (p : Settle) (session : SessionState) (rec : Competitor) (info : LineInfo) (now : Nat)
    (r : Resolved) (h : Ascending p.lists[r.comp]) :
    let t := p.take session rec info now r
    (t.apply = [] ∧ t.settle.lists = p.lists) ∨
      ((∀ m, rec.lastApplied = some m → m.time ≤ r.record.time) ∧
        p.Hands r.comp (r.pending info p.nextOrder) t.settle t.apply) := by
  have hk : p.Hands r.comp (r.pending info p.nextOrder)
      (p.taken r.comp info.deadBand now (r.pending info p.nextOrder)).settle
      (p.taken r.comp info.deadBand now (r.pending info p.nextOrder)).apply :=
    keep_hands { p with nextOrder := p.nextOrder + 1 } r.comp info.deadBand now _ h
  unfold Settle.take Settle.test
  dsimp only
  split
  · exact .inl ⟨rfl, rfl⟩
  · split
    · exact .inl ⟨rfl, rfl⟩
    · split
      · rename_i hn
        exact .inr ⟨fun m hm => (by rw [hn] at hm; cases hm), hk⟩
      · rename_i m hm
        split
        · exact .inl ⟨rfl, rfl⟩
        · rename_i ht
          split
          · exact .inl ⟨rfl, rfl⟩
          · refine .inr ⟨fun m' hm' => ?_, hk⟩
            rw [hm] at hm'
            cases hm'
            exact Nat.le_of_not_lt ht

/-! ## What an application records -/

/-- The last applied passing after an application: the passing, or what it was (R107, R117, R126). -/
theorem apply_lastApplied (x : Ctx) (w : Work) :
    (x.apply w).car.lastApplied = some ⟨x.passing.time, x.passing.line⟩ ∨
      (x.apply w).car.lastApplied = w.car.lastApplied := by
  unfold Ctx.apply Ctx.applyFull Ctx.note
  split
  · dsimp only
    split
    · exact .inr rfl
    · exact .inl rfl
  · exact .inl rfl

/-- Applications of one competitor leave every other record, and its last applied passing is one of them or what it
was. -/
theorem State.applyAll_lastApplied (c : CompNo) (as : List Application) (s : State) (h : ∀ a ∈ as, a.comp = c) :
    (∀ d : CompNo, d ≠ c → (s.applyAll as).engine.records[d] = s.engine.records[d]) ∧
      ((s.applyAll as).engine.records[c].lastApplied = s.engine.records[c].lastApplied ∨
        ∃ a ∈ as, (s.applyAll as).engine.records[c].lastApplied = some ⟨a.passing.time, a.passing.line⟩) := by
  unfold State.applyAll
  induction as generalizing s with
  | nil => exact ⟨fun _ _ => rfl, .inl rfl⟩
  | cons a as ih =>
    obtain ⟨h1, h2⟩ := ih (s.apply a) fun x hx => h x (List.mem_cons_of_mem _ hx)
    have ha := h a List.mem_cons_self
    have hr : (s.apply a).engine.records = s.engine.records.set c ((s.ctx a).apply (s.work a)).car := by
      rw [← ha]; rfl
    have hc : (s.apply a).engine.records[c].lastApplied = s.engine.records[c].lastApplied ∨
        (s.apply a).engine.records[c].lastApplied = some ⟨a.passing.time, a.passing.line⟩ := by
      rw [hr, set_get, if_pos rfl]
      rcases apply_lastApplied (s.ctx a) (s.work a) with e | e
      · exact .inr e
      · refine .inl (e.trans ?_)
        show s.engine.records[a.comp].lastApplied = _
        simp only [ha]
    refine ⟨fun d hd => ?_, ?_⟩
    · refine (h1 d hd).trans ?_
      rw [hr, set_get, if_neg hd]
    · rcases h2 with e | ⟨x, hx, e⟩
      · rcases hc with e' | e'
        · exact .inl (e.trans e')
        · exact .inr ⟨a, List.mem_cons_self, e.trans e'⟩
      · exact .inr ⟨x, List.mem_cons_of_mem _ hx, e⟩

end Sys2Proof.Machine
end

