-- ==== Sys2Proof/Laws/Arbiter.lean ====
section
/-! SUPPORT. The arbiter: which requesters wait at a grant, and all that a grant can do. -/

namespace Sys2Proof.Machine

theorem mem_grantOrder (n : Nat) (q : Requester) : q ∈ grantOrder n := by
  unfold grantOrder
  split <;> cases q <;> decide

/-- With no access in progress, a requester has to ask for what its own state calls for. -/
theorem State.waitingAccess_free (s : State) (h : s.tmp.inProgress = none) (q : Requester) :
    s.waitingAccess q = s.asked q := by
  simp [State.waitingAccess, Tmp.busyWith, h]

/-- The requesters with an access to ask for. -/
theorem State.mem_askers (s : State) (q : Requester) : q ∈ s.askers ↔ (s.waitingAccess q).isSome = true := by
  simp [State.askers, mem_grantOrder]

/-- A requester waits at a grant that has asked, or with all the others where the free choices leave none. -/
theorem State.mem_waiters (s : State) (q : Requester) :
    q ∈ s.waiters ↔ q ∈ s.askers ∧ (s.hasAsked q = true ∨ ∀ r ∈ s.askers, s.hasAsked r = false) := by
  unfold State.waiters
  split
  · rename_i h
    have none_asked : ∀ r ∈ s.askers, s.hasAsked r = false := fun r hr => by
      simpa using List.filter_eq_nil_iff.1 (List.isEmpty_iff.1 h) r hr
    exact ⟨fun hq => ⟨hq, .inr none_asked⟩, And.left⟩
  · rename_i h
    rw [List.mem_filter]
    refine and_congr_right fun hq => ⟨.inl, fun hc => ?_⟩
    rcases hc with hc | hc
    · exact hc
    · exact absurd (List.isEmpty_iff.2 (List.filter_eq_nil_iff.2 fun r hr => by simp [hc r hr])) h

/-- Where a requester has an access to ask for, one waits. -/
theorem State.waiters_ne_nil (s : State) (h : s.askers ≠ []) : s.waiters ≠ [] := by
  unfold State.waiters
  split
  · exact h
  · rename_i hn
    exact fun e => hn (List.isEmpty_iff.2 e)

/-- The requesters that wait stand in the order of the grant. -/
theorem State.waiters_eq_filter (s : State) :
    s.waiters = (grantOrder s.publisher.buffer.length).filter fun q => decide (q ∈ s.waiters) := by
  have h : ∃ p : Requester → Bool, s.waiters = (grantOrder s.publisher.buffer.length).filter p := by
    unfold State.waiters State.askers
    split
    · exact ⟨_, rfl⟩
    · rw [List.filter_filter]
      exact ⟨_, rfl⟩
  obtain ⟨p, hp⟩ := h
  refine hp.trans (List.filter_congr fun q hq => ?_)
  rw [hp]
  simp [hq]

/-- The requesters whose next access follows an own one after a grant. -/
theorem State.mem_followingAfter (s : State) (q r : Requester) :
    r ∈ s.followingAfter q ↔ r = q ∨ (r ∈ s.tmp.following ∧ r ∈ s.askers ∧ r ∉ s.waiters) := by
  simp [State.followingAfter, mem_grantOrder]

/-- The access granted next is one that its requester has to ask for, and that requester waits. -/
theorem State.nextGrant_some (s : State) {q : Requester} {a : Access} (h : s.nextGrant = some (q, a)) :
    q ∈ s.waiters ∧ s.waitingAccess q = some a := by
  obtain ⟨r, hr, e⟩ := List.exists_of_findSome?_eq_some h
  obtain ⟨b, hb, e⟩ := Option.map_eq_some_iff.1 e
  cases e
  exact ⟨hr, hb⟩

/-- All that ARBITER_GRANT does: nothing, or, with no access in progress, the grant to one that waits. -/
theorem execArbiterGrant_cases (s : State) :
    execArbiterGrant s = .next s ∨ ∃ q a, s.tmp.inProgress = none ∧ q ∈ s.waiters ∧ s.asked q = some a ∧
      execArbiterGrant s = .next (s.grant q a) := by
  unfold execArbiterGrant
  split
  · rename_i q a hp hg
    have := s.nextGrant_some hg
    exact .inr ⟨q, a, hp, this.1, s.waitingAccess_free hp q ▸ this.2, rfl⟩
  · exact .inl rfl

end Sys2Proof.Machine
end

