-- ==== Sys2Proof/Laws/Bytes.lean ====
section
/-! SUPPORT. The bytes of cells, replies and pages: their lengths, the fields of a received cell, the check bit by bit,
and the bytes of a cell that the part sends. -/

namespace Sys2Proof.Machine

@[simp] theorem natBytes_length (n v : Nat) : (natBytes n v).length = n := by
  induction n generalizing v with
  | zero => rfl
  | succ n ih => simp [natBytes, ih]

@[simp] theorem intBytes_length (n : Nat) (v : Int) : (intBytes n v).length = n := by simp [intBytes]

@[simp] theorem optBytes_length (n : Nat) (v : Option Nat) : (optBytes n v).length = n := by simp [optBytes]

@[simp] theorem flagByte_length (b : Bool) : (flagByte b).length = 1 := rfl

@[simp] theorem u8_length (n : Nat) : (u8 n).length = 1 := by simp [u8]

@[simp] theorem u16_length (n : Nat) : (u16 n).length = 2 := by simp [u16]

@[simp] theorem us_length (n : Nat) : (us n).length = 6 := by simp [us]

@[simp] theorem usOpt_length (n : Option Nat) : (us? n).length = 6 := by simp [us?]

@[simp] theorem u16s_length (l : List Nat) : (u16s l).length = 2 * l.length := by
  induction l with
  | nil => rfl
  | cons x l ih => simp [u16s] at ih ⊢; omega

@[simp] theorem placeBytes_length (p) : (placeBytes p).length = 3 := by simp [placeBytes]

@[simp] theorem nextBytes_length (x : Sweep) : x.nextBytes.length = 4 := by unfold Sweep.nextBytes; split <;> simp

@[simp] theorem addrBytes_length (r : SweepReport) (a n : Nat) : (r.addrBytes a n).length = 3 * n := by
  unfold SweepReport.addrBytes
  rw [List.length_flatten, List.map_map]
  have : (List.length ∘ fun i => optBytes 3 (r.faultAddrs[a + i]?.map BitVec.toNat)) = fun _ => 3 := by funext i; simp
  rw [this]; simp [Nat.mul_comm]

/-! ## The fields of a received cell -/

theorem toList_getD (cell : Cell) (i : Nat) (h : i < 32) : cell.toList.getD i 0 = cell[i]'h := by
  simp [List.getD_eq_getElem?_getD, h]

/-- A field of a cell is its bytes in their places. -/
theorem cellBytes_eq (cell : Cell) (start len : Nat) (h : start + len ≤ 32) :
    cellBytes cell start len = (List.range len).map fun i => cell.toList.getD (start + i) 0 := by
  have hc : cell.toList.length = 32 := cell.length_toList
  refine List.ext_getElem (by simp [cellBytes]; omega) fun i h1 h2 => ?_
  have hi : i < len := by simpa using h2
  rw [List.getElem_map, List.getElem_range, toList_getD cell _ (by omega)]
  simp [cellBytes]

/-- A byte behind a field. -/
theorem toNat_append_byte {n : Nat} (x : BitVec n) (b : Byte) : (x ++ b).toNat = x.toNat * 256 + b.toNat := by
  rw [BitVec.toNat_append, ← Nat.shiftLeft_add_eq_or_of_lt b.isLt, Nat.shiftLeft_eq]

theorem cellNat_one (cell : Cell) (i : Nat) (h : i < 32) : cellNat cell i 1 = (cell[i]'h).toNat := by
  unfold cellNat
  rw [cellBytes_eq cell i 1 (by omega)]
  simp [beNat, h]

theorem cellNat_two (cell : Cell) (i : Nat) (h : i + 1 < 32) :
    cellNat cell i 2 = 256 * (cell[i]'(by omega)).toNat + (cell[i + 1]'h).toNat := by
  unfold cellNat
  rw [cellBytes_eq cell i 2 (by omega)]
  simp [List.range_succ, beNat, h, show i < 32 by omega]
  omega

theorem ofNat_cellNat_three (cell : Cell) (i : Nat) (h : i + 2 < 32) :
    BitVec.ofNat 24 (cellNat cell i 3) = cell[i]'(by omega) ++ cell[i + 1]'(by omega) ++ cell[i + 2]'h := by
  unfold cellNat
  rw [cellBytes_eq cell i 3 (by omega)]
  refine BitVec.eq_of_toNat_eq ?_
  rw [toNat_append_byte, toNat_append_byte]
  simp [List.range_succ, beNat, h, show i < 32 by omega, show i + 1 < 32 by omega]
  omega

theorem ofNat_cellNat_four (cell : Cell) (i : Nat) (h : i + 3 < 32) : BitVec.ofNat 32 (cellNat cell i 4) =
    cell[i]'(by omega) ++ cell[i + 1]'(by omega) ++ cell[i + 2]'(by omega) ++ cell[i + 3]'h := by
  unfold cellNat
  rw [cellBytes_eq cell i 4 (by omega)]
  refine BitVec.eq_of_toNat_eq ?_
  rw [toNat_append_byte, toNat_append_byte, toNat_append_byte]
  simp [List.range_succ, beNat, h, show i < 32 by omega, show i + 1 < 32 by omega, show i + 2 < 32 by omega]
  omega

/-- A string of the right length is kept as it is. -/
theorem fixBytes_toList (n : Nat) (l : List Byte) (h : l.length = n) : (fixBytes n l).toList = l :=
  List.take_left' h

/-- The parameter bytes of a REQUEST stand from byte 5 on (R204). -/
theorem readRequest_params (cell : Cell) (i : Nat) (h : i < 22) : (readRequest cell).params[i] = cell[5 + i] := by
  have hbytes := cellBytes_eq cell 5 22 (by omega)
  have hlist : (readRequest cell).params.toList = cellBytes cell 5 22 := fixBytes_toList 22 _ (by simp [hbytes])
  rw [← Vector.getElem_toList (h := by simpa using h)]
  simp only [hlist, hbytes, List.getElem_map, List.getElem_range]
  exact toList_getD cell _ (by omega)

/-! ## The check (R2), bit by bit -/

/-- A step of the check with one bit fed in. -/
def crcFeed (r : BitVec 16) (bit : Bool) : BitVec 16 := if r.msb = bit then r <<< 1 else (r <<< 1) ^^^ 0x1021

/-- The bits of a byte, the most significant first. -/
def byteBits (b : Byte) : List Bool := (List.range 8).map fun i => b.getLsbD (7 - i)

theorem crcBit_xor (x y : BitVec 16) : crcBit (x ^^^ y) = crcBit x ^^^ crcBit y := by
  unfold crcBit
  rw [BitVec.msb_xor, BitVec.shiftLeft_xor_distrib]
  cases x.msb <;> cases y.msb <;> simp [BitVec.xor_assoc]
  · ac_rfl

theorem crcFeed_eq (r : BitVec 16) (bit : Bool) : crcFeed r bit = crcBit r ^^^ (if bit then 0x1021 else 0) := by
  unfold crcFeed crcBit
  cases r.msb <;> cases bit <;> simp

theorem crcFeed_xor (x y : BitVec 16) (bit : Bool) : crcFeed (x ^^^ y) bit = crcBit x ^^^ crcFeed y bit := by
  rw [crcFeed_eq, crcFeed_eq, crcBit_xor, BitVec.xor_assoc]

theorem crcByte_zero (b : Byte) : crcByte 0 b = (byteBits b).foldl crcFeed 0 := by
  revert b
  decide +kernel

/-- A byte of the check is its eight bits fed one after the other. -/
theorem crcByte_bits (r : BitVec 16) (b : Byte) : crcByte r b = (byteBits b).foldl crcFeed r := by
  have hsplit : (byteBits b).foldl crcFeed (r ^^^ 0) =
      crcBit (crcBit (crcBit (crcBit (crcBit (crcBit (crcBit (crcBit r))))))) ^^^ (byteBits b).foldl crcFeed 0 := by
    simp only [byteBits, List.range_succ, List.range_zero, List.nil_append, List.map_cons, List.map_nil,
      List.cons_append, List.foldl_cons, List.foldl_nil, crcFeed_xor]
  rw [show r ^^^ 0 = r from BitVec.xor_zero] at hsplit
  rw [hsplit, ← crcByte_zero]
  unfold crcByte
  rw [show ∀ x : BitVec 16, 0 ^^^ x = x from fun _ => BitVec.zero_xor]
  simp only [crcBit_xor]

/-- The check of a byte string is all its bits fed in, from a register of all ones. -/
theorem crc16_bits (l : List Byte) : crc16 l = ((l.map byteBits).flatten).foldl crcFeed 0xFFFF := by
  unfold crc16
  generalize (0xFFFF : BitVec 16) = r
  induction l generalizing r with
  | nil => rfl
  | cons b l ih => rw [List.foldl_cons, ih, crcByte_bits, List.map_cons, List.flatten_cons, List.foldl_append]

/-! ## The bytes of a cell that the part sends -/

/-- A sealed cell: its bytes, zeros up to byte 29, and the two bytes of the check. -/
theorem sealCell_toList (body : List Byte) : (sealCell body).toList =
    let filled := (body ++ List.replicate 30 0).take 30
    filled ++ [(crc16 filled).extractLsb' 8 8, (crc16 filled).extractLsb' 0 8] := by
  have two (v : BitVec 16) : natBytes 2 v.toNat = [v.extractLsb' 8 8, v.extractLsb' 0 8] := by
    simp only [natBytes, List.nil_append, List.singleton_append, List.cons.injEq, and_true]
    constructor <;> apply BitVec.eq_of_toNat_eq <;> simp [Nat.shiftRight_eq_div_pow]
  have hf : (fixBytes 30 body).toList = (body ++ List.replicate 30 0).take 30 := rfl
  show (((fixBytes 30 body).toList ++ natBytes 2 (crc16 (fixBytes 30 body).toList).toNat) ++
    List.replicate 32 0).take 32 = _
  rw [two, hf]
  refine List.take_left' ?_
  simp

end Sys2Proof.Machine
end

