-- ==== Sys2Proof/Laws/Memory.lean ====
section
/-! SUPPORT. Table memory: what a byte and a word read after a write, and that every memory operation keeps the
canonical form. -/

namespace Sys2Proof.Machine

/-- A byte read after one byte is set: the byte set, or what was there. -/
theorem memByte_memSet (m : List Host.Cell) (k : Nat) (v : Byte) (j : Nat)
    (h : m.Pairwise (fun x y => x.1 < y.1)) :
    memByte (memSet m k v) j = if k = j then v else memByte m j := by
  induction m with
  | nil =>
    simp only [memSet, memByte]
    split
    · rename_i hv; simp [memByte, hv]
    · simp [memByte]
  | cons e rest ih =>
    obtain ⟨a, b⟩ := e
    have hrest := (List.pairwise_cons.mp h).2
    have hlt := (List.pairwise_cons.mp h).1
    have hmiss : ∀ j, j ≤ a → memByte rest j = memDefault := by
      intro j hj
      clear ih h hrest
      induction rest with
      | nil => rfl
      | cons e' rest' ih' =>
        obtain ⟨a', b'⟩ := e'
        have h1 : a < a' := hlt (a', b') (by simp)
        simp only [memByte]
        rw [if_neg (by omega)]
        exact ih' (fun x hx => hlt x (by simp [hx]))
    unfold memSet
    split
    · rename_i hk
      split
      · rename_i hv
        by_cases hj : k = j
        · subst hj
          have hka : a ≠ k := by omega
          simp [memByte, hka, hmiss k (by omega), hv]
        · simp [hj]
      · by_cases hj : k = j
        · simp [memByte, hj]
        · simp [memByte, hj]
    · split
      · rename_i hk
        subst hk
        split
        · rename_i hv
          by_cases hj : k = j
          · subst hj; simp [hmiss k (by omega), hv]
          · simp [memByte, hj]
        · by_cases hj : k = j
          · simp [memByte, hj]
          · simp [memByte, hj]
      · rename_i hk hk'
        by_cases hja : a = j
        · subst hja
          simp [memByte, hk']
        · simp [memByte, hja, ih hrest]

/-- Every address listed after one byte is set was listed before, or is the address set. -/
theorem mem_memSet (m : List Host.Cell) (k : Nat) (v : Byte) (x : Host.Cell) (hx : x ∈ memSet m k v) :
    x ∈ m ∨ (x = (k, v) ∧ v ≠ memDefault) := by
  induction m with
  | nil =>
    simp only [memSet] at hx
    split at hx <;> simp_all
  | cons e rest ih =>
    obtain ⟨a, b⟩ := e
    unfold memSet at hx
    split at hx
    · split at hx
      · exact .inl hx
      · simp only [List.mem_cons] at hx ⊢
        rcases hx with hx | hx | hx
        · exact .inr ⟨hx, by assumption⟩
        · exact .inl (.inl hx)
        · exact .inl (.inr hx)
    · split at hx
      · split at hx
        · exact .inl (by simp [hx])
        · simp only [List.mem_cons] at hx ⊢
          rcases hx with hx | hx
          · exact .inr ⟨hx, by assumption⟩
          · exact .inl (.inr hx)
      · simp only [List.mem_cons] at hx ⊢
        rcases hx with hx | hx
        · exact .inl (.inl hx)
        · rcases ih hx with h | h
          · exact .inl (.inr h)
          · exact .inr h

/-- Setting one byte keeps the canonical form. -/
theorem memSet_wf (m : List Host.Cell) (k : Nat) (v : Byte) (hk : k < 1048576) (h : Memory.wf m) :
    Memory.wf (memSet m k v) := by
  refine ⟨?_, ?_⟩
  · have hs := h.1
    clear h
    induction m with
    | nil => simp only [memSet]; split <;> simp
    | cons e rest ih =>
      obtain ⟨a, b⟩ := e
      have hlt := (List.pairwise_cons.mp hs).1
      have hrest := (List.pairwise_cons.mp hs).2
      unfold memSet
      split
      · rename_i hka
        split
        · exact hs
        · refine List.pairwise_cons.mpr ⟨?_, hs⟩
          intro x hx
          simp only [List.mem_cons] at hx
          rcases hx with rfl | hx
          · exact hka
          · exact lt_trans hka (hlt x hx)
      · split
        · rename_i hka
          split
          · exact hrest
          · exact List.pairwise_cons.mpr ⟨by intro x hx; rw [hka]; exact hlt x hx, hrest⟩
        · refine List.pairwise_cons.mpr ⟨?_, ih hrest⟩
          intro x hx
          rcases mem_memSet rest k v x hx with hx | ⟨rfl, _⟩
          · exact hlt x hx
          · show a < k
            omega
  · intro x hx
    rcases mem_memSet m k v x hx with hx | ⟨rfl, hv⟩
    · exact h.2 x hx
    · exact ⟨hk, hv⟩

/-- A word write keeps the canonical form. -/
theorem writeWord_wf (m : List Host.Cell) (a : WordAddr) (w : Word) (h : Memory.wf m) :
    Memory.wf (writeWord m a w) := by
  have ha : a.toNat < 262144 := a.isLt
  unfold writeWord
  exact memSet_wf _ _ _ (by omega) (memSet_wf _ _ _ (by omega) (memSet_wf _ _ _ (by omega)
    (memSet_wf _ _ _ (by omega) h)))

/-- Every access keeps the canonical form. -/
theorem Access.effect_wf (x : Access) (m : List Host.Cell) (h : Memory.wf m) : Memory.wf (x.effect m) := by
  unfold Access.effect
  split
  · exact h
  · exact writeWord_wf _ _ _ h
  · split
    · exact writeWord_wf _ _ _ h
    · exact h

/-- Completing an access keeps the canonical form. -/
theorem Tmp.complete_wf (t : Tmp) (x : Access) (h : Memory.wf t.mem) : Memory.wf (t.complete x).mem :=
  Access.effect_wf x t.mem h

/-- Table memory after reset is in canonical form. -/
theorem reset_wf : Memory.wf State.reset.tmp.mem := by decide

/-- A byte read after a word write. -/
theorem memByte_writeWord (m : List Host.Cell) (a : WordAddr) (w : Word) (j : Nat) (h : Memory.wf m) :
    memByte (writeWord m a w) j =
      if 4 * a.toNat + 3 = j then w.extractLsb' 0 8
      else if 4 * a.toNat + 2 = j then w.extractLsb' 8 8
      else if 4 * a.toNat + 1 = j then w.extractLsb' 16 8
      else if 4 * a.toNat = j then w.extractLsb' 24 8
      else memByte m j := by
  have ha : a.toNat < 262144 := a.isLt
  have h1 := memSet_wf m (4 * a.toNat) (w.extractLsb' 24 8) (by omega) h
  have h2 := memSet_wf _ (4 * a.toNat + 1) (w.extractLsb' 16 8) (by omega) h1
  have h3 := memSet_wf _ (4 * a.toNat + 2) (w.extractLsb' 8 8) (by omega) h2
  unfold writeWord
  rw [memByte_memSet _ _ _ _ h3.1, memByte_memSet _ _ _ _ h2.1, memByte_memSet _ _ _ _ h1.1,
    memByte_memSet _ _ _ _ h.1]

/-- The word read after a write of the same word (R173). -/
theorem readWord_writeWord_same (m : List Host.Cell) (a : WordAddr) (w : Word) (h : Memory.wf m) :
    readWord (writeWord m a w) a = w := by
  unfold readWord
  have e0 : memByte (writeWord m a w) (4 * a.toNat) = w.extractLsb' 24 8 := by
    rw [memByte_writeWord _ _ _ _ h, if_neg (by omega), if_neg (by omega), if_neg (by omega), if_pos rfl]
  have e1 : memByte (writeWord m a w) (4 * a.toNat + 1) = w.extractLsb' 16 8 := by
    rw [memByte_writeWord _ _ _ _ h, if_neg (by omega), if_neg (by omega), if_pos rfl]
  have e2 : memByte (writeWord m a w) (4 * a.toNat + 2) = w.extractLsb' 8 8 := by
    rw [memByte_writeWord _ _ _ _ h, if_neg (by omega), if_pos rfl]
  have e3 : memByte (writeWord m a w) (4 * a.toNat + 3) = w.extractLsb' 0 8 := by
    rw [memByte_writeWord _ _ _ _ h, if_pos rfl]
  rw [e0, e1, e2, e3]
  apply BitVec.eq_of_getLsbD_eq
  intro i hi
  simp only [BitVec.getLsbD_append, BitVec.getLsbD_extractLsb']
  by_cases h0 : i < 8
  · simp [h0]
  · by_cases h1 : i < 16
    · have e : 8 + (i - 8) = i := by omega
      have l : i - 8 < 8 := by omega
      simp [h0, l, e]
    · by_cases h2 : i < 24
      · have e : 16 + (i - 8 - 8) = i := by omega
        have l : i - 8 - 8 < 8 := by omega
        have n : ¬ i - 8 < 8 := by omega
        simp [h0, l, n, e]
      · have e : 24 + (i - 8 - 8 - 8) = i := by omega
        have n1 : ¬ i - 8 < 8 := by omega
        have n2 : ¬ i - 8 - 8 < 8 := by omega
        have l : i - 8 - 8 - 8 < 8 := by omega
        simp [h0, n1, n2, l, e]

/-- A word write changes no byte of another word. -/
theorem memByte_writeWord_other (m : List Host.Cell) (a : WordAddr) (w : Word) (j : Nat) (h : Memory.wf m)
    (hj : j / 4 ≠ a.toNat) : memByte (writeWord m a w) j = memByte m j := by
  have apart : ∀ k, k < 4 → 4 * a.toNat + k ≠ j := fun k hk e => hj (by omega)
  rw [memByte_writeWord _ _ _ _ h]
  simp only [apart 3 (by decide), apart 2 (by decide), apart 1 (by decide), ↓reduceIte]
  exact if_neg (apart 0 (by decide))

/-- The word read after a write of another word (R173). -/
theorem readWord_writeWord_other (m : List Host.Cell) (a b : WordAddr) (w : Word) (h : Memory.wf m)
    (hab : a ≠ b) : readWord (writeWord m a w) b = readWord m b := by
  have kept : ∀ k, k < 4 → memByte (writeWord m a w) (4 * b.toNat + k) = memByte m (4 * b.toNat + k) :=
    fun k hk => memByte_writeWord_other m a w _ h fun e => hab (BitVec.eq_of_toNat_eq (by omega))
  have first : memByte (writeWord m a w) (4 * b.toNat) = memByte m (4 * b.toNat) := kept 0 (by decide)
  unfold readWord
  rw [first, kept 1 (by decide), kept 2 (by decide), kept 3 (by decide)]

end Sys2Proof.Machine
end

