-- ==== Sys2Proof/Laws/Resolver.lean ====
section
/-! SUPPORT. What the Resolver's operations do to its cache, and that each keeps the bounds of the Resolver. -/

namespace Sys2Proof.Machine

/-- The cache without the entry that a lookup found is shorter. -/
theorem cacheWithout_length (code : Code) (l : List CacheEntry) (e : CacheEntry) (h : cacheFind code l = some e) :
    (cacheWithout code l).length < l.length := by
  have he := List.mem_of_find?_eq_some h
  have hc := List.find?_some h
  unfold cacheWithout
  refine Nat.lt_of_le_of_ne (List.length_filter_le ..) fun hl => ?_
  have := List.length_filter_eq_length_iff.1 hl e he
  simp at this hc
  exact this hc

/-- The cache without the entry for a code holds no entry for it, and still one at most for each other code. -/
theorem cacheWithout_nodup (code : Code) (l : List CacheEntry) (h : (l.map CacheEntry.code).Nodup) :
    ((cacheWithout code l).map CacheEntry.code).Nodup ∧ code ∉ (cacheWithout code l).map CacheEntry.code := by
  refine ⟨(List.filter_sublist.map _).nodup h, ?_⟩
  simp [cacheWithout]

/-- A cache entry that is no NO_ROOT entry and holds no word address (R56, R66). -/
abbrev CacheEntry.Good (e : CacheEntry) : Prop := ∀ f a, e.outcome = .fault f a → f ≠ .noRoot ∧ a = none

/-- A fill keeps the bounds of the cache (R66, R68). -/
theorem Resolver.fill_ok (r : Resolver) (e : CacheEntry) (h : r.Ok) (hr : r.root ≠ none) (he : CacheEntry.Good e) : (r.fill e).Ok := by
  obtain ⟨h1, h2, h3, h4⟩ := h
  unfold Resolver.fill
  split
  · rename_i e' hf
    have := cacheWithout_length _ _ _ hf
    obtain ⟨a, b⟩ := cacheWithout_nodup e.code r.cache h2
    refine ⟨by simp; omega, by simpa using ⟨by simpa using b, a⟩, ?_, fun hn => absurd hn hr⟩
    intro x hx
    rcases List.mem_cons.1 hx with rfl | hx
    · exact he
    · exact h3 x (List.mem_filter.1 hx).1
  · rename_i hf
    have hn : e.code ∉ r.cache.map CacheEntry.code := by
      intro hm
      obtain ⟨x, hx, hxe⟩ := List.mem_map.1 hm
      have := List.find?_eq_none.1 hf x hx
      simp [hxe] at this
    split
    · refine ⟨by simp; omega, by simpa using ⟨by simpa using hn, h2⟩, ?_, fun hn => absurd hn hr⟩
      intro x hx
      rcases List.mem_cons.1 hx with rfl | hx
      · exact he
      · exact h3 x hx
    · have hs : (r.cache.dropLast).Sublist r.cache := List.dropLast_sublist _
      refine ⟨by simp; omega, ?_, ?_, fun hn => absurd hn hr⟩
      · simp only [List.map_cons, List.nodup_cons]
        exact ⟨fun hm => hn ((hs.map _).mem hm), (hs.map _).nodup h2⟩
      intro x hx
      rcases List.mem_cons.1 hx with rfl | hx
      · exact he
      · exact h3 x (hs.mem hx)

/-- What the cache holds of an outcome that is not NO_ROOT. -/
theorem WalkOutcome.cached_good (code : Code) (o : WalkOutcome) (h : ∀ a, o ≠ .fault .noRoot a) : CacheEntry.Good ⟨code, o.cached⟩ := by
  intro f a hf
  cases o <;> simp [WalkOutcome.cached] at hf
  obtain ⟨rfl, rfl⟩ := hf
  exact ⟨fun e => h _ (by rw [e]), rfl⟩

/-- What the Resolver serves and counts can change without its cache, as long as no walk starts (R56). -/
theorem Resolver.noWalk_ok (r : Resolver) (x : Serving) (k : ResolverCounts) (h : r.Ok) (hx : x.isWalking = false) :
    Resolver.Ok { r with serving := x, counts := k } :=
  ⟨h.1, h.2.1, h.2.2.1, fun noRoot => ⟨(h.2.2.2 noRoot).1, hx⟩⟩

/-- The end of a walk keeps the bounds of the Resolver. -/
theorem Resolver.walkComplete_ok (r : Resolver) (w : Walk) (o : WalkOutcome) (h : r.Ok) (hr : r.root ≠ none)
    (ho : ∀ a, o ≠ .fault .noRoot a) : (r.walkComplete w o).Ok := by
  unfold Resolver.walkComplete
  dsimp only
  split
  · exact Resolver.noWalk_ok _ _ _ (Resolver.fill_ok r _ h hr (WalkOutcome.cached_good w.record.code o ho)) rfl
  · exact Resolver.noWalk_ok r _ _ h rfl

/-- No walk that reads a word stops with NO_ROOT. -/
theorem Walk.after_good (w : Walk) (x : Word) (o : WalkOutcome) (h : w.after x = .stop o) : ∀ a, o ≠ .fault .noRoot a := by
  intro a e
  subst e
  unfold Walk.after at h
  split at h
  · simp at h
  · simp at h
  · split at h <;> simp at h
  · simp only [WalkNext.stop.injEq] at h
    unfold Walk.competitor at h
    split at h <;> simp at h
  · split at h <;> simp at h

/-- A walk that goes on from a word keeps the bounds of the Resolver. -/
theorem Resolver.proceed_ok (r : Resolver) (w : Walk) (x : Word) (h : r.Ok) (hr : r.root ≠ none) :
    (r.proceed w (w.after x)).Ok := by
  unfold Resolver.proceed
  split
  · obtain ⟨h1, h2, h3, h4⟩ := h
    exact ⟨h1, h2, h3, fun hn => absurd hn hr⟩
  · rename_i o ho
    exact Resolver.walkComplete_ok r w o h hr (Walk.after_good w x o ho)

/-- While a walk is in flight a root is set. -/
theorem Resolver.walking_root {r : Resolver} {w : Walk} (h : r.Ok) (hs : r.serving = .walking w) : r.root ≠ none := by
  intro hn
  have := (h.2.2.2 hn).2
  rw [hs] at this; cases this

/-- A word read by a walk keeps the bounds of the Resolver. -/
theorem Resolver.wordRead_ok (r : Resolver) (w : Walk) (x : Word) (h : r.Ok) (hs : r.serving = .walking w) :
    (r.wordRead w x).Ok := by
  have hr := Resolver.walking_root h hs
  unfold Resolver.wordRead
  dsimp only
  split
  · obtain ⟨h1, h2, h3, h4⟩ := h
    exact ⟨h1, h2, h3, fun hn => absurd hn hr⟩
  · exact Resolver.proceed_ok _ w x h hr

/-- A flag update made by a walk keeps the bounds of the Resolver. -/
theorem Resolver.seenUpdated_ok (r : Resolver) (w : Walk) (x : Word) (h : r.Ok) (hs : r.serving = .walking w) :
    (r.seenUpdated w x).Ok := Resolver.proceed_ok _ w x h (Resolver.walking_root h hs)

/-- A cache hit keeps the bounds of the Resolver. -/
theorem Resolver.hit_ok (r : Resolver) (rec : IntakeRec) (e : CacheEntry) (h : r.Ok)
    (hf : cacheFind rec.code r.cache = some e) : (r.hit rec e).Ok := by
  have hc : e.code = rec.code := by simpa using List.find?_some hf
  have hm := List.mem_of_find?_eq_some hf
  obtain ⟨h1, h2, h3, h4⟩ := h
  have l := cacheWithout_length _ _ _ hf
  rw [← hc] at l
  obtain ⟨a, b⟩ := cacheWithout_nodup e.code r.cache h2
  have g : (e :: cacheWithout e.code r.cache).length ≤ 32 := by simp; omega
  have g2 : ((e :: cacheWithout e.code r.cache).map CacheEntry.code).Nodup := by simpa using ⟨by simpa using b, a⟩
  have g3 : ∀ x ∈ e :: cacheWithout e.code r.cache, CacheEntry.Good x := by
    intro x hx
    rcases List.mem_cons.1 hx with rfl | hx
    · exact h3 _ hm
    · exact h3 x (List.mem_filter.1 hx).1
  have hr : r.root ≠ none := fun hn => by rw [(h4 hn).1] at hm; cases hm
  unfold Resolver.hit
  dsimp only
  split <;> exact ⟨g, g2, g3, fun hn => absurd hn hr⟩

/-- The serving of a record keeps the bounds of the Resolver. -/
theorem Resolver.serve_ok (r : Resolver) (rec : IntakeRec) (h : r.Ok) : (r.serve rec).Ok := by
  unfold Resolver.serve
  dsimp only
  split
  · rename_i e hf
    exact Resolver.hit_ok _ rec e h hf
  · unfold Resolver.miss
    split
    · exact Resolver.noWalk_ok r _ _ h rfl
    · rename_i root hroot
      have hroot : r.root = some root := hroot
      exact ⟨h.1, h.2.1, h.2.2.1, fun (noRoot : r.root = none) => by simp [hroot] at noRoot⟩

/-- A flush keeps the bounds of the Resolver. -/
theorem Resolver.flush_ok (r : Resolver) (m : FlushMode) (c : Code) (h : r.Ok) : (r.flush m c).1.Ok := by
  obtain ⟨h1, h2, h3, h4⟩ := h
  refine ⟨(List.length_filter_le ..).trans h1, (List.filter_sublist.map _).nodup h2,
    fun e he => h3 e (List.mem_filter.1 he).1, fun hn => ⟨?_, (h4 hn).2⟩⟩
  have : r.cache = [] := (h4 hn).1
  simp [Resolver.flush, this]

/-- A delivery that is taken keeps the bounds of the Resolver. -/
theorem Resolver.idle_ok (r : Resolver) (k : ResolverCounts) (h : r.Ok) : Resolver.Ok { r with serving := .idle, counts := k } :=
  r.noWalk_ok .idle k h rfl

end Sys2Proof.Machine
end

