-- ==== Sys2Proof/Laws/Ranges.lean ====
section
/-! SUPPORT. The ranges of registers, counts and times under each operation of the blocks. -/

namespace Sys2Proof.Machine

theorem bump_le (n : Nat) : bump n ≤ 65535 := by unfold bump; split <;> omega

theorem bumpBy_le (n k : Nat) : bumpBy n k ≤ 65535 := Nat.min_le_right _ _

theorem bump8_le (n : Nat) : bump8 n ≤ 255 := by unfold bump8; split <;> omega

/-! ## The track clock and the alignment records -/

theorem now_le (s : State) : s.now ≤ topTime := by
  have := s.cau.clock.cycle.isLt
  unfold State.now TrackClock.now topTime
  omega

theorem goodMark_inRange (k : TrackClock) (n : Tick) (h : k.InRange) : (k.goodMark n).1.InRange := by
  have hb := bump_le k.steps
  unfold TrackClock.goodMark TrackClock.adopt
  split <;> dsimp only <;> (try split) <;> (try split) <;> simp_all [TrackClock.InRange, Within]

theorem missingMark_inRange (k : TrackClock) (h : k.InRange) : k.missingMark.1.InRange := by
  have hb := bump_le k.losses
  unfold TrackClock.missingMark
  split
  · exact h
  · split <;> simp_all [TrackClock.InRange, Within]
  · simp_all [TrackClock.InRange, Within]

theorem offSlot_inRange (k : TrackClock) (h : k.InRange) : k.offSlot.InRange := by
  have hb := bump_le k.offSlotBeacons
  unfold TrackClock.offSlot
  split <;> simp_all [TrackClock.InRange, Within]

theorem clampInt_bounds (lo hi v : Int) (h : lo ≤ hi) : lo ≤ clampInt lo hi v ∧ clampInt lo hi v ≤ hi := by
  unfold clampInt; omega

theorem alignBeacon_inRange (r : AlignRec) (tolerance : Nat) (tick : Tick) (b : Nat) (h : r.InRange)
    (hb : b ≤ 4294967295000) : (r.beacon tolerance tick b).1.InRange := by
  have h1 := bump_le r.steps
  have h2 := bump_le r.close
  have h3 := bump_le r.rateFaults
  have h4 := bump_le r.accepted
  obtain ⟨g1, g2, g3, g4, g5⟩ := h
  simp only [Within, List.forall_mem_cons, List.not_mem_nil, false_imp_iff, implies_true, and_true] at g4 g5
  unfold AlignRec.beacon
  split
  · simp_all [AlignRec.anchor, AlignRec.InRange, Within]
  · dsimp only
    split
    · unfold AlignRec.beyond
      split <;> simp_all [AlignRec.anchor, AlignRec.InRange, Within]
    · split
      · simp_all [AlignRec.closeBeacon, AlignRec.InRange, Within]
      · split
        · unfold AlignRec.rateFault
          split <;> simp_all [AlignRec.InRange, Within]
          omega
        · rename_i hm
          have hc := clampInt_bounds (-16384) 16383 (r.rate + roundTies (r.measure tick b - r.rate) 4) (by omega)
          unfold AlignRec.accept
          dsimp only
          split <;> simp_all [AlignRec.anchor, AlignRec.InRange, Within]

theorem resolveCycle_le (now : Tick) (c16 cycle : Nat) (h : resolveCycle now c16 = some cycle) :
    cycle * 1000 ≤ 4294967295000 := by
  have := now.isLt
  unfold resolveCycle at h
  dsimp only at h
  split at h <;> cases h
  omega

theorem convert_le (r : AlignRec) (tick : Tick) : (r.convert tick).1 ≤ topTime := by
  unfold AlignRec.convert maxTime topTime
  dsimp only
  split
  · exact Nat.zero_le _
  · split
    · show ((4294967295999 : Int).toNat) ≤ _; decide
    · show (r.predict tick).toNat ≤ _; omega

/-! ## Intake -/

theorem discard_inRange (k : IntakeCounts) (d : Discard) (h : k.InRange) : (k.discard d).InRange := by
  have hb := bump_le
  cases d <;> simp_all [IntakeCounts.discard, IntakeCounts.InRange, Within]

theorem upd_inRange {α : Type} {n : Nat} (P : α → Prop) (v : Vector α n) (i : Fin n) (f : α → α) (h : ∀ j : Fin n, P v[j])
    (hf : P (f v[i])) (j : Fin n) : P (upd v i f)[j] := by
  rw [upd_eq_set, set_get]
  split
  · exact hf
  · exact h j

theorem set_inRange {α : Type} {n : Nat} (P : α → Prop) (v : Vector α n) (i : Fin n) (x : α) (h : ∀ j : Fin n, P v[j])
    (hx : P x) (j : Fin n) : P (v.set i x)[j] := by
  rw [set_get]
  split
  · exact hx
  · exact h j

theorem offer_inRange (q : Intake) (r : IntakeRec) (h : q.InRange) (hr : r.time ≤ topTime) : (q.offer r).1.InRange := by
  obtain ⟨h1, h2, h3⟩ := h
  have hb := bump_le
  unfold Intake.offer
  split
  · refine ⟨fun x hx => ?_, h2, fun l => upd_inRange IntakeCounts.InRange _ _ _ h3 ?_ l⟩
    · rcases List.mem_append.1 hx with hx | hx
      · exact h1 x hx
      · rw [List.mem_singleton.1 hx]; exact hr
    · have := h3 r.loop
      unfold IntakeCounts.accept
      split <;> simp_all [IntakeCounts.InRange, Within]
  · dsimp only
    have hu : ∀ l : LoopNo, IntakeCounts.InRange
        (upd q.counts r.loop fun k => { k with overflowed := bump k.overflowed })[l] := by
      refine fun l => upd_inRange IntakeCounts.InRange _ _ _ h3 ?_ l
      have := h3 r.loop
      simp_all [IntakeCounts.InRange, Within]
    split
    · exact ⟨h1, h2, hu⟩
    · refine ⟨h1, ?_, hu⟩
      simp_all [Within]

theorem removed_inRange (q : Intake) (now : Tick) (r : IntakeRec) (rest : List IntakeRec) (hq : q.queue = r :: rest)
    (h : q.InRange) : (q.removed now r rest).InRange := by
  obtain ⟨h1, h2, h3⟩ := h
  refine ⟨fun x hx => h1 x (by rw [hq]; exact List.mem_cons_of_mem _ hx), ?_, h3⟩
  have : min (queueWait now r.arrival) 65535 ≤ 65535 := Nat.min_le_right _ _
  simp_all [Within, Intake.removed]

/-! ## The Resolver -/

theorem fill_inRange (r : Resolver) (e : CacheEntry) (h : r.InRange) : (r.fill e).InRange := by
  have hb := bump_le
  obtain ⟨h1, h2⟩ := h
  unfold Resolver.fill
  split
  · refine ⟨h1, ?_⟩; simp_all [ResolverCounts.InRange, Within]
  · split <;> refine ⟨h1, ?_⟩ <;> simp_all [ResolverCounts.InRange, Within]

theorem walkComplete_inRange (r : Resolver) (w : Walk) (o : WalkOutcome) (hw : w.record.time ≤ topTime) (h : r.InRange) :
    (r.walkComplete w o).InRange := by
  have hb := bump_le
  have hs : ∀ x, Serving.record? (.delivering w.record o) = some x → x.time ≤ topTime := by
    intro x hx; cases hx; exact hw
  unfold Resolver.walkComplete
  dsimp only
  split
  · exact ⟨hs, (fill_inRange r _ h).2⟩
  · refine ⟨hs, ?_⟩
    have := h.2
    simp_all [ResolverCounts.InRange, Within]

theorem after_record (w w' : Walk) (x : Word) (h : w.after x = .go w') : w'.record = w.record := by
  unfold Walk.after at h
  split at h
  · cases h
  · cases h
  · split at h <;> cases h <;> rfl
  · cases h
  · split at h <;> cases h <;> rfl

theorem proceed_inRange (r : Resolver) (w : Walk) (x : Word) (hw : w.record.time ≤ topTime) (h : r.InRange) :
    (r.proceed w (w.after x)).InRange := by
  rcases ha : w.after x with w' | o
  · refine ⟨fun y hy => ?_, h.2⟩
    have hy' : some w'.record = some y := hy
    cases hy'
    rw [after_record w w' x ha]; exact hw
  · exact walkComplete_inRange r w o hw h

theorem wordRead_inRange (r : Resolver) (w : Walk) (x : Word) (hs : r.serving = .walking w) (h : r.InRange) :
    (r.wordRead w x).InRange := by
  have hb := bump_le
  have hw : w.record.time ≤ topTime := h.1 _ (by rw [hs]; rfl)
  have hc : ResolverCounts.InRange { r.counts with reads := bump r.counts.reads } := by
    have := h.2
    simp_all [ResolverCounts.InRange, Within]
  unfold Resolver.wordRead
  dsimp only
  split
  · exact ⟨fun y hy => by cases hy; exact hw, hc⟩
  · exact proceed_inRange _ w x hw ⟨h.1, hc⟩

theorem seenUpdated_inRange (r : Resolver) (w : Walk) (x : Word) (hs : r.serving = .walking w) (h : r.InRange) :
    (r.seenUpdated w x).InRange := by
  have hb := bump_le
  have hc : ResolverCounts.InRange { r.counts with seenUpdates := bump r.counts.seenUpdates } := by
    have := h.2
    simp_all [ResolverCounts.InRange, Within]
  exact proceed_inRange { r with counts := { r.counts with seenUpdates := bump r.counts.seenUpdates } } w x
    (h.1 _ (by rw [hs]; rfl)) ⟨h.1, hc⟩

theorem serve_inRange (r : Resolver) (x : IntakeRec) (hx : x.time ≤ topTime) (h : r.InRange) : (r.serve x).InRange := by
  have hb := bump_le
  have h2 := h.2
  unfold Resolver.serve
  dsimp only
  split
  · unfold Resolver.hit
    dsimp only
    split <;> refine ⟨fun y hy => ?_, ?_⟩ <;> first
      | (cases hy; exact hx)
      | cases hy
      | simp_all [ResolverCounts.InRange, Within]
  · unfold Resolver.miss
    split <;> refine ⟨fun y hy => (by cases hy; exact hx), ?_⟩ <;> simp_all [ResolverCounts.InRange, Within]

theorem fault_inRange (k : ResolverCounts) (f : FaultCode) (h : k.InRange) : (k.fault f).InRange := by
  have hb := bump_le
  cases f <;> simp_all [ResolverCounts.fault, ResolverCounts.InRange, Within]

/-! ## The Settle Pool -/

theorem setList_inRange (p : Settle) (c : CompNo) (l : List Pending) (h : p.InRange) (hl : ∀ e ∈ l, e.time ≤ topTime) :
    (p.setList c l).InRange :=
  ⟨h.1, h.2.1, fun d => set_inRange (fun l : List Pending => ∀ e ∈ l, e.time ≤ topTime) _ _ _ h.2.2.1 hl d, h.2.2.2⟩

theorem settleCounts_inRange (p : Settle) (k : SettleCounts) (h : p.InRange) (hk : k.InRange) :
    Settle.InRange { p with counts := k } := ⟨h.1, h.2.1, h.2.2.1, hk⟩

theorem expire_inRange (p : Settle) (c : CompNo) (now : Nat) (h : p.InRange) :
    (p.expire c now).1.InRange ∧ ∀ a ∈ (p.expire c now).2, a.passing.time ≤ topTime := by
  refine ⟨settleCounts_inRange _ _ (setList_inRange p c _ h fun e he => h.2.2.1 c e ?_) ?_, fun a ha => ?_⟩
  · exact (List.dropWhile_sublist _).subset he
  · have := h.2.2.2
    have hb := bumpBy_le
    simp_all [SettleCounts.InRange, Within, Settle.setList]
  · simp only [Settle.expire, List.mem_map] at ha
    obtain ⟨e, he, rfl⟩ := ha
    exact h.2.2.1 c e ((List.takeWhile_sublist _).subset he)

theorem expireHead_inRange (p : Settle) (c : CompNo) (e : Pending) (rest : List Pending) (hl : p.lists[c] = e :: rest)
    (h : p.InRange) : (p.expireHead c rest).InRange := by
  refine settleCounts_inRange _ _ (setList_inRange p c rest h fun x hx =>
    h.2.2.1 c x (by rw [hl]; exact List.mem_cons_of_mem _ hx)) ?_
  have := h.2.2.2
  have hb := bump_le
  simp_all [SettleCounts.InRange, Within, Settle.setList]

theorem merged_inRange (k : SettleCounts) (p e : Pending) (h : k.InRange) : (k.merged p e).InRange := by
  have h1 := bump_le k.merges
  have h2 := bump_le k.backupOverruled
  simp only [SettleCounts.merged, SettleCounts.InRange, Within, List.forall_mem_cons] at h ⊢
  split <;> tauto

/-- A chain of merges makes no time that was not there, and its counts stay in range. -/
theorem mergeChain_inRange (band fuel : Nat) (p : Pending) (l : List Pending) (k : SettleCounts)
    (hp : p.time ≤ topTime) (hl : ∀ e ∈ l, e.time ≤ topTime) (hk : k.InRange) :
    (∀ e ∈ (mergeChain band fuel p l k).1, e.time ≤ topTime) ∧ (mergeChain band fuel p l k).2.InRange := by
  have hplace : ∀ (p : Pending) (l : List Pending), p.time ≤ topTime → (∀ e ∈ l, e.time ≤ topTime) →
      ∀ e ∈ placePending p l, e.time ≤ topTime := by
    intro p l hp hl e he
    rcases List.mem_cons.1 ((placePending_perm p l).mem_iff.1 he) with rfl | he
    · exact hp
    · exact hl e he
  induction fuel generalizing p l k with
  | zero => exact ⟨hplace p l hp hl, hk⟩
  | succ fuel ih =>
    unfold mergeChain
    split
    · exact ⟨hplace p l hp hl, hk⟩
    · rename_i e he
      have hm := List.mem_of_find?_eq_some he
      refine ih _ _ _ ?_ (fun x hx => hl x (List.mem_of_mem_erase hx)) ?_
      · rcases mergeWith_time p e with h | h <;> rw [h]
        · exact hp
        · exact hl e hm
      · exact merged_inRange k p e hk

theorem settleTaken_inRange (p : Settle) (c : CompNo) (band now : Nat) (q : Pending) (hq : q.time ≤ topTime) (h : p.InRange) :
    (p.taken c band now q).settle.InRange ∧ ∀ a ∈ (p.taken c band now q).apply, a.passing.time ≤ topTime := by
  have hb := bump_le
  have hbb := bumpBy_le
  have hk := h.2.2.2
  have hl := h.2.2.1 c
  have hplace : ∀ l : List Pending, (∀ e ∈ l, e.time ≤ topTime) → ∀ e ∈ placePending q l, e.time ≤ topTime := by
    intro l hl e he
    rcases List.mem_cons.1 ((placePending_perm q l).mem_iff.1 he) with rfl | he
    · exact hq
    · exact hl e he
  have hp : Settle.InRange { p with nextOrder := p.nextOrder + 1 } := h
  unfold Settle.taken
  dsimp only
  generalize hp' : ({ p with nextOrder := p.nextOrder + 1 } : Settle) = p' at hp
  have hl' : ∀ e ∈ p'.lists[c], e.time ≤ topTime := hp.2.2.1 c
  have hk' : p'.counts.InRange := hp.2.2.2
  have hbypass : (p'.bypass c q).1.InRange ∧ ∀ a ∈ (p'.bypass c q).2, a.passing.time ≤ topTime := by
    refine ⟨settleCounts_inRange _ _ (setList_inRange p' c _ hp fun e he =>
      hl' e ((List.dropWhile_sublist _).subset he)) ?_, fun a ha => ?_⟩
    · simp_all [SettleCounts.InRange, Within, Settle.setList]
    · simp only [Settle.bypass, List.mem_map, List.mem_append, List.mem_singleton] at ha
      obtain ⟨e, he | rfl, rfl⟩ := ha
      · exact hl' e ((List.takeWhile_sublist _).subset he)
      · exact hq
  have hinsert : (p'.insert c now q).1.InRange ∧ ∀ a ∈ (p'.insert c now q).2, a.passing.time ≤ topTime := by
    refine expire_inRange _ c now (settleCounts_inRange _ _ ?_ ?_)
    · obtain ⟨a, b, d, e⟩ := setList_inRange p' c _ hp (hplace _ hl')
      refine ⟨a, ?_, d, e⟩
      show max _ _ ≤ _
      have : (p'.setList c (placePending q p'.lists[c])).heldCount ≤ 256 := Nat.sub_le _ _
      omega
    · simp_all [SettleCounts.InRange, Within, Settle.setList, Settle.marked]
  unfold Settle.keep
  split
  · obtain ⟨a, b⟩ := mergeChain_inRange band 7 q p'.lists[c] p'.counts hq hl' hk'
    exact expire_inRange _ c now (settleCounts_inRange _ _ (setList_inRange p' c _ hp a) b)
  · unfold Settle.enroll
    split
    · rename_i e rest he
      split
      · have hc : SettleCounts.InRange { p'.counts with forcedFull := bump p'.counts.forcedFull } := by
          simp_all [SettleCounts.InRange, Within]
        unfold Settle.force
        dsimp only
        rw [he] at hl'
        split
        · refine ⟨settleCounts_inRange _ _ (setList_inRange p' c _ hp (hplace _ fun x hx =>
            hl' x (List.mem_cons_of_mem _ hx))) hc, fun a ha => ?_⟩
          rw [List.mem_singleton.1 ha]
          exact hl' e List.mem_cons_self
        · refine ⟨settleCounts_inRange _ _ hp hc, fun a ha => ?_⟩
          rw [List.mem_singleton.1 ha]
          exact hq
      · split
        · exact hbypass
        · exact hinsert
    · split
      · exact hbypass
      · exact hinsert

/-- A taking keeps Settle in range, and what it hands over carries times in range. -/
theorem settleTake_inRange (p : Settle) (session : SessionState) (rec : Competitor) (info : LineInfo) (now : Nat)
    (r : Resolved) (hr : r.record.time ≤ topTime) (h : p.InRange) :
    let t := p.take session rec info now r
    t.settle.InRange ∧ (∀ a ∈ t.apply, a.passing.time ≤ topTime) ∧ ∀ x ∈ t.results, x.time ≤ topTime := by
  have hb := bump_le
  have hk := h.2.2.2
  have htaken := settleTaken_inRange p r.comp info.deadBand now (r.pending info p.nextOrder) hr h
  unfold Settle.take
  dsimp only
  split
  · refine ⟨settleCounts_inRange _ _ h ?_, by simp, by simp⟩
    simp_all [SettleCounts.InRange, Within]
  · split
    · refine ⟨settleCounts_inRange _ _ h ?_, by simp, ?_⟩
      · simp_all [SettleCounts.InRange, Within]
      · intro x hx; rw [List.mem_singleton.1 hx]; exact hr
    · unfold Settle.test
      split
      · exact ⟨htaken.1, htaken.2, by intro x hx; cases hx⟩
      · split
        · refine ⟨settleCounts_inRange _ _ h ?_, by simp, ?_⟩
          · simp_all [SettleCounts.InRange, Within]
          · intro x hx; rw [List.mem_singleton.1 hx]; exact hr
        · split
          · refine ⟨settleCounts_inRange _ _ h ?_, by simp, by simp⟩
            simp_all [SettleCounts.InRange, Within]
          · exact ⟨htaken.1, htaken.2, by intro x hx; cases hx⟩

theorem discardList_inRange (p : Settle) (c : CompNo) (h : p.InRange) : (p.discardList c).InRange := by
  refine settleCounts_inRange _ _ (setList_inRange p c [] h (by simp)) ?_
  have := h.2.2.2
  have hb := bumpBy_le
  simp_all [SettleCounts.InRange, Within, Settle.setList]

theorem emptied_inRange (p : Settle) (h : p.InRange) : p.emptied.InRange :=
  ⟨h.1, h.2.1, fun c e he => by simp [Settle.emptied] at he, h.2.2.2⟩

theorem closed_inRange (p : Settle) (h : p.InRange) : p.closed.InRange := by
  refine settleCounts_inRange _ _ (emptied_inRange p h) ?_
  have := h.2.2.2
  have hb := bumpBy_le
  simp_all [SettleCounts.InRange, Within]

/-! ## The Competitor Engine -/

theorem optWithin_none (n : Nat) : OptWithin n none := fun _ h => by cases h

theorem optWithin_some {n v : Nat} (h : v ≤ n) : OptWithin n (some v) := fun _ e => by
  cases e; exact h

/-- The work of an application with every number in its range. -/
abbrev Work.InRange (w : Work) : Prop :=
  w.car.InRange ∧ w.order.InRange ∧ w.counts.InRange ∧ ∀ r ∈ w.results, r.time ≤ topTime

theorem emit_inRange (w : Work) (r : Result) (hr : r.time ≤ topTime) (h : w.InRange) : (w.emit r).InRange := by
  refine ⟨h.1, h.2.1, h.2.2.1, fun x hx => ?_⟩
  rcases List.mem_append.1 hx with hx | hx
  · exact h.2.2.2 x hx
  · rw [List.mem_singleton.1 hx]; exact hr

theorem pitMove_inRange (w : Work) (r : Result) (hr : r.time ≤ topTime) (h : w.InRange) : (w.pitMove r).InRange := by
  refine emit_inRange _ r hr ⟨h.1, h.2.1, ?_, h.2.2.2⟩
  have := h.2.2.1
  have hb := bump_le
  simp_all [EngineCounts.InRange, Within]

/-- The pit registers change alone: the state, the count of stops, the entry time and the pit marks. -/
theorem pitRegisters_inRange (r : Competitor) (state : CompState) (stops : Nat) (entry : Option Nat) (lap sector : Bool)
    (h : r.InRange) (hs : stops ≤ 255) (he : OptWithin topTime entry) : Competitor.InRange { r with
      state := state, pitCount := stops, pitEntry := entry, lapPit := lap, sectorPit := sector } := by
  obtain ⟨⟨race, kind, laps, _, crossing⟩, ⟨point, start, applied, _, best⟩, tables⟩ := h
  exact ⟨⟨race, kind, laps, hs, crossing⟩, ⟨point, start, applied, he, best⟩, tables⟩

theorem pitSteps_inRange (x : Ctx) (w : Work) (ht : x.passing.time ≤ topTime) (h : w.InRange) : (x.pitSteps w).InRange := by
  have hb := bump8_le w.car.pitCount
  obtain ⟨hcar, h2⟩ := h
  have hin : (w.car.pitIn x.passing.time).InRange := pitRegisters_inRange w.car .inPit _ _ _ _ hcar hb (optWithin_some ht)
  have hout : w.car.pitOut.InRange :=
    pitRegisters_inRange w.car .onTrack _ _ _ _ hcar hcar.1.2.2.2.1 (optWithin_none _)
  have hseen : w.car.pitSeen.InRange :=
    pitRegisters_inRange w.car w.car.state _ _ _ _ hcar hb hcar.2.1.2.2.2.1
  unfold Ctx.pitSteps
  split
  · rename_i w' he
    unfold Ctx.pitStep at he
    split at he <;> cases he
    · exact pitMove_inRange _ _ ht ⟨hin, h2⟩
    · exact pitMove_inRange _ _ ht (pitMove_inRange _ _ ht ⟨hin, h2⟩)
    · exact pitMove_inRange _ _ ht ⟨hout, h2⟩
    · exact pitMove_inRange _ _ ht ⟨hseen, h2⟩
  · unfold Ctx.inferPit
    split
    · exact pitMove_inRange _ _ ht ⟨hin, h2⟩
    · exact pitMove_inRange _ _ ht ⟨hout, h2⟩
    · exact pitMove_inRange _ _ ht ⟨hout, h2⟩
    · exact ⟨hcar, h2⟩

theorem trapSet_inRange (r : Competitor) (i : Fin 4) (b : Option TrapStart) (hb : OptWithin topTime (b.map TrapStart.time))
    (h : r.InRange) : Competitor.InRange { r with trapStarts := r.trapStarts.set i b } := by
  obtain ⟨numbers, times, sectors, best, traps⟩ := h
  exact ⟨numbers, times, sectors, best,
    set_inRange (fun b : Option TrapStart => OptWithin topTime (b.map TrapStart.time)) _ _ _ traps hb⟩

theorem trapEntry_inRange (x : Ctx) (w : Work) (i : Fin 4) (ht : x.passing.time ≤ topTime) (h : w.InRange) :
    (x.trapEntry w i).InRange := by
  have hend : ∀ t, (x.trapEnd i t w).InRange := by
    intro t
    unfold Ctx.trapEnd
    split
    · exact h
    · have hw : Work.InRange { w with car := { w.car with trapStarts := w.car.trapStarts.set i none } } :=
        ⟨trapSet_inRange _ _ _ (optWithin_none _) h.1, h.2⟩
      dsimp only
      split
      · exact emit_inRange _ _ ht hw
      · refine ⟨hw.1, hw.2.1, ?_, hw.2.2.2⟩
        have := h.2.2.1
        have hb := bump_le
        simp_all [EngineCounts.InRange, Within]
  have hbegin : ∀ w : Work, w.InRange → (x.trapBegin i w).InRange := fun w h =>
    ⟨trapSet_inRange _ _ _ (optWithin_some ht) h.1, h.2⟩
  unfold Ctx.trapEntry
  split
  · exact h
  · dsimp only
    split
    · refine hbegin _ ?_
      split
      · exact hend _
      · exact h
    · split
      · exact hend _
      · exact h

theorem trapStep_inRange (x : Ctx) (w : Work) (ht : x.passing.time ≤ topTime) (h : w.InRange) : (x.trapStep w).InRange := by
  unfold Ctx.trapStep
  generalize allFin 4 = l
  induction l generalizing w with
  | nil => exact h
  | cons i l ih => exact ih _ (trapEntry_inRange x w i ht h)

theorem enter_inRange (r : Competitor) (time : Nat) (q : Quality) (neutral : Bool) (ht : time ≤ topTime) (h : r.InRange) :
    (r.enter time q neutral).InRange := by
  obtain ⟨⟨race, kind, _, pits, _⟩, ⟨_, _, old⟩, tables⟩ := h
  exact ⟨⟨race, kind, Nat.zero_le _, pits, ht⟩, ⟨optWithin_some ht, optWithin_some ht, old⟩, tables⟩

theorem placed_time (r : Result) (o : Order) (rs : Records) (c : CompNo) : (r.placed o rs c).time = r.time := by
  unfold Result.placed; split <;> rfl

theorem closeSector_inRange (x : Ctx) (w : Work) (lp : LastPoint) (s : Nat) (ht : x.passing.time ≤ topTime) (h : w.InRange) :
    (x.closeSector w lp s).InRange := by
  obtain ⟨⟨numbers, times, sectors, best, traps⟩, horder, hcounts, hresults⟩ := h
  have hd : x.passing.time - lp.time ≤ topTime := by omega
  have hclear : ∀ (l : List Nat) (v : Vector (Option SectorTime) 16),
      (∀ i : PointNo, OptWithin topTime (v[i].map SectorTime.time)) → ∀ i : PointNo, OptWithin topTime
        ((l.foldl (fun v j => match finOf? 16 ((lp.point.val + j) % x.course.count) with
          | some i => v.set i .none | .none => v) v)[i].map SectorTime.time) := by
    intro l
    induction l with
    | nil => exact fun v hv => hv
    | cons j l ih =>
      intro v hv
      refine ih _ fun i => ?_
      dsimp only
      split
      · exact set_inRange (fun b : Option SectorTime => OptWithin topTime (b.map SectorTime.time)) _ _ _ hv
          (optWithin_none _) i
      · exact hv i
  unfold Ctx.closeSector
  refine emit_inRange _ _ ht ⟨⟨numbers, times, ?_, ?_, traps⟩, horder, ?_, hresults⟩
  · show ∀ i : PointNo, OptWithin topTime ((x.sectorTable w lp s)[i].map SectorTime.time)
    unfold Ctx.sectorTable
    split
    · exact set_inRange (fun b : Option SectorTime => OptWithin topTime (b.map SectorTime.time)) _ _ _ sectors
        (optWithin_some hd)
    · exact hclear _ _ sectors
  · dsimp only
    split
    · exact set_inRange (OptWithin topTime) _ _ _ best (optWithin_some hd)
    · exact best
  · dsimp only
    split
    · exact hcounts
    · have hb := bump_le
      simp_all [EngineCounts.InRange, Within]

theorem completeLap_inRange (x : Ctx) (w : Work) (inferred : Bool) (ht : x.passing.time ≤ topTime) (h : w.InRange) :
    (x.completeLap w inferred).InRange := by
  obtain ⟨⟨⟨race, kind, _, pits, _⟩, ⟨point, _, marks⟩, tables⟩, horder, hcounts, hresults⟩ := h
  have hlap : bump w.car.laps ≤ 65535 := bump_le _
  have hbest : ∀ t b c, x.lapBests w inferred = some (t, b, c) → t ≤ topTime := by
    intro t b c hb
    unfold Ctx.lapBests Ctx.lapTime at hb
    split at hb
    · cases hb
    · rename_i u hu
      split at hb <;> cases hb
      split at hu
      · cases hu
      · rcases hs : w.car.lapStart with _ | y <;> simp [hs] at hu
        omega
  have hempty : ∀ i : PointNo, OptWithin topTime
      ((Vector.replicate 16 (none : Option SectorTime))[i].map SectorTime.time) := by
    intro i v hv
    simp at hv
  unfold Ctx.completeLap
  refine emit_inRange _ _ (by rw [placed_time]; exact ht) ⟨?_, ?_, ?_, hresults⟩
  · have hr : ∀ f, (x.lapRecord w inferred f).InRange := by
      intro f
      refine ⟨⟨race, kind, hlap, pits, ht⟩, ⟨point, ?_, marks⟩, tables⟩
      show OptWithin topTime (if inferred = true then none else some x.passing.time)
      split
      · exact optWithin_none _
      · exact optWithin_some ht
    have hw : ∀ (r : Competitor) (q : Quality) (n : Bool), r.InRange → (r.newLap q n).InRange :=
      fun r q n ⟨numbers, times, _, rest⟩ => ⟨numbers, times, hempty, rest⟩
    refine hw _ _ _ ?_
    have hrec := hr (w.chequer.answer w.order.list.head? x.comp).1
    unfold Competitor.withBest
    split
    · rename_i t c hb
      obtain ⟨numbers, ⟨point, start, applied, pit, _⟩, rest⟩ := hrec
      exact ⟨numbers, ⟨point, start, applied, pit, optWithin_some (hbest t _ _ hb), optWithin_some hlap⟩, rest⟩
    all_goals exact hrec
  · dsimp only
    unfold Order.withBest
    split
    · rename_i t c hb
      exact ⟨optWithin_some (hbest t _ _ hb), optWithin_some hlap⟩
    all_goals exact horder
  · dsimp only
    split
    · have hb := bump_le
      simp_all [EngineCounts.InRange, Within]
    · exact hcounts

theorem courseStep_inRange (x : Ctx) (w : Work) (q : PointNo) (ht : x.passing.time ≤ topTime) (h : w.InRange) :
    (x.courseStep w q).InRange := by
  unfold Ctx.courseStep
  split
  · split
    · obtain ⟨⟨numbers, ⟨_, _, marks⟩, tables⟩, work⟩ := h
      refine ⟨⟨numbers, ⟨optWithin_some ht, ?_, marks⟩, tables⟩, work⟩
      show OptWithin topTime (if q = 0 then some x.passing.time else none)
      split
      · exact optWithin_some ht
      · exact optWithin_none _
    · rename_i lp _
      have hc := closeSector_inRange x w lp (skipped x.course.count lp.point q) ht h
      unfold Ctx.measured
      dsimp only
      split
      · exact completeLap_inRange x _ false ht hc
      · split
        · exact completeLap_inRange x _ true ht hc
        · exact hc
  · split
    · refine emit_inRange _ _ (by rw [placed_time]; exact ht)
        ⟨enter_inRange _ _ _ _ ht h.1, h.2.1, ?_, h.2.2.2⟩
      have := h.2.2.1
      have hb := bump_le
      simp_all [EngineCounts.InRange, Within]
    · exact h

theorem applied_inRange (r : Competitor) (p : Pending) (ht : p.time ≤ topTime) (h : r.InRange) : (r.applied p).InRange := by
  obtain ⟨numbers, ⟨point, start, _, old⟩, tables⟩ := h
  exact ⟨numbers, ⟨point, start, optWithin_some ht, old⟩, tables⟩

theorem finalStep_inRange (x : Ctx) (w : Work) (q : Option PointNo) (ht : x.passing.time ≤ topTime) (h : w.InRange) :
    (x.finalStep w q).InRange := by
  have hb := bump_le
  have hw : Work.InRange (if w.results.isEmpty then w.emit (x.pass w q) else w) := by
    split
    · exact emit_inRange _ _ ht h
    · exact h
  unfold Ctx.finalStep
  refine ⟨applied_inRange _ _ ht ?_, hw.2.1, ?_, hw.2.2.2⟩
  · obtain ⟨numbers, ⟨_, old⟩, tables⟩ := hw.1
    refine ⟨numbers, ⟨?_, old⟩, tables⟩
    show OptWithin topTime ((x.lastPointAfter w q).map LastPoint.time)
    unfold Ctx.lastPointAfter
    split
    · split
      · exact optWithin_some ht
      · exact h.1.2.1.1
    · exact h.1.2.1.1
  · have hc := hw.2.2.1
    dsimp only
    generalize (if w.results.isEmpty then w.emit (x.pass w q) else w) = v at hc ⊢
    simp_all [EngineCounts.InRange, Within]

/-- An application keeps its work in range, and every result that it makes carries a time in range. -/
theorem apply_inRange (x : Ctx) (w : Work) (ht : x.passing.time ≤ topTime) (h : w.InRange) : (x.apply w).InRange := by
  have hb := bump_le
  unfold Ctx.apply
  split
  · unfold Ctx.applyFull
    dsimp only
    split
    · refine emit_inRange _ _ ht ⟨h.1, h.2.1, ?_, h.2.2.2⟩
      have := h.2.2.1
      simp_all [EngineCounts.InRange, Within]
    · refine finalStep_inRange x _ _ ht ?_
      have hw := trapStep_inRange x _ ht (pitSteps_inRange x w ht h)
      split
      · exact courseStep_inRange x _ _ ht hw
      · exact hw
  · refine emit_inRange _ _ ht ⟨applied_inRange _ _ ht h.1, h.2.1, ?_, h.2.2.2⟩
    have := h.2.2.1
    simp_all [EngineCounts.InRange, Within]

theorem received_inRange (k : EngineCounts) (a : ApplyKind) (h : k.InRange) : (k.received a).InRange := by
  have hb := bump_le
  cases a <;> simp_all [EngineCounts.received, EngineCounts.InRange, Within]

theorem State.apply_inRange (s : State) (a : Application) (ha : a.passing.time ≤ topTime) (he : s.engine.InRange)
    (ho : s.order.InRange) : (s.apply a).engine.InRange ∧ (s.apply a).order.InRange ∧
      ∃ rs : List Result, (∀ r ∈ rs, r.time ≤ topTime) ∧ (s.apply a).publisher = s.publisher.takeAll s.now rs := by
  have h := Machine.apply_inRange (s.ctx a) (s.work a) ha
    ⟨he.1 a.comp, ho, received_inRange _ _ he.2.2, fun r hr => by cases hr⟩
  exact ⟨⟨set_inRange Competitor.InRange _ _ _ he.1 h.1, he.2.1, h.2.2.1⟩, h.2.1, _, h.2.2.2, rfl⟩

/-! ## The Result Publisher -/

theorem startWriter_inRange (p : Publisher) (h : p.InRange) : p.startWriter.InRange := by
  unfold Publisher.startWriter
  split
  · split <;> exact h
  · exact h

theorem publish_inRange (p : Publisher) (r : Result) (hr : r.time ≤ topTime) (h : p.InRange) : (p.publish r).InRange := by
  have hb := bump_le
  obtain ⟨h1, h2, h3, h4, h5, h6⟩ := h
  have hq : ∀ (l : List Result) (k : Option (BitVec 16)), (∀ x ∈ l, x.time ≤ topTime) →
      ∀ x ∈ l ++ [{ r with sequence := k }], x.time ≤ topTime := by
    intro l k hl x hx
    rcases List.mem_append.1 hx with hx | hx
    · exact hl x hx
    · rw [List.mem_singleton.1 hx]; exact hr
  have hn : (p.number { r with sequence := some p.sequence }).InRange := by
    refine ⟨h1, ?_, h3, h4, h5, ?_⟩
    · unfold Publisher.number
      dsimp only
      split <;> simp_all [PublisherCounts.InRange, Within]
    · unfold Publisher.number
      dsimp only
      split
      · exact hq _ _ h6
      · exact h6
  unfold Publisher.publish
  dsimp only
  split
  · exact startWriter_inRange _ ⟨hn.1, hn.2.1, hn.2.2.1, hn.2.2.2.1, hq _ _ h5, hn.2.2.2.2.2⟩
  · exact startWriter_inRange _ hn

theorem give_inRange (p : Publisher) (r : Result) (hr : r.time ≤ topTime) (h : p.InRange) : (p.give r).InRange := by
  unfold Publisher.give
  split
  · exact publish_inRange p r hr h
  · refine ⟨h.1, h.2.1, h.2.2.1, fun x hx => ?_, h.2.2.2.2⟩
    rcases List.mem_append.1 hx with hx | hx
    · exact h.2.2.2.1 x hx
    · rw [List.mem_singleton.1 hx]; exact hr

theorem alert_inRange (p : Publisher) (r : Result) (hr : r.time ≤ topTime) (h : p.InRange) : (p.alert r).InRange := by
  unfold Publisher.alert
  split
  · exact give_inRange p r hr h
  · refine ⟨h.1, ?_, h.2.2⟩
    have := h.2.1
    have hb := bump_le
    simp_all [PublisherCounts.InRange, Within]

theorem alerts_inRange (rs : List Result) (p : Publisher) (hr : ∀ r ∈ rs, r.time ≤ topTime) (h : p.InRange) :
    (p.alerts rs).InRange := by
  unfold Publisher.alerts
  induction rs generalizing p with
  | nil => exact h
  | cons r rs ih => exact ih _ (fun x hx => hr x (List.mem_cons_of_mem _ hx)) (alert_inRange p r (hr r List.mem_cons_self) h)

theorem take_inRange (p : Publisher) (now : Nat) (r : Result) (hn : now ≤ topTime) (hr : r.time ≤ topTime)
    (h : p.InRange) : (p.take now r).InRange := by
  have hb := bump_le
  have hk : ∀ k : PublisherCounts, k.InRange → PublisherCounts.InRange { k with held := bump k.held } ∧
      PublisherCounts.InRange { k with holdOverflow := bump k.holdOverflow } := by
    intro k hk
    simp_all [PublisherCounts.InRange, Within]
  have happ : ∀ l : List Result, (∀ x ∈ l, x.time ≤ topTime) → ∀ x ∈ l ++ [r], x.time ≤ topTime := by
    intro l hl x hx
    rcases List.mem_append.1 hx with hx | hx
    · exact hl x hx
    · rw [List.mem_singleton.1 hx]; exact hr
  have hc : ∀ q : Publisher, q.InRange → Publisher.InRange { q with
      hold := q.hold ++ [r], counts := { q.counts with held := bump q.counts.held } } := by
    intro q hq
    exact ⟨hq.1, (hk _ hq.2.1).1, happ _ hq.2.2.1, hq.2.2.2⟩
  unfold Publisher.take
  split
  · unfold Publisher.holdResult
    split
    · rename_i e rest he
      split
      · exact hc p h
      · have hx : e.time ≤ topTime := h.2.2.1 e (by rw [he]; exact List.mem_cons_self)
        have h0 : Publisher.InRange { p with hold := rest } :=
          ⟨h.1, h.2.1, fun x hx => h.2.2.1 x (by rw [he]; exact List.mem_cons_of_mem _ hx), h.2.2.2⟩
        have h1 : ((overflowResults now e).foldl Publisher.give { p with hold := rest }).InRange :=
          give_inRange _ _ hn (give_inRange _ _ hx h0)
        have h2 := hc _ h1
        exact ⟨h2.1, (hk _ h2.2.1).2, h2.2.2⟩
    · rename_i he
      have := hc p h
      rw [he] at this
      exact this
  · exact give_inRange p r hr h

theorem takeAll_inRange (p : Publisher) (now : Nat) (rs : List Result) (hn : now ≤ topTime)
    (hr : ∀ r ∈ rs, r.time ≤ topTime) (h : p.InRange) : (p.takeAll now rs).InRange := by
  unfold Publisher.takeAll
  induction rs generalizing p with
  | nil => exact h
  | cons r rs ih =>
    exact ih _ (fun x hx => hr x (List.mem_cons_of_mem _ hx)) (take_inRange p now r hn (hr r List.mem_cons_self) h)

theorem wordWritten_inRange (p : Publisher) (h : p.InRange) : p.wordWritten.InRange := by
  have hb := bump_le
  unfold Publisher.wordWritten
  split
  · exact h
  · split
    · exact h
    · have h0 : Publisher.InRange { p with
          writer := .none
          buffer := p.buffer.tail
          counts := { p.counts with entriesWritten := bump p.counts.entriesWritten } } := by
        refine ⟨h.1, ?_, h.2.2.1, h.2.2.2.1, fun x hx => h.2.2.2.2.1 x (List.mem_of_mem_tail hx), h.2.2.2.2.2⟩
        have := h.2.1
        simp_all [PublisherCounts.InRange, Within]
      unfold Publisher.refill
      split
      · exact startWriter_inRange _ h0
      · rename_i r rest he
        have he' : p.waiting = r :: rest := he
        refine publish_inRange _ r (h.2.2.2.1 r (by rw [he']; exact List.mem_cons_self))
          ⟨h0.1, h0.2.1, h0.2.2.1, fun x hx => h.2.2.2.1 x (by rw [he']; exact List.mem_cons_of_mem _ hx), h0.2.2.2.2⟩

theorem filter_le {rs : List Result} (f : Result → Bool) (h : ∀ r ∈ rs, r.time ≤ topTime) : ∀ r ∈ rs.filter f,
    r.time ≤ topTime := fun r hr => h r (List.mem_filter.1 hr).1

theorem release_inRange (p : Publisher) (who : Option CompNo) (h : p.InRange) : (p.release who).InRange := by
  have hk : ∀ (k : PublisherCounts) (n : Nat), k.InRange →
      PublisherCounts.InRange { k with released := bumpBy k.released n } := by
    intro k n hk
    have hb := bumpBy_le
    simp_all [PublisherCounts.InRange, Within]
  have hall : ∀ (rs : List Result) (q : Publisher), (∀ r ∈ rs, r.time ≤ topTime) → q.InRange →
      (rs.foldl (fun p r => p.give { r with flags := { r.flags with released := true } }) q).InRange := by
    intro rs
    induction rs with
    | nil => exact fun q _ hq => hq
    | cons r rs ih =>
      exact fun q hr hq => ih _ (fun x hx => hr x (List.mem_cons_of_mem _ hx))
        (give_inRange q _ (hr r List.mem_cons_self) hq)
  unfold Publisher.release
  dsimp only
  refine hall _ _ (filter_le _ h.2.2.1) ?_
  exact ⟨h.1, hk p.counts _ h.2.1, filter_le _ h.2.2.1, h.2.2.2⟩

theorem discardHeld_inRange (p : Publisher) (who : Option CompNo) (h : p.InRange) : (p.discard who).InRange := by
  have hk : ∀ (k : PublisherCounts) (n : Nat), k.InRange →
      PublisherCounts.InRange { k with discarded := bumpBy k.discarded n } := by
    intro k n hk
    have hb := bumpBy_le
    simp_all [PublisherCounts.InRange, Within]
  unfold Publisher.discard
  exact ⟨h.1, hk p.counts _ h.2.1, filter_le _ h.2.2.1, h.2.2.2⟩

theorem clearHold_inRange (p : Publisher) (h : p.InRange) : p.clearHold.InRange := by
  have hb := bumpBy_le
  refine ⟨h.1, ?_, by simp [Publisher.clearHold], h.2.2.2⟩
  have := h.2.1
  simp_all [PublisherCounts.InRange, Within, Publisher.clearHold]

theorem enableLog_inRange (p : Publisher) (base length : Nat) (h1 : 1 ≤ length) (h2 : length ≤ 64)
    (h3 : base + length ≤ 256) (h : p.InRange) : (p.enableLog base length).InRange :=
  startWriter_inRange _ ⟨⟨h1, h2, h3⟩, h.2⟩

theorem disableLog_inRange (p : Publisher) (h : p.InRange) : p.disableLog.InRange := by
  have hall : ∀ (rs : List Result) (q : Publisher), (∀ r ∈ rs, r.time ≤ topTime) → q.InRange →
      (rs.foldl Publisher.publish q).InRange := by
    intro rs
    induction rs with
    | nil => exact fun q _ hq => hq
    | cons r rs ih =>
      exact fun q hr hq => ih _ (fun x hx => hr x (List.mem_cons_of_mem _ hx))
        (publish_inRange q _ (hr r List.mem_cons_self) hq)
  refine hall _ _ h.2.2.2.1 ⟨h.1, h.2.1, h.2.2.1, by simp, ?_, h.2.2.2.2.2⟩
  intro x hx
  dsimp only at hx
  split at hx
  · exact h.2.2.2.2.1 x (List.mem_of_mem_take hx)
  · simp at hx

/-! ## The course, the sweep, the TMP and the MU -/

theorem loadPoint_inRange (k : Course) (q : PointNo) (p : CoursePoint) (hp : p.minTransit ≤ 600000) (h : k.InRange) :
    (k.loadPoint q p).InRange := by
  obtain ⟨h1, h2, h3, h4, h5, h6⟩ := h
  have hrole : ∀ (k : Course) (role : CourseRole) (l : LoopNo),
      (∀ l : LoopNo, k.loops[l].window ≤ 255 ∧ k.loops[l].floor ≤ 255 ∧ k.loops[l].deadBand ≤ 10000) →
      ∀ m : LoopNo, (k.giveRole role l).loops[m].window ≤ 255 ∧ (k.giveRole role l).loops[m].floor ≤ 255 ∧
        (k.giveRole role l).loops[m].deadBand ≤ 10000 := by
    intro k role l hk
    exact upd_inRange (fun r : LoopRec => r.window ≤ 255 ∧ r.floor ≤ 255 ∧ r.deadBand ≤ 10000) _ _ _ hk (hk l)
  have hfreed : ∀ l : LoopNo, (mapAll k.loops (LoopRec.freed q))[l].window ≤ 255 ∧
      (mapAll k.loops (LoopRec.freed q))[l].floor ≤ 255 ∧ (mapAll k.loops (LoopRec.freed q))[l].deadBand ≤ 10000 := by
    intro l
    rw [mapAll_get]
    unfold LoopRec.freed
    split <;> exact h5 l
  have hloops : ∀ l : LoopNo, (k.loadPoint q p).loops[l].window ≤ 255 ∧ (k.loadPoint q p).loops[l].floor ≤ 255 ∧
      (k.loadPoint q p).loops[l].deadBand ≤ 10000 := by
    have hfold : ∀ (ls : List LoopNo) (role : CourseRole) (k : Course),
        (∀ l : LoopNo, k.loops[l].window ≤ 255 ∧ k.loops[l].floor ≤ 255 ∧ k.loops[l].deadBand ≤ 10000) →
        ∀ l : LoopNo, (ls.foldl (fun k l => k.giveRole role l) k).loops[l].window ≤ 255 ∧
          (ls.foldl (fun k l => k.giveRole role l) k).loops[l].floor ≤ 255 ∧
          (ls.foldl (fun k l => k.giveRole role l) k).loops[l].deadBand ≤ 10000 := by
      intro ls role
      induction ls with
      | nil => exact fun k hk => hk
      | cons a ls ih => exact fun k hk => ih _ (hrole k role a hk)
    exact hfold _ _ _ (hfold _ _ _ (hrole _ _ _ hfreed))
  have hs : (k.loadPoint q p).points = k.points.set q (some p) := rfl
  have hc : (k.loadPoint q p).count = max k.count (q.val + 1) := rfl
  have ht : (k.loadPoint q p).traps = k.traps := by
    have hfold : ∀ (ls : List LoopNo) (role : CourseRole) (k : Course),
        (ls.foldl (fun k l => k.giveRole role l) k).traps = k.traps := by
      intro ls role
      induction ls with
      | nil => exact fun k => rfl
      | cons a ls ih => exact fun k => ih _
    exact (hfold _ _ _).trans (hfold _ _ _)
  have hq := q.isLt
  refine ⟨by rw [hc]; omega, fun j hj => ?_, fun j hj => ?_, fun j x hx => ?_, hloops, fun i t hi => h6 i t (by rw [← ht]; exact hi)⟩
  · rw [hs, set_get] at hj
    rw [hc]
    split at hj
    · subst j; omega
    · have := h2 j hj; omega
  · rw [hs, set_get]
    rw [hc] at hj
    split
    · simp
    · rename_i hne
      have : j.val ≠ q.val := fun e => hne (Fin.ext e)
      exact h3 j (by omega)
  · rw [hs, set_get] at hx
    split at hx
    · cases hx; exact hp
    · exact h4 j x hx

/-- A load of a point leaves every course role at a loaded point (R78). -/
theorem loadPoint_rolesLoaded (k : Course) (q : PointNo) (p : CoursePoint) (h : k.RolesLoaded) :
    (k.loadPoint q p).RolesLoaded := by
  let Known (loops : Vector LoopRec 32) : Prop :=
    ∀ (l : LoopNo) (j : PointNo), loops[l].role.index = some j → j = q ∨ k.points[j] ≠ none
  have hfreed : Known (mapAll k.loops (LoopRec.freed q)) := by
    intro l j hj
    rw [mapAll_get] at hj
    unfold LoopRec.freed at hj
    split at hj
    · simp [CourseRole.index] at hj
    · exact .inr (h l j hj)
  have hgive : ∀ (c : Course) (role : CourseRole) (l : LoopNo), role.index = some q → Known c.loops →
      Known (c.giveRole role l).loops := by
    intro c role l hrole hc m j
    show (upd c.loops l _)[m].role.index = some j → _
    rw [upd_eq_set, set_get]
    split
    · intro hj; exact .inl (Option.some.inj (hj.symm.trans hrole))
    · exact hc m j
  have hall : ∀ (ls : List LoopNo) (role : CourseRole) (c : Course), role.index = some q → Known c.loops →
      Known (ls.foldl (fun c l => c.giveRole role l) c).loops := by
    intro ls role
    induction ls with
    | nil => exact fun c _ hc => hc
    | cons l ls ih => exact fun c hrole hc => ih _ hrole (hgive c role l hrole hc)
  have hloops : Known (k.loadPoint q p).loops := hall _ _ _ rfl (hall _ _ _ rfl (hgive _ _ _ rfl hfreed))
  intro l j hj
  show (k.points.set q (some p))[j] ≠ none
  rw [set_get]
  split
  · exact Option.some_ne_none p
  · rename_i hne
    exact (hloops l j hj).resolve_left hne

theorem courseCleared_rolesLoaded (k : Course) : k.cleared.RolesLoaded := by
  intro l q hq
  simp [Course.cleared, CourseRole.index] at hq

theorem courseCleared_inRange (k : Course) (h : k.InRange) : k.cleared.InRange := by
  obtain ⟨h1, h2, h3, h4, h5, h6⟩ := h
  refine ⟨Nat.zero_le _, fun q hq => ?_, fun q hq => absurd hq (by show q.val + 1 ≠ 0; omega), fun q p hp => ?_, fun l => ?_, h6⟩
  · simp [Course.cleared] at hq
  · simp [Course.cleared] at hp
  · simpa [Course.cleared] using h5 l

theorem sweepFault_inRange (r : SweepReport) (a : WordAddr) (h : r.InRange) : (r.fault a).InRange := by
  have hb := bump_le
  obtain ⟨h1, h2, h3⟩ := h
  refine ⟨?_, ?_, h3⟩
  · simp_all [Within, SweepReport.fault]
  · unfold SweepReport.fault
    dsimp only
    split
    · rw [List.length_append, List.length_singleton]; omega
    · exact h2

theorem resolves_inRange (r : SweepReport) (c : CompNo) (h : r.InRange) : (r.resolves c).InRange :=
  ⟨h.1, h.2.1, upd_inRange (fun n : Nat => n ≤ 255) _ _ _ h.2.2 (bump8_le _)⟩

/-- Every access of a sweep keeps the report in range. -/
theorem report_inRange (k : SweepContext) (a : WordAddr) (w : Word) (r : SweepReport) (h : r.InRange) :
    (k.report a w r).InRange := by
  have hk : ∀ r : SweepReport, r.InRange →
      SweepReport.InRange { r with visited := bump r.visited } ∧ SweepReport.InRange { r with absents := bump r.absents } ∧
      SweepReport.InRange { r with tables := bump r.tables } ∧ SweepReport.InRange { r with aliases := bump r.aliases } ∧
      SweepReport.InRange { r with competitors := bump r.competitors } ∧
      SweepReport.InRange { r with seenCleared := bump r.seenCleared } ∧
      SweepReport.InRange { r with aliasAbsent := bump r.aliasAbsent } := by
    intro r hr
    have hb := bump_le
    simp_all [SweepReport.InRange, Within]
  have hv := (hk r h).1
  have hv' := hk _ hv
  unfold SweepContext.report
  split
  · unfold SweepReport.entryRead
    dsimp only
    split
    · exact hv'.2.1
    · exact hv'.2.2.1
    · exact hv'.2.2.2.1
    · exact sweepFault_inRange _ _ hv
    · split
      · exact sweepFault_inRange _ _ hv
      · split
        · exact resolves_inRange _ _ hv'.2.2.2.2.1
        · exact hv'.2.2.2.2.1
  · unfold SweepReport.flagUpdated
    split
    · exact (hk r h).2.2.2.2.2.1
    · exact h
  · unfold SweepReport.targetRead
    split
    · exact (hk r h).2.2.2.2.2.2
    · split
      · exact resolves_inRange _ _ h
      · exact sweepFault_inRange _ _ h
    all_goals exact sweepFault_inRange _ _ h

theorem status_inRange (k : MuCounts) (x : Status) (h : k.InRange) : (k.status x).InRange := by
  have hb := bump_le
  cases x <;> simp_all [MuCounts.status, MuCounts.InRange, Within]

theorem grant_inRange (t : Tmp) (q : Requester) (a : Access) (h : t.InRange) : (t.grant q a).InRange := by
  have hb := bump_le
  obtain ⟨h1, h2⟩ := h
  cases q <;> refine ⟨h1, ?_⟩ <;> simp_all [Tmp.grant, Tmp.countGrant, Within]

theorem byteParam_le (r : Request) (i : Nat) : r.nat i 1 ≤ 255 := by
  unfold Request.nat
  rcases h : (r.params.toList.drop i).take 1 with _ | ⟨b, l⟩
  · exact Nat.zero_le _
  · have : l = [] := by
      have := congrArg List.length h
      simp at this
      rcases l with _ | ⟨c, l⟩
      · rfl
      · simp at this; omega
    subst this
    show 0 * 256 + b.toNat ≤ 255
    have := b.isLt
    omega

end Sys2Proof.Machine
end

