-- ==== Sys2Proof/Laws/Requests.lean ====
section
/-! SUPPORT. The beginning, the header tests and the reply of a request: what `serve` and `request` come to. -/

namespace Sys2Proof.Machine

theorem beginnable_eq_some (s : State) (r : Request) (rest : List Request) :
    s.beginnable = some (r, rest) ↔ Begins s r rest := by
  unfold State.beginnable State.resultsFit Begins
  rcases ht : s.mu.table with _ | x <;> rcases hq : s.mu.queue with _ | ⟨a, l⟩ <;> simp
  constructor
  · rintro ⟨⟨h1, h2⟩, rfl, rfl⟩
    refine ⟨⟨rfl, rfl⟩, h1, fun h => ?_⟩
    rcases h2 with h2 | h2
    · exact absurd h h2
    · exact h2
  · rintro ⟨⟨rfl, rfl⟩, h1, h2⟩
    exact ⟨⟨h1, or_iff_not_imp_left.2 fun h => h2 (not_not.1 h)⟩, rfl, rfl⟩

theorem beginnable_of_begins {s : State} {r : Request} {rest : List Request} (h : Begins s r rest) :
    s.beginnable = some (r, rest) := (beginnable_eq_some s r rest).2 h

/-- A request that is begun runs on the state in which it has left the queue, and its reply is placed. -/
theorem serve_of_begins {s : State} {r : Request} {rest : List Request} (h : Begins s r rest)
    (mine : Nat → Bool) (run : Request → State → Answer) (hm : mine r.code.toNat = true) :
    s.serve mine run = (run r (s.begin rest)).place r := by
  simp [State.serve, beginnable_of_begins h, hm]

theorem serve_of_other {s : State} {r : Request} {rest : List Request} (h : Begins s r rest)
    (mine : Nat → Bool) (run : Request → State → Answer) (hm : mine r.code.toNat = false) :
    s.serve mine run = s := by
  simp [State.serve, beginnable_of_begins h, hm]

theorem serve_of_none {s : State} (h : s.beginnable = none) (mine : Nat → Bool)
    (run : Request → State → Answer) : s.serve mine run = s := by
  simp [State.serve, h]

/-- Everything that `serve` can do. -/
theorem serve_cases (s : State) (mine : Nat → Bool) (run : Request → State → Answer) :
    s.serve mine run = s ∨
      ∃ r rest, Begins s r rest ∧ mine r.code.toNat = true ∧
        s.serve mine run = (run r (s.begin rest)).place r := by
  rcases hb : s.beginnable with _ | ⟨r, rest⟩
  · exact .inl (serve_of_none hb _ _)
  · have h := (beginnable_eq_some s r rest).1 hb
    cases hm : mine r.code.toNat
    · exact .inl (serve_of_other h _ _ hm)
    · exact .inr ⟨r, rest, h, hm, serve_of_begins h _ _ hm⟩

theorem request_of_begins {s : State} {r : Request} {rest : List Request} {code length : Nat}
    (h : BeginsAs s r rest code length) (run : Request → State → Answer) :
    s.request code length run = (run r (s.begin rest)).place r := by
  rw [State.request, serve_of_begins h.1 _ _ (by simp [h.2.1])]
  simp [withLength, h.2.2]

theorem refused_place (s : State) (r : Request) (rest : List Request) (status : Status) :
    (Answer.refused (s.begin rest) status).place r = refusedState s r rest status := rfl

theorem request_wrong_length {s : State} {r : Request} {rest : List Request} {code length : Nat}
    (h : Begins s r rest) (hc : r.code.toNat = code) (hl : r.length.toNat ≠ length)
    (run : Request → State → Answer) :
    s.request code length run = refusedState s r rest .format := by
  rw [State.request, serve_of_begins h _ _ (by simp [hc])]
  have : ([length].contains r.length.toNat) = false := by simpa using hl
  simp only [withLength, this]
  exact refused_place s r rest .format

theorem request_other {s : State} {r : Request} {rest : List Request} {code : Nat} (length : Nat)
    (h : Begins s r rest) (hc : r.code.toNat ≠ code) (run : Request → State → Answer) :
    s.request code length run = s := by
  rw [State.request, serve_of_other h _ _ (by simpa using hc)]

theorem taken_place (t : State) (r : Request) (data : List Byte) :
    (Answer.taken t data).place r = t.reply r.tag r.code .ok data := rfl

theorem answer_place (t : State) (r : Request) (status : Status) (data : List Byte) :
    (Answer.mk t (some (status, data))).place r = t.reply r.tag r.code status data := rfl

/-- The MU after the reply of a request that left the rest of the MU and the device address alone. -/
theorem reply_mu_of_begin (s t : State) (r : Request) (rest : List Request) (status : Status)
    (data : List Byte) (hm : t.mu = (s.begin rest).mu) (ha : t.lif.address = s.lif.address) :
    (t.reply r.tag r.code status data).mu = servedMu s r rest status data := by
  simp [servedMu, hm, ha]

@[simp] theorem orRange_some {α : Type} (s : State) (x : α) (run : α → Answer) :
    orRange s (some x) run = run x := rfl

@[simp] theorem orRange_none {α : Type} (s : State) (run : α → Answer) :
    orRange s none run = .refused s .range := rfl

@[simp] theorem orState_true (s : State) (a : Answer) : orState s true a = a := rfl

@[simp] theorem orState_false (s : State) (a : Answer) : orState s false a = .refused s .state := rfl

/-- A refused answer, placed, changes nothing but the MU. -/
theorem orRange_cases {α : Type} (s : State) (p : Option α) (run : α → Answer) :
    orRange s p run = .refused s .range ∨ ∃ x, p = some x ∧ orRange s p run = run x := by
  cases p with
  | none => exact .inl rfl
  | some x => exact .inr ⟨x, rfl, rfl⟩

theorem orState_cases (s : State) (ok : Bool) (a : Answer) :
    orState s ok a = .refused s .state ∨ (ok = true ∧ orState s ok a = a) := by
  cases ok with
  | false => exact .inl rfl
  | true => exact .inr ⟨rfl, rfl⟩

end Sys2Proof.Machine
end

