-- ==== Sys2Proof/Laws/Step.lean ====
section
/-! SUPPORT. What proofs about every step share: a step is a command's meaning on the queue's rest; and a property
of the state that the beginning of a request, its execution and its reply keep is kept by the request. -/

namespace Sys2Proof.Machine

open Host (Outcome)

theorem next_inj {s t : State} (h : (Outcome.next s : Outcome State Fault Refusal) = .next t) : s = t := by
  cases h; rfl

/-- What a step that answers next has done: nothing, or the front command. -/
theorem step_next {s t : State} (h : step s = .next t) :
    s = t ∨ ∃ c rest, s.pending = c :: rest ∧ exec c { s with pending := rest } = .next t := by
  unfold step at h
  split at h
  · exact .inl (next_inj h)
  · rename_i c rest hp
    exact .inr ⟨c, rest, hp, h⟩

theorem foldl_keeps {α : Type} (P : State → Prop) (f : State → α → State) (hf : ∀ s x, P s → P (f s x))
    (l : List α) (s : State) (h : P s) : P (l.foldl f s) := by
  induction l generalizing s with
  | nil => exact h
  | cons x l ih => exact ih _ (hf s x h)

/-- A property that the beginning of a request and the placing of a reply keep. -/
def KeptByMu (P : State → Prop) : Prop :=
  (∀ (s : State) (r : Request) (rest : List Request), Begins s r rest → P s → P (s.begin rest)) ∧
    ∀ (s : State) (tag code : Byte) (st : Status) (data : List Byte), P s → P (s.reply tag code st data)

theorem serve_keeps {P : State → Prop} (hm : KeptByMu P) (s : State) (mine : Nat → Bool)
    (run : Request → State → Answer) (h : P s)
    (hr : ∀ (r : Request) (t : State), mine r.code.toNat = true → P t →
      (r.code.toNat ∈ resultCodes → t.publisher.waiting.length ≤ 32) → P (run r t).state) :
    P (s.serve mine run) := by
  rcases serve_cases s mine run with e | ⟨r, rest, hb, hc, e⟩
  · rw [e]; exact h
  · rw [e]
    have := hr r (s.begin rest) hc (hm.1 s r rest hb h) hb.2.2.2
    unfold Answer.place
    split
    · exact hm.2 _ _ _ _ _ this
    · exact this

theorem request_keeps {P : State → Prop} (hm : KeptByMu P) (s : State) (code len : Nat)
    (run : Request → State → Answer) (h : P s)
    (hr : ∀ (r : Request) (t : State), P t →
      (code ∈ resultCodes → t.publisher.waiting.length ≤ 32) → P (run r t).state) :
    P (s.request code len run) := by
  refine serve_keeps hm s _ _ h fun r t hc ht hw => ?_
  have hc' : r.code.toNat = code := by simpa using hc
  unfold withLength
  split
  · exact hr r t ht (fun hx => hw (hc' ▸ hx))
  · exact ht

theorem orRange_keeps {α : Type} {P : State → Prop} {s : State} {p : Option α} {run : α → Answer} (h : P s)
    (hr : ∀ x, p = some x → P (run x).state) : P (orRange s p run).state := by
  unfold orRange; split
  · exact hr _ rfl
  · exact h

theorem orState_keeps {P : State → Prop} {s : State} {b : Bool} {a : Answer} (h : P s)
    (hr : b = true → P a.state) : P (orState s b a).state := by
  unfold orState; split
  · exact hr (by assumption)
  · exact h

end Sys2Proof.Machine
end

