-- ==== Sys2Proof/Tests/Slice0.lean ====
section
/-! SUPPORT. The writer's tests: ill-formed commands, examples of the manual, and states that meet the hypotheses of
the statements, clause by clause. -/

namespace Sys2Proof.Tests

open Sys2Proof.Machine

-- One theorem after another: each evaluates in the kernel, and many at once take too many threads.
set_option Elab.async false

/-! ## Small states -/

/-- A request with a code and its parameter bytes. -/
def req (code : Byte) (params : List Byte) : Request :=
  { tag := 7, code := code, length := BitVec.ofNat 8 params.length, params := fixBytes 22 params }

/-- A state with one request waiting. -/
def asking (s : State) (r : Request) : State := { s with mu := { s.mu with queue := [r] } }

/-- The part after reset in a session state. -/
def inSession (x : SessionState) : State :=
  { State.reset with session := { State.reset.session with state := x } }

/-- The part after reset with a track clock. -/
def clocked (x : ClockState) (cycle : Tick) : State :=
  { State.reset with cau := { State.reset.cau with clock := { state := x, cycle := cycle } } }

/-- A state with one competitor record in place of another. -/
def withCar (s : State) (c : CompNo) (r : Competitor) : State :=
  { s with engine := { s.engine with records := s.engine.records.set c r } }

/-- A state with one alignment record in place of another. -/
def withLoop (s : State) (l : LoopNo) (r : AlignRec) : State :=
  { s with cau := { s.cau with records := s.cau.records.set l r } }

/-- A pending passing of loop 0 at a time. -/
def passing (time : Nat) : Pending :=
  ⟨0x3A15C2, 0, .loop 0, false, time, .good, false, 210, false, 0⟩

/-- The MU begins the one request that waits, where nothing holds it back. -/
theorem begins_asking (s : State) (r : Request) (ht : s.mu.table = none) (hr : s.mu.replies.length < 4)
    (hw : s.publisher.waiting.length ≤ 32) : Begins (asking s r) r [] := ⟨ht, rfl, hr, fun _ => hw⟩

/-- After reset, in any session state, it begins every request that waits alone. -/
theorem begins_fresh (x : SessionState) (r : Request) : Begins (asking (inSession x) r) r [] :=
  begins_asking _ _ rfl (Nat.zero_lt_succ 3) (Nat.zero_le 32)

/-! ## Well-formedness -/

theorem test_refuses_slot_40 (c : Cell) : Instr.wellFormed (.cellReceipt .upstream 40 c) = false := rfl
theorem test_refuses_holdover_loop_32 : Instr.wellFormed (.loopHoldover 32) = false := rfl
theorem test_refuses_unsynced_loop_32 : Instr.wellFormed (.loopUnsynced 32) = false := rfl
theorem test_refuses_expiry_competitor_96 : Instr.wellFormed (.settleExpiry 96) = false := rfl
theorem test_refuses_silent_competitor_96 : Instr.wellFormed (.silent 96) = false := rfl

/-! ## Examples of the manual -/

/-- R2: the check over the digits 1 to 9. -/
theorem test_crc_of_the_digits :
    crc16 [0x31, 0x32, 0x33, 0x34, 0x35, 0x36, 0x37, 0x38, 0x39] = 0x29B1 := by decide +kernel

/-- Section 3.7: the passing tick, with the windows 24 and 40. -/
theorem test_finish_passing_tick :
    let p : PassingCell := ⟨0, 0x3A15C2, 5, 1250000,
      [(0, 120), (800, 180), (1500, 210), (2300, 205), (3100, 150), (0, 0)]⟩
    p.tick 24 = 1251856 ∧ p.tick 40 = 1251740 := by decide +kernel

/-- Section 3.8: a tie, a threshold at zero and a base at the top of the count. -/
theorem test_reduction_edges :
    (⟨0, 0, 2, 80000, [(400, 90), (401, 90)]⟩ : PassingCell).tick 0 = 80401 ∧
    (⟨0, 0, 3, 0, [(0, 10), (600, 20), (1200, 15)]⟩ : PassingCell).tick 24 = 663 ∧
    (⟨0, 0, 1, 4294960000, [(10000, 200)]⟩ : PassingCell).tick 24 = 2704 := by decide +kernel

/-- Section 3.7: the conversion of the finish passing; R25: the two ties. -/
theorem test_conversion :
    ({ anchorTick := 1000000, anchorTime := 3600000000, rate := 840 } : AlignRec).convert 1251856 =
      (3600251869, false) ∧
    roundTies (8388608 * 1) 16777216 = 1 ∧ roundTies (8388608 * -1) 16777216 = -1 := by decide +kernel

/-- Section 7.4: the two speeds. -/
theorem test_trap_speeds : trapSpeed 20000 223456 = (3222, false) ∧ trapSpeed 20000 2000 = (9999, true) := by
  decide +kernel

/-- R22: a beacon of the current cycle, one of an earlier cycle, and one whose cycle would be negative. -/
theorem test_beacon_cycles :
    resolveCycle 0x10005 5 = some 0x10005 ∧ resolveCycle 0x10005 6 = some 6 ∧ resolveCycle 4 5 = none := by
  decide +kernel

/-- R94: a merge of section 6.9; the report of the primary loop survives the stronger one of the backup. -/
theorem test_primary_survives :
    let a : Pending := ⟨0x3A15C2, 1, .point 0, true, 3600251402, .backup, false, 230, false, 0⟩
    let p : Pending := ⟨0x3A15C2, 0, .point 0, false, 3600251869, .good, false, 210, false, 1⟩
    p.matches 1000 a = true ∧ p.mergeWith a = p ∧ (mergeChain 1000 7 p [a] {}).1 = [p] := by decide +kernel

/-- R201, R204: a REPLY cell carries its kind, the source and a good check, and an IDLE cell is empty. -/
theorem test_cells_are_sealed :
    cellCheckGood idleCell = true ∧ cellKind idleCell = .idle ∧
    cellCheckGood (Reply.toCell ⟨4, 7, 0x21, .ok, []⟩) = true ∧
    cellKind (Reply.toCell ⟨4, 7, 0x21, .ok, []⟩) = .reply := by decide +kernel

/-! ## Hypotheses of the statements: steps, reset and the line -/

/-- StepRunsFrontCommand: a queue with a command, an empty one, and well-formed commands at the ends of their
ranges. -/
theorem test_meets_StepRunsFrontCommand :
    ({ State.reset with pending := [.searchingMarkPeriod] } : State).pending = .searchingMarkPeriod :: [] ∧
    State.reset.pending = [] ∧ Instr.wellFormed (.cellReceipt .downstream 39 idleCell) = true ∧
    Instr.wellFormed (.silent 95) = true := ⟨rfl, rfl, rfl, rfl⟩

/-- PartReset: no access, a read, a write and a flag update in progress; RESET_PART with its length and with
another. -/
theorem test_meets_PartReset :
    State.reset.tmp.inProgress = none ∧
    (∀ x : Requester × Access, ({ State.reset with tmp := { State.reset.tmp with inProgress := some x } } : State).tmp.inProgress
      = some x) ∧
    (∃ s r rest, Begins s r rest ∧ r.code.toNat = 0x05 ∧ r.length.toNat = 0) ∧
    (∃ s r rest, Begins s r rest ∧ r.code.toNat = 0x05 ∧ r.length.toNat ≠ 0) :=
  ⟨rfl, fun _ => rfl, ⟨_, req 5 [], _, begins_fresh .setup _, rfl, rfl⟩,
    ⟨_, req 5 [0], _, begins_fresh .setup _, rfl, by decide⟩⟩

/-- MarksSetFraming, ControlInMarksMoveClock: each framing state of each port, and each clock state. -/
theorem test_meets_marks :
    State.reset.lif.up.framing = .searching ∧ State.reset.lif.down.framing = .searching ∧
    (State.reset.setFraming .trackIn .framed).lif.up.framing = .framed ∧
    (State.reset.setFraming .controlIn .framed).lif.down.framing = .framed ∧
    (∀ x, (clocked x 5).cau.clock.state = x) ∧ (clocked .freeRun 5).cau.clock.goodRun = 0 ∧
    (∃ s : State, s.cau.clock.state = .freeRun ∧ s.cau.clock.goodRun ≠ 0) ∧
    (∃ s : State, s.cau.clock.state = .locked ∧ s.cau.clock.missingRun = 1) ∧
    (∃ s : State, s.cau.clock.state = .locked ∧ s.cau.clock.missingRun = 2) :=
  ⟨rfl, rfl, rfl, rfl, fun _ => rfl, rfl,
    ⟨{ State.reset with cau := { State.reset.cau with clock := { state := .freeRun, goodRun := 1 } } }, rfl, by decide⟩,
    ⟨{ State.reset with cau := { State.reset.cau with clock := { state := .locked, missingRun := 1 } } }, rfl, rfl⟩,
    ⟨{ State.reset with cau := { State.reset.cau with clock := { state := .locked, missingRun := 2 } } }, rfl, rfl⟩⟩

/-- ControlInMarksMoveClock: a change of the clock with and without a change of the cycle count. -/
theorem test_meets_clock_change :
    ({ state := .locked } : TrackClock).cycle = State.reset.cau.clock.cycle ∧
    ({ state := .locked, cycle := 1 } : TrackClock).cycle ≠ State.reset.cau.clock.cycle := ⟨rfl, by decide⟩

/-- CellReceipt: a SEARCHING and a FRAMED port, and the least slot above the last. -/
theorem test_meets_CellReceipt :
    (State.reset.lif.lane .upstream).framing = .searching ∧
    ((State.reset.setFraming .trackIn .framed).lif.lane .upstream).framing = .framed ∧ 40 ≤ 40 :=
  ⟨rfl, rfl, Nat.le_refl _⟩

/-- CELL_RECEIPT: a good REQUEST to the part in the INSPECT slot reaches the Request Queue, one with another
destination does not. -/
theorem test_request_taken_under_inspect :
    let cell (dest : Byte) := sealCell [0x21, dest, 9, 0x21, 0]
    (receive 2 .downstream .inspect (cell 2)).deliver = some .mu ∧
    (receive 2 .downstream .inspect (cell 3)).deliver = none := by decide +kernel

/-- CellReceipt: a cell of each kind, a kind value that is none of them, and the first and last parameter. -/
theorem test_meets_received_bytes :
    let kinds : List Byte := [0x00, 0x11, 0x12, 0x21, 0x22, 0x31]
    (∀ kind ∈ kinds, (sealCell [kind])[0] = kind) ∧ (sealCell [0x32])[0] ∉ kinds ∧ 0 < 22 ∧ 21 < 22 ∧
    cellCheckGood (sealCell [0x32]) = true ∧ cellCheckGood (Vector.replicate 32 0) = false := by decide +kernel

/-- R205: bytes 0 to 29 of an ALERT CLOCK_STEP of -2 cycles, published as number 258, with a competitor and two flags. -/
theorem test_alert_cell_bytes :
    ({ kind := .alert, sequence := some 258, flags := { clampedTime := true, released := true }
       competitor := some (12, 314), time := 1000, value := some (-2)
       extra := .alert .clockStep .none } : Result).toCell.toList.take 30 =
      [0x31, 11, 1, 2, 4, 0, 1, 0, 12, 1, 58, 255, 0, 0, 0, 0, 3, 232] ++
      [2, 255, 255, 255, 254, 0, 255, 255, 255, 255, 255, 255] := by decide +kernel

/-- OutboundCycles: a result of each kind that carries an extra field, and the first and last word of an entry. -/
theorem test_meets_result_bytes :
    let result (kind : ResultKind) (extra : Extra) : Result := { kind := kind, time := 0, extra := extra }
    (∀ kind extra, (result kind extra).kind = kind ∧ (result kind extra).extra = extra) ∧ 0 < 8 ∧ 7 < 8 := by
  and_intros <;> first | exact fun _ _ => ⟨rfl, rfl⟩ | decide

/-- A state in which the next slot of a direction is `k`. -/
def sending (k : Slot) : State :=
  { State.reset with lif := { State.reset.lif with
      up := { State.reset.lif.up with outSlot := some k }
      down := { State.reset.lif.down with outSlot := some k } } }

/-- OutboundCycles: no slot left; the first and the last slot; BLOCK, other actions, and INSERT with nothing, a
reply and a result waiting. -/
theorem test_meets_OutboundCycles :
    (State.reset.lif.lane .upstream).outSlot = none ∧
    ((sending 0).lif.lane .upstream).outSlot = some 0 ∧ ((sending 39).lif.lane .downstream).outSlot = some 39 ∧
    (Vector.replicate 40 Action.block)[(0 : Slot)] = .block ∧
    ((sending 0).lif.lane .upstream).inForce[(0 : Slot)] = .copy ∧
    ((sending 32).lif.lane .upstream).inForce[(32 : Slot)] = .insert ∧
    (sending 32).mu.replies = [] ∧ (sending 32).publisher.resultQueue = [] ∧
    (∃ s : State, ∃ r rest, s.mu.replies = r :: rest) ∧
    ∃ s : State, ∃ r rest, s.mu.replies = [] ∧ s.publisher.resultQueue = r :: rest :=
  ⟨rfl, rfl, rfl, by decide, by decide +kernel, by decide +kernel, rfl, rfl,
    ⟨{ State.reset with mu := { State.reset.mu with replies := [⟨0, 7, 0x21, .ok, []⟩] } }, _, _, rfl⟩,
    ⟨{ State.reset with publisher := { State.reset.publisher with resultQueue := [{ kind := .session, time := 0 }] } },
      _, _, rfl, rfl⟩⟩

/-! ## Hypotheses: beacons, alignment and intake -/

/-- A beacon with a tick and a 16-bit cycle, in a slot. -/
def beaconIn (s : State) (slot : Slot) (tick : Nat) (c16 : Nat) : State :=
  { s with lif := { s.lif with toCau := [(slot, sealCell ([0x12, 0] ++ natBytes 4 tick ++ natBytes 2 c16))] } }

/-- BeaconAnchors: no beacon, the first slot of no loop, an UNSET clock and one that is not, and a cycle that would be negative. -/
theorem test_meets_beacon_not_handled :
    State.reset.lif.toCau = [] ∧ 32 ≤ (32 : Slot).val ∧ (31 : Slot).val < 32 ∧ State.reset.cau.clock.state = .unset ∧
    (clocked .locked 4).cau.clock.state ≠ .unset ∧
    (clocked .locked 4).cau.clock.cycle.toNat <
      beaconC16 (sealCell ([0x12, 0] ++ natBytes 4 0 ++ natBytes 2 5)) := by decide +kernel

/-- A LOCKED clock at cycle 3,000 and loop 3 anchored at tick 1,000 and cycle 1,000, in a state. -/
def anchored (x : AlignState) (faults : Nat) : State :=
  withLoop (clocked .locked 3000) 3
    { state := x, anchorTick := 1000, anchorTime := 1000000, consecutive := faults }

/-- The beacons of the witnesses: tick and cycle. Elapsed ticks of 99,999 and 100,000; residuals of 250 and 251 µs;
measured rates at and beyond both ends of the range. -/
def beacons : List (Nat × Nat) :=
  [(100999, 1100), (101000, 1100), (101250, 1100), (101251, 1100), (101097, 1100), (101098, 1100), (101902, 1101),
    (101901, 1101)]

/-- BeaconAnchors, BeaconMeasuresRate: each of these beacons heads the list, in every state of its record and with 0
to 2 rate faults before it; one of the current cycle and the oldest one that can be told do so too. -/
theorem test_meets_BeaconAt :
    (∀ p ∈ beacons, ∀ x ∈ [AlignState.unsynced, .acquiring, .locked, .holdover], ∀ n ∈ [0, 1, 2],
      BeaconAt (beaconIn (anchored x n) 3 p.1 p.2) 3 3
        (sealCell ([0x12, 0] ++ natBytes 4 p.1 ++ natBytes 2 p.2)) [] p.2) ∧
    BeaconAt (beaconIn (clocked .freeRun 70000) 3 0 4464) 3 3
      (sealCell ([0x12, 0] ++ natBytes 4 0 ++ natBytes 2 4464)) [] 70000 ∧
    BeaconAt (beaconIn (clocked .freeRun 70000) 3 0 4465) 3 3
      (sealCell ([0x12, 0] ++ natBytes 4 0 ++ natBytes 2 4465)) [] 4465 := by decide +kernel

/-- Their ticks are read back, and the record's fields are those of the witnesses. -/
theorem test_beacon_fields :
    (∀ p ∈ beacons, beaconTick (sealCell ([0x12, 0] ++ natBytes 4 p.1 ++ natBytes 2 p.2)) = BitVec.ofNat 32 p.1) ∧
    ∀ x ∈ [AlignState.unsynced, .acquiring, .locked, .holdover], ∀ n ∈ [0, 1, 2],
      (anchored x n).cau.records[(3 : LoopNo)].state = x ∧ (anchored x n).cau.records[(3 : LoopNo)].consecutive = n := by
  decide +kernel

/-- BeaconAnchors, BeaconMeasuresRate: the residual, the elapsed ticks and the rate of each of these beacons. -/
theorem test_meets_beacon_clauses :
    let r : AlignRec := { anchorTick := 1000, anchorTime := 1000000 }
    let far (tick cycle : Nat) := (r.predict (BitVec.ofNat 32 tick) - (cycle * 1000 : Nat)).natAbs
    let e (tick : Nat) : Int := (BitVec.ofNat 32 tick - r.anchorTick).toInt
    let rate (tick cycle : Nat) :=
      roundTies ((((cycle * 1000 : Nat) : Int) - r.anchorTime - e tick) * 16777216) (e tick).toNat
    State.reset.cau.residualTolerance < far 101251 1100 ∧
    (∀ p ∈ beacons.filter fun p => p.1 ≠ 101251, far p.1 p.2 ≤ State.reset.cau.residualTolerance) ∧
    e 100999 < 100000 ∧ e 101000 = 100000 ∧ -16384 ≤ rate 101097 1100 ∧ rate 101098 1100 < -16384 ∧
    rate 101902 1101 ≤ 16383 ∧ 16383 < rate 101901 1101 := by decide +kernel

/-- TickConversion: elapsed ticks at both ends of their range, a correction that is a tie, and times below, at and
above the range of track time. -/
theorem test_meets_TickConversion :
    (∃ c : Int, 2 * ((-2147483648 : Int) * 16383 - c * 16777216).natAbs ≤ 16777216) ∧
    2 * ((8388608 : Int) * 1 - 1 * 16777216).natAbs = 16777216 ∧
    ((8388608 : Int) * 1).natAbs < ((1 : Int) * 16777216).natAbs ∧
    (0 : Int) + -1 + 0 < 0 ∧ (4294967295999 : Int) < 4294967295000 + 1000 + 0 ∧ 0 < 16777216 :=
  ⟨⟨-2097024, by decide +kernel⟩, by and_intros <;> decide +kernel⟩

/-- LoopTimeouts: a LOCKED record just past the timeout of 5 s and one at it; a HOLDOVER and an ACQUIRING record
past the limit of 120 s. -/
theorem test_meets_LoopTimeouts :
    0 + State.reset.cau.beaconTimeout * 1000000 < (clocked .locked 5001).now ∧
    (clocked .locked 5000).now ≤ 0 + State.reset.cau.beaconTimeout * 1000000 ∧
    0 + State.reset.cau.holdoverLimit * 1000000 < (clocked .locked 120001).now ∧
    (clocked .locked 120000).now ≤ 0 + State.reset.cau.holdoverLimit * 1000000 ∧
    (∀ x, (withLoop (clocked .locked 5001) 31 { state := x, testOwed := true }).cau.records[(31 : LoopNo)] =
      { state := x, testOwed := true }) ∧ 32 ≤ 32 :=
  ⟨by decide +kernel, by decide +kernel, by decide +kernel, by decide +kernel, fun x => by cases x <;> decide +kernel,
    Nat.le_refl _⟩

/-- HitReduction: a cell with a hit, and two cells that differ in the order of their hits. -/
theorem test_meets_HitReduction :
    (⟨0, 0, 1, 0, [(5, 9)]⟩ : PassingCell).valid ≠ [] ∧
    (⟨0, 0, 2, 0, [(5, 9), (6, 8)]⟩ : PassingCell).valid.Perm
      (⟨0, 0, 2, 0, [(6, 8), (5, 9)]⟩ : PassingCell).valid :=
  ⟨by decide, List.Perm.swap _ _ _⟩

/-- The part ready for a passing of loop 3: the session LIVE, the clock at 3,600,252, the loop LOCKED and
enabled. -/
def ready (x : AlignState) : State :=
  let s := withLoop (clocked .locked 3600252) 3
    { state := x, anchorTick := 1000000, anchorTime := 3600000000, rate := 840 }
  { s with
    session := { s.session with state := .live }
    course := { s.course with loops := s.course.loops.set 3 { s.course.loops[(3 : LoopNo)] with enabled := true } } }

/-- A PASSING cell with one hit, in the slot of loop 3. -/
def hit (loop strength : Nat) : PassingCell := ⟨loop, 0x3A15C2, 1, 1250000, [(1856, strength)]⟩

/-- PassingIntake: a cell that passes every test, with each quality. -/
theorem test_meets_IntakeAccepts (x : AlignState) (hx : x ≠ .unsynced) (d : Discard) :
    ¬ Fails (ready x) 3 (hit 3 40) d := by
  cases d <;> cases x <;> first | exact absurd rfl hx | (simp only [Fails]; decide +kernel)

/-- PassingIntake: for each test a cell that fails it and passes those before it, at the edges of strength and
time. -/
theorem test_meets_IntakeDiscards :
    Fails (ready .locked) 3 (hit 4 40) .misrouted ∧
    Fails (ready .locked) 3 { hit 3 40 with hitCount := 7 } .malformed ∧
    Fails (inSession .live) 3 (hit 3 40) .disabled ∧
    Fails { ready .locked with session := {} } 3 (hit 3 40) .idleDiscard ∧
    Fails (ready .unsynced) 3 (hit 3 40) .unsynced ∧
    Fails (ready .locked) 3 (hit 3 39) .weak ∧
    Fails (ready .locked) 3 { hit 3 40 with base := 3000000 } .future ∧
    Fails (ready .locked) 3 { hit 3 40 with base := 0 - 700000000 } .stale ∧
    (∀ x : Discard, x.order < Discard.misrouted.order → False) := by
  refine ⟨?_, ?_, ?_, ?_, ?_, ?_, ?_, ?_, fun x hx => ?_⟩
  on_goal 9 => cases x <;> exact absurd hx (by decide)
  all_goals simp only [Fails]; decide +kernel

/-- PassingIntake: a queue with room, a full one, and the slots at the border of the loops. -/
theorem test_meets_PassingIntake_queue :
    (ready .locked).intake.queue.length < 32 ∧
    (∃ q : Intake, 32 ≤ q.queue.length ∧ q.overflow = .normal) ∧
    (∃ q : Intake, 32 ≤ q.queue.length ∧ q.overflow = .overflowing) ∧
    State.reset.lif.toIntake = [] ∧ 32 ≤ (32 : Slot).val ∧ (31 : Slot).val = (31 : LoopNo).val :=
  ⟨by decide, ⟨{ queue := List.replicate 32 ⟨0, 0, 0, .good, false, 0, 0⟩ }, by decide, rfl⟩,
    ⟨{ queue := List.replicate 32 ⟨0, 0, 0, .good, false, 0, 0⟩, overflow := .overflowing }, by decide, rfl⟩,
    rfl, by decide, rfl⟩

/-! ## Hypotheses: the Resolver and table memory -/

/-- An intake record of loop 0. -/
def intakeRec : IntakeRec := ⟨0, 0x3A15C2, 3600251869, .good, false, 210, 3600252⟩

/-- A walk of that record at a level, from a word. -/
def walk (level : Level) (addr : WordAddr) (phase : WalkPhase) : Walk := ⟨intakeRec, 1, 0, level, addr, false, phase⟩

/-- The part after reset with the Resolver in a serving state. -/
def serving (x : Serving) : State := { State.reset with resolver := { State.reset.resolver with serving := x } }

/-- A state with an access in progress. -/
def during (s : State) (q : Requester) (a : Access) : State := { s with tmp := { s.tmp with inProgress := some (q, a) } }

/-- A state with one word of table memory in place of another. -/
def withWord (s : State) (a : WordAddr) (w : Word) : State := { s with tmp := { s.tmp with mem := writeWord s.tmp.mem a w } }

/-- A state whose Log Write Buffer holds `n` results. -/
def buffered (s : State) (n : Nat) : State :=
  { s with publisher := { s.publisher with
      logEnabled := true, buffer := List.replicate n { kind := .session, time := 0 }, writer := some ⟨0, 0⟩ } }

/-- ResolverLookup: a record waits while the Resolver is IDLE, and one waits while it serves; a cache that holds its
code with each outcome, and one that does not; no root and a root. -/
theorem test_meets_ResolverLookup :
    State.reset.resolver.serving = .idle ∧ State.reset.intake.queue = [] ∧
    (serving (.walking (walk .root 0 .reading))).resolver.serving ≠ .idle ∧
    (∃ s : State, s.resolver.serving = .idle ∧ s.intake.queue = intakeRec :: [] ∧ s.resolver.root = none ∧
      ∀ y ∈ s.resolver.cache, y.code ≠ intakeRec.code) ∧
    (∃ s : State, s.intake.queue = intakeRec :: [] ∧ s.resolver.root = some 1023 ∧ s.resolver.cache = []) ∧
    ∀ o : WalkOutcome, ∃ s : State, ∃ a b e, s.resolver.serving = .idle ∧ s.intake.queue = intakeRec :: [] ∧
      s.resolver.cache = a ++ e :: b ∧ e.code = intakeRec.code ∧ e.outcome = o ∧
      ∀ y ∈ a ++ b, y.code ≠ intakeRec.code :=
  let f (c : List CacheEntry) : State := { State.reset with
    intake := { State.reset.intake with queue := [intakeRec] }, resolver := { State.reset.resolver with cache := c } }
  ⟨rfl, rfl, by decide, ⟨f [], rfl, rfl, rfl, by simp [f]⟩,
    ⟨{ f [] with resolver := { State.reset.resolver with root := some 1023 } }, rfl, rfl, rfl⟩,
    fun o => ⟨f [⟨1, o⟩, ⟨intakeRec.code, o⟩, ⟨2, o⟩], [⟨1, o⟩], [⟨2, o⟩], ⟨intakeRec.code, o⟩, rfl, rfl, rfl, rfl, rfl,
      by simp; decide⟩⟩

/-- A state in which a walk at a level has its word, which reads as `x`, under way. -/
def reading (level : Level) (x : Word) : State :=
  during (withWord (serving (.walking (walk level 262143 .reading))) 262143 x) .resolver (.read 262143)

theorem reading_reads (level : Level) (x : Word) (h : readWord (writeWord [] 262143 x) 262143 = x) :
    WalkReads (reading level x) (walk level 262143 .reading) x := by
  refine ⟨rfl, rfl, rfl, ?_⟩
  have e : (reading level x).tmp.mem = writeWord [] 262143 x := rfl
  have a : (walk level 262143 .reading).addr = 262143 := rfl
  rw [e, a, h]

/-- WalkSteps: the read of the last word of memory, at each level with each kind of entry: SEEN set and clear, and
competitors 95 and 96. -/
theorem test_meets_walk_reads :
    (∀ x ∈ [0x00000009, 0xC0000000, 0x40000007, 0x60000007, 0x4000005F, 0x40000060, 0x6000005F, 0x80000005, 0xA0000005],
      ∀ level, WalkReads (reading level x) (walk level 262143 .reading) x) ∧
    readEntry .root 0x00000009 = .absent 9 ∧ readEntry .branch 0xC0000000 = .bad ∧
    readEntry .root 0x40000007 = .table 7 false false ∧ readEntry .branch 0x60000007 = .table 7 true false ∧
    readEntry .leaf 0x4000005F = .competitor 95 false false false ∧
    readEntry .leaf 0x6000005F = .competitor 95 true false false ∧
    readEntry .aliasTarget 0x40000060 = .competitor 96 false false false ∧
    readEntry .leaf 0x80000005 = .aliasTo 5 false false ∧
    readEntry .aliasTarget 0xA0000005 = .aliasTo 5 true false :=
  ⟨fun x hx level => by
      simp only [List.mem_cons, List.not_mem_nil, or_false] at hx
      rcases hx with rfl | rfl | rfl | rfl | rfl | rfl | rfl | rfl | rfl <;>
        exact reading_reads level _ (by decide +kernel),
    by decide +kernel⟩

/-- WalkSteps: the flag update of a walk is in progress, after each kind of entry that asks for one. -/
theorem test_meets_seen_updates (x : Word) (level : Level) :
    let s := during (serving (.walking (walk level 8 (.updating x)))) .resolver (.flag 8 level true)
    s.resolver.serving = .walking (walk level 8 (.updating x)) ∧ (walk level 8 (.updating x)).phase = .updating x ∧
    s.tmp.inProgress = some (.resolver, .flag 8 level true) := ⟨rfl, rfl, rfl⟩

/-- WalkCompletion: equal and different generations; a cache with the code, one with room, and a full one. -/
theorem test_meets_WalkCompletion :
    let w := walk .leaf 0 .reading
    let other (n : Nat) : List CacheEntry := (List.range n).map fun i => ⟨BitVec.ofNat 24 i, .absent 0 .root⟩
    w.generation = State.reset.resolver.generation ∧ w.generation ≠ (State.reset.resolver.generation + 1) ∧
    (∀ z ∈ other 31, z.code ≠ w.record.code) ∧ (other 31).length < 32 ∧
    (∀ z ∈ other 32, z.code ≠ w.record.code) ∧ 32 ≤ (other 32).length ∧
    other 32 = other 31 ++ [⟨31, .absent 0 .root⟩] := by decide +kernel

/-- ResolverDeliveries, SettleTurnsAway: each outcome in hand, with 15 results in the Log Write Buffer and with
16. -/
theorem test_meets_deliveries (o : WalkOutcome) :
    (buffered (serving (.delivering intakeRec o)) 15).resolver.serving = .delivering intakeRec o ∧
    (buffered (serving (.delivering intakeRec o)) 15).publisher.buffer.length < 16 ∧
    16 ≤ (buffered (serving (.delivering intakeRec o)) 16).publisher.buffer.length ∧
    State.reset.resolver.serving = .idle ∧ State.reset.publisher.buffer.length < 16 :=
  ⟨rfl, by simp [buffered], by simp [buffered], rfl, by decide⟩

/-- TableMemoryWords: empty memory and memory with a word are canonical; words that carry SEEN, set and clear, and
words that do not. -/
theorem test_meets_TableMemoryWords :
    Memory.wf ([] : List Host.Cell) ∧ Memory.wf (writeWord [] 262143 0x4000005F) ∧
    (readWord (writeWord [] 262143 0x4000005F) 262143).getLsbD 29 = false ∧
    ((0x4000005F : Word).extractLsb' 30 2).toNat = 1 ∧ ((0xA0000005 : Word).extractLsb' 30 2).toNat = 2 ∧
    (0xA0000005 : Word).getLsbD 29 = true ∧ ((0x00000009 : Word).extractLsb' 30 2).toNat = 0 ∧
    3 / 4 ≠ (1 : WordAddr).toNat ∧ 8 / 4 ≠ (1 : WordAddr).toNat := by decide +kernel

/-- ArbiterGrant: no access and an access in progress; nobody asking; the Resolver asking below 12 entries and at
12, where the log writer asks too; the MU and a sweep asking alone. -/
theorem test_meets_ArbiterGrant :
    State.reset.tmp.inProgress = none ∧ (during State.reset .sweep (.read 0)).tmp.inProgress ≠ none ∧
    State.reset.tmp.following = [] ∧ (∀ q, State.reset.asked q = none) ∧
    (∀ n ∈ [11, 12],
      (buffered (serving (.walking (walk .root 5 .reading))) n).asked .resolver = some (.read 5) ∧
      (buffered (serving (.walking (walk .root 5 .reading))) n).asked .logWriter ≠ none ∧
      (buffered (serving (.walking (walk .root 5 .reading))) n).tmp.following = [] ∧
      (buffered (serving (.walking (walk .root 5 .reading))) n).publisher.buffer.length = n) ∧
    (let s := { State.reset with mu := { State.reset.mu with table := some (.read 7 0x44 3 2 []) } }
     s.asked .management = some (.read 3) ∧ s.asked .resolver = none ∧ s.asked .logWriter = none) ∧
    (let s := { State.reset with mu := { State.reset.mu with table := some (.write 7 0x48 3 [9]) } }
     s.asked .management = some (.write 3 9)) ∧
    (let s := { State.reset with sweep := { State.reset.sweep with state := .running } }
     s.asked .sweep ≠ none ∧ s.asked .resolver = none ∧ s.asked .logWriter = none ∧ s.asked .management = none) ∧
    (serving (.walking (walk .root 5 (.updating 9)))).asked .resolver = some (.flag 5 .root true) :=
  ⟨rfl, by decide +kernel, rfl, fun q => by cases q <;> decide +kernel, by and_intros <;> decide +kernel⟩

/-- A walk between two of its accesses, while a word of a TABLE_WRITE waits. -/
def betweenWalkAccesses : State :=
  let s := serving (.walking (walk .root 5 .reading))
  { s with
    mu := { s.mu with table := some (.write 7 0x48 3 [9]) }
    tmp := { s.tmp with following := [.resolver] } }

/-- The command's grant, as requester and access. -/
def grantedTo : Host.Outcome State Fault Refusal → Option (Requester × Access)
  | .next t => t.tmp.inProgress
  | .fault _ => none
  | .refused _ => none

/-- Between two accesses of a walk the arbiter may grant a TABLE_WRITE's (R61), or the walk's own. -/
theorem test_grant_between_walk_accesses :
    grantedTo (exec .arbiterGrant betweenWalkAccesses) =
      if Config.asksByGrant 0 0 then some (.resolver, .read 5) else some (.management, .write 3 9) := by
  cases h : Config.asksByGrant 0 0 <;>
    simp [exec, execArbiterGrant, grantedTo, betweenWalkAccesses, serving, walk, State.nextGrant, State.waiters,
      State.askers, State.hasAsked, State.waitingAccess, State.asked, grantOrder, Requester.place, Tmp.busyWith,
      Resolver.access?, Publisher.access?, Mu.access?, Sweep.access?, State.grant, Tmp.grant, State.reset,
      State.resetWith, h]

/-- ArbiterGrant: a requester whose next access follows an own one, beside one that asks. -/
theorem test_meets_following :
    betweenWalkAccesses.tmp.inProgress = none ∧ Requester.resolver ∈ betweenWalkAccesses.tmp.following ∧
    betweenWalkAccesses.asked .resolver = some (.read 5) ∧ Requester.management ∉ betweenWalkAccesses.tmp.following ∧
    betweenWalkAccesses.asked .management = some (.write 3 9) := by decide +kernel

/-- TableRequests: TABLE_READ of 1 and 6 words up to the last word, of 0 and 7 words, and past the end. -/
theorem test_meets_table_read :
    (∀ r ∈ [req 0x44 [3, 255, 255, 1], req 0x44 [3, 255, 250, 6], req 0x44 [0, 0, 0, 0], req 0x44 [0, 0, 0, 7],
      req 0x44 [3, 255, 251, 6]], BeginsAs (asking State.reset r) r [] 0x44 4) ∧
    (req 0x44 [3, 255, 250, 6]).nat 0 3 + 6 = 262144 ∧ (req 0x44 [3, 255, 251, 6]).nat 0 3 + 6 = 262145 :=
  ⟨by intro r hr; simp only [List.mem_cons, List.not_mem_nil, or_false] at hr
      rcases hr with rfl | rfl | rfl | rfl | rfl <;> exact ⟨begins_fresh .setup _, rfl, rfl⟩,
    by decide +kernel, by decide +kernel⟩

/-- TableRequests: TABLE_WRITE of 1 and 5 words, unguarded, guarded at its last word, and past the end. -/
theorem test_meets_table_write :
    (∀ x, Begins (asking (inSession x) (req 0x4B [255, 255, 1, 2, 3, 4])) (req 0x4B [255, 255, 1, 2, 3, 4]) []) ∧
    (req 0x4B [255, 255, 1, 2, 3, 4]).length.toNat = 2 + 4 * 1 ∧
    (0x4B - 72) * 65536 + (req 0x4B [255, 255, 1, 2, 3, 4]).nat 0 2 + 1 = 262144 ∧
    (req 0x48 ([3, 255] ++ List.replicate 20 1)).length.toNat = 2 + 4 * 5 ∧
    (req 0x48 ([3, 255] ++ List.replicate 20 1)).nat 0 2 + 1 = 1024 ∧
    (let g : Guard := ⟨true, false, 1, 1⟩
     g.enabled = true ∧ ((g.first ≤ 1024 / 1024 ∧ 1024 / 1024 ≤ g.last) ↔ g.invert = false) ∧
     ¬ ((g.first ≤ 1023 / 1024 ∧ 1023 / 1024 ≤ g.last) ↔ g.invert = false)) ∧
    State.reset.tmp.guard.enabled = false :=
  ⟨fun x => begins_fresh x _, by decide +kernel, by decide +kernel, by decide +kernel, by decide +kernel,
    by decide, rfl⟩

/-- TableRequests: the words of a request under way, the last one and one before it; and none under way. -/
theorem test_meets_table_words :
    (∀ op : TableOp, ∀ a : Access,
      let s := during { State.reset with mu := { State.reset.mu with table := some op } } .management a
      s.tmp.inProgress = some (.management, a) ∧ s.mu.table = some op) ∧
    (∀ a, State.reset.tmp.inProgress ≠ some (.management, a)) :=
  ⟨fun _ _ => ⟨rfl, rfl⟩, fun _ => by simp [State.reset, State.resetWith]⟩

/-- GuardSet: outside SETUP; first above last; and equal units with both flags set. -/
theorem test_meets_GuardSet :
    BeginsAs (asking (inSession .live) (req 0x4C [1, 1, 9, 8])) (req 0x4C [1, 1, 9, 8]) [] 0x4C 4 ∧
    BeginsAs (asking (inSession .setup) (req 0x4C [0, 1, 9, 9])) (req 0x4C [0, 1, 9, 9]) [] 0x4C 4 ∧
    (req 0x4C [1, 1, 9, 8]).nat 3 1 < (req 0x4C [1, 1, 9, 8]).nat 2 1 ∧
    (req 0x4C [0, 1, 9, 9]).nat 2 1 ≤ (req 0x4C [0, 1, 9, 9]).nat 3 1 ∧
    (req 0x4C [0, 1, 9, 9]).flag 0 = some false ∧ (req 0x4C [0, 1, 9, 9]).flag 1 = some true :=
  ⟨⟨begins_fresh .live _, rfl, rfl⟩, ⟨begins_fresh .setup _, rfl, rfl⟩, by decide +kernel, by decide +kernel,
    rfl, rfl⟩

/-! ## Hypotheses: settling and silence -/

/-- The part with the session LIVE, competitor 12 with a record and with a settle list, and a resolved passing of
loop 0 for it in hand. -/
def taking (x : SessionState) (r : Competitor) (l : List Pending) (free : Nat) : State :=
  let s := serving (.delivering intakeRec (.competitor 12 false true))
  { s with
    session := { s.session with state := x }
    settle := { s.settle with lists := s.settle.lists.set 12 l, free := free }
    engine := { s.engine with records := s.engine.records.set 12 r } }

/-- SettleTurnsAway, SettleKeeps: a passing in hand and room in the buffer, in every session state, with every
record; and none in hand. -/
theorem test_meets_taking (x : SessionState) (r : Competitor) (l : List Pending) (free : Nat) :
    (taking x r l free).resolver.serving = .delivering intakeRec (.competitor 12 false true) ∧
    (taking x r l free).publisher.buffer.length < 16 ∧ (taking x r l free).session.state = x ∧
    (taking x r l free).engine.records[(12 : CompNo)] = r ∧ (taking x r l free).settle.lists[(12 : CompNo)] = l ∧
    (∀ y n h k, State.reset.resolver.serving ≠ .delivering y (.competitor n h k)) :=
  ⟨rfl, Nat.zero_lt_succ 15, rfl, by simp [taking], by simp [taking],
    fun _ _ _ _ => by simp [State.reset, State.resetWith]⟩

/-- SettleTurnsAway: a passing one µs late; at the last applied time and line; within the dead-band by nothing, and
beyond it by one µs (loop 0, 1,000 ms). -/
theorem test_meets_late_and_duplicate :
    intakeRec.time < 3600251870 ∧ (3600251869 : Nat) ≤ intakeRec.time ∧
    (State.reset.course.lineOf 0).line = .loop 0 ∧ (State.reset.course.lineOf 0).backup = false ∧
    intakeRec.time - 3599251869 ≤ (State.reset.course.lineOf 0).deadBand * 1000 ∧
    (State.reset.course.lineOf 0).deadBand * 1000 < intakeRec.time - 3599251868 := by decide +kernel

/-- SettleKeeps: an entry at the end of the dead-band, one beyond it; six entries with a head at the passing's time
and one after it; fewer, with and without a free pool entry. -/
theorem test_meets_SettleKeeps :
    let p := passing 3600251869
    (∃ e ∈ [passing 3601251869], ¬ (e.line ≠ p.line ∨ 1000 * 1000 < ((p.time : Int) - e.time).natAbs)) ∧
    (∀ e ∈ [passing 3601251870], e.line ≠ p.line ∨ 1000 * 1000 < ((p.time : Int) - e.time).natAbs) ∧
    (∀ l : LoopNo, l ≠ 0 → ∀ e ∈ List.replicate 6 { p with loop := l, line := .loop l },
      e.line ≠ p.line ∨ 1000 * 1000 < ((p.time : Int) - e.time).natAbs) ∧
    6 ≤ (List.replicate 6 p).length ∧ (List.replicate 5 p).length < 6 ∧ (passing 5).time ≤ p.time ∧
    p.time < (passing 3600251870).time ∧ (taking .live {} [] 0).settle.free = 0 ∧ 0 < (taking .live {} [] 1).settle.free := by
  refine ⟨by decide +kernel, by decide +kernel, fun l hl e he => .inl ?_, by decide, by decide, by decide +kernel,
    by decide +kernel, rfl, Nat.zero_lt_one⟩
  rw [List.eq_of_mem_replicate he]
  simpa [passing] using hl

/-- Merging: a sorted list with equal times, older than the passing; survivors by the backup flag, the strength and
the time; a list of one line apart by more than the dead-band, with an entry that matches. -/
theorem test_meets_Merging :
    let p := { passing 500 with order := 3 }
    [passing 100, { passing 500 with order := 2 }].Pairwise
      (fun a b => a.time < b.time ∨ (a.time = b.time ∧ a.order ≤ b.order)) ∧
    (∀ e ∈ [passing 100, { passing 500 with order := 2 }], e.order < p.order) ∧
    p.backup = false ∧ { p with backup := true }.backup = true ∧ { p with strength := 209 }.strength < p.strength ∧
    (passing 499).time < p.time ∧ (passing 100).time ≤ p.time ∧
    [passing 100, passing 1002000].length ≤ 6 ∧ (passing 500).matches 1 (passing 1500) = true ∧
    (passing 500).matches 1 (passing 1501) = false ∧
    [passing 500, passing 1501].Pairwise (fun a b => a.line = p.line → b.line = p.line →
      1 * 1000 < ((a.time : Int) - b.time).natAbs) := by decide +kernel

/-- SettleExpiry: a head that is due to the µs, one that is due a µs later, an empty list, a full buffer; a list of
two with its first entry due. -/
theorem test_meets_SettleExpiry :
    let s := { clocked .locked 3600402 with settle := { State.reset.settle with
      lists := State.reset.settle.lists.set 12 [passing 3600252000, passing 3600252001] } }
    s.settle.lists[(12 : CompNo)] = passing 3600252000 :: [passing 3600252001] ∧
    (passing 3600252000).time + s.settle.interval * 1000 ≤ s.now ∧
    s.now < (passing 3600252001).time + s.settle.interval * 1000 ∧ s.publisher.buffer.length < 16 ∧
    s.settle.lists[(11 : CompNo)] = [] ∧ 16 ≤ (buffered s 16).publisher.buffer.length ∧ 96 ≤ 96 ∧
    s.settle.lists[(12 : CompNo)] = [passing 3600252000] ++ [passing 3600252001] :=
  ⟨by simp, by decide +kernel, by decide +kernel, Nat.zero_lt_succ 15, by decide +kernel, by simp [buffered],
    Nat.le_refl _, by simp⟩

/-- A racing competitor 12 whose last passing was applied at a time. -/
def racing (x : CompState) (time : Nat) : Competitor :=
  { state := x, entered := true, lastApplied := some ⟨time, .loop 0⟩, silenceTestOwed := true }

/-- SilentAlert, ParamWrite: a competitor past the limit of 300 s by a µs, and one at the limit. -/
theorem test_meets_SilentAlert :
    let s := withCar (clocked .locked 300001) 12 (racing .inPit 999)
    s.engine.records[(12 : CompNo)] = racing .inPit 999 ∧ s.engine.silenceLimit ≠ 0 ∧
    999 + s.engine.silenceLimit * 1000000 < s.now ∧ s.now ≤ 1000 + s.engine.silenceLimit * 1000000 ∧
    (12 : CompNo) ∈ s.silentCars ∧ State.reset.engine.records[(12 : CompNo)].lastApplied = none ∧ 96 ≤ 96 :=
  ⟨by simp [withCar], by decide, by decide +kernel, by decide +kernel, by decide +kernel, by decide +kernel,
    Nat.le_refl _⟩

/-! ## Hypotheses: the Competitor Engine -/

/-- The three-point course of section 5.9, with its pit lane and a trap. -/
def course3 : Course :=
  let loops : Vector LoopRec 32 := Vector.replicate 32 {}
  { points := ((Vector.replicate 16 none).set 0 (some ⟨0, some 1, some 20, 15000⟩)).set 1
      (some ⟨3, none, none, 20000⟩) |>.set 2 (some ⟨5, none, none, 20000⟩)
    count := 3
    loops := ((((((loops.set 0 { role := .primary 0 }).set 1 { role := .backup 0 }).set 20 { role := .pitAlt 0 }).set 3
      { role := .primary 1 }).set 5 { role := .primary 2 }).set 18 { pitRole := .entry }).set 22 { pitRole := .exit }
    traps := (Vector.replicate 4 none).set 0 (some ⟨10, 11, 20000⟩) }

/-- SettleTurnsAway: a loop of each course role and one of none, with the point of the role loaded. -/
theorem test_meets_LineTable :
    course3.RolesLoaded ∧ course3.points[(0 : PointNo)] = some ⟨0, some 1, some 20, 15000⟩ ∧
    course3.loops[(0 : LoopNo)].role = .primary 0 ∧ course3.loops[(1 : LoopNo)].role = .backup 0 ∧
    course3.loops[(20 : LoopNo)].role = .pitAlt 0 ∧ course3.loops[(31 : LoopNo)].role = .none := by decide +kernel

/-- Section 5.9: the backup of point 0 has a dead-band of 2,500 ms of its own, and its passings have that of loop 0. -/
theorem test_backup_takes_the_dead_band_of_its_point :
    ({ course3 with loops := course3.loops.set 1 { role := .backup 0, deadBand := 2500 } } : Course).lineOf 1 =
      ⟨.point 0, 1000, true⟩ := by decide +kernel

/-- The part with that course, in a session state, with competitor 12 at point 2. -/
def race (x : SessionState) (y : CompState) : State :=
  let s := withCar { inSession x with course := course3 } 12
    { racing y 0 with lastPoint := some ⟨2, 3572900077, .good⟩, laps := 16, lapStart := some 3510164200 }
  { s with order := { list := [12] } }

/-- An application for competitor 12 at a loop and a time. -/
def applied (l : LoopNo) (time : Nat) : Application :=
  ⟨.settled, 12, { passing time with loop := l, line := (course3.lineOf l).line }⟩

/-- NotedAndImplausible, FullApplication: the states in which a passing is noted and those in which it is applied in
full; a crossing a µs below the minimum transit of 15 s and one at it; no crossing at all. -/
theorem test_meets_applications :
    (race .standby .onTrack).session.state ≠ .live ∧ (race .standby .onTrack).session.state ≠ .chequered ∧
    (race .live .finished).engine.records[(12 : CompNo)].state = .finished ∧
    (race .chequered .inPit).session.state = .chequered ∧
    (race .chequered .inPit).engine.records[(12 : CompNo)].state = .inPit ∧
    (race .live .onTrack).engine.records[(12 : CompNo)].lastPoint = some ⟨2, 3572900077, .good⟩ ∧
    (race .live .onTrack).course.loops[(0 : LoopNo)].role = .primary 0 ∧
    (race .live .onTrack).course.loops[(20 : LoopNo)].role = .pitAlt 0 ∧
    (race .live .onTrack).course.loops[(20 : LoopNo)].pitRole ≠ .exit ∧
    (race .live .onTrack).course.loops[(18 : LoopNo)].role = .none ∧
    ((3587900076 : Nat) : Int) - 3572900077 < (course3.required 2 (skipped 3 2 0) : Int) ∧
    (course3.required 2 (skipped 3 2 0) : Int) ≤ ((3587900077 : Nat) : Int) - 3572900077 ∧
    course3.loops[(0 : LoopNo)].crossing = some 0 := by decide +kernel

/-- ApplicationResults and section 7.11: the crossing of the finish yields SECTOR 2 and LAP 17, with the manual's
times. -/
theorem test_finish_crossing :
    let s := race .live .onTrack
    let w := (s.ctx (applied 0 3600251869)).apply (s.work (applied 0 3600251869))
    w.results.map (fun r => (r.kind, r.point, r.lapNumber, r.value)) =
      [(.sector, some 2, none, some 273517), (.lap, none, some 17, some 900876)] ∧ w.car.laps = 17 ∧
    w.car.lastPoint = some ⟨0, 3600251869, .good⟩ := by decide +kernel

/-- Section 7.11: a crossing of point 1 with the finish skipped yields a merged SECTOR and an inferred LAP with no
time. -/
theorem test_finish_missed :
    let s := race .live .onTrack
    let a := applied 3 3632200077
    let w := (s.ctx a).apply (s.work a)
    w.results.map (fun r => (r.kind, r.span, r.flags.merged, r.value, r.flags.lineMissed)) =
      [(.sector, some 2, true, some 593000, false), (.lap, none, false, none, true)] ∧ w.car.lapStart = none := by
  decide +kernel

/-- Section 7.12: the trap, and the inferred pit entry at the pit-alternate loop. -/
theorem test_trap_and_inferred_entry :
    let s := withCar (race .live .onTrack) 12
      { racing .onTrack 0 with trapStarts := (Vector.replicate 4 none).set 0 (some ⟨5000000000, .good⟩), pitCount := 1,
                               lastPoint := some ⟨2, 4900000000, .good⟩ }
    let trap := (s.ctx (applied 11 5000223456)).apply (s.work (applied 11 5000223456))
    let pit := (s.ctx (applied 20 5012000000)).apply (s.work (applied 20 5012000000))
    trap.results.map (fun r => (r.kind, r.point, r.value)) = [(.trap, some 0, some 3222)] ∧
    pit.results.map Result.kind = [.pitIn, .sector, .lap] ∧ pit.car.state = .inPit ∧ pit.car.pitCount = 2 ∧
    (pit.results.map fun r => (r.flags.entryMissed, r.flags.pit, r.flags.pitLap)) =
      [(true, false, false), (false, true, false), (false, false, true)] := by decide +kernel

/-- PitMoves: an ENTRY, an EXIT, a pit-alternate and a main loop, with competitors ON_TRACK and IN_PIT. -/
theorem test_meets_PitMoves :
    (∀ y : CompState, ((race .live y).work (applied 18 0)).car.state = y) ∧
    ((race .live .onTrack).ctx (applied 18 0)).loop.pitRole = .entry ∧
    ((race .live .onTrack).ctx (applied 22 0)).loop.pitRole = .exit ∧
    ((race .live .onTrack).ctx (applied 20 0)).loop.role = .pitAlt 0 ∧
    ((race .live .onTrack).ctx (applied 20 0)).loop.pitRole = .none ∧
    ((race .live .onTrack).ctx (applied 1 0)).loop.role = .backup 0 ∧
    ((race .live .onTrack).ctx (applied 1 0)).loop.pitRole = .none :=
  ⟨fun y => by cases y <;> decide +kernel, by and_intros <;> decide +kernel⟩

/-- TrapMeasurement: an empty entry and a loaded one; times of 1, 2,000,000 and 2,000,001 µs and of 0; speeds at and
above 9,999, and one that rounds to 0. -/
theorem test_meets_TrapMeasurement :
    course3.traps[(1 : Fin 4)] = none ∧ course3.traps[(0 : Fin 4)] = some ⟨10, 11, 20000⟩ ∧
    (7 : Nat) < 8 ∧ (8 : Nat) ≤ 7 + 2000000 ∧ 2000007 ≤ 7 + 2000000 ∧ 7 + 2000000 < 2000008 ∧ (7 : Nat) ≤ 7 ∧
    (2 * 36000 * 9999 + 36000) / (2 * 36000) ≤ 9999 ∧ 9999 < (2 * 36000 * 10000 + 36000) / (2 * 36000) ∧
    2 * 36000 * 1 < 2000000 * 36001 := by decide +kernel

/-- CourseStep, SectorClosing: an entry at point 0 before and after the chequer is taken; a crossing without a last
point; crossings of point 0, of a later point, and of an earlier one with point 0 skipped. -/
theorem test_meets_CourseStep :
    let s := race .live .onTrack
    let w := s.work (applied 0 3600251869)
    ({} : Competitor).entered = false ∧ w.chequer ≠ .taken ∧ w.car.entered = true ∧
    { w.car with lastPoint := none }.lastPoint = none ∧ w.car.lastPoint = some ⟨2, 3572900077, .good⟩ ∧
    (((0 : Int) - 2 - 1) % 3).toNat = 0 ∧ (((1 : Int) - 2 - 1) % 3).toNat = 1 ∧ (1 : PointNo) ≤ 2 ∧
    (((2 : Int) - 1 - 1) % 3).toNat = 0 ∧ (1 : PointNo) < 2 ∧ (((2 : Int) - 2 - 1) % 3).toNat = 2 := by decide +kernel

/-- SectorClosing, LapCompletion: a best sector and a best lap that are beaten, and ones that are equalled. -/
theorem test_meets_bests :
    (27351792 : Nat) < 27351793 ∧ ¬ (27351792 : Nat) < 27351792 ∧ 1677721599 / 100 ≤ 16777215 ∧
    16777215 < 1677721600 / 100 ∧ (12 : CompNo) ∈ (race .live .onTrack).order.list.head? ∧
    (11 : CompNo) ∉ (race .live .onTrack).order.list.head? := by decide +kernel

/-! ## Hypotheses: the Running Order, the Publisher and the log -/

/-- OrderPlacing: a sorted list with equal laps, equal crossings and a competitor that is not in it; a competitor at
the head, behind one with its laps and behind one with more; a gap at 16,777,215 TU and one above it. -/
theorem test_meets_OrderPlacing :
    let rs := ((State.reset.engine.records.set 3 { laps := 5, lastCrossing := 100 }).set 12
      { laps := 5, lastCrossing := 1677721699 }).set 40 { laps := 5, lastCrossing := 1677721699 }
    [3, 12, 40, 41].Pairwise (fun a b : CompNo => rs[b].laps < rs[a].laps ∨ (rs[a].laps = rs[b].laps ∧
      (rs[a].lastCrossing < rs[b].lastCrossing ∨ (rs[a].lastCrossing = rs[b].lastCrossing ∧ a < b)))) := by
  decide +kernel

theorem test_meets_OrderPlacing_gaps :
    let rs := ((State.reset.engine.records.set 3 { laps := 5, lastCrossing := 100 }).set 12
      { laps := 5, lastCrossing := 1677721699 }).set 40 { laps := 4 }
    (⟨[3, 12, 40], none⟩ : Order).list = [] ++ (3 : CompNo) :: [12, 40] ∧ (3 : CompNo) ∉ [(12 : CompNo), 40] ∧
    (⟨[3, 12, 40], none⟩ : Order).list = ([] ++ [3]) ++ (12 : CompNo) :: [40] ∧
    rs[(12 : CompNo)].laps = rs[(3 : CompNo)].laps ∧
    (⟨[3, 12, 40], none⟩ : Order).list = ([3] ++ [12]) ++ (40 : CompNo) :: [] ∧
    rs[(40 : CompNo)].laps ≠ rs[(12 : CompNo)].laps ∧
    (rs[(12 : CompNo)].lastCrossing - rs[(3 : CompNo)].lastCrossing) / 100 = 16777215 ∧
    16777215 < (rs[(12 : CompNo)].lastCrossing + 100 - rs[(3 : CompNo)].lastCrossing) / 100 := by decide +kernel

/-- A Publisher with its log enabled over a ring of one unit at a write index, with results in the buffer and
pending. -/
def logging (index buffered waiting : Nat) (writer : Option LogWriter) : Publisher :=
  { logEnabled := true, writeIndex := index, writer := writer
    buffer := List.replicate buffered { kind := .pass, time := 0 }
    waiting := List.replicate waiting { kind := .pass, time := 0 } }

/-- Publication, WithheldResults: the buffer at 15 and 16, the pending list empty and at 95 and 96, the Result Queue at
63 and 64, the write index at the last entry and before it, the Hold List at 31 and 32. -/
theorem test_meets_Publication :
    let r : Result := { kind := .pass, time := 0 }
    (logging 0 15 0 none).waiting = [] ∧ (logging 0 15 0 none).buffer.length < 16 ∧
    16 ≤ (logging 0 16 0 none).buffer.length ∧ (logging 0 0 1 none).waiting ≠ [] ∧
    ({} : Publisher).logEnabled = false ∧ (logging 0 0 0 (some ⟨0, 7⟩)).writer ≠ none ∧
    (logging 126 0 0 none).writeIndex + 1 < (logging 126 0 0 none).logLength * 128 ∧
    (logging 127 0 0 none).logLength * 128 ≤ (logging 127 0 0 none).writeIndex + 1 ∧
    (List.replicate 63 r).length < 64 ∧ ¬ (List.replicate 64 r).length < 64 ∧
    r.flags.withheld = false ∧ { r.flags with withheld := true }.withheld = true ∧
    (List.replicate 31 r).length < 32 ∧ List.replicate 32 r = r :: List.replicate 31 r ∧
    32 ≤ (List.replicate 32 r).length ∧ (logging 0 16 95 none).waiting.length < 96 ∧
    96 ≤ (logging 0 16 96 none).waiting.length := by decide +kernel

/-- LogWriterAndLogSet: no write in progress; the seventh and the eighth word of an entry, with results pending and
none, with the log enabled and not, and the ring at its end. -/
theorem test_meets_log_writes :
    let s (p : Publisher) : State := { State.reset with
      publisher := p, tmp := { State.reset.tmp with inProgress := some (.logWriter, .write 7 0) } }
    (∀ a, State.reset.tmp.inProgress ≠ some (.logWriter, a)) ∧
    (s (logging 1 1 0 (some ⟨0, 6⟩))).tmp.inProgress = some (.logWriter, .write 7 0) ∧
    (s (logging 1 1 0 (some ⟨0, 6⟩))).publisher.writer = some ⟨0, 6⟩ ∧ (6 : Nat) < 7 ∧
    (s (logging 1 1 0 (some ⟨0, 7⟩))).publisher.writer = some ⟨0, 7⟩ ∧ (7 : Nat) ≤ 7 ∧
    (s (logging 1 16 1 (some ⟨0, 7⟩))).publisher.waiting = { kind := .pass, time := 0 } :: [] ∧
    (s (logging 1 2 0 (some ⟨0, 7⟩))).publisher.waiting = [] ∧
    (s { logging 1 1 0 (some ⟨0, 7⟩) with logEnabled := false }).publisher.logEnabled = false ∧
    (s (logging 1 1 0 (some ⟨0, 7⟩))).publisher.buffer.tail = [] ∧
    (s (logging 1 2 0 (some ⟨0, 7⟩))).publisher.buffer.tail ≠ [] ∧
    (s (logging 126 2 0 (some ⟨0, 7⟩))).publisher.writeIndex + 1 < 1 * 128 ∧
    1 * 128 ≤ (s (logging 127 2 0 (some ⟨0, 7⟩))).publisher.writeIndex + 1 := by
  refine ⟨fun a => by simp [State.reset, State.resetWith], ?_⟩
  decide +kernel

/-- LogWriterAndLogSet: LOG_SET in SETUP and LIVE; a ring of 64 units that ends at unit 255, one a unit too high, lengths
0 and 65; disabled; an empty buffer and one whose entry is not being written. -/
theorem test_meets_LogSet :
    (∀ x a b c, BeginsAs (asking (inSession x) (req 0x42 [a, b, c])) (req 0x42 [a, b, c]) [] 0x42 3) ∧
    (inSession .live).session.state ≠ .setup ∧
    (inSession .setup).session.state = .setup ∧ (req 0x42 [1, 192, 64]).flag 0 = some true ∧
    1 ≤ (req 0x42 [1, 255, 1]).nat 2 1 ∧ (req 0x42 [1, 192, 64]).nat 2 1 ≤ 64 ∧
    (req 0x42 [1, 192, 64]).nat 1 1 + (req 0x42 [1, 192, 64]).nat 2 1 ≤ 256 ∧
    256 < (req 0x42 [1, 193, 64]).nat 1 1 + (req 0x42 [1, 193, 64]).nat 2 1 ∧
    (req 0x42 [1, 0, 0]).nat 2 1 = 0 ∧ 64 < (req 0x42 [1, 0, 65]).nat 2 1 ∧
    (req 0x42 [0, 0, 0]).flag 0 = some false ∧ (inSession .setup).publisher.buffer = [] ∧
    (logging 0 1 0 none).writer = none ∧ (logging 0 1 0 none).buffer ≠ [] ∧
    (logging 0 1 0 (some ⟨0, 0⟩)).writer ≠ none := by
  refine ⟨fun x a b c => ⟨begins_fresh x _, rfl, rfl⟩, ?_⟩
  decide +kernel

/-- HoldListRequests: RELEASE and DISCARD of competitors 0 and 95 and of all; competitors 96 and 254. -/
theorem test_meets_HoldListRequests (code : Byte) (x : SessionState) (h : code = 0x40 ∨ code = 0x41) :
    let ask (n : Byte) := req code [n]
    (∀ n, BeginsAs (asking (inSession x) (ask n)) (ask n) [] code.toNat 1) ∧
    ((ask 0).byte 0).toNat = (0 : CompNo).val ∧ ((ask 95).byte 0).toNat = (95 : CompNo).val ∧
    ((ask 255).byte 0).toNat = 255 ∧ 96 ≤ ((ask 96).byte 0).toNat ∧ ((ask 96).byte 0).toNat ≠ 255 ∧
    96 ≤ ((ask 254).byte 0).toNat ∧ ((ask 254).byte 0).toNat ≠ 255 := by
  refine ⟨fun n => ⟨begins_fresh x _, rfl, rfl⟩, ?_⟩
  rcases h with h | h <;> subst h <;> decide +kernel

/-- R164 and R163: RELEASE publishes a held result with RELEASED; its reply gives the number. -/
theorem test_release_of_a_held_result :
    let r : Result := { kind := .pass, time := 5, competitor := some (12, 7), flags := { withheld := true } }
    let s := { inSession .live with publisher := { State.reset.publisher with hold := [r] } }
    (match exec .release (asking s (req 0x40 [12])) with
      | .next t => decide (t.publisher.hold = [] ∧ t.publisher.resultQueue = [{ r with
          sequence := some 0, flags := { withheld := true, released := true } }] ∧
          t.mu.replies = [⟨0, 7, 0x40, .ok, [1]⟩])
      | .fault _ => false
      | .refused _ => false) = true := by decide +kernel

/-! ## Hypotheses: requests -/

/-- RequestHeaders: a code that names no request; the wrong lengths of a request and of TABLE_WRITE; flag bytes of 0
and 1; the last fields of the parameters. -/
theorem test_meets_RequestHeaders :
    (req 0x00 []).code.toNat ∉ requestCodes ∧ (req 0xFF []).code.toNat ∉ requestCodes ∧
    (.slotMapWrite, 0x01, 3) ∈ requestRows ∧ (req 0x01 [0, 0]).code.toNat = 0x01 ∧
    (req 0x01 [0, 0]).length.toNat ≠ 3 ∧ 72 ≤ (req 0x48 []).code.toNat ∧ (req 0x4B []).code.toNat ≤ 75 ∧
    (req 0x48 [0, 0, 0, 0, 0]).length.toNat ∉ [6, 10, 14, 18, 22] ∧
    (req 0x4B []).length.toNat ∉ [6, 10, 14, 18, 22] ∧ 21 < 22 ∧ 20 + 1 < 22 ∧ 19 + 2 < 22 ∧
    ((req 0x42 [0, 0, 1]).byte 0).toNat = 0 ∧ ((req 0x42 [1, 0, 1]).byte 0).toNat = 1 := by decide +kernel

/-- RequestHeaders: whatever a byte of 2 to 255 means, a flag byte is clear, is set or means neither. -/
theorem test_flag_bytes (r : Request) (i : Nat) :
    r.flag i = none ∨ r.flag i = some true ∨ r.flag i = some false := by
  cases r.flag i with
  | none => exact .inl rfl
  | some b => cases b <;> simp

/-- RequestHeaders: the four requests with flag bytes are begun in SETUP. -/
theorem test_meets_flag_requests (a b c d e f g : Byte) :
    BeginsAs (asking (inSession .setup) (req 0x22 [a, b, c, d, e, f, g])) (req 0x22 [a, b, c, d, e, f, g]) [] 0x22 7 ∧
    BeginsAs (asking (inSession .setup) (req 0x23 [a, b, c, d, e, f, g])) (req 0x23 [a, b, c, d, e, f, g]) [] 0x23 7 ∧
    BeginsAs (asking (inSession .setup) (req 0x42 [a, b, c])) (req 0x42 [a, b, c]) [] 0x42 3 ∧
    BeginsAs (asking (inSession .setup) (req 0x4C [a, b, c, d])) (req 0x4C [a, b, c, d]) [] 0x4C 4 :=
  ⟨⟨begins_fresh .setup _, rfl, rfl⟩, ⟨begins_fresh .setup _, rfl, rfl⟩, ⟨begins_fresh .setup _, rfl, rfl⟩,
    ⟨begins_fresh .setup _, rfl, rfl⟩⟩

/-- RequestWaits: a table request in progress, a full Reply Queue, a pending list of 33 results, another code; and an
empty queue. -/
theorem test_meets_RequestWaits (s : State) (r : Request) :
    (asking s r).mu.queue = r :: [] ∧ State.reset.mu.queue = [] ∧
    ({ s.mu with table := some (.read 0 0x44 0 1 []) } : Mu).table ≠ none ∧
    4 ≤ ({ s.mu with replies := List.replicate 4 ⟨0, 0, 0, .ok, []⟩ } : Mu).replies.length ∧
    (0x39 : Byte).toNat ∈ resultCodes ∧ 32 < (logging 0 16 33 none).waiting.length ∧
    (req 0x02 []).code.toNat ≠ 0x01 ∧ (req 0x47 []).code.toNat < 72 ∧ 75 < (req 0x4C []).code.toNat ∧
    (req 0x01 []).code.toNat ∈ requestCodes ∧ (req 0x06 []).code.toNat ≠ 5 := by
  refine ⟨rfl, rfl, by simp, by simp, ?_⟩
  decide +kernel

/-- SlotMapWrite: both directions, slots 0 and 39, every action; a direction of 2, a slot of 40, an action of 6. -/
theorem test_meets_SlotMapWrite (x : SessionState) :
    let ask (a b c : Byte) := req 0x01 [a, b, c]
    (∀ a b c, BeginsAs (asking (inSession x) (ask a b c)) (ask a b c) [] 0x01 3) ∧
    (ask 0 39 0).nat 0 1 = 0 ∧ (ask 1 39 0).nat 0 1 = 1 ∧ (ask 1 39 0).nat 1 1 = (39 : Slot).val ∧
    (∀ a : Action, (ask 0 0 (BitVec.ofNat 8 a.code)).nat 2 1 = a.code) ∧ 1 < (ask 2 0 0).nat 0 1 ∧
    40 ≤ (ask 0 40 0).nat 1 1 ∧ 5 < (ask 0 0 6).nat 2 1 := by
  refine ⟨fun a b c => ⟨begins_fresh x _, rfl, rfl⟩, by decide +kernel, by decide +kernel, by decide +kernel,
    fun a => ?_, by and_intros <;> decide +kernel⟩
  cases a <;> decide +kernel

/-- ResolverRequests: the indexes 0, 1,023 and 1,024; the modes 0 to 4, and a code; another command. -/
theorem test_meets_ResolverRequests (x : SessionState) :
    (∀ a b, BeginsAs (asking (inSession x) (req 0x10 [a, b])) (req 0x10 [a, b]) [] 0x10 2) ∧
    (∀ a b c d, BeginsAs (asking (inSession x) (req 0x11 [a, b, c, d])) (req 0x11 [a, b, c, d]) [] 0x11 4) ∧
    (req 0x10 [3, 255]).nat 0 2 = (1023 : TableIndex).toNat ∧ (req 0x10 [0, 0]).nat 0 2 = (0 : TableIndex).toNat ∧
    1023 < (req 0x10 [4, 0]).nat 0 2 ∧ (req 0x11 [1, 0, 0, 0]).nat 0 1 = 1 ∧ (req 0x11 [2, 0, 0, 0]).nat 0 1 = 2 ∧
    (req 0x11 [3, 0x3A, 0x15, 0xC2]).nat 0 1 = 3 ∧ (req 0x11 [3, 0x3A, 0x15, 0xC2]).nat 1 3 = 0x3A15C2 ∧
    (req 0x11 [0, 0, 0, 0]).nat 0 1 = 0 ∧ 3 < (req 0x11 [4, 0, 0, 0]).nat 0 1 ∧
    exec .searchingMarkPeriod (inSession x) = .next (inSession x) ∧ Instr.searchingMarkPeriod ≠ .rootSet := by
  refine ⟨fun a b => ⟨begins_fresh x _, rfl, rfl⟩, fun a b c d => ⟨begins_fresh x _, rfl, rfl⟩, ?_⟩
  and_intros <;> first | decide +kernel | rfl

/-- CoursePointLoad, CourseClear: SETUP and STANDBY; point 15 and 16, loops 31, 32, 254 and none, minimum transits at
600,000 and above it; a loop named twice, one of another point, and one of the point itself. -/
theorem test_meets_CoursePointLoad (x : SessionState) :
    let ask (a b c d e f g : Byte) := req 0x20 [a, b, c, d, e, f, g]
    (∀ a b c d e f g, BeginsAs (asking (inSession x) (ask a b c d e f g)) (ask a b c d e f g) [] 0x20 7) ∧
    BeginsAs (asking (inSession x) (req 0x21 [])) (req 0x21 []) [] 0x21 0 ∧
    (inSession .standby).session.state ≠ .setup ∧ (ask 15 31 31 255 9 0x27 0xC0).nat 0 1 = (15 : PointNo).val ∧
    (ask 15 31 31 255 9 0x27 0xC0).nat 1 1 = (31 : LoopNo).val ∧ (ask 0 0 31 255 0 0 0).nat 2 1 = (31 : LoopNo).val ∧
    (ask 0 0 31 255 0 0 0).nat 3 1 = 255 ∧ (ask 0 0 31 255 9 0x27 0xC0).nat 4 3 ≤ 600000 ∧
    600000 < (ask 0 0 31 255 9 0x27 0xC1).nat 4 3 ∧ 16 ≤ (ask 16 0 31 255 0 0 0).nat 0 1 ∧
    32 ≤ (ask 0 32 31 255 0 0 0).nat 1 1 ∧ 32 ≤ (ask 0 0 32 255 0 0 0).nat 2 1 ∧
    (ask 0 0 254 254 0 0 0).nat 2 1 ≠ 255 ∧ 32 ≤ (ask 0 0 254 254 0 0 0).nat 3 1 ∧
    ¬ (([0, 0] : List LoopNo)).Nodup ∧ ([0, 1, 20] : List LoopNo).Nodup ∧
    course3.loops[(0 : LoopNo)].role.index = some 0 ∧ course3.loops[(0 : LoopNo)].role.index ≠ some 1 ∧
    course3.loops[(31 : LoopNo)].role.index = none := by
  refine ⟨fun a b c d e f g => ⟨begins_fresh x _, rfl, rfl⟩, ⟨begins_fresh x _, rfl, rfl⟩, ?_⟩
  decide +kernel

/-- Section 5.9: COURSE_POINT_LOAD of the finish gives its loops their roles and replies with the count. -/
theorem test_course_point_load :
    (match exec .coursePointLoad (asking (inSession .setup) (req 0x20 [0, 0, 1, 20, 0, 0x3A, 0x98])) with
      | .next t => decide (t.course.points[(0 : PointNo)] = some ⟨0, some 1, some 20, 15000⟩ ∧ t.course.count = 1 ∧
          t.course.loops[(1 : LoopNo)].role = .backup 0 ∧ t.course.loops[(20 : LoopNo)].role = .pitAlt 0 ∧
          t.course.loops[(2 : LoopNo)].role = .none ∧ t.mu.replies = [⟨0, 7, 0x20, .ok, [1]⟩])
      | .fault _ => false
      | .refused _ => false) = true := by decide +kernel

/-- LoopAndTrapRequests: the loops 31 and 32, pit roles 0 to 4, dead-bands of 10,000 and above; a change of the window
only; traps 3 and 4, loops 31 and 32, distances of 0, 1, 200,000 and above. -/
theorem test_meets_LoopAndTrapRequests (x : SessionState) :
    let conf (a b c d e f g : Byte) := req 0x22 [a, b, c, d, e, f, g]
    let trap (a b c d e f g : Byte) := req 0x23 [a, b, c, d, e, f, g]
    (∀ a b c d e f g, BeginsAs (asking (inSession x) (conf a b c d e f g)) (conf a b c d e f g) [] 0x22 7 ∧
      BeginsAs (asking (inSession x) (trap a b c d e f g)) (trap a b c d e f g) [] 0x23 7) ∧
    (conf 31 1 1 24 40 0x27 0x10).nat 0 1 = (31 : LoopNo).val ∧ 32 ≤ (conf 32 1 1 24 40 0 0).nat 0 1 ∧
    (∀ p : PitRole, (conf 0 0 (BitVec.ofNat 8 p.code) 24 40 0 0).nat 2 1 = p.code) ∧
    (conf 0 1 0 24 40 0 0).nat 2 1 = 0 ∧ 3 < (conf 0 1 4 24 40 0 0).nat 2 1 ∧
    (conf 31 1 1 24 40 0x27 0x10).nat 5 2 ≤ 10000 ∧ 10000 < (conf 0 1 1 24 40 0x27 0x11).nat 5 2 ∧
    (conf 0 1 1 24 40 0 0).flag 1 = some true ∧ (conf 0 0 1 24 40 0 0).flag 1 = some false ∧
    (PitRole.none = (inSession .live).course.loops[(0 : LoopNo)].pitRole ∧
      (conf 0 1 1 48 40 3 0xE8).nat 5 2 = (inSession .live).course.loops[(0 : LoopNo)].deadBand) ∧
    ¬ (PitRole.entry = (inSession .live).course.loops[(0 : LoopNo)].pitRole) ∧
    (trap 3 1 31 31 3 0x0D 0x40).nat 0 1 = (3 : Fin 4).val ∧ 4 ≤ (trap 4 0 0 0 0 0 0).nat 0 1 ∧
    (trap 3 1 31 31 3 0x0D 0x40).nat 2 1 = (31 : LoopNo).val ∧ 32 ≤ (trap 0 1 32 0 0 0 1).nat 2 1 ∧
    32 ≤ (trap 0 1 0 32 0 0 1).nat 3 1 ∧ (trap 0 1 0 0 0 0 0).nat 4 3 = 0 ∧ 1 ≤ (trap 0 1 0 0 0 0 1).nat 4 3 ∧
    (trap 3 1 31 31 3 0x0D 0x40).nat 4 3 ≤ 200000 ∧ 200000 < (trap 0 1 0 0 3 0x0D 0x41).nat 4 3 ∧
    (trap 0 0 0 0 0 0 0).flag 1 = some false ∧ (trap 0 1 0 0 0 0 1).flag 1 = some true := by
  refine ⟨fun a b c d e f g => ⟨⟨begins_fresh x _, rfl, rfl⟩, ⟨begins_fresh x _, rfl, rfl⟩⟩, by decide +kernel,
    by decide +kernel, fun p => ?_, ?_⟩
  · cases p <;> decide +kernel
  · decide +kernel

/-- ReadRequests: each request, with its first page, and a page that it does not have; ORDER_READ at places 1 and 96 and
at 0 and 97, for 1 and 6 entries and for 0 and 7; STATUS_READ with its clear option and without it. -/
theorem test_meets_ReadRequests (x : SessionState) :
    (∀ a b, BeginsAs (asking (inSession x) (req 0x24 [a, b])) (req 0x24 [a, b]) [] 0x24 2 ∧
      BeginsAs (asking (inSession x) (req 0x3F [a, b])) (req 0x3F [a, b]) [] 0x3F 2) ∧
    (∀ a b c, BeginsAs (asking (inSession x) (req 0x04 [a, b, c])) (req 0x04 [a, b, c]) [] 0x04 3 ∧
      BeginsAs (asking (inSession x) (req 0x03 [a, b, c])) (req 0x03 [a, b, c]) [] 0x03 3) ∧
    (course3.page 1 15).isSome = true ∧ course3.page 1 16 = none ∧ course3.page 0 0 = none ∧
    (course3.page 3 3).isSome = true ∧ course3.page 3 4 = none ∧
    1 ≤ (req 0x3F [1, 6]).nat 0 1 ∧ (req 0x3F [96, 1]).nat 0 1 ≤ 96 ∧ (req 0x3F [0, 1]).nat 0 1 = 0 ∧
    96 < (req 0x3F [97, 1]).nat 0 1 ∧ (req 0x3F [1, 6]).nat 1 1 ≤ 6 ∧ 1 ≤ (req 0x3F [96, 1]).nat 1 1 ∧
    (req 0x3F [1, 0]).nat 1 1 = 0 ∧ 6 < (req 0x3F [1, 7]).nat 1 1 ∧
    (req 0x04 [95, 1, 0]).nat 0 1 = (95 : CompNo).val ∧ 96 ≤ (req 0x04 [96, 1, 0]).nat 0 1 ∧
    (State.reset.competitorPage 95 1 0).isSome = true ∧ State.reset.competitorPage 95 1 2 = none ∧
    (State.reset.statusPage 5 2).isSome = true ∧ State.reset.statusPage 5 3 = none ∧
    (State.reset.statusPage 8 103).isSome = true ∧ State.reset.statusPage 8 40 = none ∧
    (req 0x03 [5, 0, 0]).flag 2 = some false ∧ (req 0x03 [5, 0, 1]).flag 2 = some true ∧
    (req 0x03 [5, 0, 1]).nat 0 1 = 5 ∧ (req 0x03 [4, 0, 1]).nat 0 1 ≠ 5 := by
  refine ⟨fun a b => ⟨⟨begins_fresh x _, rfl, rfl⟩, ⟨begins_fresh x _, rfl, rfl⟩⟩,
    fun a b c => ⟨⟨begins_fresh x _, rfl, rfl⟩, ⟨begins_fresh x _, rfl, rfl⟩⟩, ?_⟩
  decide +kernel

/-- RosterRequests, LapAdjust: competitors 95 and 96, race numbers 999 and 1,000, classes 7 and 8; a competitor in each
state, entered and not; each session state; deltas at and beyond 10; laps at 0 and 65,535. -/
theorem test_meets_RosterRequests (x : SessionState) (y : CompState) :
    let write (a b c d : Byte) := req 0x30 [a, b, c, d]
    (∀ a b c d, BeginsAs (asking (race x y) (write a b c d)) (write a b c d) [] 0x30 4) ∧
    (∀ a, BeginsAs (asking (race x y) (req 0x31 [a])) (req 0x31 [a]) [] 0x31 1 ∧
      BeginsAs (asking (race x y) (req 0x32 [a])) (req 0x32 [a]) [] 0x32 1 ∧
      BeginsAs (asking (race x y) (req 0x33 [a])) (req 0x33 [a]) [] 0x33 1) ∧
    (∀ a b, BeginsAs (asking (race x y) (req 0x34 [a, b])) (req 0x34 [a, b]) [] 0x34 2) ∧
    (race x y).session.state = x ∧ (race x y).engine.records[(12 : CompNo)].state = y ∧
    (race x y).engine.records[(12 : CompNo)].entered = true ∧
    (race x y).engine.records[(95 : CompNo)].state = .inactive ∧
    (write 95 3 0xE7 7).nat 0 1 = (95 : CompNo).val ∧ (write 95 3 0xE7 7).nat 1 2 ≤ 999 ∧
    (write 95 3 0xE7 7).nat 3 1 ≤ 7 ∧ 96 ≤ (write 96 0 0 0).nat 0 1 ∧ 999 < (write 0 3 0xE8 0).nat 1 2 ∧
    7 < (write 0 0 0 8).nat 3 1 ∧ (req 0x32 [12]).nat 0 1 = (12 : CompNo).val ∧ 96 ≤ (req 0x32 [96]).nat 0 1 ∧
    ((req 0x34 [12, 10]).byte 1).toInt = 10 ∧ ((req 0x34 [12, 246]).byte 1).toInt = -10 ∧
    max (-10) (min 10 ((req 0x34 [12, 127]).byte 1).toInt) = 10 ∧
    max (-10) (min 10 ((req 0x34 [12, 128]).byte 1).toInt) = -10 := by
  refine ⟨fun a b c d => ⟨begins_asking _ _ rfl (Nat.zero_lt_succ 3) (Nat.zero_le 32), rfl, rfl⟩,
    fun a => ⟨⟨begins_asking _ _ rfl (Nat.zero_lt_succ 3) (Nat.zero_le 32), rfl, rfl⟩,
      ⟨begins_asking _ _ rfl (Nat.zero_lt_succ 3) (Nat.zero_le 32), rfl, rfl⟩,
      ⟨begins_asking _ _ rfl (Nat.zero_lt_succ 3) (Nat.zero_le 32), rfl, rfl⟩⟩,
    fun a b => ⟨begins_asking _ _ rfl (Nat.zero_lt_succ 3) (Nat.zero_le 32), rfl, rfl⟩, rfl, ?_, ?_, ?_, ?_⟩
  · simp [race, withCar, racing]
  · simp [race, withCar, racing]
  · simp [race, withCar, inSession, State.reset, State.resetWith]
  · decide +kernel

/-- R133: laps of 16 adjusted by -20 are reduced by 10, and the reply is CLAMPED with the laps and the position. -/
theorem test_lap_adjust :
    (match exec .lapAdjust (asking (race .live .onTrack) (req 0x34 [12, 236])) with
      | .next t => decide (t.engine.records[(12 : CompNo)].laps = 6 ∧ t.mu.replies = [⟨0, 7, 0x34, .clamped, [0, 6, 1]⟩] ∧
          t.publisher.resultQueue.map Result.extra = [.state .adjust none (some (-10))])
      | .fault _ => false
      | .refused _ => false) = true := by decide +kernel

/-! ## Hypotheses: Session Control and parameters -/

/-- SessionStart: OPEN with each finding and with a valid course, at the boundary of the count; GREEN in its modes. -/
theorem test_meets_SessionStart (x : SessionState) :
    BeginsAs (asking (inSession x) (req 0x38 [])) (req 0x38 []) [] 0x38 0 ∧
    (∀ a, BeginsAs (asking (inSession x) (req 0x39 [a])) (req 0x39 [a]) [] 0x39 1) ∧
    course3.validity = .valid ∧ ({} : Course).validity = .noFinish ∧
    ({ course3 with count := 4 } : Course).validity = .pointMissing 3 ∧
    ({ course3 with traps := course3.traps.set 3 (some ⟨5, 5, 1⟩) } : Course).validity = .trapSelf 3 ∧
    ({ course3 with points := course3.points.set 0 none } : Course).validity = .noFinish ∧
    course3.count ≠ 0 ∧ course3.count ≤ 16 ∧ course3.points[(0 : PointNo)] ≠ none ∧
    (req 0x39 [0]).nat 0 1 = 0 ∧ (req 0x39 [1]).nat 0 1 = 1 ∧ (req 0x39 [2]).nat 0 1 = 2 ∧
    2 < (req 0x39 [3]).nat 0 1 := by
  refine ⟨⟨begins_fresh x _, rfl, rfl⟩, fun a => ⟨begins_fresh x _, rfl, rfl⟩, ?_⟩
  decide +kernel

/-- R139 and R140: the manual's course opens, and GREEN with GRID enters the competitor in STANDBY. -/
theorem test_open_and_green :
    (match exec .openSession (asking (race .setup .standby) (req 0x38 [])) with
      | .next t => decide (t.session.state = .standby ∧ t.mu.replies = [⟨0, 7, 0x38, .ok, [4, 255]⟩])
      | .fault _ => false
      | .refused _ => false) = true ∧
    (match exec .green (asking { race .standby .standby with order := {} } (req 0x39 [2])) with
      | .next t => decide (t.session.state = .live ∧ t.order.list = [12] ∧
          t.engine.records[(12 : CompNo)].state = .onTrack ∧ t.mu.replies = [⟨0, 7, 0x39, .ok, [1]⟩])
      | .fault _ => false
      | .refused _ => false) = true := by decide +kernel

/-- SessionRunAndEnd: each request in each session state, neutral and not. -/
theorem test_meets_SessionRunAndEnd (x : SessionState) (neutral : Bool) :
    (∀ code : Byte, let s := { inSession x with session := { (inSession x).session with neutral := neutral } }
      BeginsAs (asking s (req code [])) (req code []) [] code.toNat 0 ∧ s.session.state = x ∧
        s.session.neutral = neutral) ∧
    (x = .setup ∨ x = .closed ∨ x = .standby ∨ x = .live ∨ x = .chequered) := by
  refine ⟨fun code => ⟨⟨begins_asking _ _ rfl (Nat.zero_lt_succ 3) (Nat.zero_le 32), rfl, rfl⟩, rfl, rfl⟩, ?_⟩
  cases x <;> simp

/-- ParamWrite: the parameters 0, 1 to 5 and 6, and values at the ends of the ranges and beyond them. -/
theorem test_meets_ParamWrite (x : SessionState) :
    (∀ a b c, BeginsAs (asking (inSession x) (req 0x02 [a, b, c])) (req 0x02 [a, b, c]) [] 0x02 3) ∧
    (req 0x02 [0, 0, 0]).nat 0 1 = 0 ∧ (req 0x02 [1, 0, 0]).nat 0 1 = 1 ∧ (req 0x02 [2, 0, 0]).nat 0 1 = 2 ∧
    (req 0x02 [3, 0, 0]).nat 0 1 = 3 ∧ (req 0x02 [4, 0, 0]).nat 0 1 = 4 ∧ (req 0x02 [5, 0, 0]).nat 0 1 = 5 ∧
    5 < (req 0x02 [6, 0, 0]).nat 0 1 ∧ min ((req 0x02 [1, 7, 0xD0]).nat 1 2) 2000 = (req 0x02 [1, 7, 0xD0]).nat 1 2 ∧
    min ((req 0x02 [1, 7, 0xD1]).nat 1 2) 2000 ≠ (req 0x02 [1, 7, 0xD1]).nat 1 2 ∧
    (req 0x02 [2, 0, 0]).nat 1 2 = 0 ∧ (req 0x02 [2, 0, 9]).nat 1 2 < 10 ∧
    (req 0x02 [3, 0xFF, 0xFF]).nat 1 2 = 65535 := by
  refine ⟨fun a b c => ⟨begins_fresh x _, rfl, rfl⟩, ?_⟩
  decide +kernel

/-- R34: a residual tolerance of 9 µs comes into force as 10 µs, and the reply is CLAMPED. -/
theorem test_param_clamped :
    (match exec .paramWrite (asking (inSession .setup) (req 0x02 [5, 0, 9])) with
      | .next t => decide (t.cau.residualTolerance = 10 ∧ t.mu.replies = [⟨0, 7, 0x02, .clamped, [0, 10]⟩])
      | .fault _ => false
      | .refused _ => false) = true := by decide +kernel

/-! ## Hypotheses: the sweep -/

/-- A sweep in a state, at an entry of the root table with an access due, and that access in progress. -/
def sweeping (x : SweepState) (m : SweepMode) (p : SweepPos) : State :=
  { State.reset with
    resolver := { State.reset.resolver with root := some 0 }
    sweep := { State.reset.sweep with state := x, mode := some m, pos := p }
    tmp := { State.reset.tmp with inProgress := some (.sweep, .read 0) } }

/-- SweepRequests: each request in each sweep state; SWEEP_START with both modes, with 0 and with 3, with no root, and
with an access of a stopped sweep in progress. -/
theorem test_meets_SweepRequests (x : SweepState) :
    let s := sweeping x .audit {}
    (∀ a, BeginsAs (asking s (req 0x50 [a])) (req 0x50 [a]) [] 0x50 1) ∧
    (∀ code : Byte, BeginsAs (asking s (req code [])) (req code []) [] code.toNat 0) ∧ s.sweep.state = x ∧
    s.resolver.root = some 0 ∧ State.reset.resolver.root = none ∧
    (asking s (req 0x50 [1])).tmp.inProgress = some (.sweep, .read 0) ∧
    (∀ a, State.reset.tmp.inProgress ≠ some (.sweep, a)) ∧ (req 0x50 [0]).nat 0 1 = 0 ∧
    2 < (req 0x50 [3]).nat 0 1 ∧ (req 0x50 [1]).nat 0 1 = SweepMode.clearSeen.code ∧
    (req 0x50 [2]).nat 0 1 = SweepMode.audit.code := by
  refine ⟨fun a => ⟨begins_asking _ _ rfl (Nat.zero_lt_succ 3) (Nat.zero_le 32), rfl, rfl⟩,
    fun code => ⟨begins_asking _ _ rfl (Nat.zero_lt_succ 3) (Nat.zero_le 32), rfl, rfl⟩, rfl, rfl, rfl, rfl,
    fun a => by simp [State.reset, State.resetWith], ?_⟩
  decide +kernel

/-- SweepCompletions: an access of the sweep in progress, due as each kind, with the sweep running and stopped; a
position with an entry after it, and the last; an access of a stopped sweep that the next SWEEP_START has outrun. -/
theorem test_meets_SweepCompletions :
    (∀ x p, (sweeping x .audit p).tmp.inProgress = some (.sweep, .read 0) ∧ (sweeping x .audit p).sweep.stale = none ∧
      (sweeping x .audit p).sweep.state = x ∧ (sweeping x .audit p).sweep.pos = p) ∧
    ((sweeping .running .audit {}).sweep.moved 0).isSome = true ∧
    (sweeping .running .audit ⟨255, none, none, .entry⟩).sweep.moved 0 = none ∧
    (⟨3, none, none, .flagUpdate none⟩ : SweepPos).next = .flagUpdate none ∧
    (⟨3, none, none, .target 5⟩ : SweepPos).next = .target 5 ∧
    (match step { asking (sweeping .idle .audit ⟨3, none, none, .target 5⟩) (req 0x50 [1]) with pending := [.sweepStart] } with
      | .next t => decide (t.sweep.stale = some ⟨.audit, .root, .target 5⟩ ∧ t.tmp.inProgress = some (.sweep, .read 0))
      | .fault _ => false
      | .refused _ => false) = true := by
  refine ⟨fun x p => ⟨rfl, rfl, rfl, rfl⟩, ?_⟩
  decide +kernel

/-- SweepReporting: the next access at each level and of each kind, and where the sweep stands after it. -/
theorem test_meets_SweepAccesses :
    let x (p : SweepPos) := (sweeping .running .audit p).sweep
    (∀ p, (x p).pos = p) ∧
    (x ⟨3, some (6, 7), some (8, 9), .entry⟩).pos.access 5 = .read (8 * 256 + 9) ∧
    (x ⟨3, some (6, 7), none, .flagUpdate none⟩).pos.access 5 = .flag (6 * 256 + 7) .branch false ∧
    (x ⟨255, none, none, .entry⟩).pos.access 1023 = .read 262143 ∧ (x ⟨3, none, none, .target 5⟩).pos.access 5 = .read 5 ∧
    (x ⟨3, some (6, 7), some (8, 9), .entry⟩).context.move 0x80000123 = .stay (.target 0x123) ∧
    (x ⟨3, none, none, .entry⟩).context.move 0x40000005 = .move (some 5) := by
  refine ⟨fun _ => rfl, ?_⟩
  decide +kernel

/-- SweepReporting: at every level an absent entry, a bad one, one that names a table and one of each leaf kind, with the
SEEN flag clear and set; competitors 95 and 96; a count and fault addresses below and at their ends; positions at the
entries 254 and 255 of each level. -/
theorem test_meets_SweepReporting :
    readEntry .root 0x00000007 = .absent 7 ∧ readEntry .branch 0x80000000 = .bad ∧
    readEntry .branch 0x60000005 = .table 5 true false ∧ readEntry .root 0x40000005 = .table 5 false false ∧
    readEntry .leaf 0x4000005F = .competitor 95 false false false ∧ ((95 : CompNo).val = 95) ∧
    readEntry .leaf 0x60000060 = .competitor 96 true false false ∧ 96 ≤ 96 ∧
    readEntry .leaf 0xA0000123 = .aliasTo 0x123 true false ∧ readEntry .leaf 0x80000123 = .aliasTo 0x123 false false ∧
    readEntry .aliasTarget 0x00000007 = .absent 7 ∧ readEntry .aliasTarget 0x80000123 = .aliasTo 0x123 false false ∧
    readEntry .aliasTarget 0xC0000000 = .bad ∧ readEntry .aliasTarget 0x40000060 = .competitor 96 false false false ∧
    seenUpdate .leaf false 0x4000005F = none ∧ seenUpdate .leaf false 0x6000005F ≠ none ∧
    (254 : Byte) ≠ 255 ∧ (List.replicate 7 (0 : WordAddr)).length < 8 ∧
    ¬ (List.replicate 8 (0 : WordAddr)).length < 8 := by decide +kernel

/-! ## Hypotheses: invariants and moves -/

/-- The part in a running session, with a settle list of two for competitor 12, whose head is due. -/
def settling : State :=
  let s := race .live .onTrack
  { s with
    cau := { s.cau with clock := { s.cau.clock with state := .locked, cycle := 3600402 } }
    settle := { s.settle with lists := s.settle.lists.set 12 [passing 3600252000, passing 3601252001], free := 254 }
    pending := [.settleExpiry 12] }

/-- The StepKeeps statements: a state that meets every invariant, with entries in a settle list and an applied passing
before them, and that steps to a next state in which the last applied passing is the head of the list. -/
theorem test_meets_StepKeeps :
    (PoolOk settling ∧ PublisherOk settling ∧ ListsApart settling ∧ AppliedOk settling ∧ ResolverOk settling ∧
      QueuesOk settling) ∧ MemoryOk settling ∧ OrderOk settling ∧ RegistersOk settling ∧
    settling.engine.records[(12 : CompNo)].lastApplied = some ⟨0, .loop 0⟩ ∧
    (match step settling with
      | .next t => decide (t.engine.records[(12 : CompNo)].lastApplied = some ⟨3600252000, .loop 0⟩ ∧ t.pending = [])
      | .fault _ => false
      | .refused _ => false) = true :=
  ⟨⟨by decide +kernel, by decide +kernel, by decide +kernel, by decide +kernel,
    ⟨by decide +kernel, by decide +kernel, fun e he => (by cases he), fun _ => ⟨rfl, rfl⟩⟩, by decide +kernel⟩,
    by and_intros <;> decide +kernel⟩

/-- StepKeepsMemoryCacheQueuesRegisters: that state has every register and count in its range. -/
theorem test_meets_ranges : RangesOk settling :=
  ⟨⟨by decide +kernel, by decide +kernel⟩, by and_intros <;> decide +kernel⟩

/-- InvariantsAtReset: memory with a byte listed, in its canonical form; and RESET_PART begun on it. -/
theorem test_meets_InvariantsAtReset :
    let s := { asking settling (req 0x05 []) with tmp := { settling.tmp with mem := [⟨7, 1⟩] } }
    MemoryOk s ∧ BeginsAs s (req 0x05 []) [] 0x05 0 := by decide +kernel

/-- SessionStateMoves: each session request moves the session when it is begun in its state, and a part reset does. -/
theorem test_meets_SessionStateMoves :
    let moved (c : Instr) (s : State) : Option SessionState :=
      match step { s with pending := [c] } with
      | .next t => some t.session.state
      | .fault _ => none
      | .refused _ => none
    moved .openSession (asking (race .setup .standby) (req 0x38 [])) = some .standby ∧
    moved .green (asking (race .standby .standby) (req 0x39 [1])) = some .live ∧
    moved .chequer (asking (race .live .onTrack) (req 0x3C [])) = some .chequered ∧
    moved .close (asking (race .standby .standby) (req 0x3D [])) = some .closed ∧
    moved .close (asking (race .live .onTrack) (req 0x3D [])) = some .closed ∧
    moved .close (asking (race .chequered .onTrack) (req 0x3D [])) = some .closed ∧
    moved .clear (asking (race .closed .onTrack) (req 0x3E [])) = some .setup ∧
    moved (.partReset 5) (race .live .onTrack) = some .setup ∧
    moved (.resetPart 5) (asking (race .live .onTrack) (req 0x05 [])) = some .setup := by
  decide +kernel
end Sys2Proof.Tests
end

section
/-! SUPPORT. What the Resolver's operations and the rest of the part leave of the Resolver: its root and generation
count, or all of it. -/

namespace Sys2Proof.Machine

/-! ## The Resolver's own operations -/

/-- The root and the generation count of the Resolver stand as they were (R51, R70). -/
def Resolver.SameRoot (r r' : Resolver) : Prop := r'.root = r.root ∧ r'.generation = r.generation

theorem Resolver.SameRoot.of_eq {r r' : Resolver} (h : r' = r) : r.SameRoot r' := by
  subst h
  exact ⟨rfl, rfl⟩

theorem Resolver.fill_sameRoot (r : Resolver) (e : CacheEntry) : r.SameRoot (r.fill e) := by
  unfold Resolver.fill
  split
  · exact ⟨rfl, rfl⟩
  · split <;> exact ⟨rfl, rfl⟩

theorem Resolver.walkComplete_sameRoot (r : Resolver) (w : Walk) (o : WalkOutcome) :
    r.SameRoot (r.walkComplete w o) := by
  unfold Resolver.walkComplete
  dsimp only
  split
  · exact r.fill_sameRoot ⟨w.record.code, o.cached⟩
  · exact ⟨rfl, rfl⟩

theorem Resolver.proceed_sameRoot (r : Resolver) (w : Walk) (n : WalkNext) : r.SameRoot (r.proceed w n) := by
  cases n with
  | go w' => exact ⟨rfl, rfl⟩
  | stop o => exact r.walkComplete_sameRoot w o

theorem Resolver.wordRead_sameRoot (r : Resolver) (w : Walk) (x : Word) : r.SameRoot (r.wordRead w x) := by
  unfold Resolver.wordRead
  dsimp only
  split
  · exact ⟨rfl, rfl⟩
  · exact Resolver.proceed_sameRoot { r with counts := { r.counts with reads := bump r.counts.reads } } w (w.after x)

theorem Resolver.seenUpdated_sameRoot (r : Resolver) (w : Walk) (x : Word) : r.SameRoot (r.seenUpdated w x) :=
  Resolver.proceed_sameRoot { r with counts := { r.counts with seenUpdates := bump r.counts.seenUpdates } } w (w.after x)

theorem Resolver.hit_sameRoot (r : Resolver) (rec : IntakeRec) (e : CacheEntry) : r.SameRoot (r.hit rec e) := by
  unfold Resolver.hit
  dsimp only
  split <;> exact ⟨rfl, rfl⟩

theorem Resolver.miss_sameRoot (r : Resolver) (rec : IntakeRec) : r.SameRoot (r.miss rec) := by
  unfold Resolver.miss
  split <;> exact ⟨rfl, rfl⟩

theorem Resolver.serve_sameRoot (r : Resolver) (rec : IntakeRec) : r.SameRoot (r.serve rec) := by
  unfold Resolver.serve
  dsimp only
  split
  · exact Resolver.hit_sameRoot { r with counts := { r.counts with served := bump r.counts.served } } rec _
  · exact Resolver.miss_sameRoot { r with counts := { r.counts with served := bump r.counts.served } } rec

/-! ## The line, the clock and Intake leave the Resolver alone -/

@[simp] theorem State.deliver_resolver (s : State) (slot : Slot) (c : Cell) (d : Option Delivery) :
    (s.deliver slot c d).resolver = s.resolver := by
  unfold State.deliver
  split <;> rfl

theorem receiveCell_resolver (d : Direction) (slot : Slot) (c : Cell) (s : State) :
    (receiveCell d slot c s).resolver = s.resolver := by
  unfold receiveCell
  dsimp only
  split
  · exact State.deliver_resolver ..
  · rfl

theorem insertSend_resolver (slot : Slot) (s : State) : (insertSend slot s).resolver = s.resolver := by
  unfold insertSend
  split <;> rfl

theorem sendSlot_resolver (d : Direction) (slot : Slot) (s : State) : (sendSlot d slot s).resolver = s.resolver := by
  unfold sendSlot
  split
  case h_2 => exact insertSend_resolver slot s
  all_goals rfl

@[simp] theorem State.setFraming_resolver (s : State) (p : Port) (f : Framing) :
    (s.setFraming p f).resolver = s.resolver := rfl

@[simp] theorem State.reportGood_resolver (s : State) (mark : Tick) : (s.reportGood mark).resolver = s.resolver := by
  simp [State.reportGood]

@[simp] theorem State.reportMissing_resolver (s : State) : s.reportMissing.resolver = s.resolver := by
  simp [State.reportMissing]

theorem markFailed_resolver (p : Port) (s : State) : (markFailed p s).resolver = s.resolver := by
  cases p with
  | trackIn => rfl
  | controlIn => simp [markFailed]

theorem State.beacon_resolver (s : State) (slot : Slot) (tick : Tick) (c16 : Nat) :
    (s.beacon slot tick c16).resolver = s.resolver := by
  unfold State.beacon
  split
  · rfl
  · split
    · rfl
    · split <;> rfl

theorem loopHoldover_resolver (l : LoopNo) (s : State) : (loopHoldover l s).resolver = s.resolver := by
  unfold loopHoldover
  dsimp only
  split <;> rfl

theorem loopUnsynced_resolver (l : LoopNo) (s : State) : (loopUnsynced l s).resolver = s.resolver := by
  unfold loopUnsynced
  dsimp only
  split <;> rfl

theorem State.intakeCell_resolver (s : State) (slot : Slot) (p : PassingCell) :
    (s.intakeCell slot p).resolver = s.resolver := by
  unfold State.intakeCell
  split
  · rfl
  · split <;> rfl

/-! ## Applications, expiry and silence tests leave the Resolver alone -/

@[simp] theorem State.applyAll_resolver (s : State) (as : List Application) : (s.applyAll as).resolver = s.resolver := by
  rw [s.applyAll_frame as]

theorem settleExpiry_resolver (c : CompNo) (s : State) : (settleExpiry c s).resolver = s.resolver := by
  unfold settleExpiry
  split
  · split <;> rfl
  · rfl

theorem State.expireList_resolver (c : CompNo) (fuel : Nat) (s : State) :
    (s.expireList c fuel).resolver = s.resolver := by
  induction fuel generalizing s with
  | zero => rfl
  | succ fuel ih =>
    unfold State.expireList
    split
    · rfl
    · split
      · exact ih _
      · rfl

theorem State.expireAll_resolver (s : State) : s.expireAll.resolver = s.resolver :=
  foldl_keeps (fun t => t.resolver = s.resolver) _ (fun t c h => (t.expireList_resolver c _).trans h) _ _ rfl

theorem State.silenceTest_resolver (s : State) (c : CompNo) : (s.silenceTest c).resolver = s.resolver := by
  unfold State.silenceTest
  dsimp only
  split <;> rfl

theorem silent_resolver (c : CompNo) (s : State) : (silent c s).resolver = s.resolver := by
  unfold silent
  split
  · exact s.silenceTest_resolver c
  · rfl

theorem State.silenceTestAll_resolver (s : State) : s.silenceTestAll.resolver = s.resolver :=
  foldl_keeps (fun t => t.resolver = s.resolver) _ (fun t c h => (t.silenceTest_resolver c).trans h) _ _ rfl

/-! ## The accesses of the Sweep Engine and of the Management Unit leave the Resolver alone -/

theorem State.sweepAccessDone_resolver (s : State) (a : Access) : (s.sweepAccessDone a).resolver = s.resolver := by
  unfold State.sweepAccessDone
  dsimp only
  split <;> rfl

theorem State.wordRead_resolver (s : State) (tag code : Byte) (addr : WordAddr) (left : Nat) (got : List Word) :
    (s.wordRead tag code addr left got).resolver = s.resolver := by
  unfold State.wordRead
  split <;> rfl

theorem State.wordWritten_resolver (s : State) (tag code : Byte) (addr : WordAddr) (left : List Word) :
    (s.wordWritten tag code addr left).resolver = s.resolver := by
  cases left <;> rfl

/-! ## Requests that leave the Resolver alone -/

/-- A request's execution, after its header tests, leaves the Resolver as it is. -/
def LeavesResolver (run : Request → State → Answer) : Prop := ∀ r t, (run r t).state.resolver = t.resolver

theorem serve_resolver (s : State) (mine : Nat → Bool) {run : Request → State → Answer} (h : LeavesResolver run) :
    (s.serve mine run).resolver = s.resolver :=
  serve_keeps (P := fun t => t.resolver = s.resolver) ⟨fun _ _ _ _ e => e, fun _ _ _ _ _ e => e⟩ s mine run rfl
    fun r t _ ht _ => (h r t).trans ht

theorem withLength_resolver (lengths : List Nat) {run : Request → State → Answer} (h : LeavesResolver run) :
    LeavesResolver (withLength lengths run) := by
  intro r t
  unfold withLength
  split
  · exact h r t
  · rfl

theorem request_resolver (s : State) (code len : Nat) {run : Request → State → Answer} (h : LeavesResolver run) :
    (s.request code len run).resolver = s.resolver :=
  serve_resolver s _ (withLength_resolver [len] h)

theorem orRange_resolver {α : Type} {s : State} {p : Option α} {run : α → Answer}
    (h : ∀ x, (run x).state.resolver = s.resolver) : (orRange s p run).state.resolver = s.resolver :=
  orRange_keeps (P := fun t => t.resolver = s.resolver) rfl fun x _ => h x

theorem orState_resolver {s : State} {ok : Bool} {a : Answer} (h : a.state.resolver = s.resolver) :
    (orState s ok a).state.resolver = s.resolver :=
  orState_keeps (P := fun t => t.resolver = s.resolver) rfl fun _ => h

theorem runCoursePointLoad_resolver : LeavesResolver runCoursePointLoad := by
  refine fun r s => orState_resolver (orRange_resolver fun p => ?_)
  split <;> rfl

theorem State.rosterWrite_resolver (s : State) (c : CompNo) (raceNumber class_ : Nat) :
    (s.rosterWrite c raceNumber class_).resolver = s.resolver := by
  unfold State.rosterWrite
  dsimp only
  split <;> rfl

theorem runOpenSession_resolver : LeavesResolver runOpenSession := by
  refine fun r s => orState_resolver ?_
  split <;> rfl

theorem State.neutralOn_resolver (s : State) : s.neutralOn.resolver = s.resolver := by
  unfold State.neutralOn
  dsimp only
  split <;> rfl

theorem State.neutralOff_resolver (s : State) : s.neutralOff.resolver = s.resolver := by
  unfold State.neutralOff
  dsimp only
  split <;> rfl

theorem runTableWrite_resolver : LeavesResolver runTableWrite := by
  intro r s
  unfold runTableWrite
  split
  · rfl
  · split <;> rfl

theorem State.startSweep_resolver (s : State) (m : SweepMode) : (s.startSweep m).state.resolver = s.resolver := by
  unfold State.startSweep
  split <;> rfl

theorem runSweepStart_resolver : LeavesResolver runSweepStart := by
  intro r s
  unfold runSweepStart
  split
  · exact orRange_resolver s.startSweep_resolver
  · rfl

theorem State.setParam_resolver (s : State) (p : Param) (v : Nat) : (s.setParam p v).resolver = s.resolver := by
  cases p with
  | settleInterval => exact State.expireAll_resolver _
  | silenceLimit => exact State.silenceTestAll_resolver _
  | beaconTimeout => rfl
  | holdoverLimit => rfl
  | residualTolerance => rfl

theorem State.statusAnswer_resolver (s : State) (page : Nat) (clear : Bool) (data : List Byte) :
    (s.statusAnswer page clear data).state.resolver = s.resolver := by
  unfold State.statusAnswer
  split
  · split <;> rfl
  · rfl

end Sys2Proof.Machine
end

section
/-! ROOT_SET and RESOLVER_FLUSH (R51, R69, R70): what each does when the MU begins it, and that no other command but the
two part resets changes the root or the generation count. -/

namespace Sys2Proof.Machine

open Host (Outcome)

/-! ## Parameter fields -/

theorem beNat_lt (l : List Byte) : beNat l < 256 ^ l.length := by
  induction l using List.reverseRecOn with
  | nil => decide
  | append_singleton l b ih =>
    have hb : b.toNat < 256 := b.isLt
    have happend : beNat (l ++ [b]) = beNat l * 256 + b.toNat := by simp [beNat]
    rw [happend, List.length_append, List.length_singleton, pow_succ]
    omega

/-- A parameter field of `len` bytes is below 256 to the power of `len` (R206). -/
theorem Request.nat_lt (r : Request) (start len : Nat) : r.nat start len < 256 ^ len :=
  (beNat_lt _).trans_le (Nat.pow_le_pow_right (by decide) (List.length_take_le ..))

/-! ## ROOT_SET -/

theorem runRootSet_index (r : Request) (s : State) (i : TableIndex) (h : r.nat 0 2 = i.toNat) :
    runRootSet r s =
      .taken { s with resolver := s.resolver.setRoot i } (optBytes 2 (s.resolver.root.map BitVec.toNat)) := by
  have hi : i.toNat ≤ 1023 := Nat.le_of_lt_succ i.isLt
  simp [runRootSet, h, hi]

theorem runRootSet_range (r : Request) (s : State) (h : 1023 < r.nat 0 2) : runRootSet r s = .refused s .range :=
  if_neg (Nat.not_le.2 h)

/-- A request that is taken with a new Resolver and some data, placed: the Resolver and the MU change. -/
theorem taken_resolver_place (s : State) (r : Request) (rest : List Request) (x : Resolver) (data : List Byte) :
    (Answer.taken { s.begin rest with resolver := x } data).place r =
      { s with resolver := x, mu := servedMu s r rest .ok data } := rfl

theorem rootSet_begun {s : State} {r : Request} {rest : List Request} (h : BeginsAs s r rest 0x10 2) :
    exec .rootSet s = .next ((runRootSet r (s.begin rest)).place r) :=
  congrArg Outcome.next (request_of_begins h runRootSet)

theorem rootSet_index {s : State} {r : Request} {rest : List Request} (h : BeginsAs s r rest 0x10 2)
    (i : TableIndex) (hi : r.nat 0 2 = i.toNat) :
    exec .rootSet s = .next { s with
      resolver := s.resolver.setRoot i
      mu := servedMu s r rest .ok (optBytes 2 (s.resolver.root.map BitVec.toNat)) } := by
  rw [rootSet_begun h, runRootSet_index r _ i hi, taken_resolver_place]
  rfl

theorem rootSet_range {s : State} {r : Request} {rest : List Request} (h : BeginsAs s r rest 0x10 2)
    (hr : 1023 < r.nat 0 2) : exec .rootSet s = .next (refusedState s r rest .range) := by
  rw [rootSet_begun h, runRootSet_range r _ hr, refused_place]

/-! ## RESOLVER_FLUSH -/

/-- The number of entries that a flush removes is the difference of the lengths before and after it. -/
theorem flush_removed (r : Resolver) (m : FlushMode) (code : Code) :
    (r.flush m code).2 = r.cache.length - (r.flush m code).1.cache.length := by
  have hparts := r.cache.length_eq_length_filter_add (m.removes code)
  exact Nat.eq_sub_of_add_eq hparts.symm

theorem resolverFlush_begun {s : State} {r : Request} {rest : List Request} (h : BeginsAs s r rest 0x11 4) :
    exec .resolverFlush s = .next ((runResolverFlush r (s.begin rest)).place r) :=
  congrArg Outcome.next (request_of_begins h runResolverFlush)

/-- A flush in a mode keeps the entries that the mode does not remove (R69). -/
theorem resolverFlush_mode {s : State} {r : Request} {rest : List Request} (h : BeginsAs s r rest 0x11 4)
    {m : FlushMode} (hm : FlushMode.ofCode (r.nat 0 1) = some m) (keep : CacheEntry → Bool)
    (hk : ∀ e, keep e = !(m.removes (BitVec.ofNat 24 (r.nat 1 3)) e)) :
    exec .resolverFlush s = .next { s with
      resolver := { s.resolver with
        cache := s.resolver.cache.filter keep
        generation := s.resolver.generation + 1
        counts := { s.resolver.counts with flushes := bump s.resolver.counts.flushes } }
      mu := servedMu s r rest .ok (natBytes 1 (s.resolver.cache.length - (s.resolver.cache.filter keep).length)) } := by
  obtain rfl : keep = fun e => !(m.removes (BitVec.ofNat 24 (r.nat 1 3)) e) := funext hk
  rw [resolverFlush_begun h]
  unfold runResolverFlush
  rw [hm, orRange_some]
  dsimp only
  rw [flush_removed, taken_resolver_place]
  rfl

theorem resolverFlush_range {s : State} {r : Request} {rest : List Request} (h : BeginsAs s r rest 0x11 4)
    (hm : FlushMode.ofCode (r.nat 0 1) = none) : exec .resolverFlush s = .next (refusedState s r rest .range) := by
  rw [resolverFlush_begun h]
  unfold runResolverFlush
  rw [hm, orRange_none, refused_place]

theorem FlushMode.ofCode_eq_none : ∀ n : Nat, n = 0 ∨ 3 < n → FlushMode.ofCode n = none
  | 0, _ => rfl
  | 1, h | 2, h | 3, h => by omega
  | _ + 4, _ => rfl

/-- A flush of one code removes the entry whose code is the number that the parameter carries. -/
theorem FlushMode.code_removes (e : CacheEntry) (n : Nat) (h : n < 256 ^ 3) :
    decide (e.code.toNat ≠ n) = !(FlushMode.code.removes (BitVec.ofNat 24 n) e) := by
  have hcode : (BitVec.ofNat 24 n).toNat = n := Nat.mod_eq_of_lt h
  simp only [FlushMode.removes, ← BitVec.toNat_inj, hcode, decide_not]

theorem FlushMode.nonRetained_removes (e : CacheEntry) (code : Code) :
    (match e.outcome with
      | .competitor _ _ retain => retain
      | .absent _ _ => false
      | .fault _ _ => false) = !(FlushMode.nonRetained.removes code e) := by
  unfold FlushMode.removes
  cases e.outcome <;> simp

/-! ## Every other command -/

/-- Where a command's meaning has a next state, the root and the generation count stand in it as they were. -/
def State.RootKept (s : State) (o : Outcome State Fault Refusal) : Prop :=
  ∀ t, o = .next t → s.resolver.SameRoot t.resolver

theorem State.RootKept.next {s t : State} (h : s.resolver.SameRoot t.resolver) : s.RootKept (.next t) :=
  fun _ ht => next_inj ht ▸ h

theorem State.RootKept.next_eq {s t : State} (h : t.resolver = s.resolver) : s.RootKept (.next t) :=
  .next (.of_eq h)

theorem State.RootKept.fault (s : State) (f : Fault) : s.RootKept (.fault f) := fun _ ht => by cases ht

theorem rootKept_request {s : State} {code len : Nat} {run : Request → State → Answer} (h : LeavesResolver run) :
    s.RootKept (.next (s.request code len run)) := .next_eq (request_resolver s code len h)

theorem execCycleMarkGood_rootKept (p : Port) (count : Tick) (s : State) :
    s.RootKept (execCycleMarkGood p count s) := by
  cases p with
  | trackIn => exact .next_eq rfl
  | controlIn => exact .next_eq (State.reportGood_resolver _ _)

theorem execCycleMarkBad_rootKept (p : Port) (s : State) : s.RootKept (execCycleMarkBad p s) := by
  unfold execCycleMarkBad
  split
  · exact .next_eq (markFailed_resolver p _)
  · exact .next_eq rfl

theorem execCycleMarkMissing_rootKept (p : Port) (s : State) : s.RootKept (execCycleMarkMissing p s) := by
  unfold execCycleMarkMissing
  split
  · exact .next_eq (markFailed_resolver p s)
  · exact .next_eq rfl

theorem execSearchingMarkPeriod_rootKept (s : State) : s.RootKept (execSearchingMarkPeriod s) := by
  unfold execSearchingMarkPeriod
  split
  · exact .next_eq rfl
  · exact .next_eq s.reportMissing_resolver

theorem execCellReceipt_rootKept (d : Direction) (slot : Nat) (c : Cell) (s : State) :
    s.RootKept (execCellReceipt d slot c s) := by
  unfold execCellReceipt
  split
  · exact .next_eq (receiveCell_resolver d _ c s)
  · exact .fault s _

theorem execLoopHoldover_rootKept (loop : Nat) (s : State) : s.RootKept (execLoopHoldover loop s) := by
  unfold execLoopHoldover
  split
  · exact .next_eq (loopHoldover_resolver _ s)
  · exact .fault s _

theorem execLoopUnsynced_rootKept (loop : Nat) (s : State) : s.RootKept (execLoopUnsynced loop s) := by
  unfold execLoopUnsynced
  split
  · exact .next_eq (loopUnsynced_resolver _ s)
  · exact .fault s _

theorem execSettleExpiry_rootKept (c : Nat) (s : State) : s.RootKept (execSettleExpiry c s) := by
  unfold execSettleExpiry
  split
  · exact .next_eq (settleExpiry_resolver _ s)
  · exact .fault s _

theorem execSilent_rootKept (c : Nat) (s : State) : s.RootKept (execSilent c s) := by
  unfold execSilent
  split
  · exact .next_eq (silent_resolver _ s)
  · exact .fault s _

theorem execOutboundSlotSend_rootKept (d : Direction) (s : State) : s.RootKept (execOutboundSlotSend d s) := by
  unfold execOutboundSlotSend
  split
  · exact .next_eq (sendSlot_resolver d _ s)
  · exact .next_eq rfl

theorem execBeaconHandling_rootKept (s : State) : s.RootKept (execBeaconHandling s) := by
  unfold execBeaconHandling
  split
  · exact .next_eq rfl
  · exact .next_eq (State.beacon_resolver _ _ _ _)

theorem execPassingIntake_rootKept (s : State) : s.RootKept (execPassingIntake s) := by
  unfold execPassingIntake
  split
  · exact .next_eq rfl
  · exact .next_eq (State.intakeCell_resolver _ _ _)

theorem execResolverLookup_rootKept (s : State) : s.RootKept (execResolverLookup s) := by
  unfold execResolverLookup
  split
  · exact .next (s.resolver.serve_sameRoot _)
  · exact .next_eq rfl

theorem execArbiterGrant_rootKept (s : State) : s.RootKept (execArbiterGrant s) := by
  unfold execArbiterGrant
  split <;> exact .next_eq rfl

theorem execWalkReadComplete_rootKept (s : State) : s.RootKept (execWalkReadComplete s) := by
  unfold execWalkReadComplete
  split
  · exact .next (s.resolver.wordRead_sameRoot _ _)
  · exact .next_eq rfl

theorem execSeenUpdateComplete_rootKept (s : State) : s.RootKept (execSeenUpdateComplete s) := by
  unfold execSeenUpdateComplete
  split
  · split
    · exact .next (s.resolver.seenUpdated_sameRoot _ _)
    · exact .next_eq rfl
  · exact .next_eq rfl

/-- A taking changes what the Resolver serves and counts. -/
theorem State.settleTake_sameRoot (s : State) (r : Resolved) : s.resolver.SameRoot (s.settleTake r).resolver := by
  unfold State.settleTake
  dsimp only
  rw [State.applyAll_resolver]
  exact ⟨rfl, rfl⟩

theorem execSettleTaking_rootKept (s : State) : s.RootKept (execSettleTaking s) := by
  unfold execSettleTaking
  split
  · split
    · exact .next (s.settleTake_sameRoot _)
    · exact .next_eq rfl
  · exact .next_eq rfl

theorem execUnknownDelivery_rootKept (s : State) : s.RootKept (execUnknownDelivery s) := by
  unfold execUnknownDelivery
  split
  · split <;> exact .next ⟨rfl, rfl⟩
  · exact .next_eq rfl

theorem execResolveFaultDelivery_rootKept (s : State) : s.RootKept (execResolveFaultDelivery s) := by
  unfold execResolveFaultDelivery
  split
  · split <;> exact .next ⟨rfl, rfl⟩
  · exact .next_eq rfl

theorem execLogWordWriteComplete_rootKept (s : State) : s.RootKept (execLogWordWriteComplete s) := by
  unfold execLogWordWriteComplete
  split <;> exact .next_eq rfl

theorem execTableReadWordComplete_rootKept (s : State) : s.RootKept (execTableReadWordComplete s) := by
  unfold execTableReadWordComplete
  split
  · exact .next_eq (State.wordRead_resolver ..)
  · exact .next_eq rfl

theorem execTableWriteWordComplete_rootKept (s : State) : s.RootKept (execTableWriteWordComplete s) := by
  unfold execTableWriteWordComplete
  split
  · exact .next_eq (State.wordWritten_resolver ..)
  · exact .next_eq rfl

theorem execSweepReadComplete_rootKept (s : State) : s.RootKept (execSweepReadComplete s) := by
  unfold execSweepReadComplete
  split
  · exact .next_eq (s.sweepAccessDone_resolver _)
  · exact .next_eq rfl

theorem execSweepFlagUpdateComplete_rootKept (s : State) : s.RootKept (execSweepFlagUpdateComplete s) := by
  unfold execSweepFlagUpdateComplete
  split
  · exact .next_eq (s.sweepAccessDone_resolver _)
  · exact .next_eq rfl

theorem execAliasTargetReadComplete_rootKept (s : State) : s.RootKept (execAliasTargetReadComplete s) := by
  unfold execAliasTargetReadComplete
  split
  · exact .next_eq (s.sweepAccessDone_resolver _)
  · exact .next_eq rfl

/-- No command but ROOT_SET, RESOLVER_FLUSH and the two part resets changes the root or the generation count. -/
theorem exec_rootKept (s : State) (c : Instr) (hroot : c ≠ .rootSet) (hflush : c ≠ .resolverFlush)
    (hreset : ∀ straps, c ≠ .partReset straps ∧ c ≠ .resetPart straps) : s.RootKept (exec c s) := by
  cases c with
  | rootSet => exact absurd rfl hroot
  | resolverFlush => exact absurd rfl hflush
  | partReset straps => exact absurd rfl (hreset straps).1
  | resetPart straps => exact absurd rfl (hreset straps).2
  | cycleMarkGood p n => exact execCycleMarkGood_rootKept p n s
  | cycleMarkBad p => exact execCycleMarkBad_rootKept p s
  | cycleMarkMissing p => exact execCycleMarkMissing_rootKept p s
  | searchingMarkPeriod => exact execSearchingMarkPeriod_rootKept s
  | cellReceipt d k x => exact execCellReceipt_rootKept d k x s
  | outboundCycleStart => exact .next_eq rfl
  | outboundSlotSend d => exact execOutboundSlotSend_rootKept d s
  | beaconHandling => exact execBeaconHandling_rootKept s
  | loopHoldover l => exact execLoopHoldover_rootKept l s
  | loopUnsynced l => exact execLoopUnsynced_rootKept l s
  | passingIntake => exact execPassingIntake_rootKept s
  | resolverLookup => exact execResolverLookup_rootKept s
  | arbiterGrant => exact execArbiterGrant_rootKept s
  | walkReadComplete => exact execWalkReadComplete_rootKept s
  | seenUpdateComplete => exact execSeenUpdateComplete_rootKept s
  | settleTaking => exact execSettleTaking_rootKept s
  | unknownDelivery => exact execUnknownDelivery_rootKept s
  | resolveFaultDelivery => exact execResolveFaultDelivery_rootKept s
  | settleExpiry n => exact execSettleExpiry_rootKept n s
  | silent n => exact execSilent_rootKept n s
  | logWordWriteComplete => exact execLogWordWriteComplete_rootKept s
  | unsupportedRequest => exact .next_eq (serve_resolver s _ fun _ _ => rfl)
  | slotMapWrite => exact rootKept_request fun _ _ => orRange_resolver fun _ => rfl
  | coursePointLoad => exact rootKept_request runCoursePointLoad_resolver
  | courseClear => exact rootKept_request fun _ _ => orState_resolver rfl
  | loopConfig => exact rootKept_request fun _ _ => orRange_resolver fun _ => orState_resolver rfl
  | trapLoad => exact rootKept_request fun _ _ => orState_resolver (orRange_resolver fun _ => rfl)
  | courseRead => exact rootKept_request fun _ _ => orRange_resolver fun _ => rfl
  | rosterWrite => exact rootKept_request fun _ t => orRange_resolver fun _ => t.rosterWrite_resolver _ _ _
  | rosterRemove => exact rootKept_request fun _ _ => orRange_resolver fun _ => orState_resolver rfl
  | retire => exact rootKept_request fun _ _ => orRange_resolver fun _ => orState_resolver rfl
  | reinstate => exact rootKept_request fun _ _ => orRange_resolver fun _ => orState_resolver rfl
  | lapAdjust => exact rootKept_request fun _ _ => orRange_resolver fun _ => orState_resolver rfl
  | openSession => exact rootKept_request runOpenSession_resolver
  | green => exact rootKept_request fun _ _ => orState_resolver (orRange_resolver fun _ => rfl)
  | neutralOn => exact rootKept_request fun _ t => orState_resolver t.neutralOn_resolver
  | neutralOff => exact rootKept_request fun _ t => orState_resolver t.neutralOff_resolver
  | chequer => exact rootKept_request fun _ _ => orState_resolver rfl
  | close => exact rootKept_request fun _ _ => orState_resolver rfl
  | clear => exact rootKept_request fun _ _ => orState_resolver rfl
  | orderRead => exact rootKept_request fun _ _ => orRange_resolver fun _ => rfl
  | release => exact rootKept_request fun _ _ => orRange_resolver fun _ => rfl
  | discard => exact rootKept_request fun _ _ => orRange_resolver fun _ => rfl
  | logSet => exact rootKept_request fun _ _ => orState_resolver (orRange_resolver fun _ => rfl)
  | tableRead => exact rootKept_request fun _ _ => orRange_resolver fun _ => rfl
  | tableReadWordComplete => exact execTableReadWordComplete_rootKept s
  | tableWrite => exact .next_eq (serve_resolver s _ (withLength_resolver _ runTableWrite_resolver))
  | tableWriteWordComplete => exact execTableWriteWordComplete_rootKept s
  | guardSet => exact rootKept_request fun _ _ => orState_resolver (orRange_resolver fun _ => rfl)
  | sweepStart => exact rootKept_request runSweepStart_resolver
  | suspend => exact rootKept_request fun _ _ => orState_resolver rfl
  | resume => exact rootKept_request fun _ _ => orState_resolver rfl
  | stop => exact rootKept_request fun _ _ => orState_resolver rfl
  | sweepReadComplete => exact execSweepReadComplete_rootKept s
  | sweepFlagUpdateComplete => exact execSweepFlagUpdateComplete_rootKept s
  | aliasTargetReadComplete => exact execAliasTargetReadComplete_rootKept s
  | paramWrite => exact rootKept_request fun _ t => orRange_resolver fun _ => t.setParam_resolver _ _
  | statusRead =>
    exact rootKept_request fun _ t => orRange_resolver fun _ => orRange_resolver fun _ => t.statusAnswer_resolver _ _ _
  | competitorRead => exact rootKept_request fun _ _ => orRange_resolver fun _ => orRange_resolver fun _ => rfl

/-- Settles O43: each request by its begun form and its execution, and the frame by the case split of `exec_rootKept`. -/
theorem resolverRequests : Obligations.ResolverRequests := by
  refine ⟨fun s r rest h => ⟨fun i hi => ?index, rootSet_range h⟩,
    fun s r rest h => ⟨?all, ?nonRetained, ?code, ?range⟩,
    fun s t c hroot hflush hreset ht => exec_rootKept s c hroot hflush hreset t ht⟩
  case index =>
    rw [rootSet_index h i hi]
    cases s.resolver.root <;> rfl
  case all => exact fun hm => resolverFlush_mode h (m := .all) (by rw [hm]; rfl) _ fun _ => rfl
  case nonRetained =>
    exact fun hm => resolverFlush_mode h (m := .nonRetained) (by rw [hm]; rfl) _
      fun e => FlushMode.nonRetained_removes e _
  case code =>
    exact fun hm => resolverFlush_mode h (m := .code) (by rw [hm]; rfl) _
      fun e => FlushMode.code_removes e _ (r.nat_lt 1 3)
  case range => exact fun hm => resolverFlush_range h (FlushMode.ofCode_eq_none _ hm)

end Sys2Proof.Machine
end

section
/-! The requests that load the course and configure its loops (R77 to R82): what their parameter fields name, what a
loaded point and a cleared course hold, and each request's refusals and effect. -/

namespace Sys2Proof.Machine

open Host (Outcome)

/-! ## Parameter fields -/

theorem Request.nat_one (r : Request) (i : Nat) : r.nat i 1 = (r.byte i).toNat := by
  unfold Request.nat Request.byte
  rw [List.getD_eq_getElem?_getD, ← List.head?_drop]
  cases r.params.toList.drop i with
  | nil => rfl
  | cons b l => simp [beNat]

theorem Request.index_eq_some (r : Request) {n i : Nat} (x : Fin n) : r.index n i = some x ↔ r.nat i 1 = x.val := by
  rw [r.nat_one i]
  exact finOf_eq_some x

/-- A loop parameter reads as none for 255, and as the loop of its number (R201). -/
theorem Request.optLoop_eq_some (r : Request) (i : Nat) (o : Option LoopNo) :
    r.optLoop i = some o ↔ r.nat i 1 = o.elim 255 Fin.val := by
  have hnone : r.byte i = 255 ↔ r.nat i 1 = 255 := by rw [r.nat_one i, ← BitVec.toNat_inj]; rfl
  unfold Request.optLoop
  rw [← r.nat_one i]
  by_cases h : r.byte i = 255
  · rw [if_pos h, hnone.1 h]
    cases o with
    | none => simp
    | some l => exact iff_of_false nofun fun (e : 255 = l.val) => by omega
  · rw [if_neg h]
    cases o with
    | none => simpa using mt hnone.2 h
    | some l => simp [finOf_eq_some]

/-- A loop parameter that reads as something is a loop number or 255. -/
theorem Request.optLoop_range (r : Request) {i : Nat} {o : Option LoopNo} (h : r.optLoop i = some o) :
    r.nat i 1 < 32 ∨ r.nat i 1 = 255 := by
  rw [r.optLoop_eq_some] at h
  cases o with
  | none => exact .inr h
  | some l => exact .inl (h ▸ l.isLt)

theorem PitRole.ofCode_code (p : PitRole) : PitRole.ofCode p.code = some p := by cases p <;> rfl

theorem PitRole.ofCode_range : ∀ {n : Nat} {p : PitRole}, PitRole.ofCode n = some p → 1 ≤ n ∧ n ≤ 3
  | 0, _, h => by cases h
  | 1, _, _ | 2, _, _ | 3, _, _ => by decide
  | _ + 4, _, h => by cases h

/-! ## What a request does to the course -/

theorem orState_setup {s : State} (h : s.session.state = .setup) (a : Answer) : orState s s.inSetup a = a := by
  simp [State.inSetup, h]

theorem orState_notSetup {s : State} (h : s.session.state ≠ .setup) (a : Answer) :
    orState s s.inSetup a = .refused s .state := by
  simp [State.inSetup, h]

section Begun
variable {s : State} {r : Request} {rest : List Request} {code length : Nat} {run : Request → State → Answer}

/-- A request that its execution refuses. -/
theorem request_refused {status : Status} (h : BeginsAs s r rest code length)
    (hrun : run r (s.begin rest) = .refused (s.begin rest) status) :
    (Outcome.next (s.request code length run) : Outcome State Fault Refusal) =
      .next (refusedState s r rest status) := by
  rw [request_of_begins h run, hrun, refused_place]

/-- A request whose first test is that the session is in SETUP, in another session state. -/
theorem request_notSetup {body : Request → State → Answer} (h : BeginsAs s r rest code length)
    (hs : s.session.state ≠ .setup) :
    (Outcome.next (s.request code length fun r t => orState t t.inSetup (body r t)) : Outcome State Fault Refusal) =
      .next (refusedState s r rest .state) :=
  request_refused h (orState_notSetup (s := s.begin rest) hs _)

/-- A request that is taken with a new course and some data: the course and the MU change. -/
theorem request_taken_course {k : Course} {data : List Byte} (h : BeginsAs s r rest code length)
    (hrun : run r (s.begin rest) = .taken { s.begin rest with course := k } data) :
    (Outcome.next (s.request code length run) : Outcome State Fault Refusal) =
      .next { s with course := k, mu := servedMu s r rest .ok data } := by
  rw [request_of_begins h run, hrun]
  rfl

end Begun

/-! ## COURSE_POINT_LOAD: its tests -/

theorem Request.pointParams_eq_some {r : Request} {q : PointNo} {p : CoursePoint} (hq : r.nat 0 1 = q.val)
    (hp : r.nat 1 1 = p.primary.val) (hb : r.nat 2 1 = p.backup.elim 255 Fin.val)
    (ha : r.nat 3 1 = p.pitAlt.elim 255 Fin.val) (ht : r.nat 4 3 = p.minTransit) (hmax : r.nat 4 3 ≤ 600000) :
    r.pointParams = some (q, p) := by
  unfold Request.pointParams
  rw [(r.index_eq_some q).2 hq, (r.index_eq_some p.primary).2 hp, (r.optLoop_eq_some 2 _).2 hb,
    (r.optLoop_eq_some 3 _).2 ha]
  dsimp only
  rw [if_pos hmax, ht]

/-- Test 2 of R77: a field out of its range. -/
theorem Request.pointParams_eq_none {r : Request}
    (h : 16 ≤ r.nat 0 1 ∨ 32 ≤ r.nat 1 1 ∨ (32 ≤ r.nat 2 1 ∧ r.nat 2 1 ≠ 255) ∨
      (32 ≤ r.nat 3 1 ∧ r.nat 3 1 ≠ 255) ∨ 600000 < r.nat 4 3) : r.pointParams = none := by
  unfold Request.pointParams
  split
  next q p b a hq hp hb ha =>
    have hq : r.nat 0 1 < 16 := (r.index_eq_some q).1 hq ▸ q.isLt
    have hp : r.nat 1 1 < 32 := (r.index_eq_some p).1 hp ▸ p.isLt
    have hb := r.optLoop_range hb
    have ha := r.optLoop_range ha
    exact if_neg (by omega)
  next => rfl

theorem LoopRec.freeFor_iff (r : LoopRec) (q : PointNo) :
    r.freeFor q = true ↔ r.role.index = none ∨ r.role.index = some q := by
  unfold LoopRec.freeFor
  cases r.role.index <;> simp

/-- Tests 3 and 4 of R77. -/
theorem Course.acceptsPoint_iff (k : Course) (q : PointNo) (p : CoursePoint) :
    k.acceptsPoint q p = true ↔
      p.named.Nodup ∧ ∀ l ∈ p.named, k.loops[l].role.index = none ∨ k.loops[l].role.index = some q := by
  simp only [Course.acceptsPoint, Bool.and_eq_true, decide_eq_true_eq, List.all_eq_true, LoopRec.freeFor_iff]

theorem runCoursePointLoad_range {r : Request} {s : State} (hs : s.session.state = .setup)
    (h : r.pointParams = none) : runCoursePointLoad r s = .refused s .range := by
  unfold runCoursePointLoad
  rw [orState_setup hs, h, orRange_none]

section Parsed
variable {r : Request} {s : State} {q : PointNo} {p : CoursePoint}

theorem runCoursePointLoad_rejects (hs : s.session.state = .setup) (h : r.pointParams = some (q, p))
    (hno : ¬ s.course.acceptsPoint q p = true) : runCoursePointLoad r s = .refused s .range := by
  unfold runCoursePointLoad
  rw [orState_setup hs, h, orRange_some]
  exact if_neg hno

theorem runCoursePointLoad_accepts (hs : s.session.state = .setup) (h : r.pointParams = some (q, p))
    (hok : s.course.acceptsPoint q p = true) :
    runCoursePointLoad r s =
      .taken { s with course := s.course.loadPoint q p } (natBytes 1 (max s.course.count (q.val + 1))) := by
  unfold runCoursePointLoad
  rw [orState_setup hs, h, orRange_some]
  exact if_pos hok

end Parsed

/-! ## COURSE_POINT_LOAD: the course after it -/

theorem LoopRec.freed_eq (q : PointNo) (r : LoopRec) :
    r.freed q = { r with role := if r.role.index = some q then .none else r.role } := by
  unfold LoopRec.freed
  split <;> rfl

theorem Course.giveRole_loops_get (k : Course) (role : CourseRole) (l m : LoopNo) :
    (k.giveRole role l).loops[m] = { k.loops[m] with role := if m = l then role else k.loops[m].role } := by
  show (upd k.loops l _)[m] = _
  rw [upd_eq_set, set_get]
  split
  next h => rw [h]
  next => rfl

/-- Step 2 of R78 for a loop that may be absent. -/
def Course.giveRoleTo (k : Course) (role : CourseRole) (o : Option LoopNo) : Course :=
  o.toList.foldl (fun k l => k.giveRole role l) k

theorem Course.giveRoleTo_frame (k : Course) (role : CourseRole) (o : Option LoopNo) :
    k.giveRoleTo role o = { k with loops := (k.giveRoleTo role o).loops } := by
  cases o <;> rfl

theorem Course.giveRoleTo_loops_get (k : Course) (role : CourseRole) (o : Option LoopNo) (m : LoopNo) :
    (k.giveRoleTo role o).loops[m] = { k.loops[m] with role := if o = some m then role else k.loops[m].role } := by
  cases o with
  | none => rfl
  | some l =>
    simp only [Option.some.injEq, eq_comm (a := l)]
    exact k.giveRole_loops_get role l m

/-- The course with the loops of a point freed and given their roles in turn (R78, steps 1 and 2). -/
def Course.withRoles (k : Course) (q : PointNo) (p : CoursePoint) : Course :=
  let freed : Course := { k with loops := mapAll k.loops (LoopRec.freed q) }
  ((freed.giveRole (.primary q) p.primary).giveRoleTo (.backup q) p.backup).giveRoleTo (.pitAlt q) p.pitAlt

/-- A load stores the point, raises the count, and changes the loops of the course alone besides. -/
theorem Course.loadPoint_eq (k : Course) (q : PointNo) (p : CoursePoint) :
    k.loadPoint q p = { k with
      points := k.points.set q (some p)
      count := max k.count (q.val + 1)
      loops := (k.withRoles q p).loops } := by
  have hload : k.loadPoint q p = { k.withRoles q p with
      points := k.points.set q (some p), count := max k.count (q.val + 1) } := rfl
  have htraps : (k.withRoles q p).traps = k.traps := by
    unfold Course.withRoles
    dsimp only
    rw [Course.giveRoleTo_frame, Course.giveRoleTo_frame]
    rfl
  rw [hload]
  dsimp only
  rw [htraps]

theorem CoursePoint.named_nodup_iff (p : CoursePoint) :
    p.named.Nodup ↔ p.backup ≠ some p.primary ∧ p.pitAlt ≠ some p.primary ∧
      ∀ l, p.backup = some l → p.pitAlt ≠ some l := by
  obtain ⟨primary, backup, alt, t⟩ := p
  unfold CoursePoint.named
  cases backup <;> cases alt <;> simp [eq_comm, and_assoc]

/-- The role of each loop after a load: the loops are distinct, so that no later role replaces an earlier one. -/
theorem Course.withRoles_loops_get (k : Course) (q : PointNo) (p : CoursePoint) (hd : p.named.Nodup) (l : LoopNo) :
    (k.withRoles q p).loops[l] = { k.loops[l] with
      role :=
        if l = p.primary then .primary q
        else if p.backup = some l then .backup q
        else if p.pitAlt = some l then .pitAlt q
        else if k.loops[l].role.index = some q then .none
        else k.loops[l].role } := by
  obtain ⟨hpb, hpa, hba⟩ := p.named_nodup_iff.1 hd
  unfold Course.withRoles
  simp only [Course.giveRoleTo_loops_get, Course.giveRole_loops_get, mapAll_get, LoopRec.freed_eq]
  by_cases hprimary : l = p.primary
  · subst hprimary
    simp only [if_neg hpb, if_neg hpa, if_true]
  · by_cases hbackup : p.backup = some l
    · simp only [if_neg hprimary, if_pos hbackup, if_neg (hba l hbackup)]
    · simp only [if_neg hprimary, if_neg hbackup]

section Loaded
variable {s : State} {r : Request} {rest : List Request} {q : PointNo} {p : CoursePoint}

/-- A request that names a loop twice or a loop of another point (R77, tests 3 and 4). -/
theorem coursePointLoad_rejected (h : BeginsAs s r rest 0x20 7) (hs : s.session.state = .setup)
    (hp : r.pointParams = some (q, p))
    (hbad : ¬ p.named.Nodup ∨
      ∃ l ∈ p.named, ¬ (s.course.loops[l].role.index = none ∨ s.course.loops[l].role.index = some q)) :
    exec .coursePointLoad s = .next (refusedState s r rest .range) := by
  refine request_refused h (runCoursePointLoad_rejects hs hp fun hok => ?_)
  obtain ⟨hd, hfree⟩ := (s.course.acceptsPoint_iff q p).1 hok
  exact hbad.elim (· hd) fun ⟨l, hl, hno⟩ => hno (hfree l hl)

/-- A request that passes the tests of R77. -/
theorem coursePointLoad_taken (h : BeginsAs s r rest 0x20 7) (hs : s.session.state = .setup)
    (hp : r.pointParams = some (q, p)) (hd : p.named.Nodup)
    (hfree : ∀ l ∈ p.named, s.course.loops[l].role.index = none ∨ s.course.loops[l].role.index = some q) :
    exec .coursePointLoad s = .next { s with
      course := { s.course with
        points := s.course.points.set q (some p)
        count := max s.course.count (q.val + 1)
        loops := (s.course.withRoles q p).loops }
      mu := servedMu s r rest .ok (natBytes 1 (max s.course.count (q.val + 1))) } := by
  rw [← s.course.loadPoint_eq q p]
  exact request_taken_course h
    (runCoursePointLoad_accepts hs hp ((s.course.acceptsPoint_iff q p).2 ⟨hd, hfree⟩))

end Loaded

/-- Settles O44: the tests of R77 in their order, then the course after the load. -/
theorem coursePointLoad : Obligations.CoursePointLoad := by
  intro s r rest h
  refine ⟨fun hs => request_notSetup h hs, fun hs => ⟨fun hout => ?range, ?named⟩⟩
  case range => exact request_refused h (runCoursePointLoad_range hs (Request.pointParams_eq_none hout))
  case named =>
    intro q primary backup alt hq hp hb ha ht
    have hb : r.nat 2 1 = backup.elim 255 Fin.val := by cases backup <;> exact hb
    have ha : r.nat 3 1 = alt.elim 255 Fin.val := by cases alt <;> exact ha
    have hparams : r.pointParams = some (q, ⟨primary, backup, alt, r.nat 4 3⟩) :=
      Request.pointParams_eq_some hq hp hb ha rfl ht
    exact ⟨coursePointLoad_rejected h hs hparams, fun hd hfree =>
      ⟨_, coursePointLoad_taken h hs hparams hd hfree, s.course.withRoles_loops_get q _ hd⟩⟩

/-! ## COURSE_CLEAR -/

theorem Course.cleared_points_get (k : Course) (q : PointNo) : k.cleared.points[q] = none := by
  simp [Course.cleared]

theorem Course.cleared_loops_get (k : Course) (l : LoopNo) :
    k.cleared.loops[l] = { k.loops[l] with role := .none } :=
  mapAll_get k.loops _ l

/-- Settles O45: refused outside SETUP, and in SETUP taken with the cleared course. -/
theorem courseClear : Obligations.CourseClear := by
  intro s r rest h
  refine ⟨fun hs => request_notSetup h hs,
    fun hs => ⟨s.course.cleared.points, s.course.cleared.loops, ?taken, s.course.cleared_points_get,
      s.course.cleared_loops_get⟩⟩
  case taken => exact request_taken_course h (orState_setup (s := s.begin rest) hs _)

/-! ## LOOP_CONFIG -/

theorem Request.loopParams_eq_some {r : Request} {l : LoopNo} {enabled : Bool} {role : PitRole}
    (hl : r.nat 0 1 = l.val) (he : r.flag 1 = some enabled) (hrole : r.nat 2 1 = role.code)
    (hmax : r.nat 5 2 ≤ 10000) :
    r.loopParams = some (l, ⟨enabled, role, r.nat 3 1, r.nat 4 1, r.nat 5 2⟩) := by
  unfold Request.loopParams
  rw [(r.index_eq_some l).2 hl, he, ← r.nat_one 2, hrole, role.ofCode_code]
  exact if_pos hmax

/-- The range tests of R80. -/
theorem Request.loopParams_eq_none {r : Request}
    (h : 32 ≤ r.nat 0 1 ∨ r.nat 2 1 = 0 ∨ 3 < r.nat 2 1 ∨ 10000 < r.nat 5 2) : r.loopParams = none := by
  unfold Request.loopParams
  split
  next l e p hl _ hrole =>
    have hl : r.nat 0 1 < 32 := (r.index_eq_some l).1 hl ▸ l.isLt
    have hrole : 1 ≤ r.nat 2 1 ∧ r.nat 2 1 ≤ 3 := r.nat_one 2 ▸ PitRole.ofCode_range hrole
    exact if_neg (by omega)
  next => rfl

/-- R80 and R81: any change in SETUP, and elsewhere none of the pit role or the dead-band. -/
theorem LoopRec.accepts_iff (rec : LoopRec) (s : State) (x : LoopSettings) :
    rec.accepts s.inSetup x = true ↔
      s.session.state = .setup ∨ (x.pitRole = rec.pitRole ∧ x.deadBand = rec.deadBand) := by
  simp only [LoopRec.accepts, State.inSetup, Bool.or_eq_true, Bool.and_eq_true, decide_eq_true_eq]

theorem runLoopConfig_range {r : Request} {s : State} (h : r.loopParams = none) :
    runLoopConfig r s = .refused s .range := by
  unfold runLoopConfig
  rw [h, orRange_none]

theorem runLoopConfig_accepts {r : Request} {s : State} {l : LoopNo} {x : LoopSettings}
    (h : r.loopParams = some (l, x)) (hok : s.course.loops[l].accepts s.inSetup x = true) :
    runLoopConfig r s = .taken { s with course := { s.course with
      loops := s.course.loops.set l (s.course.loops[l].configured x) } } [] := by
  unfold runLoopConfig
  rw [h, orRange_some]
  dsimp only
  rw [hok, orState_true, upd_eq_set]

theorem runLoopConfig_rejects {r : Request} {s : State} {l : LoopNo} {x : LoopSettings}
    (h : r.loopParams = some (l, x)) (hno : s.course.loops[l].accepts s.inSetup x = false) :
    runLoopConfig r s = .refused s .state := by
  unfold runLoopConfig
  rw [h, orRange_some]
  dsimp only
  rw [hno, orState_false]

/-! ## TRAP_LOAD -/

theorem Request.trapParams_empty {r : Request} {i : Fin 4} (hi : r.nat 0 1 = i.val) (hf : r.flag 1 = some false) :
    r.trapParams = some (i, none) := by
  unfold Request.trapParams
  rw [← r.nat_one 0, hi, finOf_val, hf]

theorem Request.trapParams_loaded {r : Request} {i : Fin 4} {a b : LoopNo} (hi : r.nat 0 1 = i.val)
    (hf : r.flag 1 = some true) (ha : r.nat 2 1 = a.val) (hb : r.nat 3 1 = b.val)
    (hd : 1 ≤ r.nat 4 3 ∧ r.nat 4 3 ≤ 200000) : r.trapParams = some (i, some ⟨a, b, r.nat 4 3⟩) := by
  unfold Request.trapParams
  rw [← r.nat_one 0, hi, finOf_val, hf, (r.index_eq_some a).2 ha, (r.index_eq_some b).2 hb]
  exact if_pos hd

/-- Test 2 of R82. -/
theorem Request.trapParams_eq_none {r : Request}
    (h : 4 ≤ r.nat 0 1 ∨ (r.flag 1 = some true ∧
      (32 ≤ r.nat 2 1 ∨ 32 ≤ r.nat 3 1 ∨ r.nat 4 3 = 0 ∨ 200000 < r.nat 4 3))) : r.trapParams = none := by
  have hindex : ∀ {i : Fin 4}, finOf? 4 (r.byte 0).toNat = some i → r.nat 0 1 < 4 :=
    fun {i} hi => (r.index_eq_some i).1 hi ▸ i.isLt
  unfold Request.trapParams
  split
  next i hi hf =>
    have hi := hindex hi
    rcases h with h | ⟨ht, -⟩
    · omega
    · simp [ht] at hf
  next i hi hf =>
    have hi := hindex hi
    split
    next a b ha hb =>
      have ha : r.nat 2 1 < 32 := (r.index_eq_some a).1 ha ▸ a.isLt
      have hb : r.nat 3 1 < 32 := (r.index_eq_some b).1 hb ▸ b.isLt
      exact if_neg (by omega)
    next => rfl
  next => rfl

theorem runTrapLoad_range {r : Request} {s : State} (hs : s.session.state = .setup) (h : r.trapParams = none) :
    runTrapLoad r s = .refused s .range := by
  unfold runTrapLoad
  rw [orState_setup hs, h, orRange_none]

theorem runTrapLoad_taken {r : Request} {s : State} {i : Fin 4} {t : Option Trap} (hs : s.session.state = .setup)
    (h : r.trapParams = some (i, t)) :
    runTrapLoad r s = .taken { s with course := { s.course with traps := s.course.traps.set i t } } [] := by
  unfold runTrapLoad
  rw [orState_setup hs, h, orRange_some]

/-- Settles O46: each request by what its parameters read as, and then by the state. -/
theorem loopAndTrapRequests : Obligations.LoopAndTrapRequests := by
  refine ⟨fun s r rest h => ⟨fun hout => ?loopRange, fun l enabled role hl he hrole hmax => ?loop⟩,
    fun s r rest h => ⟨fun hs => request_notSetup h hs,
      fun hs => ⟨fun hout => ?trapRange, fun i hi => ⟨fun hf => ?trapEmpty, fun a b hf ha hb h1 h2 => ?trapLoad⟩⟩⟩⟩
  case loopRange => exact request_refused h (runLoopConfig_range (Request.loopParams_eq_none hout))
  case loop =>
    have hparams := Request.loopParams_eq_some hl he hrole hmax
    have haccepts := s.course.loops[l].accepts_iff s ⟨enabled, role, r.nat 3 1, r.nat 4 1, r.nat 5 2⟩
    refine ⟨fun hok => request_taken_course h (runLoopConfig_accepts hparams (haccepts.2 hok)),
      fun hs hno => request_refused h (runLoopConfig_rejects hparams ?_)⟩
    exact Bool.eq_false_iff.2 fun hok => (haccepts.1 hok).elim hs hno
  case trapRange => exact request_refused h (runTrapLoad_range hs (Request.trapParams_eq_none hout))
  case trapEmpty => exact request_taken_course h (runTrapLoad_taken hs (Request.trapParams_empty hi hf))
  case trapLoad =>
    exact request_taken_course h (runTrapLoad_taken hs (Request.trapParams_loaded hi hf ha hb ⟨h1, h2⟩))

end Sys2Proof.Machine
end

section
/-! LAP_ADJUST (R133): the competitor that it names, the test of its session state and of its competitor, the status of
its reply, and what a taken one answers. -/

namespace Sys2Proof.Machine

open Host (Outcome)

/-! ## The tests of LAP_ADJUST -/

theorem Request.comp_eq_some {r : Request} {c : CompNo} : r.comp = some c ↔ r.nat 0 1 = c.val := r.index_eq_some c

theorem Request.comp_eq_none {r : Request} : r.comp = none ↔ 96 ≤ r.nat 0 1 := by
  rw [r.nat_one 0]
  exact finOf_eq_none

theorem SessionState.adjustable_iff (x : SessionState) :
    x.adjustable = true ↔ x = .live ∨ x = .chequered ∨ x = .closed := by
  cases x <;> simp [SessionState.adjustable]

/-- The session state and the entry of the competitor that LAP_ADJUST asks for. -/
theorem adjustable_entered_iff (s : State) (c : CompNo) :
    (s.session.state.adjustable && s.engine.records[c].entered) = true ↔
      (s.session.state = .live ∨ s.session.state = .chequered ∨ s.session.state = .closed) ∧
        s.engine.records[c].entered = true := by
  rw [Bool.and_eq_true, SessionState.adjustable_iff]

/-! ## The reply of LAP_ADJUST -/

/-- Nothing was clamped: the delta and the sum stand as they were. -/
theorem adjustClamps_eq_false_iff (laps : Nat) (delta : Int) :
    adjustClamps laps delta = false ↔
      delta = clampDelta delta ∧ (adjustedLaps laps delta : Int) = laps + clampDelta delta := by
  rw [adjustClamps, Bool.or_eq_false_iff, decide_eq_false_iff_not, decide_eq_false_iff_not, not_not, not_not, eq_comm]

theorem adjustStatus_eq (laps : Nat) (delta : Int) :
    adjustStatus laps delta =
      if delta = clampDelta delta ∧ (adjustedLaps laps delta : Int) = laps + clampDelta delta then .ok else .clamped := by
  unfold adjustStatus
  simp only [← adjustClamps_eq_false_iff]
  cases adjustClamps laps delta <;> rfl

/-- The reply carries the laps and the position that the adjustment leaves. -/
theorem lapAdjust_adjustData (s : State) (c : CompNo) (delta : Int) :
    (s.lapAdjust c delta).adjustData c =
      natBytes 2 (adjustedLaps s.engine.records[c].laps delta) ++
        optBytes 1 ((s.lapAdjust c delta).order.position c) := by
  show u16 (s.engine.records.set c _)[c].laps ++ _ = _
  rw [set_get_same]
  rfl

/-! ## The execution of LAP_ADJUST -/

theorem runLapAdjust_range {r : Request} {s : State} (h : 96 ≤ r.nat 0 1) : runLapAdjust r s = .refused s .range := by
  unfold runLapAdjust
  rw [Request.comp_eq_none.2 h, orRange_none]

theorem runLapAdjust_rejects {r : Request} {s : State} {c : CompNo} (hc : r.nat 0 1 = c.val)
    (hno : (s.session.state.adjustable && s.engine.records[c].entered) = false) :
    runLapAdjust r s = .refused s .state := by
  unfold runLapAdjust
  rw [Request.comp_eq_some.2 hc, orRange_some, hno, orState_false]

theorem runLapAdjust_accepts {r : Request} {s : State} {c : CompNo} (hc : r.nat 0 1 = c.val)
    (hok : (s.session.state.adjustable && s.engine.records[c].entered) = true) :
    runLapAdjust r s = ⟨s.lapAdjust c (r.signed 1),
      some (adjustStatus s.engine.records[c].laps (r.signed 1),
        natBytes 2 (adjustedLaps s.engine.records[c].laps (r.signed 1)) ++
          optBytes 1 ((s.lapAdjust c (r.signed 1)).order.position c))⟩ := by
  unfold runLapAdjust
  rw [Request.comp_eq_some.2 hc, orRange_some, hok, orState_true, lapAdjust_adjustData]

/-- The answer of an adjustment, placed: the records, the Running Order, the Publisher and the MU change. -/
theorem lapAdjust_place (s : State) (r : Request) (rest : List Request) (c : CompNo) (delta : Int) (status : Status)
    (data : List Byte) :
    (Answer.mk ((s.begin rest).lapAdjust c delta) (some (status, data))).place r =
      { s.lapAdjust c delta with mu := servedMu s r rest status data } := rfl

theorem lapAdjust_begun {s : State} {r : Request} {rest : List Request} (h : BeginsAs s r rest 0x34 2) :
    exec .lapAdjust s = .next ((runLapAdjust r (s.begin rest)).place r) :=
  congrArg Outcome.next (request_of_begins h runLapAdjust)

theorem lapAdjust_taken {s : State} {r : Request} {rest : List Request} {c : CompNo} (h : BeginsAs s r rest 0x34 2)
    (hc : r.nat 0 1 = c.val) (hok : (s.session.state.adjustable && s.engine.records[c].entered) = true) :
    exec .lapAdjust s = .next { s.lapAdjust c (r.signed 1) with
      mu := servedMu s r rest (adjustStatus s.engine.records[c].laps (r.signed 1))
        (natBytes 2 (adjustedLaps s.engine.records[c].laps (r.signed 1)) ++
          optBytes 1 ((s.lapAdjust c (r.signed 1)).order.position c)) } := by
  rw [lapAdjust_begun h, runLapAdjust_accepts (s := s.begin rest) hc hok]
  exact congrArg Outcome.next (lapAdjust_place s r rest c _ _ _)

/-- Settles O49: the two refusals, and the taken request with its status by what was clamped. -/
theorem lapAdjust : Obligations.LapAdjust := by
  intro s r rest h
  refine ⟨fun hr => request_refused h (runLapAdjust_range hr), fun c hc => ⟨fun hno => ?refused, fun hok => ?taken⟩⟩
  case refused =>
    exact request_refused h (runLapAdjust_rejects (s := s.begin rest) hc
      (Bool.eq_false_iff.2 (mt (adjustable_entered_iff s c).1 hno)))
  case taken =>
    rw [lapAdjust_taken h hc ((adjustable_entered_iff s c).2 hok), adjustStatus_eq]
    rfl

end Sys2Proof.Machine
end

section
/-! The trap step (R112, R113): what the end of a trap and a trap entry do in each case, and the speed of a TRAP
result. -/

namespace Sys2Proof.Machine

/-! ## The end of a trap -/

section TrapEnd
variable {x : Ctx} {w : Work} {i : Fin 4} {t : Trap}

theorem Ctx.trapEnd_none (h : w.car.trapStarts[i] = none) : x.trapEnd i t w = w := by
  unfold Ctx.trapEnd
  rw [h]

/-- The record after the end of a trap with a start held. -/
theorem Ctx.trapEnd_some {b : TrapStart} (h : w.car.trapStarts[i] = some b) :
    x.trapEnd i t w =
      let w' := { w with car := { w.car with trapStarts := w.car.trapStarts.set i none } }
      if 1 ≤ x.passing.time - b.time ∧ x.passing.time - b.time ≤ 2000000 then w'.emit (x.trapResult w i t b)
      else { w' with counts := { w'.counts with trapRejected := bump w'.counts.trapRejected } } := by
  unfold Ctx.trapEnd
  rw [h]

/-- A time of 1 to 2,000,000 µs gives a TRAP result. -/
theorem Ctx.trapEnd_measured {b : TrapStart} (h : w.car.trapStarts[i] = some b) (hpos : b.time < x.passing.time)
    (hmax : x.passing.time ≤ b.time + 2000000) :
    x.trapEnd i t w = { w with
      car := { w.car with trapStarts := w.car.trapStarts.set i none }
      results := w.results ++ [x.trapResult w i t b] } := by
  rw [Ctx.trapEnd_some h]
  exact if_pos (by omega)

/-- Any other time is rejected and counted. -/
theorem Ctx.trapEnd_rejected {b : TrapStart} (h : w.car.trapStarts[i] = some b)
    (hout : x.passing.time ≤ b.time ∨ b.time + 2000000 < x.passing.time) :
    x.trapEnd i t w = { w with
      car := { w.car with trapStarts := w.car.trapStarts.set i none }
      counts := { w.counts with trapRejected := bump w.counts.trapRejected } } := by
  rw [Ctx.trapEnd_some h]
  exact if_neg (by omega)

end TrapEnd

/-! ## A trap entry -/

section TrapEntry
variable {x : Ctx} {w : Work} {i : Fin 4}

theorem Ctx.trapEntry_empty (h : x.course.traps[i] = none) : x.trapEntry w i = w := by
  unfold Ctx.trapEntry
  rw [h]

/-- A loaded entry ends its trap and then begins it, each where the passing is of that loop. -/
theorem Ctx.trapEntry_loaded {t : Trap} (h : x.course.traps[i] = some t) :
    x.trapEntry w i =
      let w' := if t.endLoop = x.passing.loop then x.trapEnd i t w else w
      if t.startLoop = x.passing.loop then x.trapBegin i w' else w' := by
  unfold Ctx.trapEntry
  rw [h]

end TrapEntry

/-! ## The speed -/

theorem trapSpeed_of_le {distance delta : Nat} (h : roundHalfUp (36000 * distance) delta ≤ 9999) :
    trapSpeed distance delta = (roundHalfUp (36000 * distance) delta, false) := if_pos h

theorem trapSpeed_of_gt {distance delta : Nat} (h : 9999 < roundHalfUp (36000 * distance) delta) :
    trapSpeed distance delta = (9999, true) := if_neg (Nat.not_le.2 h)

theorem roundHalfUp_speed (distance delta : Nat) :
    roundHalfUp (36000 * distance) delta = (2 * 36000 * distance + delta) / (2 * delta) := by
  rw [roundHalfUp, Nat.mul_assoc]

/-- A quotient below one half rounds to 0. -/
theorem roundHalfUp_eq_zero {n d : Nat} (h : 2 * n < d) : roundHalfUp n d = 0 :=
  Nat.div_eq_of_lt (by omega)

theorem trapSpeed_eq_zero {distance delta : Nat} (h : 2 * 36000 * distance < delta) :
    trapSpeed distance delta = (0, false) := by
  have hzero : roundHalfUp (36000 * distance) delta = 0 := roundHalfUp_eq_zero (by omega)
  rw [trapSpeed_of_le (by omega), hzero]

/-- Settles O31: the entry by the loops of its trap, its end by the start held and the time since, and the speed by
its rounding. -/
theorem trapMeasurement : Obligations.TrapMeasurement := by
  refine ⟨fun x w => rfl, fun x w i => ⟨Ctx.trapEntry_empty, fun t ht => ?entry⟩,
    ⟨fun distance delta _ => ?rounded, fun _ _ _ => trapSpeed_eq_zero, ?examples⟩, fun x w kind => rfl⟩
  case rounded =>
    rw [← roundHalfUp_speed]
    exact ⟨trapSpeed_of_le, trapSpeed_of_gt⟩
  case examples => decide
  case entry =>
    have hentry := Ctx.trapEntry_loaded (w := w) ht
    refine ⟨fun he hs => ?neither, fun he hs => ?starts, fun he => ⟨x.trapEnd i t w, ?ends, Ctx.trapEnd_none,
      fun b hb => ⟨Ctx.trapEnd_measured hb, Ctx.trapEnd_rejected hb⟩⟩⟩
    case neither => rw [hentry, if_neg he, if_neg hs]
    case starts =>
      rw [hentry, if_neg he]
      exact if_pos hs
    case ends =>
      rw [hentry, if_pos he]
      rfl

end Sys2Proof.Machine
end

section
/-! RELEASE and DISCARD (R163, R164): the competitors that their parameter names, what a taken one does to the Publisher,
and the refusal of a parameter that names none. -/

namespace Sys2Proof.Machine

open Host (Outcome)

/-! ## The competitor that a request names -/

/-- The parameter names all competitors by 255, and one by its number. -/
theorem Request.who_eq_some {r : Request} {who : Option CompNo} :
    r.who = some who ↔ (r.byte 0).toNat = who.elim 255 Fin.val := by
  have hall : r.byte 0 = 255 ↔ (r.byte 0).toNat = 255 := by rw [← BitVec.toNat_inj]; rfl
  unfold Request.who
  by_cases h : r.byte 0 = 255
  · rw [if_pos h, hall.1 h]
    cases who with
    | none => exact iff_of_true rfl rfl
    | some c => exact iff_of_false nofun fun (e : 255 = c.val) => by omega
  · rw [if_neg h]
    cases who with
    | none => simpa using mt hall.2 h
    | some c => simp [Request.index, finOf_eq_some]

/-- The parameter names nothing from 96 to 254. -/
theorem Request.who_eq_none {r : Request} (hcomp : 96 ≤ (r.byte 0).toNat) (hall : (r.byte 0).toNat ≠ 255) :
    r.who = none := by
  have hne : r.byte 0 ≠ 255 := fun h => hall (by rw [h]; rfl)
  have hindex : r.index 96 0 = none := finOf_eq_none.2 hcomp
  rw [Request.who, if_neg hne, hindex, Option.map_none]

/-! ## The execution of RELEASE and DISCARD -/

section Begun
variable {s : State} {r : Request} {rest : List Request} {who : Option CompNo}

/-- A request that is taken with a new Publisher and some data: the Publisher and the MU change. -/
theorem request_taken_publisher {code length : Nat} {run : Request → State → Answer} {p : Publisher}
    {data : List Byte} (h : BeginsAs s r rest code length)
    (hrun : run r (s.begin rest) = .taken { s.begin rest with publisher := p } data) :
    (Outcome.next (s.request code length run) : Outcome State Fault Refusal) =
      .next { s with publisher := p, mu := servedMu s r rest .ok data } := by
  rw [request_of_begins h run, hrun]
  rfl

theorem runRelease_named (h : r.who = some who) :
    runRelease r s =
      .taken { s with publisher := s.publisher.release who } (u8 (s.publisher.namedCount who)) := by
  rw [runRelease, h, orRange_some]

theorem runRelease_range (h : r.who = none) : runRelease r s = .refused s .range := by
  rw [runRelease, h, orRange_none]

theorem runDiscard_named (h : r.who = some who) :
    runDiscard r s =
      .taken { s with publisher := s.publisher.discard who } (u8 (s.publisher.namedCount who)) := by
  rw [runDiscard, h, orRange_some]

theorem runDiscard_range (h : r.who = none) : runDiscard r s = .refused s .range := by
  rw [runDiscard, h, orRange_none]

theorem release_taken (h : BeginsAs s r rest 0x40 1) (hwho : r.who = some who) :
    exec .release s = .next { s with
      publisher := s.publisher.release who
      mu := servedMu s r rest .ok (u8 (s.publisher.namedCount who)) } :=
  request_taken_publisher h (runRelease_named hwho)

theorem discard_taken (h : BeginsAs s r rest 0x41 1) (hwho : r.who = some who) :
    exec .discard s = .next { s with
      publisher := s.publisher.discard who
      mu := servedMu s r rest .ok (u8 (s.publisher.namedCount who)) } :=
  request_taken_publisher h (runDiscard_named hwho)

end Begun

/-- Settles O39: each request by what its parameter names, one competitor, all of them, or nothing. -/
theorem holdListRequests : Obligations.HoldListRequests := by
  intro s r rest p named out left asks
  have hwho : ∀ who, asks who → r.who = some who := by
    intro who hasks
    cases who with
    | none => exact Request.who_eq_some.2 hasks
    | some c => exact Request.who_eq_some.2 hasks
  have hnamed : ∀ who, named who = Result.named who := by
    intro who
    cases who with
    | none => rfl
    | some c => rfl
  refine ⟨fun h => ⟨fun who hasks => ?released, fun hcomp hall => ?releaseRange⟩,
    fun h => ⟨fun who hasks => ?discarded, fun hcomp hall => ?discardRange⟩⟩
  case released =>
    simp only [out, left, hnamed]
    exact release_taken h (hwho who hasks)
  case discarded =>
    simp only [out, left, hnamed]
    exact discard_taken h (hwho who hasks)
  case releaseRange => exact request_refused h (runRelease_range (Request.who_eq_none hcomp hall))
  case discardRange => exact request_refused h (runDiscard_range (Request.who_eq_none hcomp hall))

end Sys2Proof.Machine
end

section
/-! GUARD_SET (R180): the guard that its parameters describe, the test of its units, and the guard that a taken one
writes. -/

namespace Sys2Proof.Machine

open Host (Outcome)

/-! ## The guard that a request describes -/

/-- Two flag bytes with a meaning and a first unit not above the last describe the guard of these four values. -/
theorem Request.guardParams_eq_some {r : Request} {enabled invert : Bool} (he : r.flag 0 = some enabled)
    (hi : r.flag 1 = some invert) (hle : r.nat 2 1 ≤ r.nat 3 1) :
    r.guardParams = some ⟨enabled, invert, r.nat 2 1, r.nat 3 1⟩ := by
  unfold Request.guardParams
  rw [he, hi]
  exact if_pos hle

/-- Test 2 of R180: a first unit above the last, whatever the flag bytes mean. -/
theorem Request.guardParams_eq_none {r : Request} (hlt : r.nat 3 1 < r.nat 2 1) : r.guardParams = none := by
  unfold Request.guardParams
  split
  next => exact if_neg (Nat.not_le.2 hlt)
  next => rfl

/-! ## The execution of GUARD_SET -/

theorem runGuardSet_range {r : Request} {s : State} (hs : s.session.state = .setup) (h : r.guardParams = none) :
    runGuardSet r s = .refused s .range := by
  rw [runGuardSet, orState_setup hs, h, orRange_none]

theorem runGuardSet_taken {r : Request} {s : State} {g : Guard} (hs : s.session.state = .setup)
    (h : r.guardParams = some g) : runGuardSet r s = .taken { s with tmp := { s.tmp with guard := g } } [] := by
  rw [runGuardSet, orState_setup hs, h, orRange_some]

/-- A request that is taken with a new TMP and some data: the TMP and the MU change. -/
theorem request_taken_tmp {s : State} {r : Request} {rest : List Request} {code length : Nat}
    {run : Request → State → Answer} {m : Tmp} {data : List Byte} (h : BeginsAs s r rest code length)
    (hrun : run r (s.begin rest) = .taken { s.begin rest with tmp := m } data) :
    (Outcome.next (s.request code length run) : Outcome State Fault Refusal) =
      .next { s with tmp := m, mu := servedMu s r rest .ok data } := by
  rw [request_of_begins h run, hrun]
  rfl

/-- Settles O21: the tests of R180 in their order, then the guard that the request describes. -/
theorem guardSet : Obligations.GuardSet := by
  refine fun s r rest h => ⟨fun hs => request_notSetup h hs, fun hs => ⟨fun hlt => ?aboveLast, ?taken⟩⟩
  case aboveLast => exact request_refused h (runGuardSet_range hs (Request.guardParams_eq_none hlt))
  case taken =>
    intro enabled invert he hi hle
    exact request_taken_tmp h (runGuardSet_taken hs (Request.guardParams_eq_some he hi hle))

end Sys2Proof.Machine
end

section
/-! What an update of the part keeps (the invariants of Sys2Proof/Safety.lean): one structure with a field for each
invariant, whose fields an update that does not reach the invariant's blocks fills by itself; and what the updates of
each block ask for. -/

namespace Sys2Proof.Machine

/-! ## Keeping the invariants -/

/-- Every competitor with a last applied passing still has one, and it is not earlier (R91, R99). -/
def State.Rises (s t : State) : Prop :=
  ∀ (c : CompNo) (m : AppliedMark), s.engine.records[c].lastApplied = some m →
    ∃ m', t.engine.records[c].lastApplied = some m' ∧ m.time ≤ m'.time

/-- What an update may do besides: take a last applied passing away, and move the session state. -/
structure Licence where
  wipes : Bool := false
  moves : Bool := false

/-- What the update from `s` to `t` keeps. -/
structure Keeps (k : Licence) (s t : State) : Prop where
  memory : MemoryOk s → MemoryOk t := by exact fun h => h
  pool : PoolOk s → PoolOk t := by exact fun h => h
  publisher : PoolOk s → PublisherOk s → PublisherOk t := by exact fun _ h => h
  apart : PoolOk s → ListsApart s → ListsApart t := by exact fun _ h => h
  applied : PoolOk s → AppliedOk s → AppliedOk t := by exact fun _ h => h
  rises : k.wipes = false → PoolOk s → AppliedOk s → s.Rises t := by exact fun _ _ _ _ m h => ⟨m, h, Nat.le_refl _⟩
  order : OrderOk s → OrderOk t := by exact fun h => h
  resolver : ResolverOk s → ResolverOk t := by exact fun h => h
  queues : QueuesOk s → QueuesOk t := by exact fun h => h
  registers : RegistersOk s → RegistersOk t := by exact fun h => h
  ranges : RangesOk s → RangesOk t := by exact fun h => h
  session : k.moves = false → t.session.state = s.session.state := by exact fun _ => rfl

variable {k : Licence}

theorem Keeps.refl (s : State) : Keeps k s s := {}

theorem Keeps.of_eq {s t : State} (h : t = s) : Keeps k s t := by
  subst h
  exact .refl t

theorem Keeps.trans {s t u : State} (h : Keeps k s t) (g : Keeps k t u) : Keeps k s u where
  memory := g.memory ∘ h.memory
  pool := g.pool ∘ h.pool
  publisher hp := g.publisher (h.pool hp) ∘ h.publisher hp
  apart hp := g.apart (h.pool hp) ∘ h.apart hp
  applied hp := g.applied (h.pool hp) ∘ h.applied hp
  rises hk hp ha c m hm := by
    obtain ⟨m₁, h₁, hle₁⟩ := h.rises hk hp ha c m hm
    obtain ⟨m₂, h₂, hle₂⟩ := g.rises hk (h.pool hp) (h.applied hp ha) c m₁ h₁
    exact ⟨m₂, h₂, hle₁.trans hle₂⟩
  order := g.order ∘ h.order
  resolver := g.resolver ∘ h.resolver
  queues := g.queues ∘ h.queues
  registers := g.registers ∘ h.registers
  ranges := g.ranges ∘ h.ranges
  session hk := (g.session hk).trans (h.session hk)

/-- `trans` with the second update first, whose shape names the state in between. -/
theorem Keeps.after {s t u : State} (g : Keeps k t u) (h : Keeps k s t) : Keeps k s u := h.trans g

theorem Keeps.foldl {α : Type} (f : State → α → State) (hf : ∀ s x, Keeps k s (f s x)) (l : List α) (s : State) :
    Keeps k s (l.foldl f s) := by
  induction l generalizing s with
  | nil => exact .refl s
  | cons x l ih => exact (hf s x).trans (ih _)

/-! ## The Line Interface -/

/-- The counts of both directions are in range. -/
abbrev Lif.InRange (l : Lif) : Prop := l.up.InRange ∧ l.down.InRange

theorem keeps_lif {s : State} {l : Lif} (h : s.lif.InRange → l.InRange) : Keeps k s { s with lif := l } where
  ranges := fun ⟨hl, hrest⟩ => ⟨h hl, hrest⟩

theorem Lif.lane_inRange {l : Lif} (h : l.InRange) (d : Direction) : (l.lane d).InRange := by
  cases d with
  | upstream => exact h.1
  | downstream => exact h.2

theorem Lif.setLane_inRange {l : Lif} {x : Lane} (h : l.InRange) (d : Direction) (hx : x.InRange) :
    (l.setLane d x).InRange := by
  cases d with
  | upstream => exact ⟨hx, h.2⟩
  | downstream => exact ⟨h.1, hx⟩

/-- A change of one lane. -/
theorem keeps_lane {s : State} {d : Direction} {x : Lane} (h : (s.lif.lane d).InRange → x.InRange) :
    Keeps k s { s with lif := s.lif.setLane d x } :=
  keeps_lif fun hl => Lif.setLane_inRange hl d (h (Lif.lane_inRange hl d))

/-! ## The Clock and Alignment Unit -/

/-- An UNSET clock stands at 0 with no loop aligned (R17, R20, R40). -/
abbrev Cau.UnsetClear (k : Cau) : Prop :=
  k.clock.state = .unset → k.clock.cycle = 0 ∧ ∀ l : LoopNo, k.records[l].state = .unsynced

theorem keeps_cau {s : State} {c : Cau} (hr : s.cau.InRange → c.InRange) (hu : s.cau.UnsetClear → c.UnsetClear) :
    Keeps k s { s with cau := c } where
  registers := fun ⟨hclock, hrest⟩ => ⟨hu hclock, hrest⟩
  ranges := fun ⟨hlif, hcau, hrest⟩ => ⟨hlif, hr hcau, hrest⟩

/-! ## Intake, the Resolver and the Management Unit -/

theorem keeps_intake {s : State} {q : Intake} (hl : s.intake.queue.length ≤ 32 → q.queue.length ≤ 32)
    (hr : s.intake.InRange → q.InRange) : Keeps k s { s with intake := q } where
  queues := fun ⟨hq, hrest⟩ => ⟨hl hq, hrest⟩
  ranges := fun ⟨hlif, hcau, hq, hrest⟩ => ⟨hlif, hcau, hr hq, hrest⟩

theorem keeps_resolver {s : State} {r : Resolver} (ho : s.resolver.Ok → r.Ok)
    (hr : s.intake.InRange → s.resolver.InRange → r.InRange) : Keeps k s { s with resolver := r } where
  resolver := ho
  ranges := fun ⟨hlif, hcau, hq, hres, hrest⟩ => ⟨hlif, hcau, hq, hr hq hres, hrest⟩

theorem keeps_mu {s : State} {m : Mu} (hl : s.mu.queue.length ≤ 4 → m.queue.length ≤ 4)
    (hp : s.mu.replies.length ≤ 4 → (s.mu.table ≠ none → s.mu.replies.length < 4) →
      m.replies.length ≤ 4 ∧ (m.table ≠ none → m.replies.length < 4))
    (hr : s.mu.counts.InRange → m.counts.InRange) : Keeps k s { s with mu := m } where
  queues := fun ⟨hq, hm, hreplies, htable⟩ => ⟨hq, hl hm, hp hreplies htable⟩
  ranges := fun ⟨hlif, hcau, hq, hres, hcourse, hset, heng, hord, hgreen, hpub, htmp, hsweep, hmu⟩ =>
    ⟨hlif, hcau, hq, hres, hcourse, hset, heng, hord, hgreen, hpub, htmp, hsweep, hr hmu⟩

/-! ## The Publisher -/

theorem keeps_publisher {s : State} {p : Publisher} (ho : s.publisher.Ok → p.Ok)
    (hr : s.publisher.InRange → p.InRange) : Keeps k s { s with publisher := p } where
  publisher := fun _ => ho
  ranges := fun ⟨hlif, hcau, hq, hres, hcourse, hset, heng, hord, hgreen, hpub, hrest⟩ =>
    ⟨hlif, hcau, hq, hres, hcourse, hset, heng, hord, hgreen, hr hpub, hrest⟩

theorem keeps_alerts (s : State) (rs : List Result) (h : ∀ r ∈ rs, r.time ≤ topTime) : Keeps k s (s.alerts rs) :=
  keeps_publisher (alerts_ok rs _) (alerts_inRange rs _ h)

/-- A result that is taken while at most 32 wait (R190). -/
theorem keeps_take {s : State} {r : Result} (hw : s.publisher.Ok → s.publisher.waiting.length ≤ 32)
    (hr : r.time ≤ topTime) : Keeps k s { s with publisher := s.publisher.take s.now r } :=
  keeps_publisher (fun h => take_small _ _ _ h (hw h)) (take_inRange _ _ _ (now_le s) hr)

/-- While the Engine accepts passings nothing waits (R161). -/
theorem Publisher.waiting_of_accepting {p : Publisher} (h : p.Ok) (ha : p.accepting = true) : p.waiting = [] := by
  obtain ⟨-, -, -, -, hwait, -⟩ := h
  by_contra hne
  have hlt : p.buffer.length < 16 := by simpa [Publisher.accepting] using ha
  have := (hwait hne).2
  omega

/-! ## The course -/

/-- A change of the course: in SETUP any, and in an open session one that keeps the dead-bands and the validity. -/
theorem keeps_course {s : State} {c : Course}
    (hopen : s.session.state = .setup ∨ (c.bandOf = s.course.bandOf ∧ c.validity = s.course.validity))
    (hroles : s.course.RolesLoaded → c.RolesLoaded) (hr : s.course.InRange → c.InRange) :
    Keeps k s { s with course := c } where
  apart := fun _ ⟨hempty, happart⟩ => by
    refine ⟨hempty, fun n => ?_⟩
    rcases hopen with h | ⟨hband, -⟩
    · have hnil : s.settle.lists[n] = [] := hempty (.inl h) n
      exact hnil ▸ .nil
    · exact hband ▸ happart n
  registers := fun ⟨hclock, hguard, hvalid, hneutral, hloaded⟩ =>
    ⟨hclock, hguard, fun hs => hopen.elim (fun h => absurd h hs) fun h => h.2.trans (hvalid hs), hneutral, hroles hloaded⟩
  ranges := fun ⟨hlif, hcau, hq, hres, hcourse, hrest⟩ => ⟨hlif, hcau, hq, hres, hr hcourse, hrest⟩

/-! ## Settle -/

/-- A change of Settle that puts nothing into a list. -/
theorem keeps_settle {s : State} {p : Settle} (hl : ∀ c : CompNo, p.lists[c].Sublist s.settle.lists[c])
    (ho : s.settle.Ok → p.Ok) (hr : s.settle.InRange → p.InRange) : Keeps k s { s with settle := p } where
  pool := ho
  apart := fun _ ⟨hempty, happart⟩ =>
    ⟨fun hs c => List.sublist_nil.1 (hempty hs c ▸ hl c), fun c => (happart c).sublist (hl c)⟩
  applied := fun _ h c m hm e he => h c m hm e ((hl c).subset he)
  ranges := fun ⟨hlif, hcau, hq, hres, hcourse, hset, hrest⟩ => ⟨hlif, hcau, hq, hres, hcourse, hr hset, hrest⟩

/-! ## The Engine and the Running Order -/

/-- A change of the Engine and the Running Order that keeps every last applied passing. -/
theorem keeps_engineOrder {s : State} {e : Engine} {o : Order}
    (hl : ∀ c : CompNo, e.records[c].lastApplied = s.engine.records[c].lastApplied)
    (ho : OrderOk s → OrderOk { s with engine := e, order := o })
    (hr : s.engine.InRange → s.order.InRange → e.InRange ∧ o.InRange) :
    Keeps k s { s with engine := e, order := o } where
  applied := fun _ h c m hm => h c m (hl c ▸ hm)
  rises := fun _ _ _ c m hm => ⟨m, (hl c).trans hm, Nat.le_refl _⟩
  order := ho
  ranges := fun ⟨hlif, hcau, hq, hres, hcourse, hset, heng, hord, hrest⟩ =>
    ⟨hlif, hcau, hq, hres, hcourse, hset, (hr heng hord).1, (hr heng hord).2, hrest⟩

/-- Two records that stand at one place of the Running Order, with one last applied passing. -/
abbrev Competitor.SamePlace (r r' : Competitor) : Prop :=
  r'.entered = r.entered ∧ r'.laps = r.laps ∧ r'.lastCrossing = r.lastCrossing ∧ r'.lastApplied = r.lastApplied

/-- Records that keep their places keep the order. -/
theorem order_ok_of_samePlace {o : Order} {rs rs' : Records} (h : ∀ c : CompNo, rs[c].SamePlace rs'[c]) (ho : o.Ok rs) :
    o.Ok rs' := by
  obtain ⟨hnodup, hmem, hsorted⟩ := ho
  have hkeys : ∀ c : CompNo, rs'[c].laps = rs[c].laps ∧ rs'[c].lastCrossing = rs[c].lastCrossing := fun c => by
    obtain ⟨-, hlaps, hcross, -⟩ := h c
    exact ⟨hlaps, hcross⟩
  refine ⟨hnodup, fun c => by rw [(h c).1]; exact hmem c, hsorted.imp fun {a b} hab => ?_⟩
  rw [sortsAhead_congr rs' rs a b (hkeys a) (hkeys b)]
  exact hab

/-- A change of the Engine that leaves every place of the Running Order. -/
theorem keeps_engine {s : State} {e : Engine} (hp : ∀ c : CompNo, s.engine.records[c].SamePlace e.records[c])
    (hs : OrderOk s → ∀ c : CompNo, e.records[c].state = .inactive ∨ e.records[c].state = .standby →
      s.engine.records[c].entered = false)
    (hr : s.engine.InRange → e.InRange) : Keeps k s { s with engine := e } :=
  keeps_engineOrder (o := s.order) (fun c => (hp c).2.2.2)
    (fun ho => by
      have hout := hs ho
      obtain ⟨hsorted, -, hnobody⟩ := ho
      exact ⟨order_ok_of_samePlace hp hsorted, fun c hc => (hp c).1.trans (hout c hc),
        fun hstate c => (hp c).1.trans (hnobody hstate c)⟩)
    (fun he ho => ⟨hr he, ho⟩)

/-- A change of the Engine that leaves the states and the places of the Running Order. -/
theorem keeps_marks {s : State} {e : Engine} (hp : ∀ c : CompNo, s.engine.records[c].SamePlace e.records[c])
    (hs : ∀ c : CompNo, e.records[c].state = s.engine.records[c].state) (hr : s.engine.InRange → e.InRange) :
    Keeps k s { s with engine := e } :=
  keeps_engine hp (fun ⟨_, hout, _⟩ c hc => hout c (hs c ▸ hc)) hr

/-! ## The TMP and the Sweep Engine -/

theorem keeps_tmp {s : State} {m : Tmp} (hm : Memory.wf s.tmp.mem → Memory.wf m.mem)
    (hg : s.tmp.guard.first ≤ s.tmp.guard.last → m.guard.first ≤ m.guard.last) (hr : s.tmp.InRange → m.InRange) :
    Keeps k s { s with tmp := m } where
  memory := hm
  registers := fun ⟨hclock, hguard, hrest⟩ => ⟨hclock, hg hguard, hrest⟩
  ranges := fun ⟨hlif, hcau, hq, hres, hcourse, hset, heng, hord, hgreen, hpub, htmp, hrest⟩ =>
    ⟨hlif, hcau, hq, hres, hcourse, hset, heng, hord, hgreen, hpub, hr htmp, hrest⟩

theorem keeps_completeAccess (s : State) (a : Access) : Keeps k s (s.completeAccess a) :=
  keeps_tmp (Tmp.complete_wf s.tmp a) id id

theorem keeps_sweep {s : State} {x : Sweep} (hr : s.sweep.report.InRange → x.report.InRange) :
    Keeps k s { s with sweep := x } where
  ranges := fun ⟨hlif, hcau, hq, hres, hcourse, hset, heng, hord, hgreen, hpub, htmp, hsweep, hmu⟩ =>
    ⟨hlif, hcau, hq, hres, hcourse, hset, heng, hord, hgreen, hpub, htmp, hr hsweep, hmu⟩

end Sys2Proof.Machine
end

section
/-! What the commands of the line, the clock, Intake, the Resolver, the Table Memory Port and the Sweep Engine keep. -/

namespace Sys2Proof.Machine

open Host (Outcome)

variable {k : Licence}

/-- Wherever a command's meaning has a next state, the state keeps what `Keeps` says. -/
def KeepsNext (k : Licence) (s : State) (o : Outcome State Fault Refusal) : Prop := ∀ t, o = .next t → Keeps k s t

theorem KeepsNext.next {s t : State} (h : Keeps k s t) : KeepsNext k s (.next t) := fun _ ht => next_inj ht ▸ h

theorem KeepsNext.same (s : State) : KeepsNext k s (.next s) := .next (.refl s)

theorem KeepsNext.fault (s : State) (f : Fault) : KeepsNext k s (.fault f) := fun _ ht => by cases ht

/-! ## Alerts -/

theorem keeps_alertResult (s : State) (code : AlertCode) (loop : Option LoopNo) (value : Option Int) (arg : AlertArg)
    {now : Nat} (hn : now ≤ topTime) : Keeps k s (s.alerts [alertResult now code loop value arg]) :=
  keeps_alerts s _ fun _ hr => List.mem_singleton.1 hr ▸ hn

theorem clockNow_le (c : TrackClock) : c.now ≤ topTime := by
  have := c.cycle.isLt
  show c.cycle.toNat * 1000 ≤ 4294967295999
  omega

/-! ## The clock (R17 to R20) -/

/-- The records of the Engine owe their silence test. -/
theorem keeps_silenceMarks (s : State) (b : Bool) : Keeps k s
    { s with engine := { s.engine with
        records := mapAll s.engine.records fun r => { r with silenceTestOwed := b } } } :=
  keeps_marks (fun c => by simp [Competitor.SamePlace]) (fun c => by simp)
    fun ⟨hrec, hrest⟩ => ⟨fun c => by rw [mapAll_get]; exact hrec c, hrest⟩

/-- The clock is replaced by one that is UNSET only where it stood so at the same count. -/
theorem keeps_withClock (s : State) (c : TrackClock) (hr : s.cau.clock.InRange → c.InRange)
    (hu : c.state = .unset → s.cau.clock.state = .unset ∧ c.cycle = s.cau.clock.cycle) : Keeps k s (s.withClock c) := by
  unfold State.withClock
  split
  · refine keeps_cau (fun ⟨hclock, hrest⟩ => ⟨hr hclock, hrest⟩) fun h hs => ?_
    obtain ⟨hold, hcycle⟩ := hu hs
    exact ⟨hcycle.trans (h hold).1, (h hold).2⟩
  · rename_i hne
    have hcau : Keeps k s { s with cau := { s.cau with
        clock := c, records := mapAll s.cau.records fun r => { r with testOwed := true } } } :=
      keeps_cau (fun ⟨hclock, hrec, hrest⟩ => ⟨hr hclock, fun l => by rw [mapAll_get]; exact hrec l, hrest⟩)
        fun _ hs => absurd (hu hs).2 hne
    exact hcau.trans (keeps_silenceMarks _ true)

theorem adopt_state (c : TrackClock) (n : Tick) : (c.adopt n).1.state = .locked := by
  unfold TrackClock.adopt
  dsimp only
  split <;> rfl

theorem goodMark_not_unset (c : TrackClock) (n : Tick) : (c.goodMark n).1.state ≠ .unset := by
  cases hs : c.state with
  | unset => simp [TrackClock.goodMark, hs]
  | locked => simp [TrackClock.goodMark, hs, adopt_state]
  | freeRun =>
    simp only [TrackClock.goodMark, hs]
    split <;> simp [adopt_state]

theorem missingMark_unset (c : TrackClock) (h : c.missingMark.1.state = .unset) : c.missingMark.1 = c := by
  cases hs : c.state with
  | unset => simp [TrackClock.missingMark, hs]
  | locked =>
    simp only [TrackClock.missingMark, hs] at h
    split at h <;> simp at h
  | freeRun => simp [TrackClock.missingMark, hs] at h

theorem keeps_reportGood (s : State) (n : Tick) : Keeps k s (s.reportGood n) :=
  (keeps_withClock s _ (goodMark_inRange _ n) fun h => absurd h (goodMark_not_unset _ n)).trans <|
    keeps_alerts _ _ fun r hr => by
      obtain ⟨_, -, rfl⟩ := List.mem_map.1 hr
      exact clockNow_le _

theorem reportMissing_eq (s : State) : s.reportMissing = (s.withClock s.cau.clock.missingMark.1).alerts
    (if s.cau.clock.missingMark.2 then [alertResult s.cau.clock.missingMark.1.now .clockLost .none .none .none]
      else []) := rfl

theorem keeps_reportMissing (s : State) : Keeps k s s.reportMissing := by
  have hlost : ∀ (b : Bool) (c : TrackClock),
      ∀ r ∈ (if b then [alertResult c.now .clockLost .none .none .none] else []), r.time ≤ topTime := fun b c r hr => by
    cases b with
    | false => cases hr
    | true => exact List.mem_singleton.1 hr ▸ clockNow_le c
  rw [reportMissing_eq]
  refine (keeps_alerts _ _ (hlost _ _)).after (keeps_withClock s _ (missingMark_inRange _) fun h => ?_)
  · have heq := missingMark_unset _ h
    exact ⟨heq ▸ h, by rw [heq]⟩

/-! ## Marks (R3) -/

theorem keeps_setFraming (s : State) (p : Port) (f : Framing) : Keeps k s (s.setFraming p f) := keeps_lane id

theorem keeps_markFailed (p : Port) (s : State) : Keeps k s (markFailed p s) := by
  cases p with
  | trackIn => exact keeps_setFraming s _ _
  | controlIn => exact (keeps_setFraming s _ _).trans (keeps_reportMissing _)

theorem execCycleMarkGood_keeps (p : Port) (n : Tick) (s : State) : KeepsNext k s (execCycleMarkGood p n s) := by
  cases p with
  | trackIn => exact .next (keeps_setFraming s _ _)
  | controlIn => exact .next ((keeps_setFraming s _ _).trans (keeps_reportGood _ n))

theorem execCycleMarkBad_keeps (p : Port) (s : State) : KeepsNext k s (execCycleMarkBad p s) := by
  unfold execCycleMarkBad
  split
  · refine .next (.trans (keeps_lane fun ⟨hcounts, hslots⟩ => ⟨?_, hslots⟩) (keeps_markFailed p _))
    simp only [Within, List.mem_cons, List.not_mem_nil, or_false, forall_eq_or_imp, forall_eq] at hcounts ⊢
    exact ⟨bump_le _, hcounts.2⟩
  · exact .same s

theorem execCycleMarkMissing_keeps (p : Port) (s : State) : KeepsNext k s (execCycleMarkMissing p s) := by
  unfold execCycleMarkMissing
  split
  · exact .next (keeps_markFailed p s)
  · exact .same s

theorem execSearchingMarkPeriod_keeps (s : State) : KeepsNext k s (execSearchingMarkPeriod s) := by
  unfold execSearchingMarkPeriod
  split
  · exact .same s
  · exact .next (keeps_reportMissing s)

/-! ## Cells (R5 to R11) -/

theorem bump_if_le {n : Nat} (b : Bool) (h : n ≤ 65535) : (if b then bump n else n) ≤ 65535 := by
  split
  · exact bump_le n
  · exact h

theorem laneReceipt_inRange (x : Lane) (slot : Slot) (r : Receipt) (h : x.InRange) : (x.receipt slot r).InRange := by
  obtain ⟨hcounts, hslots⟩ := h
  simp only [Within, List.mem_cons, List.not_mem_nil, or_false, forall_eq_or_imp, forall_eq] at hcounts hslots
  obtain ⟨hmarks, hslips⟩ := hcounts
  refine ⟨?_, upd_inRange (fun c : SlotCounts => Within 65535 [c.bad, c.foreign, c.overwrite]) _ _ _ ?_ ?_⟩
  · simp only [Within, List.mem_cons, List.not_mem_nil, or_false, forall_eq_or_imp, forall_eq]
    refine ⟨hmarks, ?_⟩
    unfold Lane.receipt
    dsimp only
    split
    · exact hslips
    · exact bump_le _
  · simpa [Within] using hslots
  · obtain ⟨hbad, hforeign, hover⟩ := hslots slot
    simpa [Within, SlotCounts.receipt] using
      ⟨bump_if_le r.badCheck hbad, bump_if_le r.foreign hforeign, hover⟩

theorem keeps_muDeliver (s : State) (r : Request) : Keeps k s { s with mu := s.mu.deliver r } := by
  unfold Mu.deliver
  split
  · rename_i hlt
    refine keeps_mu (fun _ => by simpa using hlt) (fun h htable => ⟨h, htable⟩) fun h => ?_
    simp only [MuCounts.InRange, Within, List.mem_cons, List.not_mem_nil, or_false, forall_eq_or_imp, forall_eq] at h ⊢
    exact ⟨bump_le _, h.2⟩
  · refine keeps_mu id (fun h htable => ⟨h, htable⟩) fun h => ?_
    simp only [MuCounts.InRange, Within, List.mem_cons, List.not_mem_nil, or_false, forall_eq_or_imp, forall_eq] at h ⊢
    exact ⟨bump_le _, bump_le _, h.2.2⟩

theorem keeps_deliver (s : State) (slot : Slot) (c : Cell) (d : Option Delivery) : Keeps k s (s.deliver slot c d) := by
  match d with
  | .none => exact .refl s
  | some .intake => exact keeps_lif id
  | some .cau => exact keeps_lif id
  | some .mu => exact keeps_muDeliver s _

theorem keeps_receiveCell (d : Direction) (slot : Slot) (c : Cell) (s : State) : Keeps k s (receiveCell d slot c s) := by
  unfold receiveCell
  dsimp only
  split
  · exact (keeps_lane (laneReceipt_inRange _ slot _)).trans (keeps_deliver _ slot c _)
  · exact .refl s

theorem execCellReceipt_keeps (d : Direction) (slot : Nat) (c : Cell) (s : State) :
    KeepsNext k s (execCellReceipt d slot c s) := by
  unfold execCellReceipt
  split
  · exact .next (keeps_receiveCell d _ c s)
  · exact .fault s _

theorem execOutboundCycleStart_keeps (s : State) : KeepsNext k s (execOutboundCycleStart s) := .next (keeps_lif id)

theorem laneOverwritten_inRange (x : Lane) (slot : Slot) (h : x.InRange) : (x.overwritten slot).InRange := by
  unfold Lane.overwritten
  split
  · obtain ⟨hcounts, hslots⟩ := h
    refine ⟨hcounts, upd_inRange (fun c : SlotCounts => Within 65535 [c.bad, c.foreign, c.overwrite]) _ _ _ hslots ?_⟩
    have hslot := hslots slot
    simp only [Within, List.mem_cons, List.not_mem_nil, or_false, forall_eq_or_imp, forall_eq] at hslot ⊢
    exact ⟨hslot.1, hslot.2.1, bump_le _⟩
  · exact h

theorem keeps_sendPosition (d : Direction) (slot : Slot) (s : State) : Keeps k s (sendPosition d slot s) := keeps_lane id

theorem keeps_sendIdle (d : Direction) (slot : Slot) (s : State) : Keeps k s (sendIdle d slot s) := keeps_lane id

theorem keeps_sendOwn (slot : Slot) (c : Cell) (s : State) : Keeps k s (sendOwn slot c s) :=
  keeps_lane (d := .upstream) (laneOverwritten_inRange _ slot)

theorem keeps_insertSend (slot : Slot) (s : State) : Keeps k s (insertSend slot s) := by
  unfold insertSend
  split
  · rename_i r rest hm
    refine (keeps_sendOwn slot _ _).after (keeps_mu id (fun h htable => ?_) id)
    rw [hm] at h htable
    exact ⟨Nat.le_of_succ_le h, fun ht => Nat.lt_of_succ_lt (htable ht)⟩
  · rename_i r rest _ hq
    refine (keeps_sendOwn slot _ _).after (keeps_publisher (lineTook_ok _ r rest hq) ?_)
    rintro ⟨hring, hcounts, hhold, hwait, hbuf, hres⟩
    exact ⟨hring, hcounts, hhold, hwait, hbuf, fun x hx => hres x (hq ▸ List.mem_cons_of_mem r hx)⟩
  · exact keeps_sendPosition _ slot s

theorem keeps_sendSlot (d : Direction) (slot : Slot) (s : State) : Keeps k s (sendSlot d slot s) := by
  unfold sendSlot
  split
  · exact keeps_sendIdle _ slot s
  · exact keeps_insertSend slot s
  all_goals exact keeps_sendPosition _ slot s

theorem execOutboundSlotSend_keeps (d : Direction) (s : State) : KeepsNext k s (execOutboundSlotSend d s) := by
  unfold execOutboundSlotSend
  split
  · exact .next (keeps_sendSlot d _ s)
  · exact .same s

/-! ## Beacons and timeouts (R21 to R33) -/

theorem UnsetClear_of_records {c c' : Cau} (hc : c'.clock.state = c.clock.state ∧ c'.clock.cycle = c.clock.cycle)
    (hr : c.clock.state = .unset → ∀ l : LoopNo, c.records[l].state = .unsynced → c'.records[l].state = .unsynced)
    (h : c.UnsetClear) : c'.UnsetClear := fun hs => by
  obtain ⟨hstate, hcycle⟩ := hc
  have hu : c.clock.state = .unset := hstate ▸ hs
  exact ⟨hcycle.trans (h hu).1, fun l => hr hu l ((h hu).2 l)⟩

theorem offSlot_same (c : TrackClock) : c.offSlot.state = c.state ∧ c.offSlot.cycle = c.cycle := by
  unfold TrackClock.offSlot
  split <;> exact ⟨rfl, rfl⟩

/-- One record of the Loop Alignment Table is replaced; while the clock is UNSET its state stays. -/
theorem keeps_alignRec {s : State} {l : LoopNo} {r : AlignRec} (hr : s.cau.records[l].InRange → r.InRange)
    (hu : s.cau.clock.state = .unset → s.cau.records[l].state = .unsynced → r.state = .unsynced) :
    Keeps k s { s with cau := { s.cau with records := s.cau.records.set l r } } := by
  refine keeps_cau (fun ⟨hclock, hrec, hrest⟩ => ⟨hclock, set_inRange _ _ l r hrec (hr (hrec l)), hrest⟩)
    (UnsetClear_of_records ⟨rfl, rfl⟩ fun hs m hm => ?_)
  dsimp only
  rw [set_get]
  split
  · rename_i h
    exact hu hs (h ▸ hm)
  · exact hm

theorem recordAlert_time (now : Nat) (l : LoopNo) (a : RecordAlert) : (a.toResult now l).time = now := by cases a <;> rfl

theorem keeps_recordAlerts (s : State) {now : Nat} (hn : now ≤ topTime) (l : LoopNo) (as : List RecordAlert) :
    Keeps k s (s.alerts (as.map (RecordAlert.toResult now l))) :=
  keeps_alerts s _ fun r hr => by
    obtain ⟨a, -, rfl⟩ := List.mem_map.1 hr
    rw [recordAlert_time]
    exact hn

theorem keeps_beacon (s : State) (slot : Slot) (tick : Tick) (c16 : Nat) : Keeps k s (s.beacon slot tick c16) := by
  unfold State.beacon
  split
  · exact keeps_cau (fun ⟨hclock, hrest⟩ => ⟨offSlot_inRange _ hclock, hrest⟩)
      (UnsetClear_of_records (offSlot_same _) fun _ _ h => h)
  · rename_i l _
    split
    · exact .refl s
    · rename_i hset
      split
      · refine keeps_alignRec (fun ⟨hlo, hhi, hcons, htimes, hcounts⟩ => ⟨hlo, hhi, hcons, htimes, ?_⟩) fun _ h => h
        simp only [Within, List.mem_cons, List.not_mem_nil, or_false, forall_eq_or_imp, forall_eq] at hcounts ⊢
        obtain ⟨hacc, hclose, hfault, hstep, -⟩ := hcounts
        exact ⟨hacc, hclose, hfault, hstep, bump_le _⟩
      · rename_i cycle hcycle
        refine .trans (keeps_alignRec (fun h => ?_) fun hu => absurd hu hset) (keeps_recordAlerts _ (now_le s) l _)
        exact alignBeacon_inRange _ _ tick _ h (resolveCycle_le _ _ _ hcycle)

theorem execBeaconHandling_keeps (s : State) : KeepsNext k s (execBeaconHandling s) := by
  unfold execBeaconHandling
  split
  · exact .same s
  · exact .next ((keeps_beacon _ _ _ _).after (keeps_lif id))

/-- A record that moves by a timeout, which a record in UNSYNCED never does. -/
theorem keeps_moveLoop {s : State} {l : LoopNo} {r : AlignRec} (hr : s.cau.records[l].InRange → r.InRange)
    (hu : s.cau.records[l].state ≠ .unsynced) : Keeps k s (s.moveLoop l r) :=
  (keeps_alignRec hr fun _ h => absurd h hu).trans (keeps_recordAlerts _ (now_le s) l [.state r.state])

theorem pastTimeout_locked {r : AlignRec} {now timeout : Nat} (h : r.pastTimeout now timeout = true) :
    r.state = .locked := by
  simp only [AlignRec.pastTimeout, Bool.and_eq_true, decide_eq_true_eq] at h
  exact h.1.2

theorem pastLimit_state {r : AlignRec} {now limit : Nat} (h : r.pastLimit now limit = true) :
    r.state = .acquiring ∨ r.state = .holdover := by
  simp only [AlignRec.pastLimit, Bool.and_eq_true, Bool.or_eq_true, decide_eq_true_eq] at h
  exact h.1.2

theorem keeps_loopHoldover (l : LoopNo) (s : State) : Keeps k s (loopHoldover l s) := by
  unfold loopHoldover
  dsimp only
  split
  · rename_i h
    refine keeps_moveLoop id fun hs => ?_
    have hl : s.cau.records[l].state = .locked := pastTimeout_locked h
    rw [hs] at hl
    cases hl
  · exact .refl s

theorem keeps_loopUnsynced (l : LoopNo) (s : State) : Keeps k s (loopUnsynced l s) := by
  unfold loopUnsynced
  dsimp only
  split
  · rename_i h
    refine keeps_moveLoop (fun ⟨hlo, hhi, _, hrest⟩ => ⟨hlo, hhi, Nat.zero_le 2, hrest⟩) fun hs => ?_
    have hl : s.cau.records[l].state = .acquiring ∨ s.cau.records[l].state = .holdover := pastLimit_state h
    rw [hs] at hl
    rcases hl with hl | hl <;> cases hl
  · exact .refl s

theorem execLoopHoldover_keeps (l : Nat) (s : State) : KeepsNext k s (execLoopHoldover l s) := by
  unfold execLoopHoldover
  split
  · exact .next (keeps_loopHoldover _ s)
  · exact .fault s _

theorem execLoopUnsynced_keeps (l : Nat) (s : State) : KeepsNext k s (execLoopUnsynced l s) := by
  unfold execLoopUnsynced
  split
  · exact .next (keeps_loopUnsynced _ s)
  · exact .fault s _

/-! ## Intake (R36 to R47) -/

theorem convertPassing_unsynced {s : State} {l : LoopNo} (p : PassingCell) (hq : s.cau.records[l].state.quality? = none) :
    s.convertPassing l p = .inl .unsynced := by
  unfold State.convertPassing
  dsimp only
  generalize lateDiscard s.now (s.cau.records[l].convert (p.tick s.course.loops[l].window)).1 = late
  rw [hq]

theorem convertPassing_discard {s : State} {l : LoopNo} {p : PassingCell} {q : Quality} {d : Discard}
    (hq : s.cau.records[l].state.quality? = some q) (hd : lateDiscard s.now (s.passingTime l p).1 = some d) :
    s.convertPassing l p = .inl d := by
  unfold State.passingTime at hd
  unfold State.convertPassing
  dsimp only
  generalize lateDiscard s.now (s.cau.records[l].convert (p.tick s.course.loops[l].window)).1 = late at hd ⊢
  rw [hq, hd]

theorem convertPassing_record {s : State} {l : LoopNo} {p : PassingCell} {q : Quality}
    (hq : s.cau.records[l].state.quality? = some q) (hd : lateDiscard s.now (s.passingTime l p).1 = none) :
    s.convertPassing l p = .inr {
      loop := l
      code := p.code
      time := (s.passingTime l p).1
      quality := q
      clamped := (s.passingTime l p).2
      strength := peakStrength p.valid
      arrival := s.cau.clock.cycle } := by
  unfold State.passingTime at hd ⊢
  unfold State.convertPassing
  dsimp only
  generalize lateDiscard s.now (s.cau.records[l].convert (p.tick s.course.loops[l].window)).1 = late at hd ⊢
  rw [hq, hd]

theorem passingTime_le (s : State) (l : LoopNo) (p : PassingCell) : (s.passingTime l p).1 ≤ topTime := by
  unfold State.passingTime
  exact convert_le _ _

theorem convertPassing_time (s : State) (l : LoopNo) (p : PassingCell) {r : IntakeRec}
    (h : s.convertPassing l p = .inr r) : r.time ≤ topTime := by
  cases hq : s.cau.records[l].state.quality? with
  | none => simp [convertPassing_unsynced p hq] at h
  | some q =>
    cases hd : lateDiscard s.now (s.passingTime l p).1 with
    | some d => simp [convertPassing_discard hq hd] at h
    | none =>
      have hr := Sum.inr.inj ((convertPassing_record hq hd).symm.trans h)
      have ht := congrArg IntakeRec.time hr
      exact ht ▸ passingTime_le s l p

theorem testPassing_time (s : State) (l : LoopNo) (p : PassingCell) {r : IntakeRec} (h : s.testPassing l p = .inr r) :
    r.time ≤ topTime := by
  unfold State.testPassing at h
  split at h
  · cases h
  · exact convertPassing_time s l p h

theorem offer_length (q : Intake) (r : IntakeRec) (h : q.queue.length ≤ 32) : (q.offer r).1.queue.length ≤ 32 := by
  unfold Intake.offer
  split
  · rename_i hlt
    simpa using hlt
  · dsimp only
    split <;> exact h

theorem keeps_intakeCell (s : State) (slot : Slot) (p : PassingCell) : Keeps k s (s.intakeCell slot p) := by
  unfold State.intakeCell
  split
  · refine keeps_intake id fun ⟨htimes, hcounts, hloops⟩ => ⟨htimes, ?_, hloops⟩
    simp only [Within, List.mem_cons, List.not_mem_nil, or_false, forall_eq_or_imp, forall_eq] at hcounts ⊢
    exact ⟨bump_le _, hcounts.2⟩
  · rename_i l _
    split
    · rename_i d _
      exact keeps_intake id fun ⟨htimes, hcounts, hloops⟩ =>
        ⟨htimes, hcounts, upd_inRange IntakeCounts.InRange _ _ _ hloops (discard_inRange _ d (hloops l))⟩
    · rename_i r hr
      refine .trans (keeps_intake (offer_length _ r) fun h => offer_inRange _ r h (testPassing_time s l p hr))
        (keeps_alerts _ _ fun x hx => ?_)
      obtain ⟨_, -, rfl⟩ := List.mem_map.1 hx
      exact now_le s

theorem execPassingIntake_keeps (s : State) : KeepsNext k s (execPassingIntake s) := by
  unfold execPassingIntake
  split
  · exact .same s
  · exact .next ((keeps_intakeCell _ _ _).after (keeps_lif id))

/-! ## The Resolver (R56 to R65) -/

theorem execResolverLookup_keeps (s : State) : KeepsNext k s (execResolverLookup s) := by
  unfold execResolverLookup
  split
  · rename_i rec rest _ hq
    refine .next (.trans (t := { s with resolver := s.resolver.serve rec })
      (keeps_resolver (Resolver.serve_ok _ rec) fun ⟨htimes, _⟩ h => ?_) (keeps_intake (fun h => ?_) ?_))
    · exact serve_inRange _ rec (htimes rec (hq ▸ List.mem_cons_self)) h
    · have : (rec :: rest).length ≤ 32 := hq ▸ h
      exact Nat.le_of_succ_le this
    · exact removed_inRange _ _ rec rest hq
  · exact .same s

theorem execWalkReadComplete_keeps (s : State) : KeepsNext k s (execWalkReadComplete s) := by
  unfold execWalkReadComplete
  split
  · rename_i w _ hs
    exact .next ((keeps_completeAccess s _).trans
      (keeps_resolver (fun h => Resolver.wordRead_ok _ w _ h hs) fun _ h => wordRead_inRange _ w _ hs h))
  · exact .same s

theorem execSeenUpdateComplete_keeps (s : State) : KeepsNext k s (execSeenUpdateComplete s) := by
  unfold execSeenUpdateComplete
  split
  · rename_i w _ hs
    split
    · exact .next ((keeps_completeAccess s _).trans
        (keeps_resolver (fun h => Resolver.seenUpdated_ok _ w _ h hs) fun _ h => seenUpdated_inRange _ w _ hs h))
    · exact .same s
  · exact .same s

/-- The Resolver becomes IDLE with other counts. -/
theorem keeps_idle {s : State} {c : ResolverCounts} (hr : s.resolver.counts.InRange → c.InRange) :
    Keeps k s { s with resolver := { s.resolver with serving := .idle, counts := c } } :=
  keeps_resolver (Resolver.idle_ok _ c) fun _ ⟨_, hcounts⟩ => ⟨fun _ h => (by cases h), hr hcounts⟩

/-- A delivery to the Publisher while it takes results. -/
theorem keeps_delivery {s : State} {r : Result} {c : ResolverCounts} (ha : s.publisher.accepting = true)
    (ht : s.resolver.InRange → r.time ≤ topTime) (hr : s.resolver.counts.InRange → c.InRange) : Keeps k s { s with
      publisher := s.publisher.take s.now r
      resolver := { s.resolver with serving := .idle, counts := c } } where
  publisher := fun _ h => take_small _ _ _ h (by rw [Publisher.waiting_of_accepting h ha]; exact Nat.zero_le _)
  resolver := Resolver.idle_ok _ c
  ranges := fun ⟨hlif, hcau, hq, hres, hcourse, hset, heng, hord, hgreen, hpub, hrest⟩ =>
    ⟨hlif, hcau, hq, ⟨fun _ h => (by cases h), hr hres.2⟩, hcourse, hset, heng, hord, hgreen,
      take_inRange _ _ _ (now_le s) (ht hres) hpub, hrest⟩

theorem execUnknownDelivery_keeps (s : State) : KeepsNext k s (execUnknownDelivery s) := by
  unfold execUnknownDelivery
  split
  · rename_i rec note level hs
    split
    · rename_i ha
      refine .next (keeps_delivery ha (fun ⟨htime, _⟩ => htime rec (by rw [hs]; rfl)) fun h => ?_)
      simp only [ResolverCounts.InRange, Within, List.mem_cons, List.not_mem_nil, or_false, forall_eq_or_imp,
        forall_eq] at h ⊢
      obtain ⟨h1, h2, h3, h4, h5, h6, -, hrest⟩ := h
      exact ⟨h1, h2, h3, h4, h5, h6, bump_le _, hrest⟩
    · exact .same s
  · exact .same s

theorem execResolveFaultDelivery_keeps (s : State) : KeepsNext k s (execResolveFaultDelivery s) := by
  unfold execResolveFaultDelivery
  split
  · split
    · rename_i ha
      exact .next (keeps_delivery ha (fun _ => now_le s) (fault_inRange _ _))
    · exact .same s
  · exact .same s

/-! ## The Table Memory Port (R168, R174, R177, R178) -/

theorem countGrant_fields (m : Tmp) (q : Requester) : (m.countGrant q).mem = m.mem ∧ (m.countGrant q).guard = m.guard := by
  cases q <;> exact ⟨rfl, rfl⟩

theorem keeps_grant (s : State) (q : Requester) (a : Access) : Keeps k s (s.grant q a) := by
  obtain ⟨hmem, hguard⟩ := countGrant_fields s.tmp q
  refine .trans (keeps_tmp (m := { s.tmp.grant q a with following := s.followingAfter q }) ?_ ?_ ?_) {}
  · exact fun h => show Memory.wf (s.tmp.countGrant q).mem from hmem ▸ h
  · exact fun h => show (s.tmp.countGrant q).guard.first ≤ (s.tmp.countGrant q).guard.last from hguard ▸ h
  · exact grant_inRange _ q a

theorem execArbiterGrant_keeps (s : State) : KeepsNext k s (execArbiterGrant s) := by
  unfold execArbiterGrant
  split
  · exact .next (keeps_grant s _ _)
  · exact .same s

theorem execLogWordWriteComplete_keeps (s : State) : KeepsNext k s (execLogWordWriteComplete s) := by
  unfold execLogWordWriteComplete
  split
  · exact .next ((keeps_completeAccess s _).trans (keeps_publisher (wordWritten_ok _) (wordWritten_inRange _)))
  · exact .same s

/-- A reply, where the Reply Queue has a place for it. -/
theorem keeps_reply {s : State} (tag code : Byte) (st : Status) (data : List Byte)
    (hp : s.mu.replies.length ≤ 4 → (s.mu.table ≠ none → s.mu.replies.length < 4) →
      s.mu.table = none ∧ s.mu.replies.length < 4) : Keeps k s (s.reply tag code st data) := by
  refine keeps_mu id (fun h htable => ?_) (status_inRange _ st)
  obtain ⟨hnone, hlt⟩ := hp h htable
  exact ⟨by simpa using hlt, fun ht => absurd hnone ht⟩

/-- The reply of a table request whose last access has completed: the MU is IDLE then (R190, R192). -/
theorem keeps_lastReply {s : State} (ht : s.mu.table ≠ none) (tag code : Byte) (st : Status) (data : List Byte) :
    Keeps k s (State.reply { s with mu := { s.mu with table := .none } } tag code st data) := by
  refine keeps_mu id (fun _ htable => ⟨?_, fun h => absurd rfl h⟩) (status_inRange _ st)
  simpa using htable ht

/-- A table request that goes on: the MU still executes it. -/
theorem keeps_tableOp {s : State} {op : TableOp} (ht : s.mu.table ≠ none) :
    Keeps k s { s with mu := { s.mu with table := some op } } :=
  keeps_mu id (fun h htable => ⟨h, fun _ => htable ht⟩) id

theorem keeps_wordRead {s : State} (ht : s.mu.table ≠ none) (tag code : Byte) (addr : WordAddr) (left : Nat)
    (got : List Word) : Keeps k s (s.wordRead tag code addr left got) := by
  unfold State.wordRead
  split
  · exact keeps_lastReply ht ..
  · exact keeps_tableOp ht

theorem keeps_wordWritten {s : State} (ht : s.mu.table ≠ none) (tag code : Byte) (addr : WordAddr) (left : List Word) :
    Keeps k s (s.wordWritten tag code addr left) := by
  unfold State.wordWritten
  split
  · exact keeps_lastReply ht ..
  · exact keeps_tableOp ht

theorem execTableReadWordComplete_keeps (s : State) : KeepsNext k s (execTableReadWordComplete s) := by
  unfold execTableReadWordComplete
  split
  · rename_i a _ _ _ _ _ _ hm
    have ht : s.mu.table ≠ none := by simp [hm]
    exact .next ((keeps_completeAccess s (.read a)).trans (keeps_wordRead (s := s.completeAccess (.read a)) ht ..))
  · exact .same s

theorem execTableWriteWordComplete_keeps (s : State) : KeepsNext k s (execTableWriteWordComplete s) := by
  unfold execTableWriteWordComplete
  split
  · rename_i a w _ _ _ _ _ _ hm
    have ht : s.mu.table ≠ none := by simp [hm]
    exact .next ((keeps_completeAccess s (.write a w)).trans (keeps_wordWritten (s := s.completeAccess (.write a w)) ht ..))
  · exact .same s

/-! ## The Sweep Engine (R182 to R188) -/

theorem staleDone_inRange (x : Sweep) (c : SweepContext) (a : WordAddr) (w : Word) (h : x.report.InRange) :
    (x.staleDone c a w).report.InRange := by
  unfold Sweep.staleDone
  dsimp only
  split
  · exact report_inRange c a w _ h
  · exact h

theorem accessDone_inRange (x : Sweep) (a : WordAddr) (w : Word) (h : x.report.InRange) :
    (x.accessDone a w).1.report.InRange := by
  have hr := report_inRange x.context a w x.report h
  unfold Sweep.accessDone
  dsimp only
  split
  · exact hr
  all_goals split <;> exact hr

theorem keeps_sweepAccessDone (s : State) (a : Access) : Keeps k s (s.sweepAccessDone a) := by
  unfold State.sweepAccessDone
  dsimp only
  split
  · exact (keeps_completeAccess s a).trans (keeps_sweep (staleDone_inRange _ _ _ _))
  · refine ((keeps_completeAccess s a).trans (keeps_sweep (accessDone_inRange _ _ _))).trans (keeps_alerts _ _ fun r hr => ?_)
    split at hr
    · rw [List.mem_singleton.1 hr]
      exact now_le s
    · cases hr

theorem execSweepReadComplete_keeps (s : State) : KeepsNext k s (execSweepReadComplete s) := by
  unfold execSweepReadComplete
  split
  · exact .next (keeps_sweepAccessDone s _)
  · exact .same s

theorem execSweepFlagUpdateComplete_keeps (s : State) : KeepsNext k s (execSweepFlagUpdateComplete s) := by
  unfold execSweepFlagUpdateComplete
  split
  · exact .next (keeps_sweepAccessDone s _)
  · exact .same s

theorem execAliasTargetReadComplete_keeps (s : State) : KeepsNext k s (execAliasTargetReadComplete s) := by
  unfold execAliasTargetReadComplete
  split
  · exact .next (keeps_sweepAccessDone s _)
  · exact .same s

end Sys2Proof.Machine
end

section
/-! What a taking, an expiry and their applications keep: the distance of the entries of a settle list (R87), and the
order of applied times (R91, R99). -/

namespace Sys2Proof.Machine

open Host (Outcome)

variable {k : Licence}

/-! ## Entries of one line are apart (R87, R93) -/

/-- Two entries are not at one line within its dead-band. -/
abbrev Course.Apart (c : Course) (a b : Pending) : Prop :=
  a.line = b.line → c.bandOf a.line * 1000 < ((a.time : Int) - b.time).natAbs

theorem Course.Apart.symm {c : Course} {a b : Pending} (h : c.Apart a b) : c.Apart b a := fun hl => by
  have := h hl.symm
  rw [hl]
  omega

/-- An entry that does not match a passing under a dead-band is apart from it. -/
theorem apart_of_not_matches {c : Course} {band : Nat} {p e : Pending} (hb : c.bandOf p.line ≤ band)
    (h : p.matches band e = false) : c.Apart p e := fun hl => by
  have hlt : ¬ ((p.time : Int) - e.time).natAbs ≤ band * 1000 := by simpa [Pending.matches, hl] using h
  have := Nat.mul_le_mul_right 1000 hb
  omega

theorem placePending_apart {c : Course} {p : Pending} {l : List Pending} (hp : ∀ e ∈ l, c.Apart p e)
    (hl : l.Pairwise c.Apart) : (placePending p l).Pairwise c.Apart :=
  ((placePending_perm p l).pairwise_iff fun h => h.symm).2 (List.pairwise_cons.2 ⟨hp, hl⟩)

/-- A chain with fuel for every entry ends at a survivor that matches none. -/
theorem mergeChain_apart {c : Course} {band : Nat} (fuel : Nat) (p : Pending) (l : List Pending) (k : SettleCounts)
    (hb : c.bandOf p.line ≤ band) (hl : l.Pairwise c.Apart) (hfuel : l.length < fuel) :
    (mergeChain band fuel p l k).1.Pairwise c.Apart := by
  induction fuel generalizing p l k with
  | zero => cases hfuel
  | succ fuel ih =>
    unfold mergeChain
    split
    · rename_i hnone
      refine placePending_apart (fun e he => apart_of_not_matches hb ?_) hl
      simpa using List.find?_eq_none.1 hnone e he
    · rename_i e hsome
      have hmem := List.mem_of_find?_eq_some hsome
      have hline : e.line = p.line := by
        have := List.find?_some hsome
        simp only [Pending.matches, Bool.and_eq_true, decide_eq_true_eq] at this
        exact this.1
      refine ih _ _ _ (by rw [mergeWith_line p e hline]; exact hb) (hl.sublist List.erase_sublist) ?_
      have := List.length_erase_of_mem hmem
      have := List.length_pos_of_mem hmem
      omega

/-- Every settle list is apart. -/
abbrev Settle.Apart (p : Settle) (c : Course) : Prop := ∀ n : CompNo, p.lists[n].Pairwise c.Apart

theorem setList_apart {p : Settle} {c : Course} {n : CompNo} {l : List Pending} (h : p.Apart c)
    (hl : l.Pairwise c.Apart) : (p.setList n l).Apart c := set_inRange (fun l => l.Pairwise c.Apart) _ n l h hl

theorem expire_apart {p : Settle} {c : Course} (n : CompNo) (now : Nat) (h : p.Apart c) :
    (p.expire n now).1.Apart c :=
  setList_apart h ((h n).sublist (List.dropWhile_sublist _))

theorem merge_apart {p : Settle} {c : Course} (n : CompNo) {band : Nat} (now : Nat) {q : Pending} (ho : p.Ok)
    (hb : c.bandOf q.line ≤ band) (h : p.Apart c) : (p.merge n band now q).1.Apart c := by
  have hlen := (ho.2 n).1
  exact expire_apart n now (setList_apart (p := p) h (mergeChain_apart 7 q _ _ hb (h n) (by omega)))

theorem force_apart {p : Settle} {c : Course} {n : CompNo} {q e : Pending} {rest : List Pending}
    (hlist : p.lists[n] = e :: rest) (hq : ∀ x ∈ p.lists[n], c.Apart q x) (h : p.Apart c) :
    (p.force n q e rest).1.Apart c := by
  have hn := h n
  rw [hlist] at hn hq
  unfold Settle.force
  dsimp only
  split
  · exact setList_apart h (placePending_apart (fun x hx => hq x (List.mem_cons_of_mem e hx)) (List.pairwise_cons.1 hn).2)
  · exact h

theorem bypass_apart {p : Settle} {c : Course} (n : CompNo) (q : Pending) (h : p.Apart c) : (p.bypass n q).1.Apart c :=
  setList_apart h ((h n).sublist (List.dropWhile_sublist _))

theorem insert_apart {p : Settle} {c : Course} (n : CompNo) (now : Nat) {q : Pending}
    (hq : ∀ x ∈ p.lists[n], c.Apart q x) (h : p.Apart c) : (p.insert n now q).1.Apart c :=
  expire_apart n now (setList_apart (p := p) h (placePending_apart hq (h n)))

theorem enroll_apart {p : Settle} {c : Course} (n : CompNo) (now : Nat) {q : Pending}
    (hq : ∀ x ∈ p.lists[n], c.Apart q x) (h : p.Apart c) : (p.enroll n now q).1.Apart c := by
  unfold Settle.enroll
  split
  · rename_i hlist
    split
    · exact force_apart hlist hq h
    · split
      · exact bypass_apart n q h
      · exact insert_apart n now hq h
  · split
    · exact bypass_apart n q h
    · exact insert_apart n now hq h

theorem keep_apart {p : Settle} {c : Course} (n : CompNo) {band : Nat} (now : Nat) {q : Pending} (ho : p.Ok)
    (hb : c.bandOf q.line ≤ band) (h : p.Apart c) : (p.keep n band now q).1.Apart c := by
  unfold Settle.keep
  split
  · exact merge_apart n now ho hb h
  · rename_i hany
    refine enroll_apart n now (fun x hx => apart_of_not_matches hb ?_) h
    simpa using fun hm => hany (List.any_eq_true.2 ⟨x, hx, hm⟩)

/-- The dead-band under which a passing is taken is not below that of its line, which is 0 for a point that is not
loaded (R75). -/
theorem bandOf_lineOf_le (c : Course) (l : LoopNo) : c.bandOf (c.lineOf l).line ≤ (c.lineOf l).deadBand := by
  have hpoint : ∀ q : PointNo, c.bandOf (.point q) ≤ c.pointDeadBand q c.loops[l].deadBand := fun q => by
    unfold Course.bandOf Course.pointDeadBand
    dsimp only
    cases c.points[q] with
    | none => exact Nat.zero_le _
    | some p => exact Nat.le_refl _
  unfold Course.lineOf
  split
  · exact hpoint _
  · exact hpoint _
  · exact Nat.le_refl _
  · exact Nat.le_refl _

/-- A taking keeps the lists apart, and outside an open session it leaves them. -/
theorem settleTake_apart {p : Settle} {c : Course} (session : SessionState) (rec : Competitor) (now : Nat) (r : Resolved)
    (ho : p.Ok) (h : p.Apart c) : (p.take session rec (c.lineOf r.record.loop) now r).settle.Apart c := by
  have hk : (p.taken r.comp (c.lineOf r.record.loop).deadBand now
      (r.pending (c.lineOf r.record.loop) p.nextOrder)).settle.Apart c :=
    keep_apart (p := { p with nextOrder := p.nextOrder + 1 }) r.comp now ho (bandOf_lineOf_le c r.record.loop) h
  unfold Settle.take Settle.test
  dsimp only
  split
  · exact h
  · split
    · exact h
    · split
      · exact hk
      · split
        · exact h
        · split
          · exact h
          · exact hk

theorem settleTake_outside {p : Settle} {session : SessionState} (rec : Competitor) (info : LineInfo) (now : Nat)
    (r : Resolved) (hs : session = .setup ∨ session = .closed) :
    (p.take session rec info now r).settle.lists = p.lists := by
  unfold Settle.take
  rw [if_pos hs]

/-! ## Applications -/

@[simp] theorem State.applyAll_settle (s : State) (as : List Application) : (s.applyAll as).settle = s.settle := by
  rw [s.applyAll_frame as]

@[simp] theorem State.applyAll_course (s : State) (as : List Application) : (s.applyAll as).course = s.course := by
  rw [s.applyAll_frame as]

@[simp] theorem State.applyAll_sessionState (s : State) (as : List Application) :
    (s.applyAll as).session.state = s.session.state := by
  rw [s.applyAll_frame as]

theorem State.apply_ranges (s : State) (a : Application) (ha : a.passing.time ≤ topTime) (h : RangesOk s) :
    RangesOk (s.apply a) := by
  obtain ⟨hlif, hcau, hq, hres, hcourse, hset, heng, hord, hgreen, hpub, hrest⟩ := h
  obtain ⟨heng', hord', rs, hrs, hpub'⟩ := s.apply_inRange a ha heng hord
  exact ⟨hlif, hcau, hq, hres, hcourse, hset, heng', hord', hgreen,
    hpub' ▸ takeAll_inRange _ _ rs (now_le s) hrs hpub, hrest⟩

theorem State.applyAll_ranges (as : List Application) (s : State) (ha : ∀ a ∈ as, a.passing.time ≤ topTime)
    (h : RangesOk s) : RangesOk (s.applyAll as) := by
  induction as generalizing s with
  | nil => exact h
  | cons a as ih =>
    exact ih _ (fun x hx => ha x (List.mem_cons_of_mem a hx)) (s.apply_ranges a (ha a List.mem_cons_self) h)

/-- Applications that Settle hands over in ascending times, each not below the last applied one: no entry that stays is
below the new last applied time, and no last applied time falls (R91, R99). -/
theorem applyAll_applied {s u : State} {c : CompNo} {q : Pending} {as : List Application}
    (hrec : u.engine.records = s.engine.records) (hh : s.settle.Hands c q u.settle as)
    (hq : ∀ m, s.engine.records[c].lastApplied = some m → m.time ≤ q.time) (ha : AppliedOk s) :
    AppliedOk (u.applyAll as) ∧ s.Rises (u.applyAll as) := by
  obtain ⟨hcomp, l, hlists, hasc, hof⟩ := hh
  obtain ⟨hother, hlast⟩ := u.applyAll_lastApplied c as hcomp
  rw [hrec] at hother hlast
  obtain ⟨-, -, hacross⟩ := List.pairwise_append.1 hasc
  have hold : ∀ m, s.engine.records[c].lastApplied = some m → ∀ v ∈ handedTimes as l, m.time ≤ v := fun m hm v hv => by
    rcases hof v hv with rfl | ⟨e, he, rfl⟩
    · exact hq m hm
    · exact ha c m hm e he
  have happ : ∀ a ∈ as, a.passing.time ∈ handedTimes as l := fun a h =>
    List.mem_append_left _ (List.mem_map_of_mem (f := fun x : Application => x.passing.time) h)
  have hkept : ∀ e ∈ l, e.time ∈ handedTimes as l := fun e h => List.mem_append_right _ (List.mem_map_of_mem h)
  refine ⟨fun d m hm e he => ?_, fun d m hm => ?_⟩
  · rw [State.applyAll_settle, hlists] at he
    by_cases hd : d = c
    · subst hd
      rw [set_get_same] at he
      rcases hlast with hsame | ⟨a, hamem, hnew⟩
      · exact hold m (hsame ▸ hm) e.time (hkept e he)
      · rw [hnew] at hm
        cases hm
        exact hacross _ (List.mem_map_of_mem (f := fun x : Application => x.passing.time) hamem) _ (List.mem_map_of_mem he)
    · rw [set_get_other _ _ _ _ hd] at he
      exact ha d m (hother d hd ▸ hm) e he
  · by_cases hd : d = c
    · subst hd
      rcases hlast with hsame | ⟨a, hamem, hnew⟩
      · exact ⟨m, hsame.trans hm, Nat.le_refl _⟩
      · exact ⟨_, hnew, hold m hm _ (happ a hamem)⟩
    · exact ⟨m, (congrArg Competitor.lastApplied (hother d hd)).trans hm, Nat.le_refl _⟩

/-- A change of Settle, the Publisher and the Resolver with the applications after it: what each of them asks for. -/
theorem keeps_applications {s : State} {p : Settle} {b : Publisher} {r : Resolver} {as : List Application}
    (hpool : s.settle.Ok → p.Ok)
    (hpub : PoolOk s → PublisherOk s →
      PublisherOk (State.applyAll { s with settle := p, publisher := b, resolver := r } as))
    (hapart : PoolOk s → ListsApart s → ListsApart { s with settle := p })
    (happ : PoolOk s → AppliedOk s →
      AppliedOk (State.applyAll { s with settle := p, publisher := b, resolver := r } as) ∧
        s.Rises (State.applyAll { s with settle := p, publisher := b, resolver := r } as))
    (hres : s.resolver.Ok → r.Ok)
    (hrange : RangesOk s → RangesOk { s with settle := p, publisher := b, resolver := r } ∧
      ∀ a ∈ as, a.passing.time ≤ topTime) :
    Keeps k s (State.applyAll { s with settle := p, publisher := b, resolver := r } as) where
  memory h := by rw [State.applyAll_frame]; exact h
  pool h := by rw [State.applyAll_frame]; exact hpool h
  publisher := hpub
  apart hp h := by rw [State.applyAll_frame]; exact hapart hp h
  applied hp h := (happ hp h).1
  rises _ hp h := (happ hp h).2
  order h := State.applyAll_order as _ h
  resolver h := by rw [State.applyAll_frame]; exact hres h
  queues h := by rw [State.applyAll_frame]; exact h
  registers h := by rw [State.applyAll_frame]; exact h
  ranges h := State.applyAll_ranges as _ (hrange h).2 (hrange h).1
  session _ := State.applyAll_sessionState _ as

/-! ## SETTLE_TAKING (R89) -/

/-- The Publisher after a taking: its result, or the results of at most 6 applications. -/
theorem settleTake_publisher (s : State) (r : Resolved) (ha : s.publisher.accepting = true) (hp : PoolOk s)
    (h : PublisherOk s) : PublisherOk (s.settleTake r) := by
  have htake := (settleTake_ok s.settle s.session.state s.engine.records[r.comp] (s.course.lineOf r.record.loop) s.now r
    hp).2
  unfold State.settleTake
  dsimp only
  generalize s.settle.take s.session.state s.engine.records[r.comp] (s.course.lineOf r.record.loop) s.now r = t at *
  obtain ⟨rs, hrs, hpub, -⟩ := State.applyAll_publisher t.apply { s with
    settle := t.settle
    publisher := s.publisher.takeAll s.now t.results
    resolver := { s.resolver with
      serving := .idle, counts := { s.resolver.counts with competitors := bump s.resolver.counts.competitors } } }
  have hall : PublisherOk s → ((s.publisher.takeAll s.now t.results).takeAll s.now rs).Ok := fun h => by
    obtain ⟨hsound, -⟩ := (Publisher.ok_iff _).1 h
    have hbuf : s.publisher.buffer.length < 16 := by simpa [Publisher.accepting] using ha
    obtain ⟨hsound', hwait⟩ := takeAll_accepting s.now (t.results ++ rs) s.publisher hsound hbuf
    have happend : s.publisher.takeAll s.now (t.results ++ rs) = (s.publisher.takeAll s.now t.results).takeAll s.now rs :=
      List.foldl_append
    rw [happend] at hsound' hwait
    refine (Publisher.ok_iff _).2 ⟨hsound', hwait.trans ?_⟩
    rw [List.length_append]
    rcases htake with ⟨hnil, hlen⟩ | ⟨hone, hnil⟩
    · rw [hnil, List.length_nil]
      omega
    · rw [hnil, List.length_nil] at hrs
      omega
  exact show (State.applyAll _ t.apply).publisher.Ok from hpub ▸ hall h

theorem keeps_settleTake (s : State) (r : Resolved) (ha : s.publisher.accepting = true)
    (ht : s.resolver.InRange → r.record.time ≤ topTime) : Keeps k s (s.settleTake r) := by
  have hpub := settleTake_publisher s r ha
  unfold State.settleTake at hpub ⊢
  dsimp only at hpub ⊢
  refine keeps_applications (fun h => (settleTake_ok _ _ _ _ _ r h).1) hpub (fun hp ⟨hempty, hap⟩ => ⟨fun hs c => ?_, ?_⟩)
    (fun hp h => ?_) (Resolver.idle_ok _ _) fun h => ?_
  · dsimp only
    rw [settleTake_outside _ _ _ r hs]
    exact hempty hs c
  · exact settleTake_apart _ _ _ r hp hap
  · have hasc : Ascending s.settle.lists[r.comp] := (hp.2 r.comp).2
    rcases settleTake_hands s.settle s.session.state s.engine.records[r.comp] (s.course.lineOf r.record.loop) s.now r hasc
      with ⟨hnil, hlists⟩ | ⟨hlast, hhands⟩
    · rw [hnil]
      exact ⟨fun c m hm e he => h c m hm e (hlists ▸ he), fun c m hm => ⟨m, hm, Nat.le_refl _⟩⟩
    · exact applyAll_applied rfl hhands hlast h
  · obtain ⟨hlif, hcau, hq, hres, hcourse, hset, heng, hord, hgreen, hp, hrest⟩ := h
    obtain ⟨hset', happly, hresults⟩ := settleTake_inRange s.settle s.session.state s.engine.records[r.comp]
      (s.course.lineOf r.record.loop) s.now r (ht hres) hset
    refine ⟨⟨hlif, hcau, hq, ⟨fun _ h => (by cases h), ?_⟩, hcourse, hset', heng, hord, hgreen,
      takeAll_inRange _ _ _ (now_le s) hresults hp, hrest⟩, happly⟩
    obtain ⟨-, hcounts⟩ := hres
    simp only [ResolverCounts.InRange, Within, List.mem_cons, List.not_mem_nil, or_false, forall_eq_or_imp,
      forall_eq] at hcounts ⊢
    obtain ⟨h1, h2, h3, h4, h5, -, hrest⟩ := hcounts
    exact ⟨h1, h2, h3, h4, h5, bump_le _, hrest⟩

theorem execSettleTaking_keeps (s : State) : KeepsNext k s (execSettleTaking s) := by
  unfold execSettleTaking
  split
  · rename_i rec n withhold _ hs
    split
    · rename_i ha
      exact .next (keeps_settleTake s _ ha fun ⟨htime, _⟩ => htime rec (by rw [hs]; rfl))
    · exact .same s
  · exact .same s

/-! ## Expiry (R98) -/

theorem dueHead_lists {s : State} {c : CompNo} {h : Pending} {rest : List Pending} (hd : s.dueHead c = some (h, rest)) :
    s.settle.lists[c] = h :: rest := by
  unfold State.dueHead at hd
  split at hd
  · cases hd
  · rename_i hl
    split at hd
    · cases hd
      exact hl
    · cases hd

theorem keeps_expireHead (s : State) (c : CompNo) (h : Pending) (rest : List Pending)
    (hl : s.settle.lists[c] = h :: rest) (ha : s.publisher.accepting = true) : Keeps k s (s.expireHead c h rest) := by
  have hlists : ∀ d : CompNo, (s.settle.expireHead c rest).lists[d].Sublist s.settle.lists[d] := fun d => by
    have : (s.settle.expireHead c rest).lists = s.settle.lists.set c rest := rfl
    rw [this, set_get]
    split
    · rename_i hd
      rw [hd, hl]
      exact List.sublist_cons_self h rest
    · exact List.Sublist.refl _
  refine keeps_applications (as := [⟨.settled, c, h⟩]) (r := s.resolver) (b := s.publisher)
    (fun hp => expireHead_ok _ c h rest hl hp) (fun _ hpub => ?_)
    (fun _ ⟨hempty, hap⟩ => ⟨fun hs d => List.sublist_nil.1 (hempty hs d ▸ hlists d), fun d => (hap d).sublist (hlists d)⟩)
    (fun hp happ => ?_) id fun hr => ?_
  · obtain ⟨rs, hrs, hpub', -⟩ := State.applyAll_publisher [⟨.settled, c, h⟩]
      { s with settle := s.settle.expireHead c rest, publisher := s.publisher, resolver := s.resolver }
    obtain ⟨hsound, -⟩ := (Publisher.ok_iff _).1 hpub
    have hbuf : s.publisher.buffer.length < 16 := by simpa [Publisher.accepting] using ha
    obtain ⟨hsound', hwait⟩ := takeAll_accepting s.now rs s.publisher hsound hbuf
    have hrs8 : rs.length ≤ 8 := hrs
    have hok : (s.publisher.takeAll s.now rs).Ok := (Publisher.ok_iff _).2 ⟨hsound', by omega⟩
    exact show (State.applyAll _ _).publisher.Ok from hpub' ▸ hok
  · have hasc : Ascending s.settle.lists[c] := (hp.2 c).2
    refine applyAll_applied (c := c) (q := h) rfl ⟨fun a ha => by rw [List.mem_singleton.1 ha], rest, rfl, ?_, fun v hv => ?_⟩
      (fun m hm => happ c m hm h (hl ▸ List.mem_cons_self)) happ
    · rw [hl] at hasc
      exact List.pairwise_map.2 hasc
    · refine .inr ?_
      obtain ⟨e, he, rfl⟩ := List.mem_map.1 (show v ∈ (h :: rest).map Pending.time from hv)
      exact ⟨e, hl ▸ he, rfl⟩
  · obtain ⟨hlif, hcau, hq, hres, hcourse, hset, hrest⟩ := hr
    have htime : h.time ≤ topTime := hset.2.2.1 c h (hl ▸ List.mem_cons_self)
    exact ⟨⟨hlif, hcau, hq, hres, hcourse, expireHead_inRange _ c h rest hl hset, hrest⟩,
      fun a ha => List.mem_singleton.1 ha ▸ htime⟩

theorem keeps_settleExpiry (c : CompNo) (s : State) : Keeps k s (settleExpiry c s) := by
  unfold settleExpiry
  split
  · rename_i hd
    split
    · rename_i ha
      exact keeps_expireHead s c _ _ (dueHead_lists hd) ha
    · exact .refl s
  · exact .refl s

theorem execSettleExpiry_keeps (c : Nat) (s : State) : KeepsNext k s (execSettleExpiry c s) := by
  unfold execSettleExpiry
  split
  · exact .next (keeps_settleExpiry _ s)
  · exact .fault s _

theorem keeps_expireList (c : CompNo) (fuel : Nat) (s : State) : Keeps k s (s.expireList c fuel) := by
  induction fuel generalizing s with
  | zero => exact .refl s
  | succ fuel ih =>
    unfold State.expireList
    split
    · exact .refl s
    · rename_i hd
      split
      · rename_i ha
        exact (keeps_expireHead s c _ _ (dueHead_lists hd) ha).trans (ih _)
      · exact .refl s

theorem keeps_expireAll (s : State) : Keeps k s s.expireAll :=
  Keeps.trans (t := { s with freeCounter := s.freeCounter + 1 }) {} (.foldl _ (fun t c => keeps_expireList c _ t) _ _)

/-! ## Silence (R128) -/

/-- One record and the counts of the Engine change; the record keeps its state, its place and what it last applied. -/
theorem keeps_record {s : State} {c : CompNo} {r : Competitor} {n : EngineCounts}
    (hp : s.engine.records[c].SamePlace r) (hs : r.state = s.engine.records[c].state)
    (hr : s.engine.records[c].InRange → r.InRange) (hn : s.engine.counts.InRange → n.InRange) : Keeps k s
      { s with engine := { s.engine with records := s.engine.records.set c r, counts := n } } := by
  refine keeps_marks (fun d => ?_) (fun d => ?_) fun ⟨hrec, hlimit, hcounts⟩ =>
    ⟨set_inRange _ _ c r hrec (hr (hrec c)), hlimit, hn hcounts⟩
  · dsimp only
    rw [set_get]
    split
    · rename_i h
      exact h ▸ hp
    · exact ⟨rfl, rfl, rfl, rfl⟩
  · dsimp only
    rw [set_get]
    split
    · rename_i h
      exact h ▸ hs
    · rfl

theorem keeps_silenceTest (s : State) (c : CompNo) : Keeps k s (s.silenceTest c) := by
  unfold State.silenceTest
  dsimp only
  split
  · exact .refl s
  · refine (keeps_alerts _ _ fun r hr => ?_).after (keeps_record ⟨rfl, rfl, rfl, rfl⟩ rfl id fun h => ?_)
    · rw [List.mem_singleton.1 hr]
      exact now_le s
    · simp only [EngineCounts.InRange, Within, List.mem_cons, List.not_mem_nil, or_false, forall_eq_or_imp,
        forall_eq] at h ⊢
      obtain ⟨h1, h2, h3, h4, h5, h6, h7, h8, h9, h10, h11, -⟩ := h
      exact ⟨h1, h2, h3, h4, h5, h6, h7, h8, h9, h10, h11, bump_le _⟩

theorem keeps_silent (c : CompNo) (s : State) : Keeps k s (silent c s) := by
  unfold silent
  split
  · exact keeps_silenceTest s c
  · exact .refl s

theorem execSilent_keeps (c : Nat) (s : State) : KeepsNext k s (execSilent c s) := by
  unfold execSilent
  split
  · exact .next (keeps_silent _ s)
  · exact .fault s _

theorem keeps_silenceTestAll (s : State) : Keeps k s s.silenceTestAll :=
  (keeps_silenceMarks _ false).after <|
    Keeps.trans (t := { s with freeCounter := s.freeCounter + 1 }) {} (.foldl _ keeps_silenceTest _ _)

end Sys2Proof.Machine
end

section
/-! What the requests and the part resets keep, and with them every command. -/

namespace Sys2Proof.Machine

open Host (Outcome)

variable {k : Licence}

/-! ## The beginning and the reply of a request (R190, R192) -/

/-- The execution of a request keeps what `Keeps` says; one that is answered leaves the MU to its reply. -/
structure AnswerKeeps (k : Licence) (s : State) (a : Answer) : Prop where
  state : Keeps k s a.state
  mu : a.reply ≠ none → a.state.mu = s.mu

theorem AnswerKeeps.refused (s : State) (st : Status) : AnswerKeeps k s (.refused s st) := ⟨.refl s, fun _ => rfl⟩

theorem AnswerKeeps.taken {s t : State} {data : List Byte} (h : Keeps k s t) (hm : t.mu = s.mu) :
    AnswerKeeps k s (.taken t data) := ⟨h, fun _ => hm⟩

theorem AnswerKeeps.orRange {α : Type} {s : State} {p : Option α} {run : α → Answer}
    (h : ∀ x, p = some x → AnswerKeeps k s (run x)) : AnswerKeeps k s (Machine.orRange s p run) := by
  cases p with
  | none => exact .refused s _
  | some x => exact h x rfl

theorem AnswerKeeps.orState {s : State} {b : Bool} {a : Answer} (h : b = true → AnswerKeeps k s a) :
    AnswerKeeps k s (Machine.orState s b a) := by
  cases b with
  | false => exact .refused s _
  | true => exact h rfl

theorem keeps_begin {s : State} {r : Request} {rest : List Request} (h : Begins s r rest) : Keeps k s (s.begin rest) := by
  obtain ⟨-, hqueue, -⟩ := h
  refine keeps_mu (fun hl => ?_) (fun hl htable => ⟨hl, htable⟩) fun hc => ?_
  · rw [hqueue] at hl
    exact Nat.le_of_succ_le hl
  · simp only [MuCounts.InRange, Within, List.mem_cons, List.not_mem_nil, or_false, forall_eq_or_imp, forall_eq] at hc ⊢
    obtain ⟨hdelivered, hdropped, -, hrest⟩ := hc
    exact ⟨hdelivered, hdropped, bump_le _, hrest⟩

/-- What the execution of a request may take for granted: the MU is IDLE and has a place for the reply, and at most 32
results wait where the request hands any over. -/
structure Begun (t : State) (results : Prop) : Prop where
  idle : t.mu.table = none
  place : t.mu.replies.length < 4
  fits : results → t.publisher.waiting.length ≤ 32

theorem keeps_serve {s : State} {mine : Nat → Bool} {run : Request → State → Answer}
    (h : ∀ (r : Request) (t : State), mine r.code.toNat = true → Begun t (r.code.toNat ∈ resultCodes) →
      AnswerKeeps k t (run r t)) : Keeps k s (s.serve mine run) := by
  rcases serve_cases s mine run with e | ⟨r, rest, hb, hm, e⟩
  · exact .of_eq e
  · rw [e]
    have hbegin := keeps_begin (k := k) hb
    obtain ⟨hidle, -, hplace, hfits⟩ := hb
    obtain ⟨hstate, hmu⟩ := h r (s.begin rest) hm ⟨hidle, hplace, hfits⟩
    refine hbegin.trans (hstate.trans ?_)
    unfold Answer.place
    split
    · rename_i hreply
      have hmu' := hmu (by rw [hreply]; exact Option.some_ne_none _)
      exact keeps_reply _ _ _ _ fun _ _ => ⟨hmu' ▸ hidle, hmu' ▸ hplace⟩
    · exact .refl _

theorem keeps_withLength {t : State} {r : Request} {lengths : List Nat} {run : Request → State → Answer}
    (h : AnswerKeeps k t (run r t)) : AnswerKeeps k t (withLength lengths run r t) := by
  unfold withLength
  split
  · exact h
  · exact .refused t _

theorem request_keepsNext {s : State} {code length : Nat} {run : Request → State → Answer}
    (h : ∀ (r : Request) (t : State), Begun t (code ∈ resultCodes) → AnswerKeeps k t (run r t)) :
    KeepsNext k s (.next (s.request code length run)) :=
  .next (keeps_serve fun r t hm ⟨hidle, hplace, hfits⟩ =>
    keeps_withLength (h r t ⟨hidle, hplace, fun hc => hfits (eq_of_beq hm ▸ hc)⟩))

/-- A result of a request that hands results to the Publisher. -/
theorem Begun.take {s t : State} {p : Prop} (h : Begun s p) (hp : p) (ht : t.publisher.waiting = s.publisher.waiting)
    {r : Result} (hr : r.time ≤ topTime) : Keeps k t { t with publisher := t.publisher.take t.now r } :=
  keeps_take (fun _ => ht ▸ h.fits hp) hr

/-! ## Resolution and the line -/

theorem runSlotMapWrite_keeps (r : Request) (s : State) : AnswerKeeps k s (runSlotMapWrite r s) :=
  .orRange fun _ _ => .taken (keeps_lane id) rfl

theorem setRoot_ok (r : Resolver) (i : TableIndex) : (r.setRoot i).Ok := by
  refine ⟨Nat.zero_le _, List.nodup_nil, fun _ he => ?_, fun h => ?_⟩
  · cases he
  · cases h

theorem runRootSet_keeps (r : Request) (s : State) : AnswerKeeps k s (runRootSet r s) := by
  unfold runRootSet
  split
  · exact .taken (keeps_resolver (fun _ => setRoot_ok _ _) fun _ h => h) rfl
  · exact .refused s _

theorem flush_inRange (r : Resolver) (m : FlushMode) (c : Code) (h : r.InRange) : (r.flush m c).1.InRange := by
  obtain ⟨htimes, hcounts⟩ := h
  refine ⟨htimes, ?_⟩
  simp only [ResolverCounts.InRange, Within, List.mem_cons, List.not_mem_nil, or_false, forall_eq_or_imp,
    forall_eq] at hcounts ⊢
  obtain ⟨h1, h2, h3, h4, h5, h6, h7, h8, h9, h10, h11, h12, h13, h14, h15, h16, -⟩ := hcounts
  exact ⟨h1, h2, h3, h4, h5, h6, h7, h8, h9, h10, h11, h12, h13, h14, h15, h16, bump_le _⟩

theorem runResolverFlush_keeps (r : Request) (s : State) : AnswerKeeps k s (runResolverFlush r s) :=
  .orRange fun m _ => .taken (keeps_resolver (Resolver.flush_ok _ m _) fun _ => flush_inRange _ m _) rfl

/-! ## The course -/

theorem inSetup_iff (s : State) : s.inSetup = true ↔ s.session.state = .setup := by simp [State.inSetup]

theorem pointParams_minTransit {r : Request} {q : PointNo} {p : CoursePoint} (h : r.pointParams = some (q, p)) :
    p.minTransit ≤ 600000 := by
  unfold Request.pointParams at h
  split at h
  · split at h
    · rename_i hle
      simp only [Option.some.injEq, Prod.mk.injEq] at h
      rw [← h.2]
      exact hle
    · cases h
  · cases h

theorem runCoursePointLoad_keeps (r : Request) (s : State) : AnswerKeeps k s (runCoursePointLoad r s) := by
  refine .orState fun hs => .orRange fun ⟨q, p⟩ hp => ?_
  dsimp only
  split
  · exact .taken (keeps_course (.inl ((inSetup_iff s).1 hs)) (loadPoint_rolesLoaded _ q p)
      (loadPoint_inRange _ q p (pointParams_minTransit hp))) rfl
  · exact .refused s _

theorem runCourseClear_keeps (r : Request) (s : State) : AnswerKeeps k s (runCourseClear r s) :=
  .orState fun hs => .taken (keeps_course (.inl ((inSetup_iff s).1 hs)) (fun _ => courseCleared_rolesLoaded _)
    (courseCleared_inRange _)) rfl

theorem loopParams_ranges {r : Request} {l : LoopNo} {x : LoopSettings} (h : r.loopParams = some (l, x)) :
    x.window ≤ 255 ∧ x.floor ≤ 255 ∧ x.deadBand ≤ 10000 := by
  unfold Request.loopParams at h
  split at h
  · split at h
    · rename_i hle
      simp only [Option.some.injEq, Prod.mk.injEq] at h
      rw [← h.2]
      exact ⟨byteParam_le r 3, byteParam_le r 4, hle⟩
    · cases h
  · cases h

/-- A LOOP_CONFIG that keeps the dead-band of its loop keeps that of every line. -/
theorem bandOf_configured {c : Course} {l : LoopNo} {x : LoopSettings} (h : x.deadBand = c.loops[l].deadBand) :
    Course.bandOf { c with loops := upd c.loops l fun rec => rec.configured x } = c.bandOf := by
  have hband : ∀ m : LoopNo, (upd c.loops l fun rec => rec.configured x)[m].deadBand = c.loops[m].deadBand := fun m => by
    by_cases hm : m = l
    · rw [hm, upd_get_same]
      exact h
    · rw [upd_get_other _ _ _ _ hm]
  funext line
  unfold Course.bandOf
  cases line with
  | point q =>
    dsimp only
    cases c.points[q] with
    | none => rfl
    | some p => exact hband p.primary
  | loop m => exact hband m

theorem runLoopConfig_keeps (r : Request) (s : State) : AnswerKeeps k s (runLoopConfig r s) := by
  refine .orRange fun ⟨l, x⟩ hx => .orState fun hacc => .taken (keeps_course ?_ (fun h => ?_) fun h => ?_) rfl
  · simp only [LoopRec.accepts, Bool.or_eq_true, Bool.and_eq_true, decide_eq_true_eq] at hacc
    exact hacc.imp (inSetup_iff s).1 fun h => ⟨bandOf_configured h.2, rfl⟩
  · intro m q hm
    refine h m q ?_
    by_cases hml : m = l
    · subst hml
      rw [upd_get_same] at hm
      exact hm
    · rw [upd_get_other _ _ _ _ hml] at hm
      exact hm
  · obtain ⟨hcount, hloaded, hlast, htransit, hloops, htraps⟩ := h
    exact ⟨hcount, hloaded, hlast, htransit,
      upd_inRange (fun c : LoopRec => c.window ≤ 255 ∧ c.floor ≤ 255 ∧ c.deadBand ≤ 10000) _ _ _ hloops
        (loopParams_ranges hx), htraps⟩

theorem trapParams_distance {r : Request} {i : Fin 4} {t : Option Trap} (h : r.trapParams = some (i, t)) :
    ∀ x ∈ t, 1 ≤ x.distance ∧ x.distance ≤ 200000 := by
  unfold Request.trapParams at h
  split at h
  · cases h
    exact fun _ hx => by cases hx
  · split at h
    · split at h
      · rename_i hd
        simp only [Option.some.injEq, Prod.mk.injEq] at h
        rw [← h.2]
        exact fun x hx => Option.some.inj hx ▸ hd
      · cases h
    · cases h
  · cases h

theorem runTrapLoad_keeps (r : Request) (s : State) : AnswerKeeps k s (runTrapLoad r s) :=
  .orState fun hs => .orRange fun ⟨_, _⟩ ht => .taken (keeps_course (.inl ((inSetup_iff s).1 hs)) id
    fun ⟨hcount, hloaded, hlast, htransit, hloops, htraps⟩ => ⟨hcount, hloaded, hlast, htransit, hloops,
      set_inRange (fun t : Option Trap => ∀ x ∈ t, 1 ≤ x.distance ∧ x.distance ≤ 200000) _ _ _ htraps
        (trapParams_distance ht)⟩) rfl

/-! ## Roster and race control -/

theorem rosterParams_ranges {r : Request} {c : CompNo} {n x : Nat} (h : r.rosterParams = some (c, n, x)) :
    n ≤ 999 ∧ x ≤ 7 := by
  unfold Request.rosterParams at h
  split at h
  · split at h
    · rename_i hle
      simp only [Option.some.injEq, Prod.mk.injEq] at h
      obtain ⟨-, rfl, rfl⟩ := h
      exact hle
    · cases h
  · cases h

/-- A record moves to another state with its place of the Running Order and its last applied passing. -/
theorem keeps_moveRecord {s : State} {c : CompNo} {r : Competitor} (hp : s.engine.records[c].SamePlace r)
    (hs : OrderOk s → r.state = .inactive ∨ r.state = .standby → s.engine.records[c].entered = false)
    (hr : s.engine.records[c].InRange → r.InRange) : Keeps k s
      { s with engine := { s.engine with records := s.engine.records.set c r } } := by
  refine keeps_engine (fun d => ?_) (fun ho d hd => ?_) fun ⟨hrec, hrest⟩ => ⟨set_inRange _ _ c r hrec (hr (hrec c)), hrest⟩
  · dsimp only
    rw [set_get]
    split
    · rename_i h
      exact h ▸ hp
    · exact ⟨rfl, rfl, rfl, rfl⟩
  · have hout := hs ho
    obtain ⟨-, hall, -⟩ := ho
    dsimp only at hd
    rw [set_get] at hd
    split at hd
    · rename_i h
      exact h ▸ hout hd
    · exact hall d hd

/-- A changed record hands its STATE result besides (R134). -/
theorem keeps_changeRecord {s : State} (hw : s.publisher.waiting.length ≤ 32) {c : CompNo} {r : Competitor}
    (change : StateChange)
    (h : Keeps k s { s with engine := { s.engine with records := s.engine.records.set c r } }) :
    Keeps k s (s.changeRecord c r change) :=
  Keeps.after (t := { s with engine := { s.engine with records := s.engine.records.set c r } })
    (keeps_take (r := stateResult s.now c r.raceNumber change (some r.state) none) (fun _ => hw) (now_le s)) h

theorem keeps_rosterWrite {s : State} (hb : Begun s True) (c : CompNo) {n x : Nat} (hn : n ≤ 999) (hx : x ≤ 7) :
    Keeps k s (s.rosterWrite c n x) := by
  have hr : ∀ st : CompState, s.engine.records[c].InRange →
      Competitor.InRange { s.engine.records[c] with state := st, raceNumber := n, class_ := x } :=
    fun _ ⟨⟨_, _, hrest⟩, hmore⟩ => ⟨⟨hn, hx, hrest⟩, hmore⟩
  unfold State.rosterWrite
  dsimp only
  split
  · rename_i hin
    exact keeps_changeRecord (hb.fits trivial) _
      (keeps_moveRecord ⟨rfl, rfl, rfl, rfl⟩ (fun ⟨_, hout, _⟩ _ => hout c (.inl hin)) (hr _))
  · exact keeps_moveRecord ⟨rfl, rfl, rfl, rfl⟩ (fun ⟨_, hout, _⟩ hs => hout c hs) (hr _)

theorem runRosterWrite_keeps (r : Request) (s : State) (hb : Begun s True) : AnswerKeeps k s (runRosterWrite r s) := by
  refine .orRange fun ⟨c, n, x⟩ hp => .taken (keeps_rosterWrite hb c (rosterParams_ranges hp).1 (rosterParams_ranges hp).2) ?_
  unfold State.rosterWrite
  dsimp only
  split <;> rfl

/-- A competitor that is not entered is not in the list, and its removal leaves it. -/
theorem remove_of_not_entered {o : Order} {rs : Records} {c : CompNo} (h : o.Ok rs) (he : rs[c].entered = false) :
    (o.remove c).list = o.list := by
  refine List.filter_eq_self.2 fun d hd => ?_
  have hdc : d ≠ c := fun e => by
    have := (h.2.1 d).1 hd
    rw [e, he] at this
    cases this
  simpa using hdc

theorem rosterRemove_order {o : Order} {rs : Records} (c : CompNo) (h : o.Ok rs) :
    Order.Ok (if rs[c].entered then o.remove c else o) (rs.set c {}) := by
  have hremove := remove_ok o rs c {} h rfl
  split
  · exact hremove
  · rename_i he
    exact Order.ok_congr (remove_of_not_entered h (by simpa using he)).symm hremove

theorem emptyRecord_inRange : Competitor.InRange {} := by
  have hnone : ∀ i : PointNo, OptWithin topTime ((Vector.replicate 16 (none : Option SectorTime))[i].map SectorTime.time) :=
    fun i => by simpa using optWithin_none _
  have hbest : ∀ i : PointNo, OptWithin topTime (Vector.replicate 16 (none : Option Nat))[i] := fun i => by simpa using optWithin_none _
  have htrap : ∀ i : Fin 4, OptWithin topTime ((Vector.replicate 4 (none : Option TrapStart))[i].map TrapStart.time) :=
    fun i => by simpa using optWithin_none _
  refine ⟨⟨Nat.zero_le _, Nat.zero_le _, Nat.zero_le _, Nat.zero_le _, Nat.zero_le _⟩, ?_, hnone, hbest, htrap⟩
  exact ⟨optWithin_none _, optWithin_none _, optWithin_none _, optWithin_none _, optWithin_none _, optWithin_none _⟩

theorem keeps_discardList (s : State) (c : CompNo) : Keeps k s { s with settle := s.settle.discardList c } := by
  refine keeps_settle (fun d => ?_) (discardList_ok _ c) (discardList_inRange _ c)
  have : (s.settle.discardList c).lists = s.settle.lists.set c [] := rfl
  rw [this, set_get]
  split
  · exact List.nil_sublist _
  · exact List.Sublist.refl _

/-- The removal, with the list and the place in the order already gone. -/
theorem keeps_removal {s : State} (hk : k.wipes = true) (c : CompNo) : Keeps k s { s with
    order := if s.engine.records[c].entered then s.order.remove c else s.order
    engine := { s.engine with records := s.engine.records.set c {} } } := by
  have hget : ∀ d : CompNo, (s.engine.records.set c {})[d] = if d = c then {} else s.engine.records[d] := fun d => set_get ..
  exact {
    applied := fun _ h d m hm => by
      dsimp only at hm
      rw [hget] at hm
      split at hm
      · cases hm
      · exact h d m hm
    rises := fun h => absurd h (by rw [hk]; exact Bool.noConfusion)
    order := fun ⟨hsorted, hout, hnobody⟩ => by
      refine ⟨rosterRemove_order c hsorted, fun d hd => ?_, fun hs d => ?_⟩
      · dsimp only at hd ⊢
        rw [hget] at hd ⊢
        split
        · rfl
        · rename_i hdc
          rw [if_neg hdc] at hd
          exact hout d hd
      · dsimp only
        rw [hget]
        split
        · rfl
        · exact hnobody hs d
    ranges := fun ⟨hlif, hcau, hq, hres, hcourse, hset, ⟨hrec, hlimit⟩, hord, hrest⟩ => by
      refine ⟨hlif, hcau, hq, hres, hcourse, hset, ⟨set_inRange _ _ c {} hrec emptyRecord_inRange, hlimit⟩, ?_, hrest⟩
      dsimp only
      split <;> exact hord }

theorem runRosterRemove_keeps (hk : k.wipes = true) (r : Request) (s : State) (hb : Begun s True) :
    AnswerKeeps k s (runRosterRemove r s) :=
  .orRange fun c _ => .orState fun _ => .taken
    (((keeps_discardList s c).trans (keeps_removal hk c)).trans
      (keeps_take (r := stateResult s.now c 0 .remove (some .inactive) none) (fun _ => hb.fits trivial) (now_le s))) rfl

theorem vacatedTraps_inRange (i : Fin 4) :
    OptWithin topTime ((Vector.replicate 4 (none : Option TrapStart))[i].map TrapStart.time) := by
  simpa using optWithin_none _

theorem runRetire_keeps (r : Request) (s : State) (hb : Begun s True) : AnswerKeeps k s (runRetire r s) := by
  refine .orRange fun c _ => .orState fun _ => .taken ?_ rfl
  refine (keeps_discardList s c).trans
    (keeps_changeRecord (s := { s with settle := s.settle.discardList c }) (hb.fits trivial) _ ?_)
  refine keeps_moveRecord ⟨rfl, rfl, rfl, rfl⟩ (fun _ h => absurd h (by simp)) ?_
  rintro ⟨hnum, ⟨hpoint, hlap, happ, -, hbest⟩, hsect, hbests, -⟩
  exact ⟨hnum, ⟨hpoint, hlap, happ, optWithin_none _, hbest⟩, hsect, hbests, vacatedTraps_inRange⟩

theorem runReinstate_keeps (r : Request) (s : State) (hb : Begun s True) : AnswerKeeps k s (runReinstate r s) := by
  refine .orRange fun c _ => .orState fun _ => .taken ?_ rfl
  refine keeps_changeRecord (hb.fits trivial) _ ?_
  refine keeps_moveRecord ⟨rfl, rfl, rfl, rfl⟩ ?_ ?_
  · intro ⟨_, _, hnobody⟩ hstate
    refine hnobody ?_ c
    dsimp only at hstate
    cases hs : s.session.state <;> simp [hs, SessionState.reinstateState] at hstate ⊢
  · rintro ⟨hnum, ⟨-, hrest⟩, hmore⟩
    exact ⟨hnum, ⟨optWithin_none _, hrest⟩, hmore⟩

theorem adjustedLaps_le (laps : Nat) (delta : Int) : adjustedLaps laps delta ≤ 65535 := by
  have := (clampInt_bounds 0 65535 (laps + clampDelta delta) (by omega)).2
  unfold adjustedLaps
  omega

/-- A record that stays entered, reinserted in the Running Order. -/
theorem keeps_reinsert {s : State} {c : CompNo} {r : Competitor} (hs : r.state = s.engine.records[c].state)
    (he : r.entered = true) (hin : s.engine.records[c].entered = true)
    (hl : r.lastApplied = s.engine.records[c].lastApplied) (hr : s.engine.records[c].InRange → r.InRange) :
    Keeps k s { s with
      engine := { s.engine with records := s.engine.records.set c r }
      order := s.order.place (s.engine.records.set c r) c } := by
  refine keeps_engineOrder (fun d => ?_) (fun ⟨hsorted, hout, hnobody⟩ => ⟨place_ok _ _ _ _ hsorted he, fun d hd => ?_, fun hstate d => ?_⟩)
    fun ⟨hrec, hrest⟩ hord => ⟨⟨set_inRange _ _ c r hrec (hr (hrec c)), hrest⟩, hord⟩
  · dsimp only
    rw [set_get]
    split
    · rename_i h
      exact h ▸ hl
    · rfl
  · dsimp only at hd ⊢
    rw [set_get] at hd ⊢
    split
    · rename_i h
      rw [if_pos h, hs] at hd
      exact absurd (hin.symm.trans (hout c hd)) (by decide)
    · rename_i h
      rw [if_neg h] at hd
      exact hout d hd
  · exact absurd (hin.symm.trans (hnobody hstate c)) (by decide)

theorem runLapAdjust_keeps (r : Request) (s : State) (hb : Begun s True) : AnswerKeeps k s (runLapAdjust r s) := by
  refine .orRange fun c _ => .orState fun hok => ⟨?_, fun _ => rfl⟩
  have hin : s.engine.records[c].entered = true := (Bool.and_eq_true _ _ ▸ hok).2
  have hmove := keeps_reinsert (k := k) (s := s) (c := c)
    (r := { s.engine.records[c] with laps := adjustedLaps s.engine.records[c].laps (r.signed 1) }) rfl hin hin rfl
    fun ⟨⟨hnum, hclass, _, hrest⟩, hmore⟩ => ⟨⟨hnum, hclass, adjustedLaps_le _ _, hrest⟩, hmore⟩
  exact hmove.trans (keeps_take (fun _ => hb.fits trivial) ((placed_time _ _ _ _).trans_le (now_le s)))

end Sys2Proof.Machine
end

section
/-! What the session requests, the requests of the Publisher, the TMP, the sweep and the parameters, and the part
resets keep; and with them every command. -/

namespace Sys2Proof.Machine

open Host (Outcome)

variable {k : Licence}

/-! ## The session (R137 to R148) -/

/-- A change of the session: what its new state may ask of the rest of the part. -/
theorem keeps_session {s : State} {x : Session} (hmove : k.moves = true ∨ x.state = s.session.state)
    (hempty : x.state = .setup ∨ x.state = .closed →
      (s.session.state = .setup ∨ s.session.state = .closed) ∨ ∀ c : CompNo, s.settle.lists[c] = [])
    (hnobody : x.state = .setup ∨ x.state = .standby → s.session.state = .setup ∨ s.session.state = .standby)
    (hvalid : x.state ≠ .setup → s.session.state ≠ .setup ∨ s.course.validity = .valid)
    (hneutral : x.state = .setup ∨ x.state = .standby → s.session.neutral = false → x.neutral = false)
    (hgreen : OptWithin topTime s.session.greenTime → OptWithin topTime x.greenTime) :
    Keeps k s { s with session := x } where
  apart := fun _ ⟨hnil, happart⟩ => ⟨fun hx => (hempty hx).elim hnil id, happart⟩
  order := fun ⟨hsorted, hout, hno⟩ => ⟨hsorted, hout, fun hx => hno (hnobody hx)⟩
  registers := fun ⟨hclock, hguard, hcourse, hn, hroles⟩ =>
    ⟨hclock, hguard, fun hx => (hvalid hx).elim hcourse id, fun hx => hneutral hx (hn (hnobody hx)), hroles⟩
  ranges := fun ⟨hlif, hcau, hq, hres, hcourse, hset, heng, hord, hg, hrest⟩ =>
    ⟨hlif, hcau, hq, hres, hcourse, hset, heng, hord, hgreen hg, hrest⟩
  session := fun hk => hmove.elim (fun h => absurd (h.symm.trans hk) (by decide)) id

/-- An update and the SESSION result that it hands over (R149). -/
theorem Keeps.sessionChange {s t : State} (h : Keeps k s t) (hw : t.publisher.waiting.length ≤ 32) (change : SessionChange)
    (mode : Option StartMode) : Keeps k s (t.sessionChange change mode) :=
  h.trans (keeps_take (fun _ => hw) (now_le t))

theorem runOpenSession_keeps (hk : k.moves = true) (r : Request) (s : State) (hb : Begun s True) :
    AnswerKeeps k s (runOpenSession r s) := by
  refine .orState fun hs => ?_
  have hsetup := (inSetup_iff s).1 hs
  split
  · rename_i hv
    have hopen : Keeps k s { s with session := { s.session with state := .standby } } :=
      keeps_session (.inl hk) (by simp) (fun _ => .inl hsetup) (fun _ => .inr hv) (fun _ h => h) id
    exact .taken (hopen.sessionChange (hb.fits trivial) _ _) rfl
  · exact ⟨.refl s, fun _ => rfl⟩

theorem enter_state (r : Competitor) (time : Nat) (q : Quality) (neutral : Bool) :
    (r.enter time q neutral).state = r.state ∧ (r.enter time q neutral).lastApplied = r.lastApplied := ⟨rfl, rfl⟩

theorem atGreen_lastApplied (mode : StartMode) (time : Nat) (neutral : Bool) (r : Competitor) :
    (r.atGreen mode time neutral).lastApplied = r.lastApplied := by
  unfold Competitor.atGreen
  split
  · cases mode <;> rfl
  · rfl

/-- After GREEN a competitor is INACTIVE or STANDBY only where GREEN left it alone. -/
theorem atGreen_of_out {mode : StartMode} {time : Nat} {neutral : Bool} {r : Competitor}
    (h : (r.atGreen mode time neutral).state = .inactive ∨ (r.atGreen mode time neutral).state = .standby) :
    r.atGreen mode time neutral = r := by
  unfold Competitor.atGreen at h ⊢
  split
  · rename_i hw
    rw [if_pos hw] at h
    cases mode <;> simp [Competitor.enter] at h
  · rfl

theorem atGreen_inRange (mode : StartMode) {time : Nat} (neutral : Bool) (r : Competitor) (ht : time ≤ topTime)
    (h : r.InRange) : (r.atGreen mode time neutral).InRange := by
  unfold Competitor.atGreen
  split
  · cases mode with
    | flying => exact h
    | grid => exact enter_inRange _ time .good neutral ht h
  · exact h

theorem waits_iff (r : Competitor) : r.waits = true ↔ r.state = .standby := by simp [Competitor.waits]

theorem mem_waiting (s : State) (c : CompNo) : c ∈ s.waiting ↔ s.engine.records[c].state = .standby := by
  unfold State.waiting
  rw [List.mem_filter, waits_iff]
  exact ⟨fun h => h.2, fun h => ⟨mem_allFin c, h⟩⟩

theorem waiting_nodup (s : State) : s.waiting.Nodup := (allFin_nodup 96).filter _

/-- Competitors that join one after another: the order of those that are in is kept, and they are in besides. -/
theorem placeAll_ok (rs : Records) (l : List CompNo) (o : Order) (hl : l.Nodup) (hout : ∀ c ∈ l, c ∉ o.list)
    (ho : o.list.Nodup) (hs : o.list.Pairwise fun a b => sortsAhead rs a b = true) :
    let o' := l.foldl (fun o c => o.place rs c) o
    o'.list.Nodup ∧ (∀ c, c ∈ o'.list ↔ c ∈ l ∨ c ∈ o.list) ∧ o'.list.Pairwise (fun a b => sortsAhead rs a b = true) ∧
      o'.best = o.best := by
  induction l generalizing o with
  | nil => exact ⟨ho, fun c => by simp, hs, rfl⟩
  | cons d l ih =>
    obtain ⟨hdl, hl⟩ := List.nodup_cons.1 hl
    have hd := hout d (List.mem_cons_self ..)
    have hremove : (o.remove d).list = o.list :=
      List.filter_eq_self.2 fun e he => by
        have : e ≠ d := fun h => hd (h ▸ he)
        simpa using this
    have hlist : (o.place rs d).list = placeSorted rs d o.list := by
      unfold Order.place
      rw [hremove]
    have hperm : (o.place rs d).list.Perm (d :: o.list) := hlist ▸ placeSorted_perm rs d o.list
    have hmem : ∀ e, e ∈ (o.place rs d).list ↔ e = d ∨ e ∈ o.list := fun e => by rw [hperm.mem_iff, List.mem_cons]
    obtain ⟨hn, hm, hp, hb⟩ := ih (o.place rs d) hl
      (fun c hc hin => ((hmem c).1 hin).elim (fun e => hdl (e ▸ hc)) (hout c (List.mem_cons_of_mem _ hc)))
      (hperm.nodup_iff.2 (List.nodup_cons.2 ⟨hd, ho⟩))
      (hlist ▸ placeSorted_sorted rs d o.list hd hs)
    refine ⟨hn, fun c => ?_, hp, hb⟩
    rw [List.foldl_cons, hm c, hmem c, List.mem_cons]
    tauto

/-- Competitors outside the order, which join it entered, with the records of the others as they were. -/
theorem joined_ok {o : Order} {rs rs' : Records} {l : List CompNo} (ho : o.Ok rs) (hl : l.Nodup)
    (hin : ∀ c ∈ l, rs[c].entered = false ∧ rs'[c].entered = true) (hother : ∀ c, c ∉ l → rs'[c] = rs[c]) :
    (l.foldl (fun o c => o.place rs' c) o).Ok rs' := by
  obtain ⟨hnodup, hmem, hsorted⟩ := ho
  have hout : ∀ c ∈ l, c ∉ o.list := fun c hc h => by
    have := (hmem c).1 h
    rw [(hin c hc).1] at this
    cases this
  have hsame : ∀ c ∈ o.list, rs'[c] = rs[c] := fun c hc => hother c fun h => hout c h hc
  obtain ⟨hn, hm, hp, -⟩ := placeAll_ok rs' l o hl hout hnodup (hsorted.imp_of_mem fun {a b} ha hb hab => by
    rw [sortsAhead_congr rs' rs a b (by rw [hsame a ha]; exact ⟨rfl, rfl⟩) (by rw [hsame b hb]; exact ⟨rfl, rfl⟩)]
    exact hab)
  refine ⟨hn, fun c => ?_, hp⟩
  rw [hm c]
  by_cases hc : c ∈ l
  · simp only [hc, true_or, (hin c hc).2]
  · rw [hother c hc, ← hmem c]
    simp [hc]

/-- The records and the order at GREEN, in a session that is LIVE. -/
theorem keeps_atGreen {s : State} (hs : s.session.state = .live) (mode : StartMode) {time : Nat} (neutral : Bool)
    (ht : time ≤ topTime) : Keeps k s { s with
      engine := { s.engine with records := mapAll s.engine.records (Competitor.atGreen mode time neutral) }
      order := s.order.atGreen mode (mapAll s.engine.records (Competitor.atGreen mode time neutral)) s.waiting } := by
  have hget : ∀ c : CompNo, (mapAll s.engine.records (Competitor.atGreen mode time neutral))[c] =
    s.engine.records[c].atGreen mode time neutral := mapAll_get _ _
  refine keeps_engineOrder (fun c => ?_) (fun ⟨hsorted, hout, _⟩ => ⟨?_, fun c hc => ?_, fun h => ?_⟩)
    fun ⟨hrec, hrest⟩ hord => ⟨⟨fun c => ?_, hrest⟩, ?_⟩
  · dsimp only
    rw [hget]
    exact atGreen_lastApplied ..
  · cases mode with
    | flying =>
      refine order_ok_of_samePlace (fun c => ?_) hsorted
      rw [hget]
      unfold Competitor.atGreen
      split <;> exact ⟨rfl, rfl, rfl, rfl⟩
    | grid =>
      refine joined_ok hsorted (waiting_nodup s) (fun c hc => ?_) fun c hc => ?_
      · have hstandby := (mem_waiting s c).1 hc
        refine ⟨hout c (.inr hstandby), ?_⟩
        rw [hget]
        unfold Competitor.atGreen
        rw [if_pos ((waits_iff _).2 hstandby)]
        rfl
      · rw [hget]
        unfold Competitor.atGreen
        rw [if_neg fun h => hc ((mem_waiting s c).2 ((waits_iff _).1 h))]
  · dsimp only at hc ⊢
    rw [hget] at hc ⊢
    have hsame := atGreen_of_out hc
    rw [hsame] at hc ⊢
    exact hout c hc
  · simp [hs] at h
  · dsimp only
    rw [hget]
    exact atGreen_inRange mode neutral _ ht (hrec c)
  · cases mode with
    | flying => exact hord
    | grid =>
      have hbest : ∀ (l : List CompNo) (rs : Records) (o : Order), (l.foldl (fun o c => o.place rs c) o).best = o.best := by
        intro l rs
        induction l with
        | nil => exact fun _ => rfl
        | cons c l ih => exact fun o => ih (o.place rs c)
      unfold Order.InRange Order.atGreen
      rw [hbest]
      exact hord

theorem runGreen_keeps (hk : k.moves = true) (r : Request) (s : State) (hb : Begun s True) :
    AnswerKeeps k s (runGreen r s) := by
  refine .orState fun hs => .orRange fun m _ => .taken ?_ rfl
  have hstandby : s.session.state = .standby := of_decide_eq_true hs
  have hlive : Keeps k s { s with session := { s.session with state := .live, mode := some m, greenTime := some s.now } } := by
    refine keeps_session (.inl hk) ?_ ?_ ?_ ?_ fun _ => optWithin_some (now_le s)
    · simp
    · simp
    · exact fun _ => .inl (by simp [hstandby])
    · simp
  exact (hlive.trans (keeps_atGreen rfl m s.session.neutral (now_le s))).sessionChange (hb.fits trivial) _ _

theorem running_iff (x : SessionState) : x.running = true ↔ x = .live ∨ x = .chequered := by cases x <;> simp [SessionState.running]

/-- The neutral flag changes while the session runs. -/
theorem keeps_neutral {s : State} (hs : s.session.state.running = true) (b : Bool) :
    Keeps k s { s with session := { s.session with neutral := b } } := by
  refine keeps_session (.inr rfl) .inl id (fun h => .inl h) (fun h => ?_) id
  rcases (running_iff _).1 hs with e | e <;> simp [e] at h

theorem atNeutral_fields (r : Competitor) : r.SamePlace r.atNeutral ∧ r.atNeutral.state = r.state ∧ (r.InRange → r.atNeutral.InRange) := by
  unfold Competitor.atNeutral
  split <;> exact ⟨⟨rfl, rfl, rfl, rfl⟩, rfl, id⟩

theorem keeps_atNeutral (s : State) : Keeps k s { s with
    engine := { s.engine with records := mapAll s.engine.records Competitor.atNeutral } } := by
  have hget : ∀ c : CompNo, (mapAll s.engine.records Competitor.atNeutral)[c] = s.engine.records[c].atNeutral := mapAll_get _ _
  refine keeps_marks (fun c => ?_) (fun c => ?_) fun ⟨hrec, hrest⟩ => ⟨fun c => ?_, hrest⟩ <;> dsimp only <;> rw [hget] <;>
    obtain ⟨hplace, hstate, hrange⟩ := atNeutral_fields s.engine.records[c]
  · exact hplace
  · exact hstate
  · exact hrange (hrec c)

theorem runNeutralOn_keeps (r : Request) (s : State) (hb : Begun s True) : AnswerKeeps k s (runNeutralOn r s) := by
  refine .orState fun hs => ?_
  have hon : Keeps k s { s with
      session := { s.session with neutral := true }
      engine := { s.engine with records := mapAll s.engine.records Competitor.atNeutral } } :=
    (keeps_neutral hs true).trans (keeps_atNeutral _)
  unfold State.neutralOn
  dsimp only
  split
  · exact .taken hon rfl
  · exact .taken (hon.sessionChange (hb.fits trivial) _ _) rfl

theorem runNeutralOff_keeps (r : Request) (s : State) (hb : Begun s True) : AnswerKeeps k s (runNeutralOff r s) := by
  refine .orState fun hs => ?_
  have hoff := keeps_neutral (k := k) hs false
  unfold State.neutralOff
  dsimp only
  split
  · exact .taken (hoff.sessionChange (hb.fits trivial) _ _) rfl
  · exact .taken hoff rfl

theorem runChequer_keeps (hk : k.moves = true) (r : Request) (s : State) (hb : Begun s True) :
    AnswerKeeps k s (runChequer r s) := by
  refine .orState fun hs => .taken ?_ rfl
  have hlive : s.session.state = .live := of_decide_eq_true hs
  have hchequer : Keeps k s { s with session := { s.session with state := .chequered, chequer := .pending } } :=
    keeps_session (.inl hk) (by simp) (by simp) (fun _ => .inl (by simp [hlive])) (by simp) id
  exact hchequer.sessionChange (hb.fits trivial) _ _

theorem emptied_lists (p : Settle) (c : CompNo) : p.emptied.lists[c] = [] := by
  show (Vector.replicate 96 ([] : List Pending))[c] = []
  simp

theorem closed_lists (p : Settle) (c : CompNo) : p.closed.lists[c] = [] := emptied_lists p c

theorem runClose_keeps (hk : k.moves = true) (r : Request) (s : State) (hb : Begun s True) :
    AnswerKeeps k s (runClose r s) := by
  refine .orState fun hs => .taken ?_ rfl
  have hopen : s.session.state ≠ .setup := fun h => by simp [h, SessionState.closable] at hs
  have hsettle : Keeps k s { s with settle := s.settle.closed } :=
    keeps_settle (fun c => closed_lists s.settle c ▸ List.nil_sublist _) (fun _ => closed_ok _) (closed_inRange _)
  have hclose : Keeps k { s with settle := s.settle.closed }
      { s with settle := s.settle.closed, session := { s.session with state := .closed } } :=
    keeps_session (.inl hk) (fun _ => .inr (closed_lists s.settle)) (by simp) (fun _ => .inl hopen) (by simp) id
  exact (hsettle.trans hclose).sessionChange (hb.fits trivial) _ _

theorem cleared_fields (r : Competitor) : r.cleared.entered = false ∧ r.cleared.lastApplied = none := ⟨rfl, rfl⟩

theorem cleared_inRange (r : Competitor) (h : r.InRange) : r.cleared.InRange := by
  obtain ⟨⟨hnum, hclass, -⟩, -⟩ := h
  obtain ⟨⟨-, -, hcounts⟩, hrest⟩ := emptyRecord_inRange
  exact ⟨⟨hnum, hclass, hcounts⟩, hrest⟩

theorem emptyOrder_ok {rs : Records} (h : ∀ c : CompNo, rs[c].entered = false) : Order.Ok {} rs :=
  ⟨List.nodup_nil, fun c => ⟨fun hc => (by cases hc), fun hc => absurd ((h c).symm.trans hc) (by decide)⟩, .nil⟩

theorem keeps_cleared {s : State} (hwipes : k.wipes = true) (hmoves : k.moves = true) : Keeps k s { s with
    engine := { s.engine with records := mapAll s.engine.records Competitor.cleared }
    order := {}
    publisher := s.publisher.clearHold
    settle := s.settle.emptied
    session := {} } := by
  have hget : ∀ c : CompNo, (mapAll s.engine.records Competitor.cleared)[c] = s.engine.records[c].cleared := mapAll_get _ _
  have hout : ∀ c : CompNo, (mapAll s.engine.records Competitor.cleared)[c].entered = false := fun c => by rw [hget]; rfl
  exact {
    pool := fun _ => emptied_ok _
    publisher := fun _ => clearHold_ok _
    apart := fun _ _ => ⟨fun _ => emptied_lists s.settle, fun c => emptied_lists s.settle c ▸ .nil⟩
    applied := fun _ _ c m _ e he => by
      have hnil : e ∈ ([] : List Pending) := emptied_lists s.settle c ▸ he
      cases hnil
    rises := fun h => absurd (hwipes.symm.trans h) (by decide)
    order := fun _ => ⟨emptyOrder_ok hout, fun c _ => hout c, fun _ => hout⟩
    registers := fun ⟨hclock, hguard, _, _, hroles⟩ => ⟨hclock, hguard, fun h => absurd rfl h, fun _ => rfl, hroles⟩
    ranges := fun ⟨hlif, hcau, hq, hres, hcourse, hset, ⟨hrec, hrest⟩, _, _, hpub, hmore⟩ =>
      ⟨hlif, hcau, hq, hres, hcourse, emptied_inRange _ hset,
        ⟨fun c => by
          dsimp only
          rw [hget]
          exact cleared_inRange _ (hrec c), hrest⟩,
        ⟨optWithin_none _, optWithin_none _⟩, optWithin_none _, clearHold_inRange _ hpub, hmore⟩
    session := fun h => absurd (hmoves.symm.trans h) (by decide) }

theorem runClear_keeps (hwipes : k.wipes = true) (hmoves : k.moves = true) (r : Request) (s : State) (hb : Begun s True) :
    AnswerKeeps k s (runClear r s) :=
  .orState fun _ => .taken ((keeps_cleared hwipes hmoves).sessionChange (hb.fits trivial) _ _) rfl

end Sys2Proof.Machine
end

section
/-! What the requests of the Publisher, the TMP, the sweep and the parameters keep. -/

namespace Sys2Proof.Machine

open Host (Outcome)

variable {k : Licence}

/-! ## The Publisher (R163, R164, R169) -/

theorem runRelease_keeps (r : Request) (s : State) (hb : Begun s True) : AnswerKeeps k s (runRelease r s) :=
  .orRange fun w _ => .taken (keeps_publisher (fun h => release_ok _ w h (hb.fits trivial)) (release_inRange _ w)) rfl

theorem runDiscard_keeps (r : Request) (s : State) : AnswerKeeps k s (runDiscard r s) :=
  .orRange fun w _ => .taken (keeps_publisher (discard_ok _ w) (discardHeld_inRange _ w)) rfl

theorem ring_bounds {r : Request} {x : Nat × Nat} (h : r.ring = some (some x)) :
    1 ≤ x.2 ∧ x.2 ≤ 64 ∧ x.1 + x.2 ≤ 256 := by
  unfold Request.ring at h
  split at h
  · simp at h
  · split at h
    · rename_i hbounds
      simp only [Option.some.injEq] at h
      rw [← h]
      exact hbounds
    · cases h
  · cases h

theorem runLogSet_keeps (r : Request) (s : State) : AnswerKeeps k s (runLogSet r s) := by
  refine .orState fun _ => .orRange fun g hg => .taken (keeps_publisher
    (setLog_ok _ g fun x hx => (ring_bounds (hx ▸ hg)).1) fun h => ?_) rfl
  cases g with
  | none => exact disableLog_inRange _ h
  | some x =>
    obtain ⟨hone, hlen, hring⟩ := ring_bounds hg
    exact enableLog_inRange _ _ _ hone hlen hring h

/-! ## Table memory (R177, R178, R180) -/

/-- The MU takes a table operation up, with a place for its reply. -/
theorem keeps_startOp {s : State} {p : Prop} (hb : Begun s p) (op : TableOp) :
    Keeps k s { s with mu := { s.mu with table := some op } } :=
  keeps_mu id (fun h _ => ⟨h, fun _ => hb.place⟩) id

theorem AnswerKeeps.unanswered {s t : State} (h : Keeps k s t) : AnswerKeeps k s ⟨t, none⟩ := ⟨h, fun hn => absurd rfl hn⟩

theorem runTableRead_keeps {p : Prop} (r : Request) (s : State) (hb : Begun s p) : AnswerKeeps k s (runTableRead r s) :=
  .orRange fun _ _ => .unanswered (keeps_startOp hb _)

theorem keeps_countProtected (s : State) :
    Keeps k s { s with tmp := { s.tmp with protectedCount := bump s.tmp.protectedCount } } := by
  refine keeps_tmp id id fun ⟨hguard, hcounts⟩ => ⟨hguard, ?_⟩
  simp only [Within, List.mem_cons, List.not_mem_nil, or_false, forall_eq_or_imp, forall_eq] at hcounts ⊢
  exact ⟨bump_le _, hcounts.2⟩

theorem runTableWrite_keeps {p : Prop} (r : Request) (s : State) (hb : Begun s p) : AnswerKeeps k s (runTableWrite r s) := by
  unfold runTableWrite
  split
  · exact .refused s _
  · split
    · exact ⟨keeps_countProtected s, fun _ => rfl⟩
    · exact .unanswered (keeps_startOp hb _)

theorem guardParams_ranges {r : Request} {g : Guard} (h : r.guardParams = some g) :
    g.first ≤ g.last ∧ g.first ≤ 255 ∧ g.last ≤ 255 := by
  unfold Request.guardParams at h
  split at h
  · split at h
    · rename_i hle
      simp only [Option.some.injEq] at h
      rw [← h]
      exact ⟨hle, byteParam_le r 2, byteParam_le r 3⟩
    · cases h
  · cases h

theorem runGuardSet_keeps (r : Request) (s : State) : AnswerKeeps k s (runGuardSet r s) := by
  refine .orState fun _ => .orRange fun g hg => .taken ?_ rfl
  obtain ⟨hle, hfirst, hlast⟩ := guardParams_ranges hg
  refine keeps_tmp id (fun _ => hle) fun ⟨_, hcounts⟩ => ⟨?_, hcounts⟩
  simp only [Within, List.mem_cons, List.not_mem_nil, or_false, forall_eq_or_imp, forall_eq]
  exact ⟨hfirst, hlast⟩

/-! ## The sweep (R181, R186, R187) -/

theorem emptyReport_inRange : SweepReport.InRange {} := by
  refine ⟨fun v hv => ?_, Nat.zero_le _, fun c => ?_⟩
  · simp only [List.mem_cons, List.not_mem_nil, or_false] at hv
    omega
  · show (Vector.replicate 96 0)[c] ≤ 255
    simp

theorem runSweepStart_keeps (r : Request) (s : State) : AnswerKeeps k s (runSweepStart r s) := by
  unfold runSweepStart
  split
  · refine .orRange fun m _ => ?_
    unfold State.startSweep
    split
    · exact .refused s _
    · exact .taken (keeps_sweep fun _ => emptyReport_inRange) rfl
  · exact .refused s _

theorem runSuspend_keeps (r : Request) (s : State) : AnswerKeeps k s (runSuspend r s) :=
  .orState fun _ => .taken (keeps_sweep id) rfl

theorem runResume_keeps (r : Request) (s : State) : AnswerKeeps k s (runResume r s) :=
  .orState fun _ => .taken (keeps_sweep id) rfl

theorem runStop_keeps (r : Request) (s : State) : AnswerKeeps k s (runStop r s) :=
  .orState fun _ => .taken (keeps_sweep id) rfl

/-! ## Parameters and reading (R194 to R197) -/

theorem clampNat_bounds {lo hi : Nat} (v : Nat) (h : lo ≤ hi) : lo ≤ clampNat lo hi v ∧ clampNat lo hi v ≤ hi := by
  unfold clampNat
  omega

/-- The CAU with another parameter, and no test owed under it. -/
theorem keeps_untested {s : State} (tolerance timeout limit : Nat)
    (hr : s.cau.InRange → Cau.InRange { s.cau.untested with
      residualTolerance := tolerance, beaconTimeout := timeout, holdoverLimit := limit }) :
    Keeps k s { s with cau := { s.cau.untested with
      residualTolerance := tolerance, beaconTimeout := timeout, holdoverLimit := limit } } := by
  refine keeps_cau hr fun hu hstate => ⟨(hu hstate).1, fun l => ?_⟩
  rw [show s.cau.untested.records[l] = { s.cau.records[l] with testOwed := false } from mapAll_get _ _ l]
  exact (hu hstate).2 l

theorem untested_inRange (c : Cau) (h : c.InRange) : c.untested.InRange := by
  obtain ⟨hclock, hrec, hparams⟩ := h
  refine ⟨hclock, fun l => ?_, hparams⟩
  rw [show c.untested.records[l] = { c.records[l] with testOwed := false } from mapAll_get _ _ l]
  exact hrec l

theorem keeps_settleInterval {s : State} {v : Nat} (hv : v ≤ 2000) :
    Keeps k s { s with settle := { s.settle with interval := v } } :=
  keeps_settle (fun _ => .refl _) (Settle.ok_congr rfl rfl) fun ⟨_, hrest⟩ => ⟨hv, hrest⟩

theorem keeps_silenceLimit {s : State} {v : Nat} (hv : v = 0 ∨ (10 ≤ v ∧ v ≤ 3600)) :
    Keeps k s { s with engine := { s.engine with silenceLimit := v } } :=
  keeps_marks (fun _ => ⟨rfl, rfl, rfl, rfl⟩) (fun _ => rfl) fun ⟨hrec, _, hcounts⟩ => ⟨hrec, hv, hcounts⟩

theorem silenceClamp_range (v : Nat) :
    Param.silenceLimit.clamp v = 0 ∨ (10 ≤ Param.silenceLimit.clamp v ∧ Param.silenceLimit.clamp v ≤ 3600) := by
  unfold Param.clamp
  dsimp only
  split
  · exact .inl rfl
  · exact .inr (clampNat_bounds _ (by decide))

theorem keeps_setParam (s : State) (p : Param) (v : Nat) : Keeps k s (s.setParam p (p.clamp v)) := by
  cases p with
  | settleInterval => exact (keeps_settleInterval (clampNat_bounds v (by decide)).2).trans (keeps_expireAll _)
  | silenceLimit => exact (keeps_silenceLimit (silenceClamp_range v)).trans (keeps_silenceTestAll _)
  | beaconTimeout =>
    refine keeps_untested s.cau.residualTolerance _ s.cau.holdoverLimit fun h => ?_
    obtain ⟨hclock, hrec, htol, -, hlim⟩ := untested_inRange _ h
    exact ⟨hclock, hrec, htol, clampNat_bounds v (by decide), hlim⟩
  | holdoverLimit =>
    refine keeps_untested s.cau.residualTolerance s.cau.beaconTimeout _ fun h => ?_
    obtain ⟨hclock, hrec, htol, htime, -⟩ := untested_inRange _ h
    exact ⟨hclock, hrec, htol, htime, clampNat_bounds v (by decide)⟩
  | residualTolerance =>
    exact keeps_cau (fun ⟨hclock, hrec, _, hrest⟩ => ⟨hclock, hrec, clampNat_bounds v (by decide), hrest⟩) id

theorem expireList_mu (c : CompNo) (fuel : Nat) (s : State) : (s.expireList c fuel).mu = s.mu := by
  induction fuel generalizing s with
  | zero => rfl
  | succ fuel ih =>
    unfold State.expireList
    split
    · rfl
    · split
      · rw [ih]
        unfold State.expireHead
        rw [State.apply_frame]
      · rfl

theorem foldl_mu {α : Type} (f : State → α → State) (hf : ∀ s x, (f s x).mu = s.mu) (l : List α) (s : State) :
    (l.foldl f s).mu = s.mu := by
  induction l generalizing s with
  | nil => rfl
  | cons x l ih => exact (ih _).trans (hf s x)

theorem silenceTest_mu (s : State) (c : CompNo) : (s.silenceTest c).mu = s.mu := by
  unfold State.silenceTest
  dsimp only
  split <;> rfl

theorem setParam_mu (s : State) (p : Param) (v : Nat) : (s.setParam p v).mu = s.mu := by
  cases p with
  | settleInterval => exact foldl_mu _ (fun s c => expireList_mu c _ s) _ _
  | silenceLimit => exact foldl_mu _ silenceTest_mu _ _
  | beaconTimeout => rfl
  | holdoverLimit => rfl
  | residualTolerance => rfl

theorem runParamWrite_keeps (r : Request) (s : State) : AnswerKeeps k s (runParamWrite r s) :=
  .orRange fun p _ => ⟨keeps_setParam s p _, fun _ => setParam_mu s p _⟩

theorem keeps_clearMark (s : State) : Keeps k s s.clearMark :=
  keeps_settle (fun _ => .refl _) (Settle.ok_congr rfl rfl)
    fun ⟨hint, _, hrest⟩ => ⟨hint, Nat.sub_le _ _, hrest⟩

theorem runStatusRead_keeps (r : Request) (s : State) : AnswerKeeps k s (runStatusRead r s) := by
  refine .orRange fun data _ => .orRange fun clear _ => ?_
  unfold State.statusAnswer
  split
  · split
    · exact .taken (keeps_clearMark s) rfl
    · exact .refused s _
  · exact .taken (.refl s) rfl

theorem runCompetitorRead_keeps (r : Request) (s : State) : AnswerKeeps k s (runCompetitorRead r s) :=
  .orRange fun _ _ => .orRange fun _ _ => .taken (.refl s) rfl

theorem runOrderRead_keeps (r : Request) (s : State) : AnswerKeeps k s (runOrderRead r s) :=
  .orRange fun _ _ => .taken (.refl s) rfl

theorem runCourseRead_keeps (r : Request) (s : State) : AnswerKeeps k s (runCourseRead r s) :=
  .orRange fun _ _ => .taken (.refl s) rfl

end Sys2Proof.Machine
end

section
/-! What a part reset leaves, and what every command keeps. -/

namespace Sys2Proof.Machine

open Host (Outcome)

variable {k : Licence}

/-! ## The part resets (R199) -/

/-- Every record of a table that a reset leaves. -/
theorem replicate_all {α : Type} {n : Nat} {P : α → Prop} {x : α} (h : P x) (i : Fin n) : P (Vector.replicate n x)[i] := by
  simpa using h

theorem resetLif_inRange (straps : BitVec 3) : (Lif.reset straps).InRange := by
  have hcounts : ∀ c : Slot, Within 65535 [(Vector.replicate 40 ({} : SlotCounts))[c].bad,
      (Vector.replicate 40 ({} : SlotCounts))[c].foreign, (Vector.replicate 40 ({} : SlotCounts))[c].overwrite] :=
    replicate_all (P := fun x : SlotCounts => Within 65535 [x.bad, x.foreign, x.overwrite]) (by decide)
  have hlane : Within 65535 [0, 0] := by decide
  exact ⟨⟨hlane, hcounts⟩, ⟨hlane, hcounts⟩⟩

theorem resetCau_inRange : Cau.InRange {} :=
  ⟨by decide, replicate_all (P := AlignRec.InRange) (by decide), by decide, by decide, by decide⟩

theorem resetIntake_inRange : Intake.InRange {} :=
  ⟨fun _ h => (by cases h), by decide, replicate_all (P := IntakeCounts.InRange) (by decide)⟩

theorem resetResolver_inRange : Resolver.InRange {} := ⟨fun _ h => (by cases h), by decide⟩

theorem resetCourse_points (q : PointNo) : (Course.points {})[q] = none := by
  show (Vector.replicate 16 (none : Option CoursePoint))[q] = none
  simp

theorem resetCourse_inRange : Course.InRange {} := by
  refine ⟨Nat.zero_le _, fun q hq => absurd (resetCourse_points q) hq, fun q hq => absurd hq (Nat.succ_ne_zero _),
    fun q p hp => ?_, replicate_all (P := fun l : LoopRec => l.window ≤ 255 ∧ l.floor ≤ 255 ∧ l.deadBand ≤ 10000) (by decide),
    replicate_all (P := fun t : Option Trap => ∀ x ∈ t, 1 ≤ x.distance ∧ x.distance ≤ 200000) fun _ hx => (by cases hx)⟩
  rw [resetCourse_points] at hp
  cases hp

theorem resetCourse_rolesLoaded : Course.RolesLoaded {} := courseCleared_rolesLoaded {}

theorem resetSettle_lists (c : CompNo) : (Settle.lists {})[c] = [] := emptied_lists {} c

theorem resetSettle_inRange : Settle.InRange {} := by
  refine ⟨by decide, by decide, fun c e he => ?_, by decide⟩
  rw [resetSettle_lists] at he
  cases he

theorem resetEngine_inRange : Engine.InRange {} :=
  ⟨replicate_all (P := Competitor.InRange) emptyRecord_inRange, by decide, by decide⟩

theorem resetEngine_records (c : CompNo) : (Engine.records {})[c] = {} := by
  show (Vector.replicate 96 ({} : Competitor))[c] = {}
  simp

theorem resetPublisher_ok : Publisher.Ok {} := by decide

theorem resetPublisher_inRange : Publisher.InRange {} := by decide

theorem resetTmp_inRange (m : List Host.Cell) : Tmp.InRange { mem := m } :=
  ⟨(by decide : Within 255 [0, 0]), (by decide : Within 65535 [0, 0, 0, 0, 0])⟩

theorem resetMu_inRange : MuCounts.InRange {} := by decide

theorem partReset_pool (s : State) (straps : BitVec 3) : PoolOk (s.partReset straps) := emptied_ok {}

theorem partReset_apart (s : State) (straps : BitVec 3) : ListsApart (s.partReset straps) :=
  ⟨fun _ => resetSettle_lists, fun c => by
    rw [show (s.partReset straps).settle.lists[c] = [] from resetSettle_lists c]
    exact .nil⟩

theorem partReset_applied (s : State) (straps : BitVec 3) : AppliedOk (s.partReset straps) := fun c m hm => by
  rw [show (s.partReset straps).engine.records[c] = {} from resetEngine_records c] at hm
  cases hm

theorem partReset_order (s : State) (straps : BitVec 3) : OrderOk (s.partReset straps) := by
  have hout : ∀ c : CompNo, (s.partReset straps).engine.records[c].entered = false := fun c => by
    rw [show (s.partReset straps).engine.records[c] = {} from resetEngine_records c]
  exact ⟨emptyOrder_ok hout, fun c _ => hout c, fun _ => hout⟩

theorem partReset_resolver (s : State) (straps : BitVec 3) : ResolverOk (s.partReset straps) :=
  ⟨Nat.zero_le _, List.nodup_nil, fun _ he => (by cases he), fun _ => ⟨rfl, rfl⟩⟩

theorem partReset_queues (s : State) (straps : BitVec 3) : QueuesOk (s.partReset straps) :=
  ⟨Nat.zero_le _, Nat.zero_le _, Nat.zero_le _, fun h => absurd rfl h⟩

theorem partReset_registers (s : State) (straps : BitVec 3) : RegistersOk (s.partReset straps) :=
  ⟨fun _ => ⟨rfl, replicate_all (P := fun r : AlignRec => r.state = .unsynced) rfl⟩, Nat.le_refl _, fun h => absurd rfl h,
    fun _ => rfl, resetCourse_rolesLoaded⟩

theorem partReset_ranges (s : State) (straps : BitVec 3) : RangesOk (s.partReset straps) :=
  ⟨resetLif_inRange straps, resetCau_inRange, resetIntake_inRange, resetResolver_inRange, resetCourse_inRange,
    resetSettle_inRange, resetEngine_inRange, ⟨optWithin_none _, optWithin_none _⟩, optWithin_none _,
    resetPublisher_inRange, resetTmp_inRange _, emptyReport_inRange, resetMu_inRange⟩

theorem partReset_memory (s : State) (straps : BitVec 3) (h : MemoryOk s) : MemoryOk (s.partReset straps) := by
  show Memory.wf s.tmp.memAtReset
  unfold Tmp.memAtReset
  split
  · exact Access.effect_wf _ _ h
  · exact h

theorem keeps_partReset (hwipes : k.wipes = true) (hmoves : k.moves = true) (s : State) (straps : BitVec 3) :
    Keeps k s (s.partReset straps) where
  memory := partReset_memory s straps
  pool _ := partReset_pool s straps
  publisher _ _ := resetPublisher_ok
  apart _ _ := partReset_apart s straps
  applied _ _ := partReset_applied s straps
  rises h := absurd (hwipes.symm.trans h) (by decide)
  order _ := partReset_order s straps
  resolver _ := partReset_resolver s straps
  queues _ := partReset_queues s straps
  registers _ := partReset_registers s straps
  ranges _ := partReset_ranges s straps
  session h := absurd (hmoves.symm.trans h) (by decide)

/-! ## Every command -/

/-- What each command may do besides keeping the invariants: the session requests and the part resets move the session
state, and the end of a record takes its last applied passing with it. -/
def licence : Instr → Licence
  | .openSession | .green | .chequer | .close => { moves := true }
  | .rosterRemove => { wipes := true }
  | .clear | .partReset _ | .resetPart _ => { wipes := true, moves := true }
  | _ => {}

theorem Begun.sure {t : State} {p : Prop} (h : Begun t p) (hp : p) : Begun t True := ⟨h.idle, h.place, fun _ => h.fits hp⟩

theorem execUnsupportedRequest_keeps (s : State) : KeepsNext k s (execUnsupportedRequest s) :=
  .next (keeps_serve fun _ t _ _ => .refused t _)

theorem execTableWrite_keeps (s : State) : KeepsNext k s (execTableWrite s) :=
  .next (keeps_serve fun r t _ hb => keeps_withLength (runTableWrite_keeps r t hb))

/-- Every command keeps the invariants, within its licence. -/
theorem exec_keeps (c : Instr) (s : State) : KeepsNext (licence c) s (exec c s) := by
  cases c with
  | cycleMarkGood p n => exact execCycleMarkGood_keeps p n s
  | cycleMarkBad p => exact execCycleMarkBad_keeps p s
  | cycleMarkMissing p => exact execCycleMarkMissing_keeps p s
  | searchingMarkPeriod => exact execSearchingMarkPeriod_keeps s
  | cellReceipt d slot cell => exact execCellReceipt_keeps d slot cell s
  | outboundCycleStart => exact execOutboundCycleStart_keeps s
  | outboundSlotSend d => exact execOutboundSlotSend_keeps d s
  | beaconHandling => exact execBeaconHandling_keeps s
  | loopHoldover l => exact execLoopHoldover_keeps l s
  | loopUnsynced l => exact execLoopUnsynced_keeps l s
  | passingIntake => exact execPassingIntake_keeps s
  | resolverLookup => exact execResolverLookup_keeps s
  | arbiterGrant => exact execArbiterGrant_keeps s
  | walkReadComplete => exact execWalkReadComplete_keeps s
  | seenUpdateComplete => exact execSeenUpdateComplete_keeps s
  | settleTaking => exact execSettleTaking_keeps s
  | unknownDelivery => exact execUnknownDelivery_keeps s
  | resolveFaultDelivery => exact execResolveFaultDelivery_keeps s
  | settleExpiry c => exact execSettleExpiry_keeps c s
  | silent c => exact execSilent_keeps c s
  | logWordWriteComplete => exact execLogWordWriteComplete_keeps s
  | unsupportedRequest => exact execUnsupportedRequest_keeps s
  | slotMapWrite => exact request_keepsNext fun r t _ => runSlotMapWrite_keeps r t
  | rootSet => exact request_keepsNext fun r t _ => runRootSet_keeps r t
  | resolverFlush => exact request_keepsNext fun r t _ => runResolverFlush_keeps r t
  | coursePointLoad => exact request_keepsNext fun r t _ => runCoursePointLoad_keeps r t
  | courseClear => exact request_keepsNext fun r t _ => runCourseClear_keeps r t
  | loopConfig => exact request_keepsNext fun r t _ => runLoopConfig_keeps r t
  | trapLoad => exact request_keepsNext fun r t _ => runTrapLoad_keeps r t
  | courseRead => exact request_keepsNext fun r t _ => runCourseRead_keeps r t
  | rosterWrite => exact request_keepsNext fun r t hb => runRosterWrite_keeps r t (hb.sure (by decide))
  | rosterRemove => exact request_keepsNext fun r t hb => runRosterRemove_keeps rfl r t (hb.sure (by decide))
  | retire => exact request_keepsNext fun r t hb => runRetire_keeps r t (hb.sure (by decide))
  | reinstate => exact request_keepsNext fun r t hb => runReinstate_keeps r t (hb.sure (by decide))
  | lapAdjust => exact request_keepsNext fun r t hb => runLapAdjust_keeps r t (hb.sure (by decide))
  | openSession => exact request_keepsNext fun r t hb => runOpenSession_keeps rfl r t (hb.sure (by decide))
  | green => exact request_keepsNext fun r t hb => runGreen_keeps rfl r t (hb.sure (by decide))
  | neutralOn => exact request_keepsNext fun r t hb => runNeutralOn_keeps r t (hb.sure (by decide))
  | neutralOff => exact request_keepsNext fun r t hb => runNeutralOff_keeps r t (hb.sure (by decide))
  | chequer => exact request_keepsNext fun r t hb => runChequer_keeps rfl r t (hb.sure (by decide))
  | close => exact request_keepsNext fun r t hb => runClose_keeps rfl r t (hb.sure (by decide))
  | clear => exact request_keepsNext fun r t hb => runClear_keeps rfl rfl r t (hb.sure (by decide))
  | orderRead => exact request_keepsNext fun r t _ => runOrderRead_keeps r t
  | release => exact request_keepsNext fun r t hb => runRelease_keeps r t (hb.sure (by decide))
  | discard => exact request_keepsNext fun r t _ => runDiscard_keeps r t
  | logSet => exact request_keepsNext fun r t _ => runLogSet_keeps r t
  | tableRead => exact request_keepsNext fun r t hb => runTableRead_keeps r t hb
  | tableReadWordComplete => exact execTableReadWordComplete_keeps s
  | tableWrite => exact execTableWrite_keeps s
  | tableWriteWordComplete => exact execTableWriteWordComplete_keeps s
  | guardSet => exact request_keepsNext fun r t _ => runGuardSet_keeps r t
  | sweepStart => exact request_keepsNext fun r t _ => runSweepStart_keeps r t
  | suspend => exact request_keepsNext fun r t _ => runSuspend_keeps r t
  | resume => exact request_keepsNext fun r t _ => runResume_keeps r t
  | stop => exact request_keepsNext fun r t _ => runStop_keeps r t
  | sweepReadComplete => exact execSweepReadComplete_keeps s
  | sweepFlagUpdateComplete => exact execSweepFlagUpdateComplete_keeps s
  | aliasTargetReadComplete => exact execAliasTargetReadComplete_keeps s
  | paramWrite => exact request_keepsNext fun r t _ => runParamWrite_keeps r t
  | statusRead => exact request_keepsNext fun r t _ => runStatusRead_keeps r t
  | competitorRead => exact request_keepsNext fun r t _ => runCompetitorRead_keeps r t
  | resetPart straps => exact request_keepsNext fun _ t _ => .unanswered (keeps_partReset rfl rfl t straps)
  | partReset straps => exact .next (keeps_partReset rfl rfl s straps)

/-- Every step keeps the invariants; with a command waiting, within its licence. -/
theorem step_keeps {s t : State} (h : step s = .next t) : ∃ k : Licence, Keeps k s t := by
  rcases step_next h with e | ⟨c, rest, -, he⟩
  · exact ⟨{}, .of_eq e.symm⟩
  · exact ⟨licence c, (exec_keeps c { s with pending := rest } t he).after {}⟩

/-! ## The last applied passings (R91, R99) -/

/-- Every competitor's last applied passing is gone or as it was. -/
def State.Loses (s t : State) : Prop :=
  ∀ c : CompNo, t.engine.records[c].lastApplied = none ∨ t.engine.records[c].lastApplied = s.engine.records[c].lastApplied

theorem keptByMu_loses (s : State) : KeptByMu s.Loses := ⟨fun _ _ _ _ h => h, fun _ _ _ _ _ h => h⟩

theorem rosterRemove_loses {s t : State} (c : CompNo) (h : s.Loses t) : s.Loses (t.rosterRemove c) := fun d => by
  unfold State.rosterRemove
  rw [State.changeRecord_engine]
  dsimp only
  rw [set_get]
  split
  · exact .inl rfl
  · exact h d

theorem partReset_loses (s t : State) (straps : BitVec 3) : s.Loses (t.partReset straps) := fun c => by
  refine .inl ?_
  rw [show (t.partReset straps).engine.records[c] = {} from resetEngine_records c]

theorem cleared_loses (s t : State) : s.Loses t.cleared := fun c => by
  refine .inl ?_
  rw [show t.cleared.engine.records[c] = t.engine.records[c].cleared from mapAll_get _ _ c]
  rfl

/-- A command that may take a last applied passing away does nothing else with it. -/
theorem exec_loses {c : Instr} (hc : (licence c).wipes = true) {s t : State} (h : exec c s = .next t) : s.Loses t := by
  have hrefl : s.Loses s := fun _ => .inr rfl
  cases c with
  | rosterRemove =>
    exact next_inj h ▸ request_keeps (keptByMu_loses s) s _ _ _ hrefl fun r u hu _ =>
      orRange_keeps hu fun c _ => orState_keeps hu fun _ => rosterRemove_loses c hu
  | clear =>
    exact next_inj h ▸ request_keeps (keptByMu_loses s) s _ _ _ hrefl fun r u hu _ =>
      orState_keeps hu fun _ => cleared_loses s u
  | resetPart straps =>
    exact next_inj h ▸ request_keeps (keptByMu_loses s) s _ _ _ hrefl fun r u _ _ => partReset_loses s u straps
  | partReset straps => exact next_inj h ▸ partReset_loses s s straps
  | _ => exact absurd hc Bool.false_ne_true

/-- A step does not lower a last applied passing that stays (R91, R99). -/
theorem step_applied_le {s t : State} (hp : PoolOk s) (ha : AppliedOk s) (h : step s = .next t) (c : CompNo)
    (m m' : AppliedMark) (hm : s.engine.records[c].lastApplied = some m) (hm' : t.engine.records[c].lastApplied = some m') :
    m.time ≤ m'.time := by
  rcases step_next h with e | ⟨i, rest, -, he⟩
  · subst e
    rw [hm] at hm'
    exact Option.some.inj hm' ▸ Nat.le_refl _
  · by_cases hw : (licence i).wipes = true
    · rcases exec_loses hw he c with hnone | hsame
      · rw [hnone] at hm'
        cases hm'
      · rw [hsame, show _ = some m from hm] at hm'
        exact Option.some.inj hm' ▸ Nat.le_refl _
    · have hrises := (exec_keeps i _ t he).rises (by simpa using hw) hp ha
      obtain ⟨m₁, hm₁, hle⟩ := hrises c m hm
      rw [hm₁] at hm'
      exact Option.some.inj hm' ▸ hle

/-- Settles O57, by what every command keeps: the bounds of the pool and the Publisher go through with each other, and the
commands that take a last applied passing away leave the others. -/
theorem stepKeepsPoolAndPublisher : Obligations.StepKeepsPoolAndPublisher := by
  refine ⟨fun s t hp hpub h => ?_, fun s t hp ha h => ?_, fun s t hp ha h => ⟨?_, step_applied_le hp ha h⟩⟩ <;>
    obtain ⟨k, hk⟩ := step_keeps h
  · exact ⟨hk.pool hp, hk.publisher hp hpub⟩
  · exact hk.apart hp ha
  · exact hk.applied hp ha

/-- Settles O58, by what every command keeps of the Running Order. -/
theorem stepKeepsOrder : Obligations.StepKeepsOrder := fun _ _ ho h =>
  let ⟨_, hk⟩ := step_keeps h
  hk.order ho

/-- Settles O59, by what every command keeps of table memory, the cache, the queues, the registers and the ranges. -/
theorem stepKeepsMemoryCacheQueuesRegisters : Obligations.StepKeepsMemoryCacheQueuesRegisters := by
  refine ⟨fun s t hi h => ?_, fun s t hi h => ?_, fun s t hi h => ?_, fun s t hi h => ?_, fun s t hi h => ?_⟩ <;>
    obtain ⟨k, hk⟩ := step_keeps h
  · exact hk.memory hi
  · exact hk.resolver hi
  · exact hk.queues hi
  · exact hk.registers hi
  · exact hk.ranges hi

/-! ## The reset itself -/

theorem resetWith_eq_partReset (straps : BitVec 3) : State.resetWith straps = (State.resetWith straps).partReset straps := rfl

theorem resetWith_memory (straps : BitVec 3) : MemoryOk (State.resetWith straps) := reset_wf

/-- All invariants after a part reset. -/
theorem partReset_invariants (s : State) (straps : BitVec 3) (h : MemoryOk s) :
    let t := s.partReset straps
    MemoryOk t ∧ PoolOk t ∧ ListsApart t ∧ AppliedOk t ∧ PublisherOk t ∧ OrderOk t ∧ ResolverOk t ∧ QueuesOk t ∧
      RegistersOk t ∧ RangesOk t :=
  ⟨partReset_memory s straps h, partReset_pool s straps, partReset_apart s straps, partReset_applied s straps,
    resetPublisher_ok, partReset_order s straps, partReset_resolver s straps, partReset_queues s straps,
    partReset_registers s straps, partReset_ranges s straps⟩

theorem resetPart_begun {s : State} {r : Request} {rest : List Request} {straps : BitVec 3} (h : BeginsAs s r rest 0x05 0) :
    exec (.resetPart straps) s = .next ((s.begin rest).partReset straps) :=
  congrArg Outcome.next (request_of_begins h _)

/-- Settles O56, by the invariants of the state that a part reset leaves: the machine right after reset is one. -/
theorem invariantsAtReset : Obligations.InvariantsAtReset := by
  refine ⟨fun straps => ?_, fun s straps hm => ?_, fun s r rest straps hm hb => ?_⟩
  · rw [resetWith_eq_partReset]
    exact partReset_invariants _ straps (resetWith_memory straps)
  · exact ⟨s.partReset straps, rfl, partReset_invariants s straps hm⟩
  · exact ⟨(s.begin rest).partReset straps, resetPart_begun hb, partReset_invariants (s.begin rest) straps hm⟩

/-! ## The moves of the session state -/

/-- A request moves the session state as its run on the state with the request begun does. -/
theorem request_session (s : State) (code length : Nat) (run : Request → State → Answer) :
    (s.request code length run).session.state = s.session.state ∨
      ∃ r t, t.session = s.session ∧ (s.request code length run).session.state = (run r t).state.session.state := by
  rcases serve_cases s (fun k => k == code) (withLength [length] run) with e | ⟨r, rest, -, -, e⟩
  · exact .inl (congrArg (·.session.state) e)
  · unfold State.request
    rw [e]
    have hplace : ∀ a : Answer, (a.place r).session = a.state.session := fun a => by
      unfold Answer.place
      split <;> rfl
    rw [hplace]
    unfold withLength
    split
    · exact .inr ⟨r, s.begin rest, rfl, rfl⟩
    · exact .inl rfl

/-- What a session request does to the session state: nothing, or its move from a state that its test lets through. -/
theorem request_moves {s t : State} {code length : Nat} {run : Request → State → Answer} {P : SessionState → Prop}
    {b : SessionState} (hrun : ∀ r u, (run r u).state.session.state = u.session.state ∨
      (P u.session.state ∧ (run r u).state.session.state = b))
    (h : (Outcome.next (s.request code length run) : Outcome State Fault Refusal) = .next t) :
    s.session.state = t.session.state ∨ (P s.session.state ∧ t.session.state = b) := by
  rw [← next_inj h]
  rcases request_session s code length run with e | ⟨r, u, hu, e⟩
  · exact .inl e.symm
  · rw [e, ← hu]
    rcases hrun r u with hsame | hmove
    · exact .inl hsame.symm
    · exact .inr hmove

theorem orState_session (s : State) (b : Bool) (a : Answer) {P : Prop} {x : SessionState} (hb : b = true → P)
    (ha : b = true → a.state.session.state = s.session.state ∨ a.state.session.state = x) :
    (orState s b a).state.session.state = s.session.state ∨ (P ∧ (orState s b a).state.session.state = x) := by
  cases b with
  | false => exact .inl rfl
  | true => exact (ha rfl).imp_right fun h => ⟨hb rfl, h⟩

theorem closable_iff (x : SessionState) : x.closable = true ↔ x = .standby ∨ x = .live ∨ x = .chequered := by
  cases x <;> simp [SessionState.closable]

theorem runOpenSession_session (r : Request) (u : State) :
    (runOpenSession r u).state.session.state = u.session.state ∨
      (u.session.state = .setup ∧ (runOpenSession r u).state.session.state = .standby) := by
  refine orState_session u _ _ (inSetup_iff u).1 fun _ => ?_
  split
  · exact .inr rfl
  · exact .inl rfl

theorem runGreen_session (r : Request) (u : State) :
    (runGreen r u).state.session.state = u.session.state ∨
      (u.session.state = .standby ∧ (runGreen r u).state.session.state = .live) := by
  refine orState_session u _ _ of_decide_eq_true fun _ => ?_
  rcases orRange_cases u (StartMode.ofCode (r.nat 0 1)) fun m => .taken (u.greened m) (u8 u.waiting.length) with
    e | ⟨m, -, e⟩ <;> rw [e]
  · exact .inl rfl
  · exact .inr rfl

theorem runChequer_session (r : Request) (u : State) :
    (runChequer r u).state.session.state = u.session.state ∨
      (u.session.state = .live ∧ (runChequer r u).state.session.state = .chequered) :=
  orState_session u _ _ of_decide_eq_true fun _ => .inr rfl

theorem runClose_session (r : Request) (u : State) :
    (runClose r u).state.session.state = u.session.state ∨
      ((u.session.state = .standby ∨ u.session.state = .live ∨ u.session.state = .chequered) ∧
        (runClose r u).state.session.state = .closed) :=
  orState_session u _ _ (closable_iff _).1 fun _ => .inr rfl

theorem runClear_session (r : Request) (u : State) :
    (runClear r u).state.session.state = u.session.state ∨
      (u.session.state = .closed ∧ (runClear r u).state.session.state = .setup) :=
  orState_session u _ _ of_decide_eq_true fun _ => .inr rfl

/-- Settles O60: a command without the licence keeps the session state, and each that has it moves it as its own test of
the state lets it. -/
theorem sessionStateMoves : Obligations.SessionStateMoves := by
  intro s t c rest hp hstep
  have h : exec c { s with pending := rest } = .next t := by
    unfold step at hstep
    rw [hp] at hstep
    exact hstep
  by_cases hk : (licence c).moves = false
  · exact .inl ((exec_keeps c _ t h).session hk).symm
  · cases c with
    | openSession => exact (request_moves (P := (· = .setup)) runOpenSession_session h).imp_right fun hm => .inl ⟨rfl, hm⟩
    | green =>
      exact (request_moves (P := (· = .standby)) runGreen_session h).imp_right fun hm => .inr (.inl ⟨rfl, hm⟩)
    | chequer =>
      exact (request_moves (P := (· = .live)) runChequer_session h).imp_right fun hm => .inr (.inr (.inl ⟨rfl, hm⟩))
    | close =>
      exact (request_moves (P := fun x => x = .standby ∨ x = .live ∨ x = .chequered) runClose_session h).imp_right
        fun hm => .inr (.inr (.inr (.inl ⟨rfl, hm⟩)))
    | clear =>
      exact (request_moves (P := (· = .closed)) runClear_session h).imp_right fun hm => .inr (.inr (.inr (.inr (.inl ⟨rfl, hm⟩))))
    | resetPart straps =>
      refine (request_moves (P := fun _ => True) (b := .setup) (fun _ _ => .inr ⟨trivial, rfl⟩) h).imp_right fun hm =>
        .inr (.inr (.inr (.inr (.inr ⟨⟨straps, .inr rfl⟩, hm.2⟩))))
    | partReset straps =>
      refine .inr (.inr (.inr (.inr (.inr (.inr ⟨⟨straps, .inl rfl⟩, ?_⟩)))))
      rw [← next_inj h]
      rfl
    | _ => exact absurd rfl hk

end Sys2Proof.Machine
end

section
/-! Steps, the values of a part reset, the part reset itself, the marks of the loop line and the receipt of a cell. -/

namespace Sys2Proof.Machine

open Host (Outcome)

/-! ## Steps -/

/-- The outcome is a next state. -/
def HasNext (o : Outcome State Fault Refusal) : Prop := ∃ t, o = .next t

theorem hasNext (t : State) : HasNext (.next t) := ⟨t, rfl⟩

theorem hasNext_ite {p : Prop} [Decidable p] {o o' : Outcome State Fault Refusal} (h : HasNext o) (h' : HasNext o') :
    HasNext (if p then o else o') := by
  split
  · exact h
  · exact h'

theorem execCycleMarkGood_hasNext (p : Port) (n : Tick) (s : State) : HasNext (execCycleMarkGood p n s) := by
  cases p <;> exact hasNext _

theorem execBeaconHandling_hasNext (s : State) : HasNext (execBeaconHandling s) := by
  unfold execBeaconHandling
  split <;> exact hasNext _

theorem execPassingIntake_hasNext (s : State) : HasNext (execPassingIntake s) := by
  unfold execPassingIntake
  split <;> exact hasNext _

theorem execOutboundSlotSend_hasNext (d : Direction) (s : State) : HasNext (execOutboundSlotSend d s) := by
  unfold execOutboundSlotSend
  split <;> exact hasNext _

theorem execResolverLookup_hasNext (s : State) : HasNext (execResolverLookup s) := by
  unfold execResolverLookup
  split <;> exact hasNext _

theorem execArbiterGrant_hasNext (s : State) : HasNext (execArbiterGrant s) := by
  unfold execArbiterGrant
  split <;> exact hasNext _

theorem execWalkReadComplete_hasNext (s : State) : HasNext (execWalkReadComplete s) := by
  unfold execWalkReadComplete
  repeat' split
  all_goals exact hasNext _

theorem execSeenUpdateComplete_hasNext (s : State) : HasNext (execSeenUpdateComplete s) := by
  unfold execSeenUpdateComplete
  repeat' split
  all_goals exact hasNext _

theorem execSettleTaking_hasNext (s : State) : HasNext (execSettleTaking s) := by
  unfold execSettleTaking
  split
  · exact hasNext_ite (hasNext _) (hasNext _)
  · exact hasNext _

theorem execUnknownDelivery_hasNext (s : State) : HasNext (execUnknownDelivery s) := by
  unfold execUnknownDelivery
  repeat' split
  all_goals exact hasNext _

theorem execResolveFaultDelivery_hasNext (s : State) : HasNext (execResolveFaultDelivery s) := by
  unfold execResolveFaultDelivery
  repeat' split
  all_goals exact hasNext _

theorem execLogWordWriteComplete_hasNext (s : State) : HasNext (execLogWordWriteComplete s) := by
  unfold execLogWordWriteComplete
  split <;> exact hasNext _

theorem execTableReadWordComplete_hasNext (s : State) : HasNext (execTableReadWordComplete s) := by
  unfold execTableReadWordComplete
  split <;> exact hasNext _

theorem execTableWriteWordComplete_hasNext (s : State) : HasNext (execTableWriteWordComplete s) := by
  unfold execTableWriteWordComplete
  split <;> exact hasNext _

theorem execSweepReadComplete_hasNext (s : State) : HasNext (execSweepReadComplete s) := by
  unfold execSweepReadComplete
  split <;> exact hasNext _

theorem execSweepFlagUpdateComplete_hasNext (s : State) : HasNext (execSweepFlagUpdateComplete s) := by
  unfold execSweepFlagUpdateComplete
  split <;> exact hasNext _

theorem execAliasTargetReadComplete_hasNext (s : State) : HasNext (execAliasTargetReadComplete s) := by
  unfold execAliasTargetReadComplete
  split <;> exact hasNext _

/-! A command that names an index of a table, and one that names none. -/

theorem exec_cellReceipt_slot (d : Direction) (k : Slot) (c : Cell) (s : State) :
    exec (.cellReceipt d k.val c) s = .next (receiveCell d k c s) := by
  show execCellReceipt d k.val c s = _
  unfold execCellReceipt
  rw [finOf_val]

theorem exec_cellReceipt_beyond (d : Direction) {n : Nat} (h : 40 ≤ n) (c : Cell) (s : State) :
    exec (.cellReceipt d n c) s = .fault .noSuchSlot := by
  show execCellReceipt d n c s = _
  unfold execCellReceipt
  rw [finOf_eq_none.2 h]

theorem exec_loopHoldover_loop (l : LoopNo) (s : State) : exec (.loopHoldover l.val) s = .next (loopHoldover l s) := by
  show execLoopHoldover l.val s = _
  unfold execLoopHoldover
  rw [finOf_val]

theorem exec_loopHoldover_beyond {n : Nat} (h : 32 ≤ n) (s : State) : exec (.loopHoldover n) s = .fault .noSuchLoop := by
  show execLoopHoldover n s = _
  unfold execLoopHoldover
  rw [finOf_eq_none.2 h]

theorem exec_loopUnsynced_loop (l : LoopNo) (s : State) : exec (.loopUnsynced l.val) s = .next (loopUnsynced l s) := by
  show execLoopUnsynced l.val s = _
  unfold execLoopUnsynced
  rw [finOf_val]

theorem exec_loopUnsynced_beyond {n : Nat} (h : 32 ≤ n) (s : State) : exec (.loopUnsynced n) s = .fault .noSuchLoop := by
  show execLoopUnsynced n s = _
  unfold execLoopUnsynced
  rw [finOf_eq_none.2 h]

theorem exec_settleExpiry_comp (c : CompNo) (s : State) : exec (.settleExpiry c.val) s = .next (settleExpiry c s) := by
  show execSettleExpiry c.val s = _
  unfold execSettleExpiry
  rw [finOf_val]

theorem exec_settleExpiry_beyond {n : Nat} (h : 96 ≤ n) (s : State) :
    exec (.settleExpiry n) s = .fault .noSuchCompetitor := by
  show execSettleExpiry n s = _
  unfold execSettleExpiry
  rw [finOf_eq_none.2 h]

theorem exec_silent_comp (c : CompNo) (s : State) : exec (.silent c.val) s = .next (silent c s) := by
  show execSilent c.val s = _
  unfold execSilent
  rw [finOf_val]

theorem exec_silent_beyond {n : Nat} (h : 96 ≤ n) (s : State) : exec (.silent n) s = .fault .noSuchCompetitor := by
  show execSilent n s = _
  unfold execSilent
  rw [finOf_eq_none.2 h]

theorem exec_hasNext (s : State) (c : Instr) (h : c.wellFormed = true) : HasNext (exec c s) := by
  cases c with
  | cycleMarkGood p n => exact execCycleMarkGood_hasNext p n s
  | cycleMarkBad p => exact hasNext_ite (hasNext _) (hasNext _)
  | cycleMarkMissing p => exact hasNext_ite (hasNext _) (hasNext _)
  | searchingMarkPeriod => exact hasNext_ite (hasNext _) (hasNext _)
  | cellReceipt d slot cell => exact ⟨_, exec_cellReceipt_slot d ⟨slot, of_decide_eq_true h⟩ cell s⟩
  | outboundSlotSend d => exact execOutboundSlotSend_hasNext d s
  | beaconHandling => exact execBeaconHandling_hasNext s
  | loopHoldover l => exact ⟨_, exec_loopHoldover_loop ⟨l, of_decide_eq_true h⟩ s⟩
  | loopUnsynced l => exact ⟨_, exec_loopUnsynced_loop ⟨l, of_decide_eq_true h⟩ s⟩
  | passingIntake => exact execPassingIntake_hasNext s
  | resolverLookup => exact execResolverLookup_hasNext s
  | arbiterGrant => exact execArbiterGrant_hasNext s
  | walkReadComplete => exact execWalkReadComplete_hasNext s
  | seenUpdateComplete => exact execSeenUpdateComplete_hasNext s
  | settleTaking => exact execSettleTaking_hasNext s
  | unknownDelivery => exact execUnknownDelivery_hasNext s
  | resolveFaultDelivery => exact execResolveFaultDelivery_hasNext s
  | settleExpiry c => exact ⟨_, exec_settleExpiry_comp ⟨c, of_decide_eq_true h⟩ s⟩
  | silent c => exact ⟨_, exec_silent_comp ⟨c, of_decide_eq_true h⟩ s⟩
  | logWordWriteComplete => exact execLogWordWriteComplete_hasNext s
  | tableReadWordComplete => exact execTableReadWordComplete_hasNext s
  | tableWriteWordComplete => exact execTableWriteWordComplete_hasNext s
  | sweepReadComplete => exact execSweepReadComplete_hasNext s
  | sweepFlagUpdateComplete => exact execSweepFlagUpdateComplete_hasNext s
  | aliasTargetReadComplete => exact execAliasTargetReadComplete_hasNext s
  | _ => exact hasNext _

theorem step_cons {s : State} {c : Instr} {rest : List Instr} (h : s.pending = c :: rest) :
    step s = exec c { s with pending := rest } := by
  unfold step
  rw [h]

theorem step_nil {s : State} (h : s.pending = []) : step s = .next s := by
  unfold step
  rw [h]

/-- Settles O1, by the two cases of the queue and, command by command, by the next state that each has. -/
theorem stepRunsFrontCommand : Obligations.StepRunsFrontCommand :=
  ⟨⟨fun _ _ _ h => step_cons h, fun _ h => step_nil h⟩, exec_hasNext⟩

/-! ## The values of a part reset (R199) -/

theorem defaultUpMap_get (straps : BitVec 3) (k : Slot) : (defaultUpMap straps)[k] =
    if k.val < 32 then .copy else if k.val = 32 + straps.toNat then .insert else .pass := by
  have hstraps := straps.isLt
  unfold defaultUpMap
  rw [Fin.getElem_fin, Vector.getElem_set]
  split
  · rename_i h
    rw [if_neg (by omega), if_pos h.symm]
  · rename_i h
    rw [Vector.getElem_append]
    split
    · exact Vector.getElem_replicate ..
    · rw [if_neg (Ne.symm h)]
      exact Vector.getElem_replicate ..

theorem defaultDownMap_get (k : Slot) : defaultDownMap[k] = if k.val = 32 then .inspect else .pass := by
  unfold defaultDownMap
  rw [Fin.getElem_fin, Vector.getElem_set, Vector.getElem_replicate]
  simp only [eq_comm]

/-- What a table of like records holds after a reset. -/
theorem replicate_get {α : Type} {n : Nat} (x : α) (i : Fin n) : (Vector.replicate n x)[i] = x := by simp

theorem reset_lane (straps : BitVec 3) (d : Direction) :
    let lane := (Lif.reset straps).lane d
    lane.framing = .searching ∧ lane.slips = 0 ∧ lane.markErrors = 0 ∧ lane.outSlot = none ∧ lane.lineOut = none ∧
      ∀ k : Slot, lane.buffer[k] = .empty ∧ lane.counts[k] = ⟨0, 0, 0⟩ := by
  cases d <;> exact ⟨rfl, rfl, rfl, rfl, rfl, fun k => ⟨replicate_get _ k, replicate_get _ k⟩⟩

theorem reset_loops (straps : BitVec 3) (l : LoopNo) :
    (State.resetWith straps).course.loops[l] = ⟨false, .none, .none, 24, 40, 1000⟩ := replicate_get _ l

/-- Settles O2, block by block: a table holds its one reset record at every index. -/
theorem resetValues : Obligations.ResetValues := by
  refine ⟨rfl, rfl, rfl, fun straps => ?_⟩
  exact ⟨rfl, rfl, defaultUpMap_get straps, defaultDownMap_get, rfl, rfl, rfl, reset_lane straps, rfl, rfl, rfl, Nat.zero_mul 1000,
    replicate_get _, rfl, rfl, rfl, rfl, rfl, rfl, rfl, rfl, replicate_get _, rfl, rfl, replicate_get _,
    reset_loops straps,
    replicate_get _, rfl, rfl, rfl, rfl, replicate_get _, rfl, replicate_get _, rfl, rfl, rfl, rfl, rfl, rfl, rfl, rfl⟩

/-! ## The part reset (R198, R199) -/

theorem execPartReset_eq (straps : BitVec 3) {s : State} {mem : List Host.Cell} (h : s.tmp.memAtReset = mem) :
    exec (.partReset straps) s = .next { State.resetWith straps with
      tmp := { mem := mem }
      pending := s.pending
      freeCounter := s.freeCounter } := by
  rw [← h]
  rfl

theorem memAtReset_none {t : Tmp} (h : t.inProgress = none) : t.memAtReset = t.mem := by
  unfold Tmp.memAtReset
  rw [h]

theorem memAtReset_some {t : Tmp} {q : Requester} {a : Access} (h : t.inProgress = some (q, a)) :
    t.memAtReset = a.effect t.mem := by
  unfold Tmp.memAtReset
  rw [h]

/-- Settles O3, by the access in progress, and for RESET_PART by the declared length of the request. -/
theorem partReset : Obligations.PartReset := by
  refine ⟨fun straps s => ⟨fun h => ?_, fun q a h => ?_, fun q a w h => ?_, fun q a l b h => ?_⟩,
    fun straps s r rest hb hc => ⟨fun hl => ?_, fun hl => ?_⟩⟩
  · exact execPartReset_eq straps (memAtReset_none h)
  · exact execPartReset_eq straps (memAtReset_some h)
  · exact execPartReset_eq straps (memAtReset_some h)
  · refine execPartReset_eq straps ((memAtReset_some h).trans ?_)
    unfold Access.effect
    rfl
  · exact resetPart_begun ⟨hb, hc, hl⟩
  · exact congrArg Outcome.next (request_wrong_length hb hc hl _)

/-! ## The marks of the loop line (R3) -/

theorem framed_iff (s : State) (p : Port) : s.framed p = true ↔ (s.lif.lane (portDirection p)).framing = .framed := by
  simp [State.framed]

theorem searching_not_framed {s : State} {p : Port} (h : (s.lif.lane (portDirection p)).framing = .searching) :
    ¬ s.framed p = true := by
  rw [framed_iff, h]
  decide

theorem cycleMarkBad_framed {s : State} {p : Port} (h : (s.lif.lane (portDirection p)).framing = .framed) :
    exec (.cycleMarkBad p) s = .next (markFailed p { s with
      lif := s.lif.setLane (portDirection p) { s.lif.lane (portDirection p) with
        markErrors := bump (s.lif.lane (portDirection p)).markErrors } }) :=
  if_pos ((framed_iff s p).2 h)

theorem cycleMarkMissing_framed {s : State} {p : Port} (h : (s.lif.lane (portDirection p)).framing = .framed) :
    exec (.cycleMarkMissing p) s = .next (markFailed p s) := if_pos ((framed_iff s p).2 h)

theorem cycleMarkBad_searching {s : State} {p : Port} (h : (s.lif.lane (portDirection p)).framing = .searching) :
    exec (.cycleMarkBad p) s = .next s := if_neg (searching_not_framed h)

theorem cycleMarkMissing_searching {s : State} {p : Port} (h : (s.lif.lane (portDirection p)).framing = .searching) :
    exec (.cycleMarkMissing p) s = .next s := if_neg (searching_not_framed h)

/-- Settles O4, by the framing of the port. -/
theorem marksSetFraming : Obligations.MarksSetFraming := fun s =>
  ⟨fun _ => rfl, fun h => ⟨cycleMarkBad_framed (s := s) (p := .trackIn) h, cycleMarkMissing_framed (p := .trackIn) h⟩,
    fun h => ⟨cycleMarkBad_searching (p := .trackIn) h, cycleMarkMissing_searching (p := .trackIn) h⟩,
    fun h => ⟨cycleMarkBad_searching (p := .controlIn) h, cycleMarkMissing_searching (p := .controlIn) h⟩⟩

/-! ## The track clock (R17 to R20) -/

theorem reportMissing_spec (s : State) : MissingReport s s.reportMissing := by
  refine ⟨fun hu => ?_, fun hl hrun => ?_, fun hl hrun => ?_, fun hf => ?_⟩ <;> rw [reportMissing_eq] <;>
    unfold TrackClock.missingMark
  · simp only [hu, State.withClock, ↓reduceIte, Bool.false_eq_true, State.alerts_nil]
  · simp only [hl, hrun, ↓reduceIte, Bool.false_eq_true, State.alerts_nil]
  · simp only [hl, Nat.not_lt.2 hrun, ↓reduceIte]
    rw [State.alerts_one, State.withClock_publisher]
    rfl
  · simp only [hf, Bool.false_eq_true, ↓reduceIte, State.alerts_nil]

theorem reportGood_eq (s : State) (n : Tick) : s.reportGood n = (s.withClock (s.cau.clock.goodMark n).1).alerts
    ((s.cau.clock.goodMark n).2.map fun d => alertResult (s.cau.clock.goodMark n).1.now .clockStep none (some d) .none) := rfl

/-- A good-mark report that the clock adopts. -/
theorem reportGood_adopts {s : State} {n : Tick} (h : s.cau.clock.goodMark n = s.cau.clock.adopt n) :
    Adopts s (s.reportGood n) n := by
  refine ⟨fun he => ?_, fun hne => ?_⟩ <;> rw [reportGood_eq, h] <;> unfold TrackClock.adopt <;> dsimp only
  · rw [if_pos he]
    exact State.alerts_nil _
  · rw [if_neg hne]
    rw [List.map_singleton, State.alerts_one, State.withClock_publisher]
    rfl

theorem reportGood_unset {s : State} (n : Tick) (h : s.cau.clock.state = .unset) : s.reportGood n =
    s.withClock { s.cau.clock with cycle := n, state := .locked, missingRun := 0, goodRun := 0 } := by
  rw [reportGood_eq]
  unfold TrackClock.goodMark
  rw [h]
  exact State.alerts_nil _

theorem goodMark_locked {c : TrackClock} (n : Tick) (h : c.state = .locked) : c.goodMark n = c.adopt n := by
  unfold TrackClock.goodMark
  rw [h]

theorem goodMark_freeRun {c : TrackClock} (n : Tick) (h : c.state = .freeRun) : c.goodMark n =
    if c.goodRun = 0 then ({ c with cycle := c.cycle + 1, goodRun := 1 }, []) else c.adopt n := by
  unfold TrackClock.goodMark
  rw [h]

theorem reportGood_first {s : State} (n : Tick) (h : s.cau.clock.state = .freeRun) (hrun : s.cau.clock.goodRun = 0) :
    s.reportGood n = s.withClock { s.cau.clock with cycle := s.cau.clock.cycle + 1, goodRun := 1 } := by
  rw [reportGood_eq, goodMark_freeRun n h, if_pos hrun]
  exact State.alerts_nil _

theorem withClock_sameCycle (s : State) {c : TrackClock} (h : c.cycle = s.cau.clock.cycle) :
    s.withClock c = { s with cau := { s.cau with clock := c } } := if_pos h

theorem withClock_newCycle (s : State) {c : TrackClock} (h : c.cycle ≠ s.cau.clock.cycle) :
    s.withClock c = { s with
      cau := { s.cau with clock := c, records := mapAll s.cau.records fun r => { r with testOwed := true } }
      engine := { s.engine with records := mapAll s.engine.records fun r => { r with silenceTestOwed := true } } } :=
  if_neg h

/-- Settles O5, by the report that each mark of Control-in makes and by what a report does in each clock state. -/
theorem controlInMarksMoveClock : Obligations.ControlInMarksMoveClock := by
  refine ⟨fun s n => ⟨_, rfl, fun h => reportGood_unset n h, fun h => reportGood_adopts (goodMark_locked n h),
      fun h hrun => reportGood_first n h hrun, fun h hrun => reportGood_adopts ?_⟩,
    fun s => ⟨fun h => ⟨⟨_, cycleMarkBad_framed (p := .controlIn) h, reportMissing_spec _⟩,
        ⟨_, cycleMarkMissing_framed (p := .controlIn) h, reportMissing_spec _⟩, if_pos ((framed_iff s .controlIn).2 h)⟩,
      fun h => ⟨_, if_neg (searching_not_framed (p := .controlIn) h), reportMissing_spec s⟩⟩,
    fun s c => ⟨withClock_sameCycle s, fun h => ⟨_, rfl, ?_, fun l => ?_, fun d => ?_⟩⟩⟩
  · exact (goodMark_freeRun n h).trans (if_neg hrun)
  all_goals rw [withClock_newCycle s h]
  · exact mapAll_get _ _ l
  · exact mapAll_get _ _ d

/-! ## The receipt of a cell (R5 to R10) -/

/-- A cell that the block of its kind may use (R8, R9). -/
abbrev Used (a : Action) (c : Cell) : Prop := cellCheckGood c = true ∧ (a = .copy ∨ a = .take) ∧ cellKind c ≠ .idle

/-- A REQUEST to the device (R10). -/
abbrev Mine (address : BitVec 3) (c : Cell) : Prop := cellKind c = .request ∧ requestDest c = address.toNat

/-- A cell that goes to the MU (R9, R10). -/
abbrev ToMu (address : BitVec 3) (d : Direction) (a : Action) (c : Cell) : Prop :=
  (Used a c ∧ d = .downstream ∧ Mine address c) ∨ (cellCheckGood c = true ∧ a = .inspect ∧ Mine address c)

section Received

variable (address : BitVec 3) (d : Direction) (a : Action) (c : Cell)

theorem receive_content : (receive address d a c).content =
    if (a = .take ∧ Used a c) ∨ (a = .inspect ∧ ToMu address d a c) then .taken else .cell c := by
  by_cases hg : cellCheckGood c = true <;> by_cases hk : cellKind c = .idle <;> by_cases hm : Mine address c <;>
    cases a <;> simp [receive, ToMu, hg, hk, hm]

theorem receive_badCheck : (receive address d a c).badCheck = true ↔
    (a = .copy ∨ a = .take ∨ a = .inspect) ∧ cellCheckGood c = false := by
  by_cases hg : cellCheckGood c = true <;> by_cases hk : cellKind c = .idle <;> by_cases hm : Mine address c <;>
    cases a <;> simp [receive, hg, hk, hm]

theorem deliveryOf_intake : deliveryOf address d c = some .intake ↔ d = .upstream ∧ cellKind c = .passing := by
  unfold deliveryOf
  cases d <;> cases cellKind c <;> simp

theorem deliveryOf_cau : deliveryOf address d c = some .cau ↔ d = .upstream ∧ cellKind c = .beacon := by
  unfold deliveryOf
  cases d <;> cases cellKind c <;> simp

theorem deliveryOf_mu : deliveryOf address d c = some .mu ↔ d = .downstream ∧ Mine address c := by
  unfold deliveryOf Mine
  cases d <;> cases cellKind c <;> simp

theorem receive_foreign : (receive address d a c).foreign = true ↔ Used a c ∧ deliveryOf address d c = none := by
  by_cases hg : cellCheckGood c = true <;> by_cases hk : cellKind c = .idle <;> by_cases hm : Mine address c <;>
    cases a <;> simp [receive, Used, hg, hk, hm]

theorem receive_deliver (x : Delivery) : (receive address d a c).deliver = some x ↔
    (Used a c ∧ deliveryOf address d c = some x) ∨
      (cellCheckGood c = true ∧ a = .inspect ∧ Mine address c ∧ .mu = x) := by
  by_cases hg : cellCheckGood c = true <;> by_cases hk : cellKind c = .idle <;> by_cases hm : Mine address c <;>
    cases a <;> simp [receive, Used, hg, hk, hm]
  exact fun _ => hm

end Received

theorem receiveCell_searching {s : State} {d : Direction} (h : (s.lif.lane d).framing = .searching) (k : Slot) (c : Cell) :
    receiveCell d k c s = s := by
  unfold receiveCell
  exact if_neg (by rw [h]; decide)

theorem receiveCell_framed {s : State} {d : Direction} (h : (s.lif.lane d).framing = .framed) (k : Slot) (c : Cell) :
    receiveCell d k c s =
      let r := receive s.lif.address d (s.lif.lane d).inForce[k] c
      State.deliver { s with lif := s.lif.setLane d ((s.lif.lane d).receipt k r) } k c r.deliver := by
  unfold receiveCell
  exact if_pos h

/-- What a delivery adds to each list of delivered cells and to the MU. -/
theorem deliver_eq (s : State) (k : Slot) (c : Cell) (o : Option Delivery) : s.deliver k c o = { s with
    lif := { s.lif with
      toIntake := if o = some .intake then s.lif.toIntake ++ [(k, c)] else s.lif.toIntake
      toCau := if o = some .cau then s.lif.toCau ++ [(k, c)] else s.lif.toCau }
    mu := if o = some .mu then s.mu.deliver (readRequest c) else s.mu } := by
  rcases o with _ | x
  · rfl
  · cases x <;> rfl

theorem muDeliver_eq (m : Mu) (r : Request) : m.deliver r = { m with
    queue := if m.queue.length < 4 then m.queue ++ [r] else m.queue
    counts := { m.counts with
      delivered := bump m.counts.delivered
      dropped := if m.queue.length < 4 then m.counts.dropped else bump m.counts.dropped } } := by
  unfold Mu.deliver
  split <;> rfl

theorem setLane_fields (l : Lif) (d : Direction) (x : Lane) : (l.setLane d x).toIntake = l.toIntake ∧
    (l.setLane d x).toCau = l.toCau := by cases d <;> exact ⟨rfl, rfl⟩

/-- The block that a received cell is delivered to. -/
theorem receive_deliver_iff (address : BitVec 3) (d : Direction) (a : Action) (c : Cell) :
    let o := (receive address d a c).deliver
    (o = some .intake ↔ Used a c ∧ d = .upstream ∧ cellKind c = .passing) ∧
      (o = some .cau ↔ Used a c ∧ d = .upstream ∧ cellKind c = .beacon) ∧ (o = some .mu ↔ ToMu address d a c) := by
  refine ⟨?_, ?_, ?_⟩ <;> rw [receive_deliver]
  · simp [deliveryOf_intake]
  · simp [deliveryOf_cau]
  · simp only [deliveryOf_mu, and_true]

theorem deliveryOf_none (address : BitVec 3) (d : Direction) (a : Action) (c : Cell) (h : Used a c) :
    deliveryOf address d c = none ↔ ¬ (d = .upstream ∧ cellKind c = .passing) ∧
      ¬ (d = .upstream ∧ cellKind c = .beacon) ∧ ¬ ToMu address d a c := by
  have hmu : ToMu address d a c ↔ deliveryOf address d c = some .mu := by
    rw [deliveryOf_mu]
    refine ⟨fun ht => ht.elim (fun ht => ht.2) fun ht => ?_, fun hm => .inl ⟨h, hm⟩⟩
    rcases h.2.1 with e | e <;> exact absurd (e.symm.trans ht.2.1) (by decide)
  rw [← deliveryOf_intake address, ← deliveryOf_cau address, hmu]
  cases deliveryOf address d c with
  | none => simp
  | some x => cases x <;> simp

/-- The receipt of a cell on a framed port. -/
theorem receiveCell_spec {s : State} {d : Direction} (h : (s.lif.lane d).framing = .framed) (k : Slot) (c : Cell) :
    let lane := s.lif.lane d
    let a := lane.inForce[k]
    let t := receiveCell d k c s
    t = { s with lif := t.lif, mu := t.mu } ∧
      t.lif = { s.lif.setLane d (t.lif.lane d) with toIntake := t.lif.toIntake, toCau := t.lif.toCau } ∧
      t.lif.lane d = lane.receipt k (receive s.lif.address d a c) ∧
      t.lif.toIntake = (if Used a c ∧ d = .upstream ∧ cellKind c = .passing then s.lif.toIntake ++ [(k, c)]
        else s.lif.toIntake) ∧
      t.lif.toCau = (if Used a c ∧ d = .upstream ∧ cellKind c = .beacon then s.lif.toCau ++ [(k, c)] else s.lif.toCau) ∧
      t.mu = if ToMu s.lif.address d a c then s.mu.deliver (readRequest c) else s.mu := by
  obtain ⟨hintake, hcau, hmu⟩ := receive_deliver_iff s.lif.address d (s.lif.lane d).inForce[k] c
  have hlane (l : Lif) (x : Lane) (i u : List (Slot × Cell)) :
      Lif.lane { l.setLane d x with toIntake := i, toCau := u } d = x := by cases d <;> rfl
  dsimp only
  rw [receiveCell_framed h, deliver_eq]
  simp only [hintake, hcau, hmu, setLane_fields, hlane, and_self]

/-- The counts and the content that a receipt leaves in its lane. -/
theorem laneReceipt_eq (address : BitVec 3) (d : Direction) (lane : Lane) (k : Slot) (c : Cell) :
    let a := lane.inForce[k]
    lane.receipt k (receive address d a c) = { lane with
      buffer := lane.buffer.set k
        (if (a = .take ∧ Used a c) ∨ (a = .inspect ∧ ToMu address d a c) then .taken else .cell c)
      slips := if lane.buffer[k] = .empty then lane.slips else bump lane.slips
      counts := lane.counts.set k { lane.counts[k] with
        bad := if (a = .copy ∨ a = .take ∨ a = .inspect) ∧ cellCheckGood c = false
          then bump lane.counts[k].bad else lane.counts[k].bad
        foreign := if Used a c ∧ ¬ (d = .upstream ∧ cellKind c = .passing) ∧ ¬ (d = .upstream ∧ cellKind c = .beacon) ∧
            ¬ ToMu address d a c
          then bump lane.counts[k].foreign else lane.counts[k].foreign } } := by
  have hforeign : (receive address d lane.inForce[k] c).foreign = true ↔ Used lane.inForce[k] c ∧
      ¬ (d = .upstream ∧ cellKind c = .passing) ∧ ¬ (d = .upstream ∧ cellKind c = .beacon) ∧
        ¬ ToMu address d lane.inForce[k] c := by
    rw [receive_foreign]
    exact and_congr_right (deliveryOf_none address d _ c)
  unfold Lane.receipt SlotCounts.receipt
  simp only [receive_content, receive_badCheck, hforeign, upd_eq_set]

theorem checkGood_iff (cell : Cell) :
    cellCheckGood cell = true ↔ cell[30] ++ cell[31] = crc16 (cell.toList.take 30) := by
  have hbytes : cellBytes cell 0 30 = cell.toList.take 30 := rfl
  unfold cellCheckGood
  rw [decide_eq_true_eq, hbytes, cellNat_two cell 30 (by decide), ← BitVec.toNat_inj, toNat_append_byte, Nat.mul_comm]

theorem cellKind_row (cell : Cell) (row : Nat × CellKind)
    (h : row ∈ ([(0x00, .idle), (0x11, .passing), (0x12, .beacon), (0x21, .request), (0x22, .reply), (0x31, .result)] :
      List (Nat × CellKind))) (hc : cell[0].toNat = row.1) : cellKind cell = row.2 := by
  have hbyte : ∀ n : Nat, n < 256 → cell[0].toNat = n → cell[0] = BitVec.ofNat 8 n := fun n hn he =>
    BitVec.eq_of_toNat_eq (by rw [he, BitVec.toNat_ofNat, Nat.mod_eq_of_lt hn])
  unfold cellKind
  simp only [List.mem_cons, List.not_mem_nil, or_false] at h
  rcases h with e | e | e | e | e | e <;> subst e <;> rw [hbyte _ (by decide) hc] <;> rfl

theorem cellKind_other (cell : Cell) (h : cell[0].toNat ∉ [0x00, 0x11, 0x12, 0x21, 0x22, 0x31]) :
    cellKind cell = .foreign := by
  have hne : ∀ b : Byte, b.toNat ∈ [0x00, 0x11, 0x12, 0x21, 0x22, 0x31] → cell[0] ≠ b := fun b hb e => h (e ▸ hb)
  unfold cellKind
  rw [if_neg (hne _ (by decide)), if_neg (hne _ (by decide)), if_neg (hne _ (by decide)), if_neg (hne _ (by decide)),
    if_neg (hne _ (by decide)), if_neg (hne _ (by decide))]

/-- Settles O6, by what each action does with a cell, and by the fields of a received cell. -/
theorem cellReceipt : Obligations.CellReceipt := by
  refine ⟨fun s d k c => ⟨fun h => ?_, fun h => ?_, fun n hn => exec_cellReceipt_beyond d hn c s⟩, fun cell =>
    ⟨?_, cellKind_row cell, cellKind_other cell, cellNat_one cell 1 (by decide), rfl, rfl, rfl,
      fun i hi => readRequest_params cell i hi⟩⟩
  · rw [exec_cellReceipt_slot, receiveCell_searching h]
  · obtain ⟨hstate, hlif, hlane, hintake, hcau, hmu⟩ := receiveCell_spec h k c
    refine ⟨_, exec_cellReceipt_slot d k c s, hstate, hlif, ?_, hintake, hcau, ?_⟩
    · rw [hlane]
      exact laneReceipt_eq ..
    · rw [hmu]
      split
      · exact muDeliver_eq _ _
      · rfl
  · rw [checkGood_iff, crc16_bits]
    rfl

end Sys2Proof.Machine
end

section
/-! The outbound cycles of the loop line (R1 to R7, R11), and the bytes of what the part sends (R1, R2, R204, R205). -/

namespace Sys2Proof.Machine

open Host (Outcome)

/-! ## Outbound cycles and slots -/

theorem nextOutCount_eq (l : Lif) (k : TrackClock) : nextOutCount l k =
    if l.started = false then l.outCount else if k.state = .unset then l.outCount + 1 else k.cycle := by
  unfold nextOutCount
  cases l.started <;> rfl

theorem outboundCycleStart_eq (s : State) : exec .outboundCycleStart s = .next { s with
    lif := { s.lif with
      outCount := nextOutCount s.lif s.cau.clock
      started := true
      up := s.lif.up.cycleStart (nextOutCount s.lif s.cau.clock)
      down := s.lif.down.cycleStart (nextOutCount s.lif s.cau.clock) } } := rfl

section Slots

variable {s : State} {d : Direction} {k : Slot}

theorem outboundSlotSend_none (h : (s.lif.lane d).outSlot = none) : exec (.outboundSlotSend d) s = .next s := by
  show execOutboundSlotSend d s = _
  unfold execOutboundSlotSend
  rw [h]

theorem outboundSlotSend_slot (h : (s.lif.lane d).outSlot = some k) :
    exec (.outboundSlotSend d) s = .next (sendSlot d k s) := by
  show execOutboundSlotSend d s = _
  unfold execOutboundSlotSend
  rw [h]

theorem sendSlot_block (h : (s.lif.lane d).inForce[k] = .block) : sendSlot d k s = sendIdle d k s := by
  unfold sendSlot
  rw [h]

theorem insertSend_idle (hr : s.mu.replies = []) (hq : s.publisher.resultQueue = []) :
    insertSend k s = sendPosition .upstream k s := by
  unfold insertSend
  rw [hr, hq]

theorem sendSlot_position (hb : (s.lif.lane d).inForce[k] ≠ .block)
    (h : (s.lif.lane d).inForce[k] ≠ .insert ∨ d = .downstream ∨ (s.mu.replies = [] ∧ s.publisher.resultQueue = [])) :
    sendSlot d k s = sendPosition d k s := by
  unfold sendSlot
  split
  · rename_i ha
    exact absurd ha hb
  · rename_i ha
    rcases h with hne | hd | ⟨hr, hq⟩
    · exact absurd ha hne
    · cases hd
    · exact insertSend_idle hr hq
  all_goals rfl

theorem sendSlot_insert (h : (s.lif.lane .upstream).inForce[k] = .insert) : sendSlot .upstream k s = insertSend k s := by
  unfold sendSlot
  rw [h]

theorem insertSend_reply {r : Reply} {rest : List Reply} (h : s.mu.replies = r :: rest) :
    insertSend k s = sendOwn k r.toCell { s with mu := { s.mu with replies := rest } } := by
  unfold insertSend
  rw [h]

theorem insertSend_result {r : Result} {rest : List Result} (hr : s.mu.replies = [])
    (h : s.publisher.resultQueue = r :: rest) :
    insertSend k s = sendOwn k r.toCell { s with publisher := { s.publisher with resultQueue := rest } } := by
  unfold insertSend
  rw [hr, h]

end Slots

theorem overwritten_eq (lane : Lane) (k : Slot) : lane.overwritten k = { lane with
    counts := match lane.buffer[k].lost with
      | true => lane.counts.set k { lane.counts[k] with overwrite := bump lane.counts[k].overwrite }
      | false => lane.counts } := by
  unfold Lane.overwritten
  cases lane.buffer[k].lost <;> rfl

theorem sent_eq (p : Position) : p.sent = match p with | .cell c => c | .empty => idleCell | .taken => idleCell := by
  cases p <;> rfl

theorem lost_eq (p : Position) : p.lost = match p with
    | .cell c => decide (cellKind c ≠ .idle) | .empty => false | .taken => false := by
  cases p <;> rfl

/-! ## The bytes of what is sent -/

/-- The check over a byte string, bit by bit (R2). -/
def checkOf (l : List Byte) : BitVec 16 := ((l.map byteBits).flatten).foldl crcFeed 0xFFFF

theorem crc16_eq_checkOf (l : List Byte) : crc16 l = checkOf l := crc16_bits l

/-- The 32 bytes of a cell that carries these bytes: zeros behind them, and the check (R2). -/
def Carries (c : Cell) (l : List Byte) : Prop :=
  let filled := (l ++ List.replicate 30 0).take 30
  c.toList = filled ++ [(checkOf filled).extractLsb' 8 8, (checkOf filled).extractLsb' 0 8]

theorem sealCell_carries (body : List Byte) : Carries (sealCell body) body := by
  unfold Carries
  rw [sealCell_toList]
  simp only [crc16_eq_checkOf]

/-- Fields of the given lengths, one after another. -/
def fieldBytes (l : List (Nat × Nat)) : List Byte := (l.map fun f => natBytes f.1 f.2).flatten

@[simp] theorem fieldBytes_nil : fieldBytes [] = [] := rfl

@[simp] theorem fieldBytes_cons (n v : Nat) (l : List (Nat × Nat)) : fieldBytes ((n, v) :: l) = natBytes n v ++ fieldBytes l := rfl

theorem fieldBytes_append (l l' : List (Nat × Nat)) : fieldBytes (l ++ l') = fieldBytes l ++ fieldBytes l' := by
  simp [fieldBytes]

theorem natBytes_one_byte (b : Byte) : natBytes 1 b.toNat = [b] := by simp [natBytes]

theorem ofNat_div (n : Tick) (k : Nat) : BitVec.ofNat 8 (n.toNat / 2 ^ k) = n.extractLsb' k 8 := by
  apply BitVec.eq_of_toNat_eq
  simp [Nat.shiftRight_eq_div_pow]

theorem markCheck_bytes (n : Tick) : natBytes 4 n.toNat =
    [n.extractLsb' 24 8, n.extractLsb' 16 8, n.extractLsb' 8 8, n.extractLsb' 0 8] := by
  rw [← ofNat_div n 24, ← ofNat_div n 16, ← ofNat_div n 8, ← ofNat_div n 0]
  simp [natBytes, Nat.div_div_eq_div_mul]

theorem reply_carries (r : Reply) : Carries r.toCell (fieldBytes
    [(1, 0x22), (1, r.source.toNat), (1, r.tag.toNat), (1, r.code.toNat), (1, r.status.code)] ++ r.data) := by
  have h := sealCell_carries ([0x22] ++ natBytes 1 r.source.toNat ++ [r.tag, r.code] ++ natBytes 1 r.status.code ++ r.data)
  have hbody : fieldBytes [(1, 0x22), (1, r.source.toNat), (1, r.tag.toNat), (1, r.code.toNat), (1, r.status.code)] ++
      r.data = [0x22] ++ natBytes 1 r.source.toNat ++ [r.tag, r.code] ++ natBytes 1 r.status.code ++ r.data := by
    simp only [fieldBytes_cons, fieldBytes_nil, natBytes_one_byte, List.append_nil, List.append_assoc,
      List.cons_append, List.nil_append]
    rfl
  rw [hbody]
  exact h

/-- The value of a flag bit (R205). -/
def bitAt (i : Nat) (b : Bool) : Nat := if b = true then 2 ^ i else 0

theorem bitAt_eq (i : Nat) (b : Bool) : bitAt i b = 2 ^ i * (if b then 1 else 0) := by cases b <;> simp [bitAt]

/-- The number of the flags (R205). -/
def Flags.number (f : Flags) : Nat :=
    bitAt 0 f.clampedTime + bitAt 1 f.saturated + bitAt 2 f.afterFinish + bitAt 3 f.retired +
      bitAt 4 f.implausible + bitAt 5 f.entered + bitAt 6 f.merged + bitAt 7 f.neutral + bitAt 8 f.pit + bitAt 9 f.pitLap +
      bitAt 10 f.lineMissed + bitAt 11 f.personalBest + bitAt 12 f.sessionBest + bitAt 13 f.finish + bitAt 14 f.entryMissed +
      bitAt 15 f.exitMissed + bitAt 16 f.inactive + bitAt 17 f.withheld + bitAt 18 f.released + bitAt 19 f.unreviewed

theorem bitsNat_flags (f : Flags) : bitsNat f.bits = f.number := by
  simp only [Flags.number, bitAt_eq, bitsNat, Flags.bits]
  ring

/-- The fields that every RESULT cell begins with (R205). -/
def Result.header (r : Result) : List (Nat × Nat) :=
  [(1, 0x31), (1, r.kind.code), (2, (r.sequence.map BitVec.toNat).getD (256 ^ 2 - 1)), (3, r.flags.number),
    (1, (r.quality.map Quality.rank).getD 0), (1, (r.competitor.map fun x => x.1.val).getD (256 ^ 1 - 1)),
    (2, (r.competitor.map Prod.snd).getD (256 ^ 2 - 1)), (1, (r.loop.map Fin.val).getD (256 ^ 1 - 1)), (6, r.time)]

/-- A RESULT cell carries its common fields and those of its kind. -/
theorem result_carries {r : Result} {l : List (Nat × Nat)} (h : r.kindBytes = fieldBytes l) :
    Carries r.toCell (fieldBytes (r.header ++ l)) := by
  have hbody := sealCell_carries ([0x31] ++ natBytes 1 r.kind.code ++ optBytes 2 (r.sequence.map BitVec.toNat) ++
    natBytes 3 (bitsNat r.flags.bits) ++ natBytes 1 (qualityCode r.quality) ++
    optBytes 1 (r.competitor.map fun p => p.1.val) ++ optBytes 2 (r.competitor.map Prod.snd) ++
    optBytes 1 (r.loop.map Fin.val) ++ natBytes 6 r.time ++ r.kindBytes)
  have hfields : fieldBytes (r.header ++ l) = [0x31] ++ natBytes 1 r.kind.code ++ optBytes 2 (r.sequence.map BitVec.toNat) ++
    natBytes 3 (bitsNat r.flags.bits) ++ natBytes 1 (qualityCode r.quality) ++
    optBytes 1 (r.competitor.map fun p => p.1.val) ++ optBytes 2 (r.competitor.map Prod.snd) ++
    optBytes 1 (r.loop.map Fin.val) ++ natBytes 6 r.time ++ r.kindBytes := by
    rw [fieldBytes_append, h, bitsNat_flags]
    simp only [Result.header, fieldBytes_cons, fieldBytes_nil, List.append_nil, List.append_assoc]
    rfl
  rw [hfields]
  exact hbody

/-- The fields of a gap (R205). -/
def gapFields : Option Gap → List (Nat × Nat)
  | none => [(1, 0), (3, 16777215)]
  | some (.time tu) => [(1, 1), (3, tu)]
  | some (.laps n) => [(1, 2), (3, n)]

theorem gapBytes_eq (g : Option Gap) : gapBytes g = fieldBytes (gapFields g) := by
  rcases g with _ | g
  · rfl
  · cases g <;> simp [gapBytes, gapFields]

/-- The fields of a time with its presence byte (R205). -/
def timeFields : Option Int → List (Nat × Nat)
  | none => [(1, 0), (3, 16777215)]
  | some tu => [(1, 1), (3, tu.toNat)]

theorem presentTU_eq (v : Option Int) : presentTU v = fieldBytes (timeFields v) := by
  cases v with
  | none => rfl
  | some tu => simp [presentTU, timeFields]

/-- A signed number in `n` bytes, all ones where it is absent (R205). -/
def optIntBytes (n : Nat) : Option Int → List Byte
  | none => optBytes n none
  | some v => intBytes n v

theorem optIntBytes_eq (n : Nat) (v : Option Int) (w : Nat) (hw : 2 ^ w = 256 ^ n) :
    optIntBytes n v = natBytes n ((v.map fun d => (BitVec.ofInt w d).toNat).getD (256 ^ n - 1)) := by
  cases v with
  | none => rfl
  | some d =>
    dsimp only [optIntBytes, intBytes, Option.map_some, Option.getD_some]
    rw [BitVec.toNat_ofInt, hw]

/-! ## The fields of each kind of RESULT (R205) -/

/-- A number in a field of `n` bytes, all ones where it is absent. -/
abbrev optField (n : Nat) (v : Option Nat) : Nat × Nat := (n, v.getD (256 ^ n - 1))

theorem fieldBytes_opt (n : Nat) (v : Option Nat) (l : List (Nat × Nat)) :
    fieldBytes (optField n v :: l) = optBytes n v ++ fieldBytes l := rfl

section Kinds

variable {r : Result}

theorem kindBytes_lap (h : r.kind = .lap) : r.kindBytes = fieldBytes
    ([optField 2 r.lapNumber] ++ timeFields r.value ++ [optField 1 r.position] ++ gapFields r.gap) := by
  have e : r.kindBytes = optBytes 2 r.lapNumber ++ presentTU r.value ++ optBytes 1 r.position ++ gapBytes r.gap := by
    unfold Result.kindBytes
    rw [h]
  rw [e, presentTU_eq, gapBytes_eq]
  simp only [fieldBytes_append, fieldBytes_opt, fieldBytes_nil, List.append_nil]

theorem kindBytes_sector (h : r.kind = .sector) : r.kindBytes = fieldBytes
    [optField 1 r.point, optField 1 r.span, optField 3 (r.value.map Int.toNat)] := by
  have e : r.kindBytes = optBytes 1 r.point ++ optBytes 1 r.span ++ optBytes 3 (r.value.map Int.toNat) := by
    unfold Result.kindBytes
    rw [h]
  rw [e]
  simp only [fieldBytes_opt, fieldBytes_nil, List.append_nil, List.append_assoc]

theorem kindBytes_pass (h : r.kind = .pass) : r.kindBytes = fieldBytes
    ([optField 1 r.point, optField 1 r.position] ++ gapFields r.gap) := by
  have e : r.kindBytes = optBytes 1 r.point ++ optBytes 1 r.position ++ gapBytes r.gap := by
    unfold Result.kindBytes
    rw [h]
  rw [e, gapBytes_eq]
  simp only [fieldBytes_append, fieldBytes_opt, fieldBytes_nil, List.append_nil]

theorem kindBytes_trap (h : r.kind = .trap) : r.kindBytes = fieldBytes
    [optField 1 r.point, optField 2 (r.value.map Int.toNat)] := by
  have e : r.kindBytes = optBytes 1 r.point ++ optBytes 2 (r.value.map Int.toNat) := by
    unfold Result.kindBytes
    rw [h]
  rw [e]
  simp only [fieldBytes_opt, fieldBytes_nil, List.append_nil]

theorem kindBytes_pit (h : r.kind = .pitIn ∨ r.kind = .pitOut) {n : Nat} (hx : r.extra = .pit n) :
    r.kindBytes = fieldBytes ((1, n) :: timeFields r.value) := by
  have e : r.kindBytes = natBytes 1 n ++ presentTU r.value := by
    unfold Result.kindBytes
    rw [hx]
    rcases h with h | h <;> rw [h]
  rw [e, presentTU_eq, fieldBytes_cons]

theorem kindBytes_unknown (h : r.kind = .unknown) {note : Option Code} {level : Option Level}
    (hx : r.extra = .unknown note level) : r.kindBytes = fieldBytes
      [optField 3 (r.code.map BitVec.toNat), (1, (level.map Level.code).getD 0), optField 3 (note.map BitVec.toNat)] := by
  have e : r.kindBytes = optBytes 3 (r.code.map BitVec.toNat) ++ natBytes 1 ((level.map Level.code).getD 0) ++
      optBytes 3 (note.map BitVec.toNat) := by
    unfold Result.kindBytes
    rw [h, hx]
  rw [e]
  simp only [fieldBytes_cons, fieldBytes_nil, List.append_nil, List.append_assoc]
  rfl

theorem kindBytes_late (h : r.kind = .late) : r.kindBytes = fieldBytes
    [optField 3 (r.code.map BitVec.toNat), optField 3 (r.value.map Int.toNat)] := by
  have e : r.kindBytes = optBytes 3 (r.code.map BitVec.toNat) ++ optBytes 3 (r.value.map Int.toNat) := by
    unfold Result.kindBytes
    rw [h]
  rw [e]
  simp only [fieldBytes_opt, fieldBytes_nil, List.append_nil]

theorem kindBytes_state (h : r.kind = .state) {change : StateChange} {new : Option CompState} {delta : Option Int}
    (hx : r.extra = .state change new delta) : r.kindBytes = fieldBytes
      ([(1, change.code), (1, (new.map CompState.code).getD 0), optField 1 (delta.map fun d => (BitVec.ofInt 8 d).toNat),
        optField 2 r.lapNumber, optField 1 r.position] ++ gapFields r.gap) := by
  have e : r.kindBytes = natBytes 1 change.code ++ natBytes 1 ((new.map CompState.code).getD 0) ++
      optIntBytes 1 delta ++
      optBytes 2 r.lapNumber ++ optBytes 1 r.position ++ gapBytes r.gap := by
    unfold Result.kindBytes
    rw [h, hx]
    cases delta <;> rfl
  rw [e, gapBytes_eq, optIntBytes_eq 1 delta 8 (by decide)]
  simp only [fieldBytes_append, fieldBytes_cons, fieldBytes_nil, List.append_nil, List.append_assoc]
  rfl

theorem kindBytes_session (h : r.kind = .session) {change : SessionChange} {after : SessionState} {mode : Option StartMode}
    (hx : r.extra = .session change after mode) : r.kindBytes = fieldBytes
      [(1, change.code), (1, after.code), (1, (mode.map StartMode.code).getD 0)] := by
  have e : r.kindBytes = natBytes 1 change.code ++ natBytes 1 after.code ++
      natBytes 1 ((mode.map StartMode.code).getD 0) := by
    unfold Result.kindBytes
    rw [h, hx]
  rw [e]
  simp only [fieldBytes_cons, fieldBytes_nil, List.append_nil, List.append_assoc]

theorem kindBytes_alert (h : r.kind = .alert) {alert : AlertCode} {arg : AlertArg} (hx : r.extra = .alert alert arg) :
    r.kindBytes = fieldBytes [(1, alert.code), optField 4 (r.value.map fun v => (BitVec.ofInt 32 v).toNat), (1, arg.code),
      optField 3 (r.code.map BitVec.toNat), optField 3 (arg.addr.map BitVec.toNat)] := by
  have e : r.kindBytes = natBytes 1 alert.code ++
      optIntBytes 4 r.value ++ natBytes 1 arg.code ++
      optBytes 3 (r.code.map BitVec.toNat) ++ optBytes 3 (arg.addr.map BitVec.toNat) := by
    unfold Result.kindBytes
    rw [h, hx]
    cases r.value <;> rfl
  rw [e, optIntBytes_eq 4 r.value 32 (by decide)]
  simp only [fieldBytes_cons, fieldBytes_nil, List.append_nil, List.append_assoc]
  rfl

end Kinds

theorem logWord_bytes (r : Result) (j : Nat) (h : j < 8) :
    let byte (i : Nat) : Byte := r.toCell.toList.getD (4 * j + i) 0
    r.logWord j = byte 0 ++ byte 1 ++ byte 2 ++ byte 3 := by
  have hword := ofNat_cellNat_four r.toCell (4 * j) (by omega)
  dsimp only
  rw [toList_getD _ _ (by omega), toList_getD _ _ (by omega), toList_getD _ _ (by omega), toList_getD _ _ (by omega)]
  exact hword

/-! ## The statement -/

/-- The outbound cycle start, and the sending of a slot by the action in force. -/
theorem outboundSlots (s : State) (d : Direction) (k : Slot) (hk : (s.lif.lane d).outSlot = some k) :
    ((s.lif.lane d).inForce[k] = .block → exec (.outboundSlotSend d) s =
      .next { s with lif := s.lif.setLane d ((s.lif.lane d).slotSent k idleCell) }) ∧
    ((s.lif.lane d).inForce[k] ≠ .block → ((s.lif.lane d).inForce[k] ≠ .insert ∨ d = .downstream ∨
        (s.mu.replies = [] ∧ s.publisher.resultQueue = [])) →
      exec (.outboundSlotSend d) s =
        .next { s with lif := s.lif.setLane d ((s.lif.lane d).slotSent k (s.lif.lane d).buffer[k].sent) }) ∧
    ((s.lif.lane d).inForce[k] = .insert → d = .upstream →
      (∀ r rest, s.mu.replies = r :: rest → exec (.outboundSlotSend d) s = .next { s with
        lif := { s.lif with up := ((s.lif.lane d).overwritten k).slotSent k r.toCell }
        mu := { s.mu with replies := rest } }) ∧
      (∀ r rest, s.mu.replies = [] → s.publisher.resultQueue = r :: rest →
        exec (.outboundSlotSend d) s = .next { s with
          lif := { s.lif with up := ((s.lif.lane d).overwritten k).slotSent k r.toCell }
          publisher := { s.publisher with resultQueue := rest } })) := by
  rw [outboundSlotSend_slot hk]
  refine ⟨fun hb => ?_, fun hb h => ?_, fun hi hd => ?_⟩
  · rw [sendSlot_block hb]
    rfl
  · rw [sendSlot_position hb h]
    rfl
  · subst hd
    rw [sendSlot_insert hi]
    refine ⟨fun r rest hr => ?_, fun r rest hr hq => ?_⟩
    · rw [insertSend_reply hr]
      rfl
    · rw [insertSend_result hr hq]
      rfl

theorem slotSent_overwritten (lane : Lane) (k : Slot) (c : Cell) : (lane.overwritten k).slotSent k c = { lane with
    buffer := lane.buffer.set k .empty
    outSlot := finOf? 40 (k.val + 1)
    lineOut := some (.cell k c)
    counts := match lane.buffer[k].lost with
      | true => lane.counts.set k { lane.counts[k] with overwrite := bump lane.counts[k].overwrite }
      | false => lane.counts } := by
  rw [overwritten_eq]
  rfl

/-- Settles O7: the outbound part by the action in force; the bytes by the check of a sealed cell and the fields of each
kind. -/
theorem outboundCycles : Obligations.OutboundCycles := by
  refine ⟨fun s => ?_, fun s d => ⟨outboundSlotSend_none, fun k hk => ?_⟩, fun v => ⟨rfl, fun n => rfl⟩, by decide +kernel,
    fun n => ?_, sealCell_carries _, by decide, reply_carries, fun r => ?_⟩
  · rw [outboundCycleStart_eq, nextOutCount_eq]
    rfl
  · obtain ⟨hblock, hposition, hinsert⟩ := outboundSlots s d k hk
    refine ⟨hblock, fun hb h => (hposition hb h).trans ?_, fun hi hd => ?_⟩
    · rw [sent_eq]
      rfl
    · obtain ⟨hreply, hresult⟩ := hinsert hi hd
      refine ⟨fun r rest hr => (hreply r rest hr).trans ?_, fun r rest hr hq => (hresult r rest hr hq).trans ?_⟩ <;>
        rw [slotSent_overwritten, lost_eq] <;> rfl
  · exact (congrArg crc16 (markCheck_bytes n)).trans (crc16_eq_checkOf _)
  · refine ⟨fun h => result_carries (kindBytes_lap h), fun h => result_carries (kindBytes_sector h),
      fun h => result_carries (kindBytes_pass h), fun h => result_carries (kindBytes_trap h),
      fun h n hx => result_carries (kindBytes_pit h hx), fun h note level hx => result_carries (kindBytes_unknown h hx),
      fun h => result_carries (kindBytes_late h), fun h change new delta hx => result_carries (kindBytes_state h hx),
      fun h change after mode hx => result_carries (kindBytes_session h hx), fun h alert arg hx => ?_, logWord_bytes r⟩
    have hc := result_carries (kindBytes_alert h hx)
    cases arg <;> exact hc

end Sys2Proof.Machine
end

section
/-! Beacons, the conversion of ticks, the timeouts of loops, and Passing Intake. -/

namespace Sys2Proof.Machine

open Host (Outcome)

/-! ## The handling of a beacon (R21, R22) -/

theorem beaconHandling_nil {s : State} (h : s.lif.toCau = []) : exec .beaconHandling s = .next s := by
  show execBeaconHandling s = _
  unfold execBeaconHandling
  rw [h]

theorem beaconHandling_cons {s : State} {slot : Slot} {c : Cell} {rest : List (Slot × Cell)}
    (h : s.lif.toCau = (slot, c) :: rest) : exec .beaconHandling s =
      .next (State.beacon { s with lif := { s.lif with toCau := rest } } slot (beaconTick c) (beaconC16 c)) := by
  show execBeaconHandling s = _
  unfold execBeaconHandling
  rw [h]

theorem offSlot_set {c : TrackClock} (h : c.state ≠ .unset) :
    c.offSlot = { c with offSlotBeacons := bump c.offSlotBeacons } := if_pos (.inl h)

theorem offSlot_cases (c : TrackClock) : c.offSlot = c ∨ c.offSlot = { c with offSlotBeacons := bump c.offSlotBeacons } := by
  unfold TrackClock.offSlot
  split
  · exact .inr rfl
  · exact .inl rfl

section Beacon

variable {s : State} {slot : Slot} {l : LoopNo} (tick : Tick) {c16 : Nat}

theorem beacon_offSlot (h : 32 ≤ slot.val) :
    s.beacon slot tick c16 = { s with cau := { s.cau with clock := s.cau.clock.offSlot } } := by
  unfold State.beacon
  rw [finOf_eq_none.2 h]

theorem beacon_unset (h : slot.val = l.val) (hu : s.cau.clock.state = .unset) : s.beacon slot tick c16 = s := by
  unfold State.beacon
  rw [(finOf_eq_some l).2 h]
  exact if_pos hu

theorem beacon_unresolved (h : slot.val = l.val) (hu : s.cau.clock.state ≠ .unset)
    (hr : resolveCycle s.cau.clock.cycle c16 = none) : s.beacon slot tick c16 = { s with cau := { s.cau with
      records := s.cau.records.set l { s.cau.records[l] with unresolved := bump s.cau.records[l].unresolved } } } := by
  unfold State.beacon
  rw [(finOf_eq_some l).2 h]
  dsimp only
  rw [if_neg hu, hr, upd_eq_set]

theorem beacon_resolved (h : slot.val = l.val) (hu : s.cau.clock.state ≠ .unset) {b : Nat}
    (hr : resolveCycle s.cau.clock.cycle c16 = some b) : s.beacon slot tick c16 =
      let x := s.cau.records[l].beacon s.cau.residualTolerance tick (b * 1000)
      State.alerts { s with cau := { s.cau with records := s.cau.records.set l { x.1 with testOwed := false } } }
        (x.2.map (RecordAlert.toResult s.now l)) := by
  unfold State.beacon
  rw [(finOf_eq_some l).2 h]
  dsimp only
  rw [if_neg hu, hr]

end Beacon

theorem resolveCycle_negative {now : Tick} {c16 : Nat} (h : now.toNat < c16) (hc : c16 < 65536) :
    resolveCycle now c16 = none := by
  unfold resolveCycle
  exact if_neg (by omega)

theorem resolveCycle_latest {now : Tick} {c16 b : Nat} (hle : b ≤ now.toNat) (hlt : now.toNat < b + 65536)
    (hb : b % 65536 = c16) : resolveCycle now c16 = some b := by
  have hcycle : (now.toNat : Int) - ((now.toNat : Int) - c16) % 65536 = b := by omega
  unfold resolveCycle
  dsimp only
  rw [hcycle, if_pos (by omega), Int.toNat_natCast]

theorem beaconC16_eq (cell : Cell) : beaconC16 cell = 256 * cell[6].toNat + cell[7].toNat := cellNat_two cell 6 (by decide)

theorem beaconC16_lt (cell : Cell) : beaconC16 cell < 65536 := by
  rw [beaconC16_eq]
  have h6 := cell[6].isLt
  have h7 := cell[7].isLt
  omega

/-- A beacon whose cycle is known goes to the record of its loop. -/
theorem beaconHandling_at {s : State} {l : LoopNo} {slot : Slot} {c : Cell} {rest : List (Slot × Cell)} {b : Nat}
    {r : AlignRec} {as : List RecordAlert} (h : BeaconAt s l slot c rest b)
    (hr : s.cau.records[l].beacon s.cau.residualTolerance (beaconTick c) (b * 1000) = (r, as)) :
    exec .beaconHandling s = .next (beaconHandled s l rest r (as.map (RecordAlert.toResult s.now l))) := by
  obtain ⟨hq, hslot, hset, hle, hlt, hb⟩ := h
  rw [beaconHandling_cons hq]
  refine congrArg Outcome.next ?_
  rw [beacon_resolved (s := { s with lif := { s.lif with toCau := rest } }) (beaconTick c) hslot hset
    (resolveCycle_latest hle hlt hb)]
  dsimp only
  rw [hr]
  rfl

/-! ## What a record does with a beacon (R27 to R31) -/

section Record

variable {r : AlignRec} {tolerance : Nat} {tick : Tick} {b : Nat}

theorem alignBeacon_unsynced (h : r.state = .unsynced) :
    r.beacon tolerance tick b = ({ r.anchor tick b with state := .acquiring }, [.state .acquiring]) := by
  unfold AlignRec.beacon
  exact if_pos h

theorem alignBeacon_beyond (h : r.state ≠ .unsynced) (hr : (tolerance : Int) < (r.predict tick - b).natAbs) :
    r.beacon tolerance tick b = r.beyond tick b (r.predict tick - b) := by
  unfold AlignRec.beacon
  rw [if_neg h]
  exact if_pos hr

theorem alignBeacon_within (h : r.state ≠ .unsynced) (hr : ¬ (tolerance : Int) < (r.predict tick - b).natAbs) :
    r.beacon tolerance tick b =
      if r.elapsed tick < 100000 then (r.closeBeacon b, [])
      else if r.measure tick b < -16384 ∨ 16383 < r.measure tick b then r.rateFault
      else r.accept tick b (r.measure tick b) := by
  unfold AlignRec.beacon
  rw [if_neg h]
  exact if_neg hr

theorem beyond_acquiring (h : r.state = .acquiring) (d : Int) : r.beyond tick b d = (r.anchor tick b, []) := if_pos h

theorem beyond_locked (h : r.state = .locked) (d : Int) :
    r.beyond tick b d = ({ r.anchor tick b with steps := bump r.steps }, [.step d]) := by
  unfold AlignRec.beyond AlignRec.anchor
  simp [h]

theorem beyond_holdover (h : r.state = .holdover) (d : Int) : r.beyond tick b d =
    ({ r.anchor tick b with steps := bump r.steps, state := .locked }, [.step d, .state .locked]) := by
  unfold AlignRec.beyond
  simp [h]

theorem rateFault_counted (h : r.consecutive < 2) :
    r.rateFault = ({ r with rateFaults := bump r.rateFaults, consecutive := r.consecutive + 1 }, []) := if_pos (by omega)

theorem rateFault_third (h : 2 ≤ r.consecutive) : r.rateFault =
    ({ r with rateFaults := bump r.rateFaults, consecutive := 0, state := .unsynced }, [.state .unsynced]) :=
  if_neg (by omega)

/-- The accepted record, with the rate that it takes. -/
def AlignRec.accepting (r : AlignRec) (tick : Tick) (b : Nat) (rate : Int) : AlignRec :=
  { r.anchor tick b with rate := rate, accepted := bump r.accepted, state := .locked }

theorem accept_acquiring (h : r.state = .acquiring) (m : Int) :
    r.accept tick b m = (r.accepting tick b m, [.state .locked]) := by
  unfold AlignRec.accept AlignRec.accepting
  simp [h]

theorem accept_locked (h : r.state = .locked) (m : Int) : r.accept tick b m =
    (r.accepting tick b (clampInt (-16384) 16383 (r.rate + roundTies (m - r.rate) 4)), []) := by
  unfold AlignRec.accept AlignRec.accepting
  simp [h]

theorem accept_holdover (h : r.state = .holdover) (m : Int) : r.accept tick b m =
    (r.accepting tick b (clampInt (-16384) 16383 (r.rate + roundTies (m - r.rate) 4)), [.state .locked]) := by
  unfold AlignRec.accept AlignRec.accepting
  simp [h]

end Record

/-- Settles O8, by the slot, the clock and the cycle of the beacon, and then by the state and the residual of the record. -/
theorem beaconAnchors : Obligations.BeaconAnchors := by
  refine ⟨⟨fun s h => beaconHandling_nil h, fun s slot c rest hq => ?_⟩, fun s l slot c rest b h => ?_, fun cell =>
    ⟨ofNat_cellNat_four cell 2 (by decide), beaconC16_eq cell⟩⟩
  · rw [beaconHandling_cons hq]
    refine ⟨fun hslot hset => ?_, fun hslot _ => ?_, fun hslot hu => ?_, fun l hslot hset hneg => ?_⟩
    · rw [beacon_offSlot _ hslot, offSlot_set hset]
    · rw [beacon_offSlot _ hslot]
      rcases offSlot_cases s.cau.clock with e | e
      · refine .inl (congrArg Outcome.next ?_)
        rw [e]
      · refine .inr (congrArg Outcome.next ?_)
        rw [e]
    · exact congrArg Outcome.next (beacon_unset (l := ⟨slot.val, hslot⟩) _ rfl hu)
    · exact congrArg Outcome.next (beacon_unresolved _ hslot hset (resolveCycle_negative hneg (beaconC16_lt c)))
  · refine ⟨fun hu => beaconHandling_at h (alignBeacon_unsynced hu), fun hfar => ⟨fun ha => ?_, fun hl => ?_, fun hh => ?_⟩⟩
    all_goals have hfar' := Int.ofNat_lt.2 hfar
    · exact beaconHandling_at h ((alignBeacon_beyond (by rw [ha]; decide) hfar').trans (beyond_acquiring ha _))
    · exact beaconHandling_at h ((alignBeacon_beyond (by rw [hl]; decide) hfar').trans (beyond_locked hl _))
    · exact beaconHandling_at h ((alignBeacon_beyond (by rw [hh]; decide) hfar').trans (beyond_holdover hh _))

/-- Settles O9, by the elapsed ticks, the measured rate and the state of the record. -/
theorem beaconMeasuresRate : Obligations.BeaconMeasuresRate := by
  intro s l slot c rest b h r residual e measured a quarter moved done hs hnear
  have hwithin := alignBeacon_within (tick := beaconTick c) (b := b * 1000) (tolerance := s.cau.residualTolerance) hs
    (not_lt.2 (Int.ofNat_le.2 hnear))
  refine ⟨fun he => ?_, fun he => ⟨fun hm => ⟨fun hc => ?_, fun hc => ?_⟩, fun hlo hhi => ⟨fun hst => ?_, fun hst => ?_,
    fun hst => ?_⟩⟩⟩
  · exact beaconHandling_at h (hwithin.trans (if_pos he))
  all_goals replace hwithin := hwithin.trans (if_neg (not_lt.2 he))
  · exact beaconHandling_at h ((hwithin.trans (if_pos hm)).trans (rateFault_counted hc))
  · exact beaconHandling_at h ((hwithin.trans (if_pos hm)).trans (rateFault_third hc))
  all_goals replace hwithin := hwithin.trans (if_neg (not_or.2 ⟨not_lt.2 hlo, not_lt.2 hhi⟩))
  · exact beaconHandling_at h (hwithin.trans (accept_acquiring hst _))
  · exact beaconHandling_at h (hwithin.trans (accept_locked hst _))
  · exact beaconHandling_at h (hwithin.trans (accept_holdover hst _))

/-! ## Rounding and conversion (R25) -/

/-- Rounding to nearest with ties away from zero, on a number that is not negative. -/
theorem roundNat_iff (n q d : Nat) (hd : 0 < d) : (2 * n + d) / (2 * d) = q ↔
    2 * ((n : Int) - q * d).natAbs ≤ d ∧ (2 * ((n : Int) - q * d).natAbs = d → n < q * d) := by
  rw [Nat.div_eq_iff (by omega)]
  have hq : q * (2 * d) = 2 * (q * d) := by ring
  rw [hq]
  have hcast : ((q : Int) * d) = ((q * d : Nat) : Int) := by push_cast; ring
  rw [hcast]
  generalize q * d = p
  omega

theorem roundTies_natCast (n d : Nat) : roundTies n d = ((2 * n + d) / (2 * d) : Nat) := by
  unfold roundTies
  rw [if_pos (Int.natCast_nonneg n), Int.toNat_natCast]

theorem roundTies_neg {n : Int} (h : n < 0) (d : Nat) : roundTies n d = -roundTies (-n) d := by
  unfold roundTies
  rw [if_neg (by omega), if_pos (by omega)]

theorem roundTies_natCast_iff (n : Nat) (q : Int) (d : Nat) (hd : 0 < d) : roundTies n d = q ↔
    2 * ((n : Int) - q * d).natAbs ≤ d ∧ (2 * ((n : Int) - q * d).natAbs = d → (n : Int).natAbs < (q * d).natAbs) := by
  rw [roundTies_natCast]
  rcases lt_or_ge q 0 with hq | hq
  · obtain ⟨x, hx⟩ := Int.eq_ofNat_of_zero_le (show 0 ≤ -q by omega)
    have hfar : d ≤ x * d := Nat.le_mul_of_pos_left d (by omega)
    have hcast : q * d = -((x * d : Nat) : Int) := by
      rw [Nat.cast_mul, ← hx]
      ring
    rw [hcast]
    generalize x * d = p at hfar
    generalize (2 * n + d) / (2 * d) = y
    omega
  · obtain ⟨x, rfl⟩ := Int.eq_ofNat_of_zero_le hq
    have habs : ((x : Int) * d).natAbs = x * d := by rw [Int.natAbs_mul, Int.natAbs_natCast, Int.natAbs_natCast]
    rw [Int.natCast_inj, roundNat_iff n x d hd, habs, Int.natAbs_natCast]

theorem roundTies_iff (n q : Int) (d : Nat) (hd : 0 < d) : roundTies n d = q ↔
    2 * (n - q * d).natAbs ≤ d ∧ (2 * (n - q * d).natAbs = d → n.natAbs < (q * d).natAbs) := by
  rcases lt_or_ge n 0 with h | h
  · obtain ⟨m, hm⟩ := Int.eq_ofNat_of_zero_le (show 0 ≤ -n by omega)
    have hflip : (n - q * d).natAbs = ((m : Int) - -q * d).natAbs := by
      rw [← hm, ← Int.natAbs_neg]
      congr 1
      ring
    have hq : (q * d).natAbs = (-q * (d : Int)).natAbs := by rw [neg_mul, Int.natAbs_neg]
    have hn : n.natAbs = (m : Int).natAbs := by rw [← hm, Int.natAbs_neg]
    rw [roundTies_neg h, hm, neg_eq_iff_eq_neg, roundTies_natCast_iff m (-q) d hd, hflip, hq, hn]
  · obtain ⟨m, rfl⟩ := Int.eq_ofNat_of_zero_le h
    exact roundTies_natCast_iff m q d hd

theorem elapsed_eq {r : AlignRec} {tick : Tick} {e : Int} (hlo : -2147483648 ≤ e) (hhi : e ≤ 2147483647)
    (h : tick = r.anchorTick + BitVec.ofInt 32 e) : r.elapsed tick = e := by
  unfold AlignRec.elapsed
  rw [h, add_comm, BitVec.add_sub_cancel, BitVec.toInt_ofInt]
  exact Int.bmod_eq_of_le (by omega) (by omega)

theorem convert_eq (r : AlignRec) (tick : Tick) : r.convert tick =
    if r.predict tick < 0 then (0, true)
    else if 4294967295999 < r.predict tick then (4294967295999, true)
    else ((r.predict tick).toNat, false) := by
  unfold AlignRec.convert
  rfl

/-- Settles O10, by the elapsed ticks as a signed number and by what rounding to nearest is. -/
theorem tickConversion : Obligations.TickConversion := by
  refine ⟨fun r tick e c hlo hhi ht hnear htie => ?_, fun n q d hd => roundTies_iff n q d hd⟩
  have hcorr : roundTies (e * r.rate) 16777216 = c := (roundTies_iff _ _ _ (by decide)).2 ⟨hnear, htie⟩
  have hpredict : r.predict tick = r.anchorTime + e + c := by
    unfold AlignRec.predict AlignRec.correction
    rw [elapsed_eq hlo hhi ht, hcorr]
  refine ⟨hpredict, ?_⟩
  rw [convert_eq, hpredict]

/-! ## Timeouts (R32, R33) -/

theorem pastTimeout_iff (r : AlignRec) (now timeout : Nat) : r.pastTimeout now timeout = true ↔
    r.testOwed = true ∧ r.state = .locked ∧ r.lastBeacon + timeout * 1000000 < now := by
  simp [AlignRec.pastTimeout, and_assoc]

theorem pastLimit_iff (r : AlignRec) (now limit : Nat) : r.pastLimit now limit = true ↔
    r.testOwed = true ∧ (r.state = .acquiring ∨ r.state = .holdover) ∧ r.lastBeacon + limit * 1000000 < now := by
  simp [AlignRec.pastLimit, and_assoc]

theorem loopHoldover_past {s : State} {l : LoopNo} (h : s.cau.records[l].pastTimeout s.now s.cau.beaconTimeout = true) :
    loopHoldover l s = s.moveLoop l { s.cau.records[l] with state := .holdover } := if_pos h

theorem loopHoldover_stays {s : State} {l : LoopNo} (h : ¬ s.cau.records[l].pastTimeout s.now s.cau.beaconTimeout = true) :
    loopHoldover l s = s := if_neg h

theorem loopUnsynced_past {s : State} {l : LoopNo} (h : s.cau.records[l].pastLimit s.now s.cau.holdoverLimit = true) :
    loopUnsynced l s =
      s.moveLoop l { s.cau.records[l] with state := .unsynced, consecutive := 0, testOwed := false } := if_pos h

theorem loopUnsynced_stays {s : State} {l : LoopNo} (h : ¬ s.cau.records[l].pastLimit s.now s.cau.holdoverLimit = true) :
    loopUnsynced l s = s := if_neg h

/-- Settles O11, by the two tests of a record. -/
theorem loopTimeouts : Obligations.LoopTimeouts := by
  refine ⟨fun s l => ⟨fun ho hl ht => ?_, fun ho hst ht => ?_, fun hn => ?_, fun hn => ?_⟩,
    fun s n hn => ⟨exec_loopHoldover_beyond hn s, exec_loopUnsynced_beyond hn s⟩⟩
  · rw [exec_loopHoldover_loop, loopHoldover_past ((pastTimeout_iff _ _ _).2 ⟨ho, hl, ht⟩)]
    rfl
  · rw [exec_loopUnsynced_loop, loopUnsynced_past ((pastLimit_iff _ _ _).2 ⟨ho, hst, ht⟩)]
    rfl
  · rw [exec_loopHoldover_loop, loopHoldover_stays]
    rw [pastTimeout_iff]
    rintro ⟨ho, hl, ht⟩
    rcases hn with h | h | h
    · rw [ho] at h
      cases h
    · exact h hl
    · exact not_lt.2 h ht
  · rw [exec_loopUnsynced_loop, loopUnsynced_stays]
    rw [pastLimit_iff]
    rintro ⟨ho, hst, ht⟩
    rcases hn with h | h | h | h
    · rw [ho] at h
      cases h
    · rcases hst with e | e <;> exact absurd (h.symm.trans e) (by decide)
    · rcases hst with e | e <;> exact absurd (h.symm.trans e) (by decide)
    · exact not_lt.2 h ht

/-! ## The reduction of hits (R41, R42) -/

theorem foldl_max_le (l : List (Nat × Nat)) (m : Nat) : m ≤ l.foldl (fun m h => max m h.2) m ∧
    (∀ h ∈ l, h.2 ≤ l.foldl (fun m h => max m h.2) m) ∧
    (l.foldl (fun m h => max m h.2) m = m ∨ ∃ h ∈ l, h.2 = l.foldl (fun m h => max m h.2) m) := by
  induction l generalizing m with
  | nil => exact ⟨Nat.le_refl m, fun _ h => (by cases h), .inl rfl⟩
  | cons x l ih =>
    obtain ⟨hle, hall, hone⟩ := ih (max m x.2)
    rw [List.foldl_cons]
    refine ⟨le_trans (le_max_left ..) hle, fun h hh => ?_, ?_⟩
    · rcases List.mem_cons.1 hh with rfl | hh
      · exact le_trans (le_max_right ..) hle
      · exact hall h hh
    · rcases hone with e | ⟨h, hh, e⟩
      · rcases max_choice m x.2 with hm | hm
        · exact .inl (e.trans hm)
        · exact .inr ⟨x, List.mem_cons_self .., (e.trans hm).symm⟩
      · exact .inr ⟨h, List.mem_cons_of_mem _ hh, e⟩

theorem le_peakStrength {l : List (Nat × Nat)} {h : Nat × Nat} (hh : h ∈ l) : h.2 ≤ peakStrength l :=
  (foldl_max_le l 0).2.1 h hh

theorem peakStrength_mem {l : List (Nat × Nat)} (hl : l ≠ []) : ∃ h ∈ l, h.2 = peakStrength l := by
  rcases (foldl_max_le l 0).2.2 with e | h
  · obtain ⟨x, hx⟩ := List.exists_mem_of_ne_nil l hl
    have hpeak : peakStrength l = 0 := e
    have := le_peakStrength hx
    exact ⟨x, hx, by omega⟩
  · exact h

theorem peakStrength_perm {l l' : List (Nat × Nat)} (h : l.Perm l') : peakStrength l = peakStrength l' :=
  h.foldl_eq' (fun x _ y _ m => by simp only [max_assoc, max_comm x.2 y.2]) 0

/-- The weight of a hit over a threshold; 0 for one below it (R42). -/
def hitWeight (threshold : Nat) (h : Nat × Nat) : Nat := if threshold ≤ h.2 then h.2 - threshold + 1 else 0

theorem weights_cons (t : Nat) (x : Nat × Nat) (l : List (Nat × Nat)) :
    weights t (x :: l) = if t ≤ x.2 then (x.1, x.2 - t + 1) :: weights t l else weights t l := by
  unfold weights
  by_cases hx : t ≤ x.2 <;> simp [hx]

theorem sum_weights (t : Nat) (l : List (Nat × Nat)) :
    ((weights t l).map fun w => w.1 * w.2).sum = (l.map fun h => h.1 * hitWeight t h).sum ∧
      ((weights t l).map Prod.snd).sum = (l.map (hitWeight t)).sum := by
  induction l with
  | nil => exact ⟨rfl, rfl⟩
  | cons x l ih =>
    obtain ⟨hn, hd⟩ := ih
    rw [weights_cons, List.map_cons, List.map_cons, List.sum_cons, List.sum_cons]
    by_cases hx : t ≤ x.2
    · have hw : hitWeight t x = x.2 - t + 1 := if_pos hx
      rw [if_pos hx, List.map_cons, List.map_cons, List.sum_cons, List.sum_cons, hn, hd, hw]
      exact ⟨rfl, rfl⟩
    · have hw : hitWeight t x = 0 := if_neg hx
      rw [if_neg hx, hn, hd, hw, Nat.mul_zero, Nat.zero_add, Nat.zero_add]
      exact ⟨rfl, rfl⟩

theorem meanOffset_weights (t : Nat) (l : List (Nat × Nat)) : meanOffset (weights t l) =
    (2 * (l.map fun h => h.1 * hitWeight t h).sum + (l.map (hitWeight t)).sum) / (2 * (l.map (hitWeight t)).sum) := by
  obtain ⟨hn, hd⟩ := sum_weights t l
  unfold meanOffset roundHalfUp
  rw [hn, hd]

theorem sum_hitWeight_pos {t : Nat} {l : List (Nat × Nat)} {h : Nat × Nat} (hh : h ∈ l) (ht : t ≤ h.2) :
    0 < (l.map (hitWeight t)).sum := by
  have hle : hitWeight t h ≤ (l.map (hitWeight t)).sum := List.single_le_sum (by simp) _ (List.mem_map_of_mem hh)
  have hpos : 0 < hitWeight t h := by
    unfold hitWeight
    rw [if_pos ht]
    exact Nat.succ_pos _
  exact lt_of_lt_of_le hpos hle

/-- Settles O12, by the sums over the weights, which a permutation of the hits keeps. -/
theorem hitReduction : Obligations.HitReduction := by
  refine ⟨fun p window hv => ?_, fun p p' window hp hb => ?_⟩
  · obtain ⟨x, hx, hpeak⟩ := peakStrength_mem hv
    refine ⟨fun h => le_peakStrength, ⟨x, hx, hpeak⟩, sum_hitWeight_pos hx (by omega), ?_⟩
    unfold PassingCell.tick
    rw [meanOffset_weights]
    rfl
  · unfold PassingCell.tick
    rw [meanOffset_weights, meanOffset_weights, peakStrength_perm hp, hb, (hp.map _).sum_eq, (hp.map (hitWeight _)).sum_eq]

/-! ## Passing Intake (R36 to R47) -/

theorem passingIntake_nil {s : State} (h : s.lif.toIntake = []) : exec .passingIntake s = .next s := by
  show execPassingIntake s = _
  unfold execPassingIntake
  rw [h]

theorem passingIntake_cons {s : State} {slot : Slot} {c : Cell} {rest : List (Slot × Cell)}
    (h : s.lif.toIntake = (slot, c) :: rest) : exec .passingIntake s =
      .next (State.intakeCell { s with lif := { s.lif with toIntake := rest } } slot (readPassing c)) := by
  show execPassingIntake s = _
  unfold execPassingIntake
  rw [h]

section Cell

variable {s : State} {slot : Slot} {l : LoopNo} {p : PassingCell}

theorem intakeCell_offSlot (h : 32 ≤ slot.val) :
    s.intakeCell slot p = { s with intake := { s.intake with offSlot := bump s.intake.offSlot } } := by
  unfold State.intakeCell
  rw [finOf_eq_none.2 h]

theorem intakeCell_discard (h : slot.val = l.val) {d : Discard} (hd : s.testPassing l p = .inl d) :
    s.intakeCell slot p = { s with intake := { s.intake with
      counts := s.intake.counts.set l (s.intake.counts[l].discard d) } } := by
  unfold State.intakeCell
  rw [(finOf_eq_some l).2 h]
  dsimp only
  rw [hd]
  dsimp only
  rw [upd_eq_set]

theorem intakeCell_record (h : slot.val = l.val) {r : IntakeRec} (hr : s.testPassing l p = .inr r) :
    s.intakeCell slot p = State.alerts { s with intake := (s.intake.offer r).1 }
      ((s.intake.offer r).2.map fun l => alertResult s.now .intakeOverflow (some l) none .none) := by
  unfold State.intakeCell
  rw [(finOf_eq_some l).2 h]
  dsimp only
  rw [hr]

/-- The first of tests 1 to 6 that a cell fails (R37). -/
theorem earlyDiscard_first {d : Discard} (hd : d.order ≤ 6) (h : Fails s l p d)
    (hno : ∀ x : Discard, x.order < d.order → ¬ Fails s l p x) : s.earlyDiscard l p = some d := by
  have hrouted : 1 < d.order → ¬ p.loop ≠ l.val := hno .misrouted
  have hformed : 2 < d.order → ¬ (p.hitCount = 0 ∨ 6 < p.hitCount) := hno .malformed
  have henabled : 3 < d.order → ¬ s.course.loops[l].enabled = false := hno .disabled
  have hopen : 4 < d.order → ¬ (s.session.state = .setup ∨ s.session.state = .closed) := hno .idleDiscard
  have hsynced : 5 < d.order → ¬ (s.cau.clock.state = .unset ∨ s.cau.records[l].state = .unsynced) := hno .unsynced
  unfold State.earlyDiscard
  cases d with
  | misrouted => exact if_pos h
  | malformed =>
    rw [if_neg (hrouted (by decide))]
    exact if_pos h
  | disabled =>
    rw [if_neg (hrouted (by decide)), if_neg (hformed (by decide))]
    exact if_pos h
  | idleDiscard =>
    rw [if_neg (hrouted (by decide)), if_neg (hformed (by decide)), if_neg (henabled (by decide))]
    exact if_pos h
  | unsynced =>
    rw [if_neg (hrouted (by decide)), if_neg (hformed (by decide)), if_neg (henabled (by decide)),
      if_neg (hopen (by decide))]
    exact if_pos h
  | weak =>
    rw [if_neg (hrouted (by decide)), if_neg (hformed (by decide)), if_neg (henabled (by decide)),
      if_neg (hopen (by decide)), if_neg (hsynced (by decide))]
    exact if_pos h
  | future => exact absurd hd (by decide)
  | stale => exact absurd hd (by decide)

theorem earlyDiscard_none (hno : ∀ x : Discard, x.order ≤ 6 → ¬ Fails s l p x) : s.earlyDiscard l p = none := by
  have hrouted : ¬ p.loop ≠ l.val := hno .misrouted (by decide)
  have hformed : ¬ (p.hitCount = 0 ∨ 6 < p.hitCount) := hno .malformed (by decide)
  have henabled : ¬ s.course.loops[l].enabled = false := hno .disabled (by decide)
  have hopen : ¬ (s.session.state = .setup ∨ s.session.state = .closed) := hno .idleDiscard (by decide)
  have hsynced : ¬ (s.cau.clock.state = .unset ∨ s.cau.records[l].state = .unsynced) := hno .unsynced (by decide)
  unfold State.earlyDiscard
  rw [if_neg hrouted, if_neg hformed, if_neg henabled, if_neg hopen, if_neg hsynced]
  exact if_neg (hno .weak (by decide))

theorem lateDiscard_future {now time : Nat} (h : now + 1000000 < time) : lateDiscard now time = some .future := if_pos h

theorem lateDiscard_stale {now time : Nat} (hf : ¬ now + 1000000 < time) (h : time + 600000000 < now) :
    lateDiscard now time = some .stale := (if_neg hf).trans (if_pos h)

theorem lateDiscard_none {now time : Nat} (hf : ¬ now + 1000000 < time) (hs : ¬ time + 600000000 < now) :
    lateDiscard now time = none := (if_neg hf).trans (if_neg hs)

theorem testPassing_early {d : Discard} (h : s.earlyDiscard l p = some d) : s.testPassing l p = .inl d := by
  unfold State.testPassing
  rw [h]

theorem testPassing_late (h : s.earlyDiscard l p = none) : s.testPassing l p = s.convertPassing l p := by
  unfold State.testPassing
  rw [h]

/-- A record that is not UNSYNCED has the quality of its state (R24). -/
theorem quality_of_aligned {x : AlignState} (h : x ≠ .unsynced) : ∃ q, x.quality? = some q ∧
    (x = .acquiring → q = .coarse) ∧ (x = .locked → q = .good) ∧ (x = .holdover → q = .holdover) := by
  cases x with
  | unsynced => exact absurd rfl h
  | acquiring => exact ⟨.coarse, rfl, by simp⟩
  | locked => exact ⟨.good, rfl, by simp⟩
  | holdover => exact ⟨.holdover, rfl, by simp⟩

/-- The first test that a cell fails is the one that it is discarded for (R37). -/
theorem testPassing_first {d : Discard} (h : Fails s l p d) (hno : ∀ x : Discard, x.order < d.order → ¬ Fails s l p x) :
    s.testPassing l p = .inl d := by
  by_cases hd : d.order ≤ 6
  · exact testPassing_early (earlyDiscard_first hd h hno)
  · have hearly := earlyDiscard_none fun x hx => hno x (by omega)
    have halign : s.cau.records[l].state ≠ .unsynced := fun e => hno .unsynced (show 5 < d.order by omega) (.inr e)
    obtain ⟨q, hq, -⟩ := quality_of_aligned halign
    rw [testPassing_late hearly]
    refine convertPassing_discard hq ?_
    cases d with
    | future => exact lateDiscard_future h
    | stale => exact lateDiscard_stale (hno .future (by decide)) h
    | _ => exact absurd (by decide) hd

/-- A cell that passes every test yields its record (R45). -/
theorem testPassing_passes (hno : ∀ x : Discard, ¬ Fails s l p x) : ∃ q : Quality,
    (s.cau.records[l].state = .acquiring → q = .coarse) ∧ (s.cau.records[l].state = .locked → q = .good) ∧
      (s.cau.records[l].state = .holdover → q = .holdover) ∧
      s.testPassing l p = .inr ⟨l, p.code, (s.passingTime l p).1, q, (s.passingTime l p).2, peakStrength p.valid,
        s.cau.clock.cycle⟩ := by
  obtain ⟨q, hq, hcoarse, hgood, hhold⟩ := quality_of_aligned fun e => hno .unsynced (.inr e)
  refine ⟨q, hcoarse, hgood, hhold, ?_⟩
  rw [testPassing_late (earlyDiscard_none fun x _ => hno x)]
  exact convertPassing_record hq (lateDiscard_none (hno .future) (hno .stale))

end Cell

theorem offer_joins {q : Intake} (r : IntakeRec) (h : q.queue.length < 32) : q.offer r = ({ q with
    queue := q.queue ++ [r]
    counts := q.counts.set r.loop (q.counts[r.loop].accept r.clamped) }, []) := by
  unfold Intake.offer
  rw [if_pos h, upd_eq_set]

theorem offer_full {q : Intake} (r : IntakeRec) (h : 32 ≤ q.queue.length) (ho : q.overflow = .overflowing) :
    q.offer r = ({ q with
      counts := q.counts.set r.loop { q.counts[r.loop] with overflowed := bump q.counts[r.loop].overflowed } }, []) := by
  unfold Intake.offer
  rw [if_neg (not_lt.2 h), upd_eq_set]
  dsimp only
  rw [ho]

theorem offer_episode {q : Intake} (r : IntakeRec) (h : 32 ≤ q.queue.length) (ho : q.overflow = .normal) :
    q.offer r = ({ q with
      overflow := .overflowing
      episodes := bump q.episodes
      counts := q.counts.set r.loop { q.counts[r.loop] with overflowed := bump q.counts[r.loop].overflowed } },
      [r.loop]) := by
  unfold Intake.offer
  rw [if_neg (not_lt.2 h), upd_eq_set]
  dsimp only
  rw [ho]

theorem intakeCounts_accept_eq (k : IntakeCounts) (b : Bool) : k.accept b = { k with
    accepted := bump k.accepted
    clamped := match b with | true => bump k.clamped | false => k.clamped } := by cases b <;> rfl

/-- The bytes of a PASSING cell (R204). -/
theorem readPassing_fields (cell : Cell) :
    let p := readPassing cell
    let byte (i : Nat) : Nat := (cell.toList.getD i 0).toNat
    p.loop = cell[1].toNat ∧ p.code = cell[2] ++ cell[3] ++ cell[4] ∧ p.hitCount = cell[5].toNat ∧
      p.base = cell[6] ++ cell[7] ++ cell[8] ++ cell[9] ∧
      p.hits = (List.range 6).map (fun i => (256 * byte (10 + 3 * i) + byte (11 + 3 * i), byte (12 + 3 * i))) ∧
      p.valid = p.hits.take cell[5].toNat := by
  have hcount : (readPassing cell).hitCount = cell[5].toNat := cellNat_one cell 5 (by decide)
  refine ⟨cellNat_one cell 1 (by decide), ofNat_cellNat_three cell 2 (by decide), hcount,
    ofNat_cellNat_four cell 6 (by decide), List.map_congr_left fun i hi => ?_, ?_⟩
  · have hi6 : i < 6 := List.mem_range.1 hi
    dsimp only
    rw [cellNat_two cell _ (by omega), cellNat_one cell _ (by omega), toList_getD cell _ (by omega),
      toList_getD cell _ (by omega), toList_getD cell _ (by omega)]
    simp only [show 10 + 3 * i + 1 = 11 + 3 * i by omega]
  · unfold PassingCell.valid
    rw [hcount]

/-- Settles O13, by the first test that a cell fails, and by the room of the queue for one that passes. -/
theorem passingIntake : Obligations.PassingIntake := by
  refine ⟨⟨fun s h => passingIntake_nil h, fun s slot c rest hq => ⟨fun hslot => ?_, fun l d hslot hf hno => ?_⟩⟩,
    fun s slot c rest l hq hslot hno => ?_, readPassing_fields⟩
  · rw [passingIntake_cons hq, intakeCell_offSlot hslot]
  · have htest : State.testPassing { s with lif := { s.lif with toIntake := rest } } l (readPassing c) = .inl d :=
      testPassing_first hf hno
    rw [passingIntake_cons hq, intakeCell_discard hslot htest]
    cases d <;> rfl
  · obtain ⟨q, hcoarse, hgood, hhold, htest⟩ := testPassing_passes (s := { s with lif := { s.lif with toIntake := rest } }) hno
    refine ⟨q, hcoarse, hgood, hhold, fun hlen => ?_, fun hlen ho => ?_, fun hlen ho => ?_⟩ <;>
      rw [passingIntake_cons hq] <;> refine congrArg Outcome.next ((intakeCell_record hslot htest).trans ?_)
    · rw [offer_joins _ hlen, intakeCounts_accept_eq]
      rfl
    · rw [offer_full _ hlen ho]
      rfl
    · rw [offer_episode _ hlen ho]
      rfl

end Sys2Proof.Machine
end

section
/-! The Resolver: lookups, the steps and the end of a walk, and deliveries. -/

namespace Sys2Proof.Machine

open Host (Outcome)

/-! ## The cache (R66 to R68) -/

theorem cacheFind_eq_none {code : Code} {l : List CacheEntry} (h : ∀ y ∈ l, y.code ≠ code) :
    cacheFind code l = none :=
  List.find?_eq_none.2 fun y hy => by simpa using h y hy

theorem cacheFind_append {code : Code} {a b : List CacheEntry} {e : CacheEntry} (he : e.code = code)
    (h : ∀ y ∈ a ++ b, y.code ≠ code) : cacheFind code (a ++ e :: b) = some e := by
  have ha : a.find? (fun e => decide (e.code = code)) = none :=
    cacheFind_eq_none fun y hy => h y (List.mem_append_left b hy)
  unfold cacheFind
  rw [List.find?_append, ha]
  exact List.find?_cons_of_pos (p := fun y : CacheEntry => decide (y.code = code)) (decide_eq_true he)

theorem cacheWithout_eq_self {code : Code} {l : List CacheEntry} (h : ∀ y ∈ l, y.code ≠ code) :
    cacheWithout code l = l :=
  List.filter_eq_self.2 fun y hy => decide_eq_true (h y hy)

theorem cacheWithout_append {code : Code} {a b : List CacheEntry} {e : CacheEntry} (he : e.code = code)
    (h : ∀ y ∈ a ++ b, y.code ≠ code) : cacheWithout code (a ++ e :: b) = a ++ b := by
  calc cacheWithout code (a ++ e :: b) = cacheWithout code a ++ cacheWithout code b := by
        unfold cacheWithout
        rw [List.filter_append, List.filter_cons_of_neg (by simpa using he)]
    _ = cacheWithout code (a ++ b) := (List.filter_append ..).symm
    _ = a ++ b := cacheWithout_eq_self h

/-! ## Lookup (R56, R67) -/

theorem resolverLookup_none {s : State} (h : s.resolver.serving ≠ .idle ∨ s.intake.queue = []) :
    exec .resolverLookup s = .next s := by
  show execResolverLookup s = _
  unfold execResolverLookup
  split
  next rec rest hs hq => exact h.elim (absurd hs) (fun h => nomatch hq.symm.trans h)
  next => rfl

theorem resolverLookup_some {s : State} {x : IntakeRec} {rest : List IntakeRec}
    (hs : s.resolver.serving = .idle) (hq : s.intake.queue = x :: rest) : exec .resolverLookup s = .next { s with
      intake := s.intake.removed s.cau.clock.cycle x rest
      resolver := s.resolver.serve x } := by
  show execResolverLookup s = _
  unfold execResolverLookup
  rw [hs, hq]

section Serve

variable {r : Resolver} {x : IntakeRec} {a b : List CacheEntry} {e : CacheEntry}

/-- A hit moves the entry to the head of the cache (R67). -/
theorem serve_hit (hc : r.cache = a ++ e :: b) (he : e.code = x.code) (h : ∀ y ∈ a ++ b, y.code ≠ x.code) :
    r.serve x =
      Resolver.hit { r with counts := { r.counts with served := bump r.counts.served } } x e ∧
    cacheWithout e.code r.cache = a ++ b := by
  rw [hc, he]
  refine ⟨?_, cacheWithout_append he h⟩
  unfold Resolver.serve
  rw [hc, cacheFind_append he h]

theorem serve_miss (h : ∀ y ∈ r.cache, y.code ≠ x.code) :
    r.serve x = Resolver.miss { r with counts := { r.counts with served := bump r.counts.served } } x := by
  unfold Resolver.serve
  rw [cacheFind_eq_none h]

theorem hit_competitor {n w t} (h : e.outcome = .competitor n w t) : r.hit x e = { r with
    cache := e :: cacheWithout e.code r.cache
    serving := .delivering x e.outcome
    counts := { r.counts with hits := bump r.counts.hits } } := by
  unfold Resolver.hit
  rw [h]

theorem hit_absent {n l} (h : e.outcome = .absent n l) : r.hit x e = { r with
    cache := e :: cacheWithout e.code r.cache
    serving := .idle
    counts := { r.counts with
      hits := bump r.counts.hits
      unknownRepeats := bump r.counts.unknownRepeats } } := by
  unfold Resolver.hit
  rw [h]

theorem hit_fault {n l} (h : e.outcome = .fault n l) : r.hit x e = { r with
    cache := e :: cacheWithout e.code r.cache
    serving := .idle
    counts := { r.counts with
      hits := bump r.counts.hits
      faultHits := bump r.counts.faultHits } } := by
  unfold Resolver.hit
  rw [h]

theorem miss_noRoot (h : r.root = none) : r.miss x = { r with serving := .delivering x (.fault .noRoot none) } := by
  unfold Resolver.miss
  rw [h]

theorem miss_root {root : TableIndex} (h : r.root = some root) : r.miss x = { r with
    serving := .walking (walkStart x root r.generation)
    counts := { r.counts with walks := bump r.counts.walks } } := by
  unfold Resolver.miss
  rw [h]

end Serve

/-- Settles O14. -/
theorem resolverLookup : Obligations.ResolverLookup := by
  unfold Obligations.ResolverLookup
  refine ⟨fun s h => resolverLookup_none h, fun s x rest hs hq => ⟨fun a b e hc he hab => ?_, fun hc => ?_⟩⟩
  all_goals rw [resolverLookup_some hs hq]
  · obtain ⟨hserve, hwithout⟩ := serve_hit hc he hab
    rw [hserve]
    refine ⟨fun n w t ho => ?_, fun n l ho => ?_, fun n l ho => ?_⟩
    · rw [hit_competitor ho]
      simp only [hwithout]
      rfl
    · rw [hit_absent ho]
      simp only [hwithout, ← hs]
      rfl
    · rw [hit_fault ho]
      simp only [hwithout, ← hs]
      rfl
  · refine ⟨fun h => ?_, fun root h => ?_⟩
    · rw [(serve_miss hc).trans (miss_noRoot h)]
      rfl
    · rw [(serve_miss hc).trans (miss_root h)]
      rfl

/-! ## What follows a word that a walk has read (R57 to R60) -/

section After

variable {w : Walk} {x : Word}

theorem after_absent {n} (h : readEntry w.level x = .absent n) : w.after x = .stop (.absent n w.level) := by
  unfold Walk.after
  rw [h]

theorem after_bad (h : readEntry w.level x = .bad) : w.after x = .stop (.fault .badType (some w.addr)) := by
  unfold Walk.after
  rw [h]

theorem after_table_root {t seen withhold} (h : readEntry w.level x = .table t seen withhold)
    (hl : w.level = .root) : w.after x = .go { w with
      level := .branch
      addr := t ++ w.record.code.extractLsb' 8 8
      withhold := w.withhold || withhold
      phase := .reading } := by
  unfold Walk.after
  rw [h, hl]
  rfl

theorem after_table_branch {t seen withhold} (h : readEntry w.level x = .table t seen withhold)
    (hl : w.level = .branch) : w.after x = .go { w with
      level := .leaf
      addr := t ++ w.record.code.extractLsb' 0 8
      withhold := w.withhold || withhold
      phase := .reading } := by
  unfold Walk.after
  rw [h, hl]
  rfl

theorem after_badCompetitor {n seen withhold keep} (h : readEntry w.level x = .competitor n seen withhold keep)
    (hn : 96 ≤ n) : w.after x = .stop (.fault .badCompetitor (some w.addr)) := by
  unfold Walk.after Walk.competitor
  rw [h]
  dsimp only
  rw [finOf_eq_none.2 hn]

theorem after_competitor {n seen withhold keep} (h : readEntry w.level x = .competitor n seen withhold keep)
    {c : CompNo} (hc : c.val = n) : w.after x = .stop (.competitor c (w.withhold || withhold) keep) := by
  subst hc
  unfold Walk.after Walk.competitor
  rw [h]
  dsimp only
  rw [finOf_val]

theorem after_alias_leaf {target seen withhold} (h : readEntry w.level x = .aliasTo target seen withhold)
    (hl : w.level = .leaf) : w.after x = .go { w with
      level := .aliasTarget
      addr := target
      withhold := w.withhold || withhold
      phase := .reading } := by
  unfold Walk.after
  rw [h, hl]

theorem after_aliasChain {target seen withhold} (h : readEntry w.level x = .aliasTo target seen withhold)
    (hl : w.level = .aliasTarget) : w.after x = .stop (.fault .aliasChain (some w.addr)) := by
  unfold Walk.after
  rw [h, hl]

/-! ## Whether the word needs a flag update (R54) -/

theorem needsUpdate_of_unseen (h : (readEntry w.level x).seen? = some false) (hf : (w.after x).isFault = false) :
    w.needsUpdate x = true := by
  unfold Walk.needsUpdate
  rw [h, hf]
  rfl

theorem needsUpdate_of_seen (h : (readEntry w.level x).seen? ≠ some false) : w.needsUpdate x = false := by
  unfold Walk.needsUpdate
  rw [decide_eq_false h]
  rfl

theorem needsUpdate_of_fault (hf : (w.after x).isFault = true) : w.needsUpdate x = false := by
  unfold Walk.needsUpdate
  rw [hf]
  exact Bool.and_false _

theorem table_isFault {t seen withhold} (h : readEntry w.level x = .table t seen withhold) :
    (w.after x).isFault = false := by
  unfold Walk.after
  rw [h]
  cases w.level <;> rfl

end After

/-! ## The steps of a walk (R57) -/

section Steps

variable {r : Resolver} {w : Walk} {x : Word}

theorem wordRead_updates (h : w.needsUpdate x = true) :
    r.wordRead w x = r.hasRead (.walking { w with phase := .updating x }) := if_pos h

theorem wordRead_proceeds (h : w.needsUpdate x = false) :
    r.wordRead w x = (r.hasRead r.serving).proceed w (w.after x) := if_neg (h ▸ Bool.false_ne_true)

theorem wordRead_stops {o : WalkOutcome} (h : w.needsUpdate x = false) (ha : w.after x = .stop o) :
    r.wordRead w x = (r.hasRead r.serving).walkComplete w o := by
  rw [wordRead_proceeds h, ha]
  rfl

theorem wordRead_goes {w' : Walk} (h : w.needsUpdate x = false) (ha : w.after x = .go w') :
    r.wordRead w x = r.hasRead (.walking w') := by
  rw [wordRead_proceeds h, ha]
  rfl

/-- A walk that stops at a fault asks for no flag update. -/
theorem wordRead_faults {f : FaultCode} {a : Option WordAddr} (ha : w.after x = .stop (.fault f a)) :
    r.wordRead w x = (r.hasRead r.serving).walkComplete w (.fault f a) :=
  wordRead_stops (needsUpdate_of_fault (by rw [ha]; rfl)) ha

theorem walkReadComplete_reads {s : State} (h : WalkReads s w x) : exec .walkReadComplete s =
    .next { accessed s s.tmp.mem with resolver := s.resolver.wordRead w x } := by
  obtain ⟨hp, hs, -, rfl⟩ := h
  show execWalkReadComplete s = _
  unfold execWalkReadComplete
  rw [hp, hs]
  rfl

theorem seenUpdateComplete_updates {s : State} (hs : s.resolver.serving = .walking w)
    (hw : w.phase = .updating x) (hp : s.tmp.inProgress = some (.resolver, .flag w.addr w.level true)) :
    exec .seenUpdateComplete s = .next { accessed s ((Access.flag w.addr w.level true).effect s.tmp.mem) with
      resolver := s.resolver.seenUpdated w x } := by
  show execSeenUpdateComplete s = _
  unfold execSeenUpdateComplete
  rw [hp, hs]
  dsimp only
  rw [hw]
  rfl

theorem seenUpdated_goes {w' : Walk} (ha : w.after x = .go w') : r.seenUpdated w x = { r with
    serving := .walking w'
    counts := { r.counts with seenUpdates := bump r.counts.seenUpdates } } := by
  unfold Resolver.seenUpdated
  rw [ha]
  rfl

theorem seenUpdated_stops {o : WalkOutcome} (ha : w.after x = .stop o) : r.seenUpdated w x =
    Resolver.walkComplete { r with
      counts := { r.counts with seenUpdates := bump r.counts.seenUpdates } } w o := by
  unfold Resolver.seenUpdated
  rw [ha]
  rfl

end Steps

/-- Settles O15. -/
theorem walkSteps : Obligations.WalkSteps := by
  unfold Obligations.WalkSteps
  refine ⟨fun s w x hr => ?_, fun s w x hs hw hp => ?_⟩
  · obtain ⟨-, -, hphase, -⟩ := id hr
    dsimp only
    rw [walkReadComplete_reads hr]
    refine ⟨fun n h => ?_, fun h => ?_, fun t b h => ⟨fun hl => ?_, fun hl => ?_⟩, fun t b h => ?_,
      fun n seen b keep h => ⟨fun hn => ?_, fun c hc => ⟨?_, ?_⟩⟩,
      fun target seen b h => ⟨fun hl => ?_, fun hl => ⟨?_, ?_⟩⟩⟩
    · rw [wordRead_stops (needsUpdate_of_seen (by rw [h]; simp [Entry.seen?])) (after_absent h)]
    · rw [wordRead_faults (after_bad h)]
    · rw [wordRead_goes (needsUpdate_of_seen (by rw [h]; simp [Entry.seen?])) (after_table_root h hl), ← hphase]
    · rw [wordRead_goes (needsUpdate_of_seen (by rw [h]; simp [Entry.seen?])) (after_table_branch h hl), ← hphase]
    · rw [wordRead_updates (needsUpdate_of_unseen (by rw [h]; rfl) (table_isFault h))]
    · rw [wordRead_faults (after_badCompetitor h hn)]
    · rintro rfl
      rw [wordRead_stops (needsUpdate_of_seen (by rw [h]; simp [Entry.seen?])) (after_competitor h hc)]
    · rintro rfl
      rw [wordRead_updates (needsUpdate_of_unseen (by rw [h]; rfl) (by rw [after_competitor h hc]; rfl))]
    · rw [wordRead_faults (after_aliasChain h hl)]
    · rintro rfl
      rw [wordRead_goes (needsUpdate_of_seen (by rw [h]; simp [Entry.seen?])) (after_alias_leaf h hl), ← hphase]
    · rintro rfl
      rw [wordRead_updates (needsUpdate_of_unseen (by rw [h]; rfl) (by rw [after_alias_leaf h hl]; rfl))]
  · dsimp only
    rw [seenUpdateComplete_updates hs hw hp]
    refine ⟨fun t seen b h => ⟨fun hl => ?_, fun hl => ?_⟩, fun c seen b keep h => ?_,
      fun target seen b hl h => ?_⟩
    · rw [seenUpdated_goes (after_table_root h hl)]
    · rw [seenUpdated_goes (after_table_branch h hl)]
    · rw [seenUpdated_stops (after_competitor h rfl)]
    · rw [seenUpdated_goes (after_alias_leaf h hl)]

/-! ## The end of a walk (R66, R68) -/

section Complete

variable {r : Resolver} {w : Walk} (o : WalkOutcome)

theorem walkComplete_suppressed (h : w.generation ≠ r.generation) : r.walkComplete w o = { r with
    serving := .delivering w.record o
    counts := { r.counts with suppressed := bump r.counts.suppressed } } := by
  unfold Resolver.walkComplete
  rw [if_neg h]

theorem walkComplete_fills (h : w.generation = r.generation) : r.walkComplete w o =
    { r.fill ⟨w.record.code, o.cached⟩ with serving := .delivering w.record o } := by
  unfold Resolver.walkComplete
  rw [if_pos h]

theorem fill_replaces {e y : CacheEntry} {a b : List CacheEntry} (hc : r.cache = a ++ y :: b)
    (hy : y.code = e.code) (h : ∀ z ∈ a ++ b, z.code ≠ e.code) : r.fill e = { r with
      cache := e :: (a ++ b)
      counts := { r.counts with fills := bump r.counts.fills } } := by
  unfold Resolver.fill
  rw [hc, cacheFind_append hy h, cacheWithout_append hy h]

theorem fill_adds {e : CacheEntry} (h : ∀ z ∈ r.cache, z.code ≠ e.code) (hl : r.cache.length < 32) :
    r.fill e = { r with
      cache := e :: r.cache
      counts := { r.counts with fills := bump r.counts.fills } } := by
  unfold Resolver.fill
  rw [cacheFind_eq_none h]
  exact if_pos hl

theorem fill_evicts {e y : CacheEntry} {a : List CacheEntry} (h : ∀ z ∈ r.cache, z.code ≠ e.code)
    (hc : r.cache = a ++ [y]) (hl : 32 ≤ r.cache.length) : r.fill e = { r with
      cache := e :: a
      counts := { r.counts with
        fills := bump r.counts.fills
        evictions := bump r.counts.evictions } } := by
  have hdrop : r.cache.dropLast = a := by rw [hc, List.dropLast_concat]
  unfold Resolver.fill
  rw [cacheFind_eq_none h, hdrop]
  exact if_neg (Nat.not_lt.2 hl)

end Complete

/-- Settles O16. -/
theorem walkCompletion : Obligations.WalkCompletion := by
  unfold Obligations.WalkCompletion
  intro r w o
  refine ⟨fun h => walkComplete_suppressed o h, fun h => ?_⟩
  rw [walkComplete_fills o h]
  refine ⟨fun a b y hc hy hab => ?_, fun hz => ⟨fun hl => ?_, fun a y hc hl => ?_⟩⟩
  · rw [fill_replaces hc hy hab]
    cases o <;> rfl
  · rw [fill_adds hz hl]
    cases o <;> rfl
  · rw [fill_evicts hz hc hl]
    cases o <;> rfl

/-! ## Deliveries (R64, R65) -/

theorem accepting_iff (p : Publisher) : p.accepting = true ↔ p.buffer.length < 16 := decide_eq_true_iff

theorem take_eq_give {p : Publisher} {now : Nat} {x : Result} (h : x.flags.withheld = false) :
    p.take now x = p.give x := if_neg (h ▸ Bool.false_ne_true)

section Delivery

variable {s : State} {x : IntakeRec}

theorem unknownDelivery_absent {note level} (h : s.resolver.serving = .delivering x (.absent note level)) :
    exec .unknownDelivery s = if s.publisher.accepting then .next { s with
        publisher := s.publisher.give (unknownResult x note level)
        resolver := { s.resolver with
          serving := .idle
          counts := { s.resolver.counts with unknowns := bump s.resolver.counts.unknowns } } }
      else .next s := by
  show execUnknownDelivery s = _
  unfold execUnknownDelivery
  rw [h, ← take_eq_give (now := s.now) (x := unknownResult x note level) rfl]

theorem resolveFaultDelivery_fault {f a} (h : s.resolver.serving = .delivering x (.fault f a)) :
    exec .resolveFaultDelivery s = if s.publisher.accepting then .next { s with
        publisher := s.publisher.give (faultResult s.now x f a)
        resolver := { s.resolver with serving := .idle, counts := s.resolver.counts.fault f } }
      else .next s := by
  show execResolveFaultDelivery s = _
  unfold execResolveFaultDelivery
  rw [h, ← take_eq_give (now := s.now) (x := faultResult s.now x f a) rfl]

theorem unknownDelivery_none (h : ∀ x note level, s.resolver.serving ≠ .delivering x (.absent note level)) :
    exec .unknownDelivery s = .next s := by
  show execUnknownDelivery s = _
  unfold execUnknownDelivery
  split
  next x note level hs => exact absurd hs (h x note level)
  next => rfl

theorem resolveFaultDelivery_none (h : ∀ x f a, s.resolver.serving ≠ .delivering x (.fault f a)) :
    exec .resolveFaultDelivery s = .next s := by
  show execResolveFaultDelivery s = _
  unfold execResolveFaultDelivery
  split
  next x f a hs => exact absurd hs (h x f a)
  next => rfl

end Delivery

/-- Settles O17. -/
theorem resolverDeliveries : Obligations.ResolverDeliveries := by
  unfold Obligations.ResolverDeliveries
  intro s
  have hfull (h : 16 ≤ s.publisher.buffer.length) : ¬ s.publisher.accepting = true :=
    fun ha => absurd ((accepting_iff _).1 ha) (Nat.not_lt.2 h)
  refine ⟨fun x note level hs => ⟨fun hb => ?_, fun hb => ?_, resolveFaultDelivery_none ?_⟩,
    fun x f a hs => ⟨fun hb => ?_, fun hb => ?_, unknownDelivery_none ?_⟩,
    fun x n b t hs => ⟨unknownDelivery_none ?_, resolveFaultDelivery_none ?_⟩,
    fun hs => ⟨unknownDelivery_none ?_, resolveFaultDelivery_none ?_⟩⟩
  · exact (unknownDelivery_absent hs).trans (if_pos ((accepting_iff _).2 hb))
  · exact (unknownDelivery_absent hs).trans (if_neg (hfull hb))
  · rw [hs]
    nofun
  · refine (resolveFaultDelivery_fault hs).trans ((if_pos ((accepting_iff _).2 hb)).trans ?_)
    cases f <;> rfl
  · exact (resolveFaultDelivery_fault hs).trans (if_neg (hfull hb))
  all_goals
    rw [hs]
    nofun

end Sys2Proof.Machine
end

section
/-! Table memory: its words, the arbiter, and the table requests. -/

namespace Sys2Proof.Machine

open Host (Outcome)

/-! ## Entries and SEEN (R52 to R54, R175) -/

section Entries

variable {level : Level}

theorem readEntry_upper (h : level = .root ∨ level = .branch) (w : Word) : readEntry level w =
    if (w.extractLsb' 30 2).toNat = 0 then .absent (w.extractLsb' 0 24)
    else if (w.extractLsb' 30 2).toNat = 1 then .table (w.extractLsb' 0 10) (w.getLsbD 29) (w.getLsbD 28)
    else .bad := by
  rcases h with rfl | rfl
  all_goals
    unfold readEntry
    dsimp only
    generalize (w.extractLsb' 30 2).toNat = type
    match type with
    | 0 | 1 | k + 2 => rfl

theorem readEntry_lower (h : level = .leaf ∨ level = .aliasTarget) (w : Word) : readEntry level w =
    if (w.extractLsb' 30 2).toNat = 0 then .absent (w.extractLsb' 0 24)
    else if (w.extractLsb' 30 2).toNat = 1 then
      .competitor (w.extractLsb' 0 7).toNat (w.getLsbD 29) (w.getLsbD 28) (w.getLsbD 27)
    else if (w.extractLsb' 30 2).toNat = 2 then
      .aliasTo (w.extractLsb' 0 18) (w.getLsbD 29) (w.getLsbD 28)
    else .bad := by
  rcases h with rfl | rfl
  all_goals
    unfold readEntry
    dsimp only
    generalize (w.extractLsb' 30 2).toNat = type
    match type with
    | 0 | 1 | 2 | k + 3 => rfl

/-- A word holds a kind of entry that carries SEEN at the level (R54). -/
def CarriesSeen (level : Level) (w : Word) : Prop :=
  (w.extractLsb' 30 2).toNat = 1 ∨ ((w.extractLsb' 30 2).toNat = 2 ∧ (level = .leaf ∨ level = .aliasTarget))

theorem level_upper_or_lower (level : Level) :
    (level = .root ∨ level = .branch) ∨ (level = .leaf ∨ level = .aliasTarget) := by
  cases level <;> decide

theorem seen?_of_carries {w : Word} (h : CarriesSeen level w) : (readEntry level w).seen? = some (w.getLsbD 29) := by
  unfold CarriesSeen at h
  rcases level_upper_or_lower level with hl | hl
  · have h1 : (w.extractLsb' 30 2).toNat = 1 := h.resolve_right fun h => by
      rcases hl with rfl | rfl <;> simp at h
    rw [readEntry_upper hl, h1]
    rfl
  · rw [readEntry_lower hl]
    rcases h with h | ⟨h, -⟩
    all_goals
      rw [h]
      rfl

theorem seen?_of_not_carries {w : Word} (h : ¬ CarriesSeen level w) : (readEntry level w).seen? = none := by
  unfold CarriesSeen at h
  push Not at h
  obtain ⟨h1, h2⟩ := h
  rcases level_upper_or_lower level with hl | hl
  · rw [readEntry_upper hl, if_neg h1]
    split <;> rfl
  · rw [readEntry_lower hl, if_neg h1, if_neg fun h => (hl.elim (h2 h).1 (h2 h).2)]
    split <;> rfl

theorem seenUpdate_differs {w : Word} {seen : Bool} (h : CarriesSeen level w) (hs : w.getLsbD 29 ≠ seen) :
    seenUpdate level seen w = some (w ^^^ 0x20000000) := by
  unfold seenUpdate
  rw [seen?_of_carries h]
  exact if_neg hs

theorem seenUpdate_none {w : Word} {seen : Bool} (h : ¬ CarriesSeen level w ∨ w.getLsbD 29 = seen) :
    seenUpdate level seen w = none := by
  unfold seenUpdate
  by_cases hc : CarriesSeen level w
  · rw [seen?_of_carries hc]
    exact if_pos (h.resolve_left (not_not.2 hc))
  · rw [seen?_of_not_carries hc]

/-- The exclusive or with the SEEN bit changes that bit alone. -/
theorem getLsbD_xor_seen (w : Word) (i : Nat) :
    (w ^^^ 0x20000000).getLsbD i = (w.getLsbD i ^^ decide (i = 29)) := by
  have hbit : (0x20000000 : Word) = BitVec.twoPow 32 29 := by decide
  rw [BitVec.getLsbD_xor, hbit, BitVec.getLsbD_twoPow]
  by_cases h : i = 29
  · subst h
    rfl
  · simp [h, Ne.symm h]

end Entries

/-- Settles O18. -/
theorem tableMemoryWords : Obligations.TableMemoryWords := by
  unfold Obligations.TableMemoryWords
  refine ⟨fun w => ⟨fun level h => readEntry_upper h w, fun level h => readEntry_lower h w⟩,
    fun m a b w hm => ⟨?_, fun j hj => memByte_writeWord_other m a w j hm hj⟩,
    fun m a level seen hm => ⟨fun hc hs => ?_, fun h => ?_⟩⟩
  · split
    next h => exact h ▸ readWord_writeWord_same m a w hm
    next h => exact readWord_writeWord_other m a b w hm (Ne.symm h)
  · have heffect : (Access.flag a level seen).effect m = writeWord m a (readWord m a ^^^ 0x20000000) := by
      unfold Access.effect
      dsimp only
      rw [seenUpdate_differs hc hs]
    rw [heffect, readWord_writeWord_same m a _ hm]
    refine ⟨?_, fun i hi => ?_, fun b hb => readWord_writeWord_other m a b _ hm hb.symm⟩
    · rw [getLsbD_xor_seen, decide_eq_true rfl, Bool.xor_true]
      exact Bool.not_eq.2 hs
    · rw [getLsbD_xor_seen, decide_eq_false hi, Bool.xor_false]
  · unfold Access.effect
    dsimp only
    rw [seenUpdate_none h]

/-! ## The arbiter (R61, R174) -/

section Arbiter

variable {s : State}

theorem arbiterGrant_none (h : s.tmp.inProgress ≠ none ∨ s.nextGrant = none) : exec .arbiterGrant s = .next s := by
  show execArbiterGrant s = _
  unfold execArbiterGrant
  split
  next q a hp hg => exact (h.elim (absurd hp) fun h => nomatch hg.symm.trans h)
  next => rfl

theorem arbiterGrant_grants {q : Requester} {a : Access} (hp : s.tmp.inProgress = none)
    (hg : s.nextGrant = some (q, a)) : exec .arbiterGrant s = .next (s.grant q a) := by
  show execArbiterGrant s = _
  unfold execArbiterGrant
  rw [hp, hg]

theorem mem_askers_free (hp : s.tmp.inProgress = none) (q : Requester) : q ∈ s.askers ↔ s.asked q ≠ none := by
  rw [s.mem_askers, s.waitingAccess_free hp, Option.isSome_iff_ne_none]

/-- The requester has asked by the time of a grant (log 11). -/
def Asks (s : State) (q : Requester) : Prop :=
  s.asked q ≠ none ∧ (q ∉ s.tmp.following ∨ Config.asksByGrant s.freeCounter q.place = true)

/-- The requester's access waits at a grant (R174; log 11). -/
def Waits (s : State) (q : Requester) : Prop := Asks s q ∨ (s.asked q ≠ none ∧ ∀ r, ¬ Asks s r)

theorem asks_iff (s : State) (q : Requester) : Asks s q ↔ s.asked q ≠ none ∧ s.hasAsked q = true := by
  unfold Asks State.hasAsked
  rw [Bool.or_eq_true, decide_eq_true_iff]

theorem mem_waiters_iff (hp : s.tmp.inProgress = none) (q : Requester) : q ∈ s.waiters ↔ Waits s q := by
  simp only [s.mem_waiters, mem_askers_free hp, Waits, asks_iff, not_and, Bool.not_eq_true]
  tauto

theorem nextGrant_first {q : Requester} {a : Access} {before after : List Requester}
    (hp : s.tmp.inProgress = none) (ho : grantOrder s.publisher.buffer.length = before ++ q :: after)
    (hb : ∀ r ∈ before, ¬ Waits s r) (hq : Waits s q) (ha : s.asked q = some a) :
    s.nextGrant = some (q, a) := by
  have hnone : before.filter (fun r => decide (r ∈ s.waiters)) = [] :=
    List.filter_eq_nil_iff.2 fun r hr hm => hb r hr ((mem_waiters_iff hp r).1 (of_decide_eq_true hm))
  have hwaiters : s.waiters = q :: after.filter fun r => decide (r ∈ s.waiters) :=
    calc s.waiters
      _ = (grantOrder s.publisher.buffer.length).filter fun r => decide (r ∈ s.waiters) := s.waiters_eq_filter
      _ = (q :: after).filter fun r => decide (r ∈ s.waiters) := by
          rw [ho, List.filter_append, hnone, List.nil_append]
      _ = q :: after.filter fun r => decide (r ∈ s.waiters) :=
          List.filter_cons_of_pos (decide_eq_true ((mem_waiters_iff hp q).2 hq))
  unfold State.nextGrant
  rw [hwaiters, List.findSome?_cons, s.waitingAccess_free hp, ha]
  rfl

theorem nextGrant_eq_none (hp : s.tmp.inProgress = none) (h : ∀ q, s.asked q = none) : s.nextGrant = none := by
  refine List.findSome?_eq_none_iff.2 fun q _ => ?_
  rw [s.waitingAccess_free hp, h q]
  rfl

/-- The next access of a requester follows an own one after a grant to `q` (log 11). -/
theorem mem_followingAfter_free (hp : s.tmp.inProgress = none) (q r : Requester) : r ∈ s.followingAfter q ↔
    r = q ∨ (r ∈ s.tmp.following ∧ s.asked r ≠ none ∧ ¬ Waits s r) := by
  rw [s.mem_followingAfter, mem_askers_free hp, mem_waiters_iff hp]

/-- The grant to the first requester in the order whose access waits. -/
theorem grant_first {q : Requester} {a : Access} {before after : List Requester}
    (hp : s.tmp.inProgress = none) (ho : grantOrder s.publisher.buffer.length = before ++ q :: after)
    (hb : ∀ r ∈ before, ¬ Waits s r) (hq : Waits s q) (ha : s.asked q = some a) : ∃ l : List Requester,
      exec .arbiterGrant s = .next { s with
        tmp := { s.tmp.countGrant q with
          inProgress := some (q, a)
          following := l }
        freeCounter := s.freeCounter + 1 } ∧
      ∀ r, r ∈ l ↔ r = q ∨ (r ∈ s.tmp.following ∧ s.asked r ≠ none ∧ ¬ Waits s r) :=
  ⟨s.followingAfter q, arbiterGrant_grants hp (nextGrant_first hp ho hb hq ha), mem_followingAfter_free hp q⟩

theorem grantOrder_low {n : Nat} (h : n < 12) : grantOrder n = [.resolver, .logWriter, .management, .sweep] :=
  if_pos h

theorem grantOrder_high {n : Nat} (h : 12 ≤ n) : grantOrder n = [.logWriter, .resolver, .management, .sweep] :=
  if_neg (Nat.not_lt.2 h)

/-- The order of the grant begins with the Resolver and the log writer, in either order. -/
theorem grantOrder_cases (n : Nat) : ∃ l : List Requester, grantOrder n = l ++ [.management, .sweep] ∧
    ∀ r ∈ l, r = .resolver ∨ r = .logWriter := by
  rcases Nat.lt_or_ge n 12 with h | h
  · exact ⟨[.resolver, .logWriter], grantOrder_low h, by decide⟩
  · exact ⟨[.logWriter, .resolver], grantOrder_high h, by decide⟩

end Arbiter

/-- Settles O19. -/
theorem arbiterGrant : Obligations.ArbiterGrant := by
  unfold Obligations.ArbiterGrant
  refine ⟨fun s => ⟨fun hp => arbiterGrant_none (.inl hp), fun hp => ⟨fun h => ?_, ?_, ?_, ?_, ?_⟩⟩, fun s => ?_⟩
  · exact arbiterGrant_none (.inr (nextGrant_eq_none hp h))
  · intro a ha hq hl
    rcases Nat.lt_or_ge s.publisher.buffer.length 12 with h | h
    · exact grant_first (before := []) hp (grantOrder_low h) (fun r hr => nomatch hr) hq ha
    · have hw : ¬ Waits s .logWriter := hl.resolve_left (Nat.not_lt.2 h)
      exact grant_first (before := [.logWriter]) hp (grantOrder_high h)
        (fun r hr => List.mem_singleton.1 hr ▸ hw) hq ha
  · intro a ha hq hl
    rcases Nat.lt_or_ge s.publisher.buffer.length 12 with h | h
    · have hw : ¬ Waits s .resolver := hl.resolve_left (Nat.not_le.2 h)
      exact grant_first (before := [.resolver]) hp (grantOrder_low h)
        (fun r hr => List.mem_singleton.1 hr ▸ hw) hq ha
    · exact grant_first (before := []) hp (grantOrder_high h) (fun r hr => nomatch hr) hq ha
  · intro a ha hq hr hl
    obtain ⟨l, ho, hmem⟩ := grantOrder_cases s.publisher.buffer.length
    exact grant_first hp ho (fun r hm => (hmem r hm).elim (· ▸ hr) (· ▸ hl)) hq ha
  · intro a ha hq hr hl hm
    obtain ⟨l, ho, hmem⟩ := grantOrder_cases s.publisher.buffer.length
    refine grant_first (before := l ++ [.management]) (after := []) hp (ho.trans (by simp)) (fun r h => ?_) hq ha
    rcases List.mem_append.1 h with h | h
    · exact (hmem r h).elim (· ▸ hr) (· ▸ hl)
    · exact List.mem_singleton.1 h ▸ hm
  · refine ⟨fun w hw => ⟨fun hp => ?_, fun x hp => ?_⟩, fun hw => ?_, fun w r rest hw hb => ?_, fun hw => ?_,
      fun tag code a left got ht => ?_, fun tag code a w ws ht => ?_, fun ht => ?_, fun hr => ?_, fun hr => ?_⟩
    · show s.resolver.access? = _
      unfold Resolver.access?
      rw [hw]
      dsimp only
      rw [hp]
    · show s.resolver.access? = _
      unfold Resolver.access?
      rw [hw]
      dsimp only
      rw [hp]
    · show s.resolver.access? = _
      unfold Resolver.access?
      cases hserving : s.resolver.serving with
      | walking w =>
        rw [hserving] at hw
        exact nomatch hw
      | idle => rfl
      | delivering x o => rfl
    · show s.publisher.access? = _
      unfold Publisher.access?
      rw [hw, hb]
      rfl
    · show s.publisher.access? = _
      unfold Publisher.access?
      rw [hw]
    · show s.mu.access? = _
      unfold Mu.access?
      rw [ht]
    · show s.mu.access? = _
      unfold Mu.access?
      rw [ht]
    · show s.mu.access? = _
      unfold Mu.access?
      rw [ht]
    · show s.sweep.access? = _
      unfold Sweep.access?
      rw [hr]
    · show s.sweep.access? = _
      unfold Sweep.access?
      split
      next h => exact absurd h hr
      next => rfl
      next => rfl

/-! ## The table requests (R177 to R179) -/

section Requests

variable {s : State} {r : Request} {rest : List Request}

theorem orRange_eq_some {α : Type} {p : Option α} {x : α} {run : α → Answer} (h : p = some x) :
    orRange s p run = run x := h ▸ orRange_some s x run

theorem orRange_eq_none {α : Type} {p : Option α} {run : α → Answer} (h : p = none) :
    orRange s p run = .refused s .range := h ▸ orRange_none s run

theorem readRun_eq_some (h1 : 1 ≤ r.nat 3 1) (h6 : r.nat 3 1 ≤ 6) (h : r.nat 0 3 + r.nat 3 1 ≤ 262144) :
    r.readRun = some (BitVec.ofNat 18 (r.nat 0 3), r.nat 3 1) := if_pos ⟨h1, h6, h⟩

theorem readRun_eq_none (h : r.nat 3 1 = 0 ∨ 6 < r.nat 3 1 ∨ 262144 < r.nat 0 3 + r.nat 3 1) : r.readRun = none :=
  if_neg fun ⟨h1, h6, hm⟩ => h.elim (Nat.ne_of_gt h1) fun h => h.elim (Nat.not_lt.2 h6) (Nat.not_lt.2 hm)

theorem tableRead_begins (hb : BeginsAs s r rest 0x44 4) (h1 : 1 ≤ r.nat 3 1) (h6 : r.nat 3 1 ≤ 6)
    (hm : r.nat 0 3 + r.nat 3 1 ≤ 262144) : exec .tableRead s = .next { s with
      mu := begunMu s rest (.read r.tag r.code (BitVec.ofNat 18 (r.nat 0 3)) (r.nat 3 1) []) } := by
  show Outcome.next (s.request 0x44 4 runTableRead) = _
  rw [request_of_begins hb]
  unfold runTableRead
  rw [orRange_eq_some (readRun_eq_some h1 h6 hm)]
  rfl

theorem tableRead_refused (hb : BeginsAs s r rest 0x44 4)
    (h : r.nat 3 1 = 0 ∨ 6 < r.nat 3 1 ∨ 262144 < r.nat 0 3 + r.nat 3 1) :
    exec .tableRead s = .next (refusedState s r rest .range) :=
  request_refused hb (orRange_eq_none (readRun_eq_none h))

theorem withLength_mem {lengths : List Nat} (h : r.length.toNat ∈ lengths) (run : Request → State → Answer) :
    withLength lengths run r s = run r s := if_pos (List.contains_iff_mem.2 h)

/-- The declared length of a TABLE_WRITE of `n` words (R203). -/
theorem writeLength_mem {n : Nat} (h1 : 1 ≤ n) (h5 : n ≤ 5) (hl : r.length.toNat = 2 + 4 * n) :
    r.length.toNat ∈ [6, 10, 14, 18, 22] := by
  rw [hl]
  interval_cases n <;> decide

theorem writeCode_mem (h72 : 72 ≤ r.code.toNat) (h75 : r.code.toNat ≤ 75) :
    [0x48, 0x49, 0x4A, 0x4B].contains r.code.toNat = true := by
  interval_cases r.code.toNat <;> decide

theorem wordCount_eq {n : Nat} (hl : r.length.toNat = 2 + 4 * n) : r.wordCount = n := by
  unfold Request.wordCount
  rw [hl]
  omega

theorem writeAddr_eq (h72 : 72 ≤ r.code.toNat) (h75 : r.code.toNat ≤ 75) :
    r.writeAddr = (r.code.toNat - 72) * 65536 + r.nat 0 2 := by
  unfold Request.writeAddr
  have hmod : r.code.toNat % 4 = r.code.toNat - 72 := by omega
  rw [hmod]

theorem covers_iff (g : Guard) (a : Nat) : g.covers a = true ↔
    g.enabled = true ∧ ((g.first ≤ a / 1024 ∧ a / 1024 ≤ g.last) ↔ g.invert = false) := by
  unfold Guard.covers
  cases g.invert with
  | false => simp
  | true => simp [or_iff_not_imp_left]

theorem touches_iff (g : Guard) (a n : Nat) : g.touches a n = true ↔ ∃ i, i < n ∧ g.covers (a + i) = true := by
  unfold Guard.touches
  rw [List.any_eq_true]
  exact exists_congr fun i => and_congr_left' List.mem_range

/-- A TABLE_WRITE comes to the tests of R178. -/
theorem tableWrite_runs {n : Nat} (hb : Begins s r rest) (h72 : 72 ≤ r.code.toNat) (h75 : r.code.toNat ≤ 75)
    (h1 : 1 ≤ n) (h5 : n ≤ 5) (hl : r.length.toNat = 2 + 4 * n) :
    exec .tableWrite s = .next ((runTableWrite r (s.begin rest)).place r) := by
  show Outcome.next (s.serve _ _) = _
  rw [serve_of_begins hb _ _ (writeCode_mem h72 h75), withLength_mem (writeLength_mem h1 h5 hl)]

end Requests

section Completions

variable {s : State} {tag code : Byte} {a : WordAddr}

theorem tableReadWordComplete_reads {left : Nat} {got : List Word}
    (hp : s.tmp.inProgress = some (.management, .read a)) (ht : s.mu.table = some (.read tag code a left got)) :
    exec .tableReadWordComplete s = .next (State.wordRead (accessed s s.tmp.mem) tag code a left
      (got ++ [readWord s.tmp.mem a])) := by
  show execTableReadWordComplete s = _
  unfold execTableReadWordComplete
  rw [hp, ht]
  rfl

theorem wordRead_goesOn (t : State) {left : Nat} (got : List Word) (h : 1 < left) :
    t.wordRead tag code a left got =
      { t with mu := { t.mu with table := some (.read tag code (a + 1) (left - 1) got) } } :=
  if_neg (Nat.not_le.2 h)

theorem wordRead_last (t : State) {left : Nat} (got : List Word) (h : left = 1) :
    t.wordRead tag code a left got =
      State.reply { t with mu := { t.mu with table := none } } tag code .ok (wordBytes got) :=
  if_pos (Nat.le_of_eq h)

theorem tableWriteWordComplete_writes {w : Word} {ws : List Word}
    (hp : s.tmp.inProgress = some (.management, .write a w)) (ht : s.mu.table = some (.write tag code a (w :: ws))) :
    exec .tableWriteWordComplete s =
      .next (State.wordWritten (accessed s (writeWord s.tmp.mem a w)) tag code a ws) := by
  show execTableWriteWordComplete s = _
  unfold execTableWriteWordComplete
  rw [hp, ht]
  rfl

theorem wordWritten_goesOn (t : State) {ws : List Word} (h : ws ≠ []) : t.wordWritten tag code a ws =
    { t with mu := { t.mu with table := some (.write tag code (a + 1) ws) } } := by
  cases ws with
  | nil => exact absurd rfl h
  | cons w ws => rfl

theorem tableReadWordComplete_none (h : ∀ a, s.tmp.inProgress ≠ some (.management, a)) :
    exec .tableReadWordComplete s = .next s := by
  show execTableReadWordComplete s = _
  unfold execTableReadWordComplete
  split
  next a _ _ _ _ _ hp _ => exact absurd hp (h _)
  next => rfl

theorem tableWriteWordComplete_none (h : ∀ a, s.tmp.inProgress ≠ some (.management, a)) :
    exec .tableWriteWordComplete s = .next s := by
  show execTableWriteWordComplete s = _
  unfold execTableWriteWordComplete
  split
  next hp _ => exact absurd hp (h _)
  next => rfl

end Completions

/-- Settles O20. -/
theorem tableRequests : Obligations.TableRequests := by
  unfold Obligations.TableRequests
  refine ⟨fun s r rest => ⟨fun hb => ⟨tableRead_begins hb, tableRead_refused hb⟩,
    fun n hb h72 h75 h1 h5 hl => ?_⟩, fun s => ⟨fun tag code a left got hp ht => ?_,
      fun tag code a w ws hp ht => ?_, fun h => ⟨tableReadWordComplete_none h, tableWriteWordComplete_none h⟩⟩⟩
  · rw [tableWrite_runs hb h72 h75 h1 h5 hl]
    unfold runTableWrite
    rw [writeAddr_eq h72 h75, wordCount_eq hl]
    refine ⟨fun hr => ?_, fun hr hg => ?_, fun hr hg => ?_⟩
    · rw [if_pos hr, refused_place]
    · obtain ⟨i, hi, hc⟩ := hg
      have hguarded : (s.begin rest).tmp.guard.touches ((r.code.toNat - 72) * 65536 + r.nat 0 2) n = true :=
        (touches_iff _ _ _).2 ⟨i, hi, (covers_iff _ _).2 hc⟩
      rw [if_neg (Nat.not_lt.2 hr), if_pos hguarded]
      rfl
    · have hfree : ¬ (s.begin rest).tmp.guard.touches ((r.code.toNat - 72) * 65536 + r.nat 0 2) n = true := by
        rw [touches_iff]
        exact fun ⟨i, hi, hc⟩ => hg i hi ((covers_iff _ _).1 hc)
      rw [if_neg (Nat.not_lt.2 hr), if_neg hfree]
      rfl
  · dsimp only
    rw [tableReadWordComplete_reads hp ht]
    refine ⟨fun h => ?_, fun h => ?_⟩
    · rw [wordRead_goesOn _ _ h]
      rfl
    · rw [wordRead_last _ _ h]
      rfl
  · dsimp only
    rw [tableWriteWordComplete_writes hp ht]
    refine ⟨fun h => ?_, fun h => ?_⟩
    · rw [wordWritten_goesOn _ h]
      rfl
    · rw [h]
      rfl

end Sys2Proof.Machine
end

section
/-! The Settle Pool: merging, taking, expiry, and the silence test. -/

namespace Sys2Proof.Machine

open Host (Outcome)

/-! ## Qualities and reported times -/

theorem worse_backup (q : Quality) : q.worse .backup = if q = .good then .backup else q := by
  cases q <;> decide

theorem worse_unsettled (q : Quality) : q.worse .unsettled = if q = .holdover then .holdover else .unsettled := by
  cases q <;> decide

theorem unsettled_eq (e : Pending) :
    e.unsettled = { e with quality := if e.quality = .holdover then .holdover else .unsettled } := by
  unfold Pending.unsettled
  rw [worse_unsettled]

theorem toTU_fst (us : Nat) : (toTU us).1 = min (us / 100) 16777215 := by
  unfold toTU
  generalize us / 100 = tu
  split
  next h => exact (Nat.min_eq_left h).symm
  next h => exact (Nat.min_eq_right (Nat.le_of_not_le h)).symm

theorem toTU_snd (us : Nat) : (toTU us).2 = decide (16777215 < us / 100) := by
  unfold toTU
  generalize us / 100 = tu
  split
  next h => exact (decide_eq_false (Nat.not_lt.2 h)).symm
  next h => exact (decide_eq_true (Nat.lt_of_not_le h)).symm

theorem toTU_eq (us : Nat) : toTU us = (min (us / 100) 16777215, decide (16777215 < us / 100)) :=
  Prod.ext (toTU_fst us) (toTU_snd us)

/-! ## The order of a settle list (R87) -/

/-- The order of a settle list, by T and then by taking order (R87). -/
abbrev Pending.Before (a b : Pending) : Prop := a.time < b.time ∨ (a.time = b.time ∧ a.order ≤ b.order)

theorem upTo_iff (a b : Pending) : a.upTo b = true ↔ a.Before b := by
  simp [Pending.upTo]

theorem upTo_of_later {e p : Pending} (h : e.order < p.order) : e.upTo p = true ↔ e.time ≤ p.time := by
  rw [upTo_iff]
  omega

theorem placePending_before (p : Pending) (l : List Pending) (h : l.Pairwise Pending.Before) :
    (placePending p l).Pairwise Pending.Before := by
  induction l with
  | nil => exact List.pairwise_singleton _ p
  | cons e rest ih =>
    obtain ⟨hhead, htail⟩ := List.pairwise_cons.1 h
    unfold placePending
    split
    next hup =>
      refine List.pairwise_cons.2 ⟨fun x hx => ?_, ih htail⟩
      rcases List.mem_cons.1 ((placePending_perm p rest).mem_iff.1 hx) with rfl | hx
      · exact (upTo_iff e x).1 hup
      · exact hhead x hx
    next hup =>
      have hp : p.Before e := by
        have := mt (upTo_iff e p).2 hup
        omega
      refine List.pairwise_cons.2 ⟨fun x hx => ?_, h⟩
      rcases List.mem_cons.1 hx with rfl | hx
      · exact hp
      · have := hhead x hx
        omega

/-- The passing taken last stands behind the entries up to its time (R87, R97). -/
theorem placePending_splits {p : Pending} {l : List Pending} (h : l.Pairwise Pending.Before)
    (ho : ∀ e ∈ l, e.order < p.order) : ∃ a b, l = a ++ b ∧ placePending p l = a ++ p :: b ∧
      (∀ e ∈ a, e.time ≤ p.time) ∧ ∀ e ∈ b, p.time < e.time := by
  induction l with
  | nil => exact ⟨[], [], rfl, rfl, by simp, by simp⟩
  | cons e rest ih =>
    obtain ⟨hhead, htail⟩ := List.pairwise_cons.1 h
    have hup := upTo_of_later (ho e List.mem_cons_self)
    unfold placePending
    by_cases hle : e.time ≤ p.time
    · obtain ⟨a, b, rfl, hplace, ha, hb⟩ := ih htail fun x hx => ho x (List.mem_cons_of_mem e hx)
      refine ⟨e :: a, b, rfl, ?_, List.forall_mem_cons.2 ⟨hle, ha⟩, hb⟩
      rw [if_pos (hup.2 hle), hplace]
      rfl
    · refine ⟨[], e :: rest, rfl, if_neg (mt hup.1 hle), by simp, List.forall_mem_cons.2 ⟨?_, fun x hx => ?_⟩⟩
      · exact Nat.lt_of_not_le hle
      · have := hhead x hx
        omega

/-! ## Merging (R93, R94) -/

theorem matches_iff (band : Nat) (p e : Pending) : p.matches band e = true ↔
    e.line = p.line ∧ ((p.time : Int) - e.time).natAbs ≤ band * 1000 := by
  simp [Pending.matches]

theorem survives_of_backup_ne {p e : Pending} (h : p.backup ≠ e.backup) : p.survives e = !p.backup := if_pos h

theorem survives_of_strength_ne {p e : Pending} (hb : p.backup = e.backup) (h : p.strength ≠ e.strength) :
    p.survives e = decide (e.strength < p.strength) := by
  unfold Pending.survives
  rw [if_neg (not_not.2 hb), if_pos h]

theorem survives_of_equal {p e : Pending} (hb : p.backup = e.backup) (h : p.strength = e.strength) :
    p.survives e = decide (p.time < e.time) := by
  unfold Pending.survives
  rw [if_neg (not_not.2 hb), if_neg (not_not.2 h)]

theorem mergeWith_new {p e : Pending} (h : p.survives e = true) :
    p.mergeWith e = { p with withhold := p.withhold || e.withhold } := if_pos h

theorem mergeWith_old {p e : Pending} (h : p.survives e = false) :
    p.mergeWith e = { e with withhold := p.withhold || e.withhold } := if_neg (h ▸ Bool.false_ne_true)

section Chain

variable {band : Nat} (n : Nat) {p e : Pending} {a b l : List Pending} (k : SettleCounts)

theorem mergeChain_none (h : ∀ e ∈ l, p.matches band e = false) :
    mergeChain band (n + 1) p l k = (placePending p l, k) := by
  have hfind : l.find? (p.matches band) = none := List.find?_eq_none.2 fun e he => by simp [h e he]
  unfold mergeChain
  rw [hfind]

theorem mergeChain_some (ha : ∀ x ∈ a, p.matches band x = false) (he : p.matches band e = true) :
    mergeChain band (n + 1) p (a ++ e :: b) k = mergeChain band n (p.mergeWith e) (a ++ b) { k with
      merges := bump k.merges
      backupOverruled := if p.backup = e.backup then k.backupOverruled else bump k.backupOverruled } := by
  have hnone : a.find? (p.matches band) = none := List.find?_eq_none.2 fun x hx => by simp [ha x hx]
  have hfind : (a ++ e :: b).find? (p.matches band) = some e := by
    rw [List.find?_append, hnone, List.find?_cons_of_pos he]
    rfl
  have hnotin : e ∉ a := fun hm => by simp [ha e hm] at he
  have herase : (a ++ e :: b).erase e = a ++ b := by
    rw [List.erase_append_right _ hnotin, List.erase_cons_head]
  have hcounts : k.merged p e = { k with
      merges := bump k.merges
      backupOverruled := if p.backup = e.backup then k.backupOverruled else bump k.backupOverruled } := by
    unfold SettleCounts.merged Pending.overrules
    simp only [ne_eq, decide_not, Bool.not_eq_true', decide_eq_false_iff_not, ite_not]
  conv_lhs => unfold mergeChain
  rw [hfind]
  dsimp only
  rw [herase, hcounts]

end Chain

/-- Two entries at the line are not within its dead-band. -/
def ApartAt (line : Line) (band : Nat) (a b : Pending) : Prop :=
  a.line = line → b.line = line → band * 1000 < ((a.time : Int) - b.time).natAbs

theorem ApartAt.symm {line : Line} {band : Nat} {a b : Pending} (h : ApartAt line band a b) :
    ApartAt line band b a := fun hb ha => by
  have := h ha hb
  omega

theorem apartAt_of_not_matches {band : Nat} {p e : Pending} (h : ¬ p.matches band e = true) :
    ApartAt p.line band p e := fun _ hl =>
  Nat.lt_of_not_le fun hle => h ((matches_iff band p e).2 ⟨hl, hle⟩)

/-- A chain with fuel for every entry ends with the entries of the line apart. -/
theorem mergeChain_apartAt {line : Line} {band : Nat} (fuel : Nat) (p : Pending) (l : List Pending) (k : SettleCounts)
    (hp : p.line = line) (hl : l.Pairwise (ApartAt line band)) (hfuel : l.length < fuel) :
    (mergeChain band fuel p l k).1.Pairwise (ApartAt line band) ∧
      (mergeChain band fuel p l k).1.length ≤ l.length + 1 ∧
      ((∃ e ∈ l, p.matches band e = true) → (mergeChain band fuel p l k).1.length ≤ l.length) := by
  subst hp
  induction fuel generalizing p l k with
  | zero => cases hfuel
  | succ fuel ih =>
    unfold mergeChain
    split
    next hnone =>
      have hall := List.find?_eq_none.1 hnone
      refine ⟨?_, (placePending_length p l).le, fun ⟨e, he, hm⟩ => absurd hm (hall e he)⟩
      exact ((placePending_perm p l).pairwise_iff fun h => h.symm).2
        (List.pairwise_cons.2 ⟨fun e he => apartAt_of_not_matches (hall e he), hl⟩)
    next e hsome =>
      have hmem := List.mem_of_find?_eq_some hsome
      have hline : (p.mergeWith e).line = p.line :=
        mergeWith_line p e ((matches_iff band p e).1 (List.find?_some hsome)).1
      have hlen : (l.erase e).length + 1 = l.length := by
        rw [List.length_erase_of_mem hmem]
        exact Nat.succ_pred_eq_of_pos (List.length_pos_of_mem hmem)
      have hpairs : (l.erase e).Pairwise (ApartAt (p.mergeWith e).line band) := by
        rw [hline]
        exact hl.sublist List.erase_sublist
      obtain ⟨hapart, hlength, -⟩ := ih (p.mergeWith e) (l.erase e) (k.merged p e) (by omega) hpairs
      rw [hline] at hapart
      exact ⟨hapart, by omega, fun _ => by omega⟩

/-- Settles O24. -/
theorem merging : Obligations.Merging := by
  unfold Obligations.Merging
  refine ⟨fun p l h => ⟨placePending_length p l, placePending_perm p l, placePending_before p l h,
      placePending_splits h⟩, fun p e => ⟨fun hp he => mergeWith_new ?_, fun hp he => mergeWith_old ?_, fun hb => ⟨?_, ?_, ?_⟩⟩,
    fun band n p l k => ⟨matches_iff band p, mergeChain_none n k, ?_⟩, fun band p l k hl hm hapart => ?_⟩
  · rw [survives_of_backup_ne (by rw [hp, he]; decide), hp]
    rfl
  · rw [survives_of_backup_ne (by rw [hp, he]; decide), hp]
    rfl
  · exact fun h => mergeWith_new ((survives_of_strength_ne hb h.ne').trans (decide_eq_true h))
  · exact fun h => mergeWith_old ((survives_of_strength_ne hb h.ne).trans (decide_eq_false h.not_gt))
  · exact fun hs => ⟨fun h => mergeWith_new ((survives_of_equal hb hs).trans (decide_eq_true h)),
      fun h => mergeWith_old ((survives_of_equal hb hs).trans (decide_eq_false h.not_gt))⟩
  · rintro a b e rfl ha he
    exact mergeChain_some n k ha he
  · obtain ⟨hpairs, -, hlength⟩ := mergeChain_apartAt 7 p l k rfl hapart (by omega)
    exact ⟨hlength hm, hpairs⟩

/-! ## Expiry (R98) -/

section Expiry

variable {s : State} {c : CompNo} {e : Pending} {es : List Pending}

theorem due_iff (now interval : Nat) (e : Pending) :
    e.due now interval = true ↔ e.time + interval * 1000 ≤ now := decide_eq_true_iff

theorem dueHead_due (h : s.settle.lists[c] = e :: es) (hd : e.time + s.settle.interval * 1000 ≤ s.now) :
    s.dueHead c = some (e, es) := by
  unfold State.dueHead
  rw [h]
  exact if_pos ((due_iff _ _ _).2 hd)

theorem dueHead_nil (h : s.settle.lists[c] = []) : s.dueHead c = none := by
  unfold State.dueHead
  rw [h]

theorem dueHead_early (h : s.settle.lists[c] = e :: es) (hd : s.now < e.time + s.settle.interval * 1000) :
    s.dueHead c = none := by
  unfold State.dueHead
  rw [h]
  exact if_neg (mt (due_iff _ _ _).1 (Nat.not_le.2 hd))

theorem settleExpiry_none (h : s.dueHead c = none) : settleExpiry c s = s := by
  unfold settleExpiry
  rw [h]

theorem settleExpiry_full (h : 16 ≤ s.publisher.buffer.length) : settleExpiry c s = s := by
  unfold settleExpiry
  split
  · exact if_neg fun ha => absurd ((accepting_iff _).1 ha) (Nat.not_lt.2 h)
  · rfl

theorem settleExpiry_due (h : s.dueHead c = some (e, es)) (hb : s.publisher.buffer.length < 16) :
    settleExpiry c s = s.expireHead c e es := by
  unfold settleExpiry
  rw [h]
  exact if_pos ((accepting_iff _).2 hb)

theorem setList_eq (z : Settle) (c : CompNo) {a b : List Pending} (h : z.lists[c] = a ++ b) :
    z.setList c b = { z with lists := z.lists.set c b, free := z.free + a.length } := by
  have hfree : z.free + z.lists[c].length - b.length = z.free + a.length := by
    rw [h, List.length_append]
    omega
  unfold Settle.setList
  rw [hfree]

theorem expire_splits {z : Settle} {now : Nat} {a b : List Pending} (h : z.lists[c] = a ++ b)
    (ha : ∀ e ∈ a, e.time + z.interval * 1000 ≤ now)
    (hb : ∀ e es, b = e :: es → now < e.time + z.interval * 1000) :
    z.expire c now = ({ z with
      lists := z.lists.set c b
      free := z.free + a.length
      counts := { z.counts with expiries := min (z.counts.expiries + a.length) 65535 } },
      a.map fun e => ⟨.settled, c, e⟩) := by
  have hdue : ∀ e ∈ a, Pending.due now z.interval e = true := fun e he => (due_iff _ _ _).2 (ha e he)
  have htake : z.lists[c].takeWhile (Pending.due now z.interval) = a := by
    rw [h, List.takeWhile_append_of_pos hdue]
    cases b with
    | nil => simp
    | cons e es => rw [List.takeWhile_cons_of_neg (mt (due_iff _ _ _).1 (Nat.not_le.2 (hb e es rfl))), List.append_nil]
  have hdrop : z.lists[c].dropWhile (Pending.due now z.interval) = b := by
    rw [h, List.dropWhile_append_of_pos hdue]
    cases b with
    | nil => rfl
    | cons e es => exact List.dropWhile_cons_of_neg (mt (due_iff _ _ _).1 (Nat.not_le.2 (hb e es rfl)))
  unfold Settle.expire
  rw [htake, hdrop, setList_eq z c h]
  rfl

end Expiry

/-- Settles O25. -/
theorem Settle.settleExpiry : Obligations.SettleExpiry := by
  unfold Obligations.SettleExpiry
  refine ⟨fun s c => ⟨fun e es hl hd hb => ?_, fun h => ?_, fun e es hl hd => ?_⟩,
    fun z c now a b h ha hb => expire_splits h ha hb, fun s n h => exec_settleExpiry_beyond h s⟩
  all_goals rw [exec_settleExpiry_comp c s]
  · rw [settleExpiry_due (dueHead_due hl hd) hb]
    unfold State.expireHead Settle.expireHead
    rw [setList_eq s.settle c (a := [e]) hl]
    rfl
  · rcases h with h | h
    · rw [settleExpiry_none (dueHead_nil h)]
    · rw [settleExpiry_full h]
  · rw [settleExpiry_none (dueHead_early hl hd)]

/-! ## Silence (R128) -/

section Silence

variable {s : State} {c : CompNo}

theorem silentFrom_none {r : Competitor} {now limit : Nat} (h : r.silenceAlerted = true ∨ r.lastApplied = none ∨
      limit = 0 ∨ (r.state ≠ .onTrack ∧ r.state ≠ .inPit) ∨
      ∃ m, r.lastApplied = some m ∧ now ≤ m.time + limit * 1000000) : r.silentFrom now limit = none := by
  unfold Competitor.silentFrom
  split
  next => rfl
  next m hm =>
    refine if_neg fun ⟨hstate, hlimit, halerted, htime⟩ => ?_
    rcases h with h | h | h | ⟨h1, h2⟩ | ⟨m', h, ht⟩
    · exact absurd (halerted.symm.trans h) Bool.false_ne_true
    · exact nomatch hm.symm.trans h
    · exact hlimit h
    · exact hstate.elim h1 h2
    · obtain rfl : m = m' := Option.some.inj (hm.symm.trans h)
      exact Nat.not_lt.2 ht htime

theorem silentFrom_some {r : Competitor} {now limit : Nat} {m : AppliedMark} (hm : r.lastApplied = some m)
    (hs : r.state = .onTrack ∨ r.state = .inPit) (hl : limit ≠ 0) (ha : r.silenceAlerted = false)
    (ht : m.time + limit * 1000000 < now) : r.silentFrom now limit = some m.time := by
  unfold Competitor.silentFrom
  rw [hm]
  exact if_pos ⟨hs, hl, ha, ht⟩

theorem silent_notOwed (h : s.engine.records[c].silenceTestOwed = false) : silent c s = s :=
  if_neg (h ▸ Bool.false_ne_true)

theorem silent_passes (h : s.engine.records[c].silentFrom s.now s.engine.silenceLimit = none) : silent c s = s := by
  unfold silent State.silenceTest
  dsimp only
  rw [h]
  exact ite_self s

theorem silent_alerts {since : Nat} (ho : s.engine.records[c].silenceTestOwed = true)
    (h : s.engine.records[c].silentFrom s.now s.engine.silenceLimit = some since) :
    silent c s = { s with
      engine := { s.engine with
        records := s.engine.records.set c { s.engine.records[c] with
          silenceAlerted := true
          silenceTestOwed := false }
        counts := { s.engine.counts with silences := bump s.engine.counts.silences } }
      publisher := s.publisher.alert (silentResult s.now c s.engine.records[c].raceNumber since) } := by
  unfold silent State.silenceTest
  rw [if_pos ho]
  dsimp only
  rw [h]
  rfl

end Silence

/-- Settles O26. -/
theorem silentAlert : Obligations.SilentAlert := by
  unfold Obligations.SilentAlert
  refine ⟨fun s c => ⟨fun m ho hs ha hm hl ht => ?_, fun h => ?_, fun m hm ht => ?_⟩,
    fun s n h => exec_silent_beyond h s⟩
  all_goals rw [exec_silent_comp c s]
  · rw [silent_alerts ho (silentFrom_some hm hs hl ha ht)]
    unfold silentResult elapsedTU
    rw [toTU_eq]
    rfl
  · rcases h with h | h
    · rw [silent_notOwed h]
    · rw [silent_passes (silentFrom_none (by tauto))]
  · rw [silent_passes (silentFrom_none (.inr (.inr (.inr (.inr ⟨m, hm, ht⟩)))))]

end Sys2Proof.Machine
end

section
/-! The taking of a resolved passing by Settle. -/

namespace Sys2Proof.Machine

open Host (Outcome)

/-! ## When nothing is taken, and what a taking comes to (R89) -/

section Taking

variable {s : State} {x : IntakeRec} {c : CompNo} {h keep : Bool}

theorem settleTaking_none (hn : (∀ x n h k, s.resolver.serving ≠ .delivering x (.competitor n h k)) ∨
    16 ≤ s.publisher.buffer.length) : exec .settleTaking s = .next s := by
  show execSettleTaking s = _
  unfold execSettleTaking
  split
  next x n h k hs =>
    exact if_neg fun ha => hn.elim (fun hn => hn x n h k hs)
      fun hb => Nat.not_lt.2 hb ((accepting_iff _).1 ha)
  next => rfl

/-- The state after a taking, but for the applications that it hands over (R63, R89). -/
def State.takenBy (s : State) (z : Settle) (p : Publisher) : State := { s with
  settle := z
  publisher := p
  resolver := { s.resolver with
    serving := .idle
    counts := { s.resolver.counts with competitors := bump s.resolver.counts.competitors } } }

/-- The taking of a competitor in hand, by what Settle decides (R89, R90). -/
theorem settleTaking_takes (hs : s.resolver.serving = .delivering x (.competitor c h keep))
    (hb : s.publisher.buffer.length < 16) {t : Taking}
    (ht : s.settle.take s.session.state s.engine.records[c] (s.course.lineOf x.loop) s.now ⟨c, x, h⟩ = t) :
    exec .settleTaking s =
      .next ((s.takenBy t.settle (s.publisher.takeAll s.now t.results)).applyAll t.apply) := by
  subst ht
  show execSettleTaking s = _
  unfold execSettleTaking
  rw [hs]
  exact if_pos ((accepting_iff _).2 hb)

theorem pending_eq (x : IntakeRec) (c : CompNo) (h : Bool) (line : LineInfo) (order : Nat) :
    Resolved.pending ⟨c, x, h⟩ line order = ⟨x.code, x.loop, line.line, line.backup, x.time,
      if line.backup = true ∧ x.quality = .good then .backup else x.quality,
      x.clamped, x.strength, h, order⟩ := by
  unfold Resolved.pending
  cases line.backup with
  | false => rfl
  | true => simp only [if_true, worse_backup, true_and]

/-! ## Tests 1 and 2 of R90 -/

section Tests

variable {z : Settle} {session : SessionState} {r : Competitor} {info : LineInfo} {now : Nat} {y : Resolved}

theorem take_closed (hs : session = .setup ∨ session = .closed) : z.take session r info now y =
    { settle := { z with counts := { z.counts with sessionDiscards := bump z.counts.sessionDiscards } } } :=
  if_pos hs

theorem take_inactive (hs : session ≠ .setup ∧ session ≠ .closed) (hr : r.state = .inactive) :
    z.take session r info now y =
      { settle := { z with counts := { z.counts with inactive := bump z.counts.inactive } }
        results := [inactiveResult y.comp r.raceNumber (y.pending info z.nextOrder)] } := by
  unfold Settle.take
  rw [if_neg (not_or.2 hs), if_pos hr]

theorem take_tests (hs : session ≠ .setup ∧ session ≠ .closed) (hr : r.state ≠ .inactive) :
    z.take session r info now y = z.test r y.comp info.deadBand now (y.pending info z.nextOrder) := by
  unfold Settle.take
  rw [if_neg (not_or.2 hs), if_neg hr]

variable {m : AppliedMark} {band : Nat} {p : Pending}

theorem test_late (hm : r.lastApplied = some m) (ht : p.time < m.time) : z.test r c band now p =
    { settle := { z with counts := { z.counts with late := bump z.counts.late } }
      results := [lateResult c r.raceNumber p m.time] } := by
  unfold Settle.test
  rw [hm]
  exact if_pos ht

theorem duplicate_iff (m : AppliedMark) (band : Nat) (p : Pending) :
    m.duplicate band p = true ↔ m.line = p.line ∧ p.time - m.time ≤ band * 1000 := by
  simp [AppliedMark.duplicate]

theorem test_duplicate (hm : r.lastApplied = some m) (ht : m.time ≤ p.time) (hd : m.duplicate band p = true) :
    z.test r c band now p =
      { settle := { z with counts := { z.counts with duplicates := bump z.counts.duplicates } } } := by
  unfold Settle.test
  rw [hm]
  dsimp only
  rw [if_neg (Nat.not_lt.2 ht), if_pos hd]

theorem test_taken (h : ∀ m, r.lastApplied = some m → m.time ≤ p.time ∧ ¬ m.duplicate band p = true) :
    z.test r c band now p = z.taken c band now p := by
  unfold Settle.test
  split
  next => rfl
  next m hm =>
    obtain ⟨ht, hd⟩ := h m hm
    rw [if_neg (Nat.not_lt.2 ht), if_neg hd]

end Tests

end Taking

/-! ## Lines (R75) -/

section Lines

variable {k : Course} {l : LoopNo} {q : PointNo}

theorem lineOf_primary {p : CoursePoint} (hq : k.points[q] = some p) (h : k.loops[l].role = .primary q) :
    k.lineOf l = ⟨.point q, k.loops[p.primary].deadBand, false⟩ := by
  unfold Course.lineOf Course.pointDeadBand
  rw [h]
  dsimp only
  rw [hq]

theorem lineOf_backup {p : CoursePoint} (hq : k.points[q] = some p) (h : k.loops[l].role = .backup q) :
    k.lineOf l = ⟨.point q, k.loops[p.primary].deadBand, true⟩ := by
  unfold Course.lineOf Course.pointDeadBand
  rw [h]
  dsimp only
  rw [hq]

theorem lineOf_pitAlt (h : k.loops[l].role = .pitAlt q) : k.lineOf l = ⟨.loop l, k.loops[l].deadBand, false⟩ := by
  unfold Course.lineOf
  rw [h]

theorem lineOf_none (h : k.loops[l].role = .none) : k.lineOf l = ⟨.loop l, k.loops[l].deadBand, false⟩ := by
  unfold Course.lineOf
  rw [h]

end Lines

/-- Settles O22. -/
theorem settleTurnsAway : Obligations.SettleTurnsAway := by
  unfold Obligations.SettleTurnsAway
  refine ⟨⟨fun s hn => settleTaking_none hn, fun s x c h keep hs hb => ?_⟩, fun k l => ⟨fun q p hq =>
    ⟨lineOf_primary hq, lineOf_backup hq⟩, fun q => lineOf_pitAlt, lineOf_none⟩⟩
  refine ⟨fun hclosed => ?_, fun hopen hr => ?_, fun m hopen hr hm => ⟨fun ht => ?_, fun ht hline hd => ?_⟩⟩
  · have hor : s.session.state = .setup ∨ s.session.state = .closed := by tauto
    exact settleTaking_takes hs hb (take_closed hor)
  · refine (settleTaking_takes hs hb (take_inactive hopen hr)).trans ?_
    rw [pending_eq]
    exact congrArg (fun p => Outcome.next (State.takenBy s _ p)) (take_eq_give (now := s.now) (x := inactiveResult c _ _) rfl)
  · refine (settleTaking_takes hs hb ((take_tests hopen hr).trans (test_late hm ht))).trans ?_
    rw [pending_eq]
    unfold lateResult
    rw [toTU_eq]
    rfl
  · refine settleTaking_takes hs hb ((take_tests hopen hr).trans (test_duplicate hm ht ?_))
    exact (duplicate_iff _ _ _).2 ⟨hline, hd⟩

/-! ## Tests 3 to 6 of R90 -/

section Keep

variable {z : Settle} {c : CompNo} {band now : Nat} {p : Pending}

/-- No entry of the list matches the passing. -/
def Alone (band : Nat) (p : Pending) (l : List Pending) : Prop :=
  ∀ e ∈ l, e.line ≠ p.line ∨ band * 1000 < ((p.time : Int) - e.time).natAbs

theorem any_matches_iff (l : List Pending) : l.any (p.matches band) = true ↔ ¬ Alone band p l := by
  unfold Alone
  push Not
  simp only [List.any_eq_true, matches_iff]

theorem keep_merges (h : ¬ Alone band p z.lists[c]) : z.keep c band now p = z.merge c band now p :=
  if_pos ((any_matches_iff _).2 h)

theorem keep_enrolls (h : Alone band p z.lists[c]) : z.keep c band now p = z.enroll c now p :=
  if_neg fun hm => (any_matches_iff _).1 hm h

theorem enroll_forces {e : Pending} {es : List Pending} (hl : z.lists[c] = e :: es) (h6 : 6 ≤ z.lists[c].length) :
    z.enroll c now p = z.force c p e es := by
  unfold Settle.enroll
  rw [hl] at h6 ⊢
  exact if_pos h6

theorem enroll_bypasses (h6 : z.lists[c].length < 6) (hf : z.free = 0) : z.enroll c now p = z.bypass c p := by
  unfold Settle.enroll
  split
  next e es hl =>
    rw [hl] at h6
    rw [if_neg (Nat.not_le.2 h6), if_pos hf]
  next => exact if_pos hf

theorem enroll_inserts (h6 : z.lists[c].length < 6) (hf : z.free ≠ 0) : z.enroll c now p = z.insert c now p := by
  unfold Settle.enroll
  split
  next e es hl =>
    rw [hl] at h6
    rw [if_neg (Nat.not_le.2 h6), if_neg hf]
  next => exact if_neg hf

theorem force_head {e : Pending} {es : List Pending} (ht : e.time ≤ p.time) : z.force c p e es =
    ({ z.setList c (placePending p es) with
      counts := { z.counts with forcedFull := bump z.counts.forcedFull } },
      [⟨.forced, c, e.unsettled⟩]) := if_pos ht

theorem force_passing {e : Pending} {es : List Pending} (ht : p.time < e.time) : z.force c p e es =
    ({ z with counts := { z.counts with forcedFull := bump z.counts.forcedFull } },
      [⟨.forced, c, p.unsettled⟩]) := if_neg (Nat.not_le.2 ht)

theorem bypass_eq (hf : z.free = 0) : z.bypass c p =
    ({ z with
      lists := z.lists.set c (z.lists[c].dropWhile fun e => decide (e.time ≤ p.time))
      free := z.lists[c].length - (z.lists[c].dropWhile fun e => decide (e.time ≤ p.time)).length
      counts := { z.counts with
        poolEmpty := bumpBy z.counts.poolEmpty
          ((z.lists[c].takeWhile fun e => decide (e.time ≤ p.time)).length + 1) } },
      ((z.lists[c].takeWhile fun e => decide (e.time ≤ p.time)) ++ [p]).map fun e => ⟨.poolEmpty, c,
        { e with quality := if e.quality = .holdover then .holdover else .unsettled }⟩) := by
  unfold Settle.bypass Settle.setList
  rw [hf, Nat.zero_add]
  simp only [unsettled_eq]

end Keep

/-- Settle with the number of one more taking given out. -/
abbrev Settle.numbered (z : Settle) : Settle := { z with nextOrder := z.nextOrder + 1 }

/-- The taking of a passing that passes tests 1 and 2 of R90. -/
theorem settleTaking_keeps {s : State} {x : IntakeRec} {c : CompNo} {h keep : Bool}
    (hs : s.resolver.serving = .delivering x (.competitor c h keep)) (hb : s.publisher.buffer.length < 16)
    (hopen : s.session.state ≠ .setup ∧ s.session.state ≠ .closed) (hr : s.engine.records[c].state ≠ .inactive)
    {p : Pending} (hp : Resolved.pending ⟨c, x, h⟩ (s.course.lineOf x.loop) s.settle.nextOrder = p)
    (hm : ∀ m, s.engine.records[c].lastApplied = some m →
      m.time ≤ p.time ∧ ¬ m.duplicate (s.course.lineOf x.loop).deadBand p = true)
    {d : Settle × List Application}
    (hd : s.settle.numbered.keep c (s.course.lineOf x.loop).deadBand s.now p = d) :
    exec .settleTaking s = .next ((s.takenBy d.1 s.publisher).applyAll d.2) := by
  subst hp hd
  exact settleTaking_takes hs hb ((take_tests hopen hr).trans (test_taken hm))

/-- Settles O23. -/
theorem settleKeeps : Obligations.SettleKeeps := by
  unfold Obligations.SettleKeeps
  intro s x c h keep hs hb hsetup hclosed hr line hm z l p k low after list expired alone
  have hlow (e : Pending) : e.unsettled = low e := unsettled_eq e
  have hmark : ∀ m, s.engine.records[c].lastApplied = some m →
      m.time ≤ p.time ∧ ¬ m.duplicate line.deadBand p = true := fun m hl => by
    obtain ⟨ht, hd⟩ := hm m hl
    refine ⟨ht, fun hdup => ?_⟩
    obtain ⟨hline, hle⟩ := (duplicate_iff _ _ _).1 hdup
    exact hd.elim (absurd hline) fun hlt => Nat.not_lt.2 hle hlt
  have htaken {d : Settle × List Application}
      (hd : z.numbered.keep c line.deadBand s.now p = d) :
      exec .settleTaking s = .next ((after d.1).applyAll d.2) :=
    settleTaking_keeps hs hb ⟨hsetup, hclosed⟩ hr (pending_eq ..) hmark hd
  refine ⟨fun halone => htaken (keep_merges (z := z.numbered) halone),
    fun e es halone hl h6 => ⟨fun ht => ?_, fun ht => ?_⟩, fun halone h6 hf => ?_, fun halone h6 hf => ?_⟩
  all_goals have henroll := keep_enrolls (z := z.numbered) (now := s.now) halone
  · rw [htaken (henroll.trans ((enroll_forces (z := z.numbered) hl h6).trans (force_head ht))), hlow]
    rfl
  · rw [htaken (henroll.trans ((enroll_forces (z := z.numbered) hl h6).trans (force_passing ht))), hlow]
    rfl
  · exact htaken (henroll.trans ((enroll_bypasses (z := z.numbered) h6 hf).trans (bypass_eq hf)))
  · exact htaken (henroll.trans (enroll_inserts (z := z.numbered) h6 (Nat.ne_of_gt hf)))

end Sys2Proof.Machine
end

section
/-! The application of a passing: noted, implausible, and in full; its results; and the pit steps. -/

namespace Sys2Proof.Machine

open Host (Outcome)

/-! ## What an application comes to (R106 to R108, R117) -/

section Apply

variable {s : State} {a : Application}

theorem appliesInFull_iff (x : SessionState) (c : CompState) : appliesInFull x c = true ↔
    (x = .live ∨ x = .chequered) ∧ (c = .onTrack ∨ c = .inPit) := by
  simp [appliesInFull]

theorem received_eq (k : EngineCounts) (kind : ApplyKind) : k.received kind = match kind with
    | .settled => { k with settled := bump k.settled }
    | .forced => { k with forced := bump k.forced }
    | .poolEmpty => { k with poolEmpty := bump k.poolEmpty } := by
  cases kind <;> rfl

theorem notedPoint_map (r : CourseRole) : r.notedPoint.map Fin.val = match r with
    | .primary q => some q.val
    | .backup q => some q.val
    | .pitAlt _ => none
    | .none => none := by
  cases r <;> rfl

/-- The crossing of a loop, by its roles (R108). -/
theorem crossing_eq_some {r : LoopRec} {q : PointNo} : r.crossing = some q ↔
    r.role = .primary q ∨ r.role = .backup q ∨ (r.role = .pitAlt q ∧ r.pitRole ≠ .exit) := by
  unfold LoopRec.crossing
  cases r.role with
  | primary p => simp
  | backup p => simp
  | pitAlt p =>
    by_cases hx : r.pitRole = .exit
    · simp [hx]
    · simp [hx]
  | none => simp

theorem crossing_eq_none {r : LoopRec} (h : r.role = .none ∨ ∃ q, r.role = .pitAlt q ∧ r.pitRole = .exit) :
    r.crossing = none := by
  unfold LoopRec.crossing
  rcases h with h | ⟨q, h, hx⟩
  · rw [h]
  · rw [h]
    exact if_pos hx

theorem apply_noted (h : ¬ ((s.session.state = .live ∨ s.session.state = .chequered) ∧
      (s.engine.records[a.comp].state = .onTrack ∨ s.engine.records[a.comp].state = .inPit))) :
    s.apply a = s.finishWork a.comp ((s.ctx a).note (s.work a)) :=
  congrArg (s.finishWork a.comp) (if_neg fun hf => h ((appliesInFull_iff _ _).1 hf))

theorem apply_full (hs : s.session.state = .live ∨ s.session.state = .chequered)
    (hr : s.engine.records[a.comp].state = .onTrack ∨ s.engine.records[a.comp].state = .inPit) :
    s.apply a = s.finishWork a.comp ((s.ctx a).applyFull (s.work a)) :=
  congrArg (s.finishWork a.comp) (if_pos ((appliesInFull_iff _ _).2 ⟨hs, hr⟩))

/-- A work that leaves the competitor's record as it is. -/
theorem finishWork_kept {c : CompNo} {w : Work} (h : w.car = s.engine.records[c]) : s.finishWork c w = { s with
    engine := { s.engine with counts := w.counts }
    order := w.order
    session := { s.session with chequer := w.chequer }
    publisher := s.publisher.takeAll s.now w.results } := by
  have hset : s.engine.records.set c w.car = s.engine.records := by
    rw [h]
    exact Vector.set_getElem_self c.isLt
  unfold State.finishWork
  rw [hset]

theorem tooFast_iff (x : Ctx) (q : PointNo) (lp : LastPoint) : x.tooFast q lp = true ↔
    (x.passing.time : Int) - lp.time < x.course.required lp.point (skipped x.course.count lp.point q) :=
  decide_eq_true_iff

section Full

variable {x : Ctx} {w : Work} {q : PointNo}

theorem implausible_tooFast {lp : LastPoint} (he : w.car.entered = true) (hl : w.car.lastPoint = some lp)
    (ht : x.tooFast q lp = true) : x.implausible w (some q) = true := by
  unfold Ctx.implausible
  rw [hl, he]
  exact ht

theorem implausible_none : x.implausible w none = false := rfl

/-- A crossing that is no sooner than the minimum allows is plausible (R117). -/
theorem implausible_plausible (h : w.car.entered = false ∨ w.car.lastPoint = none ∨
    ∀ lp, w.car.lastPoint = some lp → x.tooFast q lp = false) : x.implausible w (some q) = false := by
  unfold Ctx.implausible
  cases hl : w.car.lastPoint with
  | none => rfl
  | some lp =>
    refine Bool.and_eq_false_iff.2 (h.imp_right fun h => ?_)
    exact h.elim (fun h => nomatch hl.symm.trans h) fun h => h lp hl

theorem applyFull_implausible (hc : x.loop.crossing = some q) (h : x.implausible w (some q) = true) :
    x.applyFull w = Work.emit { w with counts := { w.counts with implausible := bump w.counts.implausible } }
      { x.pass w (some q) with flags := { (x.pass w (some q)).flags with implausible := true } } := by
  unfold Ctx.applyFull
  rw [hc]
  exact if_pos h

theorem applyFull_crosses (hc : x.loop.crossing = some q) (h : x.implausible w (some q) = false) :
    x.applyFull w = x.finalStep (x.courseStep (x.trapStep (x.pitSteps w)) q) (some q) := by
  unfold Ctx.applyFull
  rw [hc]
  exact if_neg (h ▸ Bool.false_ne_true)

theorem applyFull_passes (hc : x.loop.crossing = none) :
    x.applyFull w = x.finalStep (x.trapStep (x.pitSteps w)) none := by
  unfold Ctx.applyFull
  rw [hc]
  exact if_neg (implausible_none ▸ Bool.false_ne_true)

end Full

end Apply

/-- Settles O27. -/
theorem notedAndImplausible : Obligations.NotedAndImplausible := by
  unfold Obligations.NotedAndImplausible
  refine ⟨fun s a h => ?_, fun s a q lp hs hr hc he hl ht => ?_⟩
  · dsimp only
    rw [apply_noted (by tauto)]
    unfold Ctx.note Ctx.pass
    rw [notedPoint_map]
    obtain ⟨kind, comp, p⟩ := a
    cases kind <;> rfl
  · have himplausible : (s.ctx a).implausible (s.work a) (some q) = true :=
      implausible_tooFast he hl ((tooFast_iff _ _ _).2 ht)
    dsimp only
    rw [apply_full hs hr, applyFull_implausible (x := s.ctx a) (crossing_eq_some.2 hc) himplausible]
    refine (finishWork_kept rfl).trans ?_
    obtain ⟨kind, comp, p⟩ := a
    cases kind <;> rfl

theorem finalStep_eq (x : Ctx) (w : Work) (crossing : Option PointNo) :
    x.finalStep w crossing = { w with
      results := if w.results = [] then [x.pass w crossing] else w.results
      car := { w.car with
        lastPoint := x.lastPointAfter w crossing
        lastApplied := some ⟨x.passing.time, x.passing.line⟩
        silenceAlerted := false
        silenceTestOwed := false }
      counts := { w.counts with appliedInFull := bump w.counts.appliedInFull } } := by
  obtain ⟨car, order, chequer, counts, results⟩ := w
  cases results <;> rfl

/-- Settles O28. -/
theorem fullApplication : Obligations.FullApplication := by
  unfold Obligations.FullApplication
  refine ⟨fun s a => ?_, fun x w crossing => ?_⟩
  · intro r loop k x start finished w hs hr hplausible
    have hfinish (w' : Work) : s.finishWork a.comp w' = finished w' := rfl
    have hstart : s.work a = start :=
      congrArg (fun k' => Work.mk r s.order s.session.chequer k' []) (received_eq k a.kind)
    refine ⟨fun q hq => ?_, fun hq => ?_⟩
    · have hc : loop.crossing = some q := crossing_eq_some.2 hq
      have himplausible : (s.ctx a).implausible (s.work a) (some q) = false := by
        refine implausible_plausible ((hplausible q hc).imp_right (.imp_right fun h lp hl => ?_))
        have hle : ((s.ctx a).course.required lp.point (skipped (s.ctx a).course.count lp.point q) : Int) ≤
            (s.ctx a).passing.time - lp.time := h lp hl
        exact Bool.eq_false_iff.2 fun hf => absurd ((tooFast_iff (s.ctx a) q lp).1 hf) (Int.not_lt.2 hle)
      rw [apply_full hs hr, applyFull_crosses (x := s.ctx a) hc himplausible, hstart]
      rfl
    · rw [apply_full hs hr, applyFull_passes (x := s.ctx a) (crossing_eq_none hq), hstart]
      rfl
  · dsimp only
    rw [finalStep_eq]
    cases crossing <;> rfl

/-! ## The results of one application (R106) -/

/-- The fields that every result of an application carries, from its passing and the race number (R106). -/
def Ctx.Carried (x : Ctx) (number : Nat) (r : Result) : Prop :=
  r.flags.withheld = x.passing.withhold ∧ r.flags.clampedTime = x.passing.clamped ∧
    r.competitor = some (x.comp, number) ∧ r.loop = some x.passing.loop ∧ r.time = x.passing.time

/-- A step that keeps the race number and adds at most `n` results, of the kinds of `P`, that carry the fields of
the passing. -/
structure Ctx.Emits (x : Ctx) (n : Nat) (P : ResultKind → Prop) (w w' : Work) : Prop where
  raceNumber : w'.car.raceNumber = w.car.raceNumber
  results : ∃ l, w'.results = w.results ++ l ∧ l.length ≤ n ∧
    ∀ r ∈ l, P r.kind ∧ x.Carried w.car.raceNumber r

namespace Ctx.Emits

variable {x : Ctx} {n m : Nat} {P : ResultKind → Prop} {w w' w'' : Work}

theorem none (hn : w'.car.raceNumber = w.car.raceNumber) (hr : w'.results = w.results) : x.Emits n P w w' :=
  ⟨hn, [], hr.trans (List.append_nil _).symm, Nat.zero_le n, fun _ h => nomatch h⟩

theorem one {r : Result} (hn : w'.car.raceNumber = w.car.raceNumber) (hr : w'.results = w.results ++ [r])
    (hk : P r.kind) (hc : x.Carried w.car.raceNumber r) : x.Emits 1 P w w' :=
  ⟨hn, [r], hr, Nat.le_refl 1, fun _ hy => List.mem_singleton.1 hy ▸ ⟨hk, hc⟩⟩

theorem mono (h : x.Emits n P w w') (hnm : n ≤ m) : x.Emits m P w w' := by
  obtain ⟨hn, l, hr, hl, hall⟩ := h
  exact ⟨hn, l, hr, hl.trans hnm, hall⟩

theorem trans (h : x.Emits n P w w') (g : x.Emits m P w' w'') : x.Emits (n + m) P w w'' := by
  obtain ⟨hn, l, hr, hl, hall⟩ := h
  obtain ⟨gn, l', gr, gl, gall⟩ := g
  refine ⟨gn.trans hn, l ++ l', by rw [gr, hr, List.append_assoc], ?_, fun r hm => ?_⟩
  · rw [List.length_append]
    exact Nat.add_le_add hl gl
  · exact (List.mem_append.1 hm).elim (hall r) fun hm => hn ▸ gall r hm

end Ctx.Emits

section Steps

variable (x : Ctx) (w : Work)

theorem pitMove_emits (kind : ResultKind) (b b' : Bool) (lane : Option (Nat × Bool)) {P : ResultKind → Prop}
    (h : P kind) : x.Emits 1 P w (w.pitMove (x.pitResult w kind b b' lane)) :=
  .one rfl rfl h ⟨rfl, rfl, rfl, rfl, rfl⟩

/-- The kinds of the pit steps (R109, R110). -/
abbrev PitKind (k : ResultKind) : Prop := k = .pitIn ∨ k = .pitOut

/-- A change of the record that keeps the race number, and one pit result. -/
theorem carMove_emits (car : Competitor) (hn : car.raceNumber = w.car.raceNumber) (kind : ResultKind) (b b' : Bool)
    (lane : Option (Nat × Bool)) (h : PitKind kind) :
    x.Emits 1 PitKind w (Work.pitMove { w with car := car } (x.pitResult { w with car := car } kind b b' lane)) :=
  Ctx.Emits.trans (n := 0) (w' := { w with car := car }) (.none hn rfl)
    (pitMove_emits x { w with car := car } kind b b' lane h)

theorem inferPit_emits : x.Emits 1 PitKind w (x.inferPit w) := by
  unfold Ctx.inferPit
  split
  · exact carMove_emits x w (w.car.pitIn x.passing.time) rfl _ _ _ _ (.inl rfl)
  · exact carMove_emits x w w.car.pitOut rfl _ _ _ _ (.inr rfl)
  · exact carMove_emits x w w.car.pitOut rfl _ _ _ _ (.inr rfl)
  · exact .none rfl rfl

theorem pitStep_emits {w' : Work} (h : x.pitStep w = some w') : x.Emits 2 PitKind w w' := by
  unfold Ctx.pitStep at h
  split at h
  · obtain rfl := Option.some.inj h
    exact (carMove_emits x w (w.car.pitIn x.passing.time) rfl _ _ _ _ (.inl rfl)).mono (Nat.le_succ 1)
  · obtain rfl := Option.some.inj h
    exact (carMove_emits x w (w.car.pitIn x.passing.time) rfl _ _ _ _ (.inr rfl)).trans (pitMove_emits x _ _ _ _ _ (.inl rfl))
  · obtain rfl := Option.some.inj h
    exact (carMove_emits x w w.car.pitOut rfl _ _ _ _ (.inr rfl)).mono (Nat.le_succ 1)
  · obtain rfl := Option.some.inj h
    exact (carMove_emits x w w.car.pitSeen rfl _ _ _ _ (.inr rfl)).mono (Nat.le_succ 1)
  · cases h

theorem pitSteps_emits : x.Emits 2 PitKind w (x.pitSteps w) := by
  unfold Ctx.pitSteps
  split
  next h => exact pitStep_emits x w h
  next => exact (inferPit_emits x w).mono (Nat.le_succ 1)

/-- The kind of the trap step (R112). -/
abbrev TrapKind (k : ResultKind) : Prop := k = .trap

theorem trapEnd_emits (i : Fin 4) (t : Trap) : x.Emits 1 TrapKind w (x.trapEnd i t w) := by
  unfold Ctx.trapEnd
  split
  · exact .none rfl rfl
  · dsimp only
    split
    · exact .one rfl rfl rfl ⟨rfl, rfl, rfl, rfl, rfl⟩
    · exact .none rfl rfl

theorem trapEntry_emits (i : Fin 4) : x.Emits 1 TrapKind w (x.trapEntry w i) := by
  have hbegin (v : Work) : x.Emits 0 TrapKind v (x.trapBegin i v) := .none rfl rfl
  unfold Ctx.trapEntry
  split
  · exact .none rfl rfl
  next t _ =>
    dsimp only
    split <;> split
    · exact (trapEnd_emits x w i t).trans (hbegin _)
    · exact (hbegin w).mono (Nat.zero_le 1)
    · exact trapEnd_emits x w i t
    · exact .none rfl rfl

theorem trapEntries_emits (l : List (Fin 4)) : x.Emits l.length TrapKind w (l.foldl x.trapEntry w) := by
  induction l generalizing w with
  | nil => exact .none rfl rfl
  | cons i l ih =>
    refine ((trapEntry_emits x w i).trans (ih _)).mono ?_
    rw [List.length_cons, Nat.add_comm]

theorem trapStep_emits : x.Emits 4 TrapKind w (x.trapStep w) := trapEntries_emits x w (allFin 4)

/-- The place of a result changes neither its kind nor what it takes from the passing. -/
theorem placed_carried {r : Result} (o : Order) (rs : Records) (c : CompNo) {number : Nat}
    (h : x.Carried number r) : (r.placed o rs c).kind = r.kind ∧ x.Carried number (r.placed o rs c) := by
  unfold Result.placed
  split <;> exact ⟨rfl, h⟩

/-- The kind of the closing of a sector (R118). -/
abbrev SectorKind (k : ResultKind) : Prop := k = .sector

/-- The kinds of the result that ends an application (R123, R126). -/
abbrev LastKind (k : ResultKind) : Prop := k = .lap ∨ k = .pass

theorem closeSector_emits (lp : LastPoint) (n : Nat) : x.Emits 1 SectorKind w (x.closeSector w lp n) :=
  .one rfl rfl rfl ⟨rfl, rfl, rfl, rfl, rfl⟩

theorem enter_emits : x.Emits 1 LastKind w (x.enter w) := by
  obtain ⟨hkind, hcarried⟩ := placed_carried x (number := w.car.raceNumber)
    (w.order.place (x.records.set x.comp (w.car.enter x.passing.time x.passing.quality x.neutral)) x.comp)
    (x.records.set x.comp (w.car.enter x.passing.time x.passing.quality x.neutral)) x.comp
    (r := { x.result w .pass with
      flags := { (x.result w .pass).flags with entered := true }
      point := some 0 }) ⟨rfl, rfl, rfl, rfl, rfl⟩
  exact .one rfl rfl (.inr hkind) hcarried

theorem newLap_withBest_raceNumber (r : Competitor) (lap : Nat) (bests : Option (Nat × Bool × Bool)) (q : Quality)
    (b : Bool) : ((r.withBest lap bests).newLap q b).raceNumber = r.raceNumber := by
  unfold Competitor.withBest
  split <;> rfl

theorem completeLap_emits (inferred : Bool) : x.Emits 1 LastKind w (x.completeLap w inferred) := by
  unfold Ctx.completeLap
  dsimp only
  generalize w.chequer.answer w.order.list.head? x.comp = answer
  obtain ⟨hkind, hcarried⟩ := placed_carried x (number := w.car.raceNumber)
    ((w.order.place (x.records.set x.comp (x.lapRecord w inferred answer.1)) x.comp).withBest x.comp
      (x.lapRecord w inferred answer.1).laps (x.lapBests w inferred))
    (x.records.set x.comp (x.lapRecord w inferred answer.1)) x.comp
    (r := x.lapResult w inferred answer.1 (x.lapRecord w inferred answer.1).laps) ⟨rfl, rfl, rfl, rfl, rfl⟩
  exact .one (newLap_withBest_raceNumber _ _ _ _ _) rfl (.inl hkind) hcarried

/-- The course step closes at most one sector, and then ends with at most one result (R114 to R122). -/
theorem courseStep_emits (q : PointNo) :
    ∃ v, x.Emits 1 SectorKind w v ∧ x.Emits 1 LastKind v (x.courseStep w q) := by
  unfold Ctx.courseStep
  split
  · split
    · exact ⟨w, .none rfl rfl, .none rfl rfl⟩
    next lp _ =>
      refine ⟨x.closeSector w lp (skipped x.course.count lp.point q), closeSector_emits x w lp _, ?_⟩
      unfold Ctx.measured
      dsimp only
      split
      · exact completeLap_emits x _ false
      · split
        · exact completeLap_emits x _ true
        · exact .none rfl rfl
  · split
    · exact ⟨w, .none rfl rfl, enter_emits x w⟩
    · exact ⟨w, .none rfl rfl, .none rfl rfl⟩

/-- The final step adds a PASS where nothing else was reported (R126). -/
theorem finalStep_emits (crossing : Option PointNo) : x.Emits 1 LastKind w (x.finalStep w crossing) := by
  rw [finalStep_eq]
  by_cases h : w.results = []
  · refine .one rfl ?_ (r := x.pass w crossing) (.inr rfl) ⟨rfl, rfl, rfl, rfl, rfl⟩
    rw [if_pos h, h, List.nil_append]
  · exact .none rfl (if_neg h)

theorem finalStep_results_ne_nil (crossing : Option PointNo) : (x.finalStep w crossing).results ≠ [] := by
  rw [finalStep_eq]
  dsimp only
  split
  next => exact List.cons_ne_nil _ _
  next h => exact h

theorem finalStep_results_eq (crossing : Option PointNo) (h : w.results ≠ []) :
    (x.finalStep w crossing).results = w.results := by
  rw [finalStep_eq]
  exact if_neg h

end Steps

/-- The results of an application, in order (R106). -/
structure Ctx.Reports (x : Ctx) (number : Nat) (rs : List Result) : Prop where
  ne_nil : rs ≠ []
  parts : ∃ pits traps sectors last, rs = pits ++ traps ++ sectors ++ last ∧
    (pits.length ≤ 2 ∧ ∀ r ∈ pits, PitKind r.kind ∧ x.Carried number r) ∧
    (traps.length ≤ 4 ∧ ∀ r ∈ traps, TrapKind r.kind ∧ x.Carried number r) ∧
    (sectors.length ≤ 1 ∧ ∀ r ∈ sectors, SectorKind r.kind ∧ x.Carried number r) ∧
    (last.length ≤ 1 ∧ ∀ r ∈ last, LastKind r.kind ∧ x.Carried number r)

/-- One result of the last kind alone. -/
theorem reports_one {x : Ctx} {number : Nat} {r : Result} (hk : LastKind r.kind) (hc : x.Carried number r) :
    x.Reports number [r] :=
  ⟨List.cons_ne_nil _ _, [], [], [], [r], rfl, ⟨by decide, by simp⟩, ⟨by decide, by simp⟩, ⟨by decide, by simp⟩,
    Nat.le_refl 1, fun _ hy => List.mem_singleton.1 hy ▸ ⟨hk, hc⟩⟩

/-- The steps of a full application in their order (R108). -/
theorem reports_steps {x : Ctx} {w w₁ w₂ w₃ w₄ : Work} {crossing : Option PointNo} (hw : w.results = [])
    (h₁ : x.Emits 2 PitKind w w₁) (h₂ : x.Emits 4 TrapKind w₁ w₂) (h₃ : x.Emits 1 SectorKind w₂ w₃)
    (h₄ : x.Emits 1 LastKind w₃ w₄) : x.Reports w.car.raceNumber (x.finalStep w₄ crossing).results := by
  refine ⟨finalStep_results_ne_nil x w₄ crossing, ?_⟩
  obtain ⟨hn₁, pits, hr₁, hl₁, hall₁⟩ := h₁
  obtain ⟨hn₂, traps, hr₂, hl₂, hall₂⟩ := h₂
  obtain ⟨hn₃, sectors, hr₃, hl₃, hall₃⟩ := h₃
  obtain ⟨hn₄, last, hr₄, hl₄, hall₄⟩ := h₄
  obtain ⟨-, final, hr, hl, hall⟩ := finalStep_emits x w₄ crossing
  rw [hn₁] at hn₂ hall₂
  rw [hn₂] at hn₃ hall₃
  rw [hn₃] at hn₄ hall₄
  rw [hn₄] at hall
  rw [hw, List.nil_append] at hr₁
  rw [hr₁] at hr₂
  rw [hr₂] at hr₃
  rw [hr₃] at hr₄
  by_cases hempty : w₄.results = []
  · have hlast : last = [] := (List.append_eq_nil_iff.1 (hr₄.symm.trans hempty)).2
    rw [hr₄, hlast, List.append_nil] at hr
    exact ⟨pits, traps, sectors, final, hr, ⟨hl₁, hall₁⟩, ⟨hl₂, hall₂⟩, ⟨hl₃, hall₃⟩, ⟨hl, hall⟩⟩
  · rw [finalStep_results_eq x w₄ crossing hempty]
    exact ⟨pits, traps, sectors, last, hr₄, ⟨hl₁, hall₁⟩, ⟨hl₂, hall₂⟩, ⟨hl₃, hall₃⟩, ⟨hl₄, hall₄⟩⟩

theorem apply_reports (x : Ctx) (w : Work) (hw : w.results = []) :
    x.Reports w.car.raceNumber (x.apply w).results := by
  unfold Ctx.apply
  split
  · have hpits := pitSteps_emits x w
    have htraps := trapStep_emits x (x.pitSteps w)
    cases hc : x.loop.crossing with
    | none =>
      rw [applyFull_passes hc]
      exact reports_steps hw hpits htraps (.none rfl rfl) (.none rfl rfl)
    | some q =>
      cases himplausible : x.implausible w (some q) with
      | true =>
        rw [applyFull_implausible hc himplausible]
        unfold Work.emit
        rw [hw]
        exact reports_one (.inr rfl) ⟨rfl, rfl, rfl, rfl, rfl⟩
      | false =>
        rw [applyFull_crosses hc himplausible]
        obtain ⟨v, hsector, hlast⟩ := courseStep_emits x (x.trapStep (x.pitSteps w)) q
        exact reports_steps hw hpits htraps hsector hlast
  · unfold Ctx.note Work.emit
    dsimp only
    rw [hw]
    exact reports_one (.inr rfl) ⟨rfl, rfl, rfl, rfl, rfl⟩

/-- Settles O29. -/
theorem applicationResults : Obligations.ApplicationResults := by
  unfold Obligations.ApplicationResults
  intro s a w
  obtain ⟨hne, pits, traps, sectors, last, hresults, ⟨hlp, hp⟩, ⟨hlt, ht⟩, ⟨hls, hs⟩, ⟨hll, hl⟩⟩ :=
    apply_reports (s.ctx a) (s.work a) rfl
  refine ⟨rfl, hne, ⟨pits, traps, sectors, last, hresults, hlp, fun r hr => (hp r hr).1, hlt,
    fun r hr => (ht r hr).1, hls, fun r hr => (hs r hr).1, hll, fun r hr => (hl r hr).1⟩, fun r hr => ?_⟩
  rw [hresults] at hr
  rcases List.mem_append.1 hr with hr | hr
  · rcases List.mem_append.1 hr with hr | hr
    · exact (List.mem_append.1 hr).elim (fun hr => (hp r hr).2) fun hr => (ht r hr).2
    · exact (hs r hr).2
  · exact (hl r hr).2

end Sys2Proof.Machine
end

section
/-! The pit steps, the course step, the closing of a sector, and the completion of a lap. -/

namespace Sys2Proof.Machine

/-! ## The pit steps (R109, R110) -/

section Pit

variable {x : Ctx} {w : Work}

theorem pitSteps_some {w' : Work} (h : x.pitStep w = some w') : x.pitSteps w = w' := by
  unfold Ctx.pitSteps
  rw [h]

theorem pitSteps_none (h : x.pitStep w = none) : x.pitSteps w = x.inferPit w := by
  unfold Ctx.pitSteps
  rw [h]

/-- A loop that is neither an entry nor an exit makes no pit step. -/
theorem pitStep_none (h1 : x.loop.pitRole ≠ .entry) (h2 : x.loop.pitRole ≠ .exit) : x.pitStep w = none := by
  unfold Ctx.pitStep
  split
  next h _ => exact absurd h h1
  next h _ => exact absurd h h1
  next h _ => exact absurd h h2
  next h _ => exact absurd h h2
  next => rfl

theorem pitStep_entry_onTrack (hl : x.loop.pitRole = .entry) (hs : w.car.state = .onTrack) : x.pitStep w =
    let w' := { w with car := w.car.pitIn x.passing.time }
    some (w'.pitMove (x.pitResult w' .pitIn false false none)) := by
  unfold Ctx.pitStep
  rw [hl, hs]

theorem pitStep_entry_inPit (hl : x.loop.pitRole = .entry) (hs : w.car.state = .inPit) : x.pitStep w =
    let w₁ := { w with car := w.car.pitIn x.passing.time }
    let w₂ := w₁.pitMove (x.pitResult w₁ .pitOut false true none)
    some (w₂.pitMove (x.pitResult w₂ .pitIn false false none)) := by
  unfold Ctx.pitStep
  rw [hl, hs]

theorem pitStep_exit_inPit (hl : x.loop.pitRole = .exit) (hs : w.car.state = .inPit) : x.pitStep w =
    let w' := { w with car := w.car.pitOut }
    some (w'.pitMove (x.pitResult w' .pitOut false false
      (w.car.pitEntry.map fun e => elapsedTU x.passing.time e))) := by
  unfold Ctx.pitStep
  rw [hl, hs]

theorem pitStep_exit_onTrack (hl : x.loop.pitRole = .exit) (hs : w.car.state = .onTrack) : x.pitStep w =
    let w' := { w with car := w.car.pitSeen }
    some (w'.pitMove (x.pitResult w' .pitOut true false none)) := by
  unfold Ctx.pitStep
  rw [hl, hs]

theorem inferPit_alt {q : PointNo} (hr : x.loop.role = .pitAlt q) (hs : w.car.state = .onTrack) : x.inferPit w =
    let w' := { w with car := w.car.pitIn x.passing.time }
    w'.pitMove (x.pitResult w' .pitIn true false none) := by
  unfold Ctx.inferPit
  rw [hr, hs]

theorem inferPit_main {q : PointNo} (hr : x.loop.role = .primary q ∨ x.loop.role = .backup q)
    (hs : w.car.state = .inPit) : x.inferPit w =
      let w' := { w with car := w.car.pitOut }
      w'.pitMove (x.pitResult w' .pitOut false true none) := by
  unfold Ctx.inferPit
  rcases hr with hr | hr
  all_goals rw [hr, hs]

theorem inferPit_not_alt (hr : ¬ ∃ q, x.loop.role = .pitAlt q) (hs : w.car.state = .onTrack) : x.inferPit w = w := by
  unfold Ctx.inferPit
  split
  next q h _ => exact absurd ⟨q, h⟩ hr
  next h => exact nomatch hs.symm.trans h
  next h => exact nomatch hs.symm.trans h
  next => rfl

theorem inferPit_not_main (hr : ¬ ∃ q, x.loop.role = .primary q ∨ x.loop.role = .backup q)
    (hs : w.car.state = .inPit) : x.inferPit w = w := by
  unfold Ctx.inferPit
  split
  next h => exact nomatch hs.symm.trans h
  next q h _ => exact absurd ⟨q, .inl h⟩ hr
  next q h _ => exact absurd ⟨q, .inr h⟩ hr
  next => rfl

/-- The reported time in the pit lane, where it is known. -/
theorem lane_elapsed (entry : Option Nat) (now : Nat) :
    (entry.map fun e => elapsedTU now e) =
      (entry.map fun e => now - e).map fun us => (min (us / 100) 16777215, decide (16777215 < us / 100)) := by
  cases entry with
  | none => rfl
  | some e => exact congrArg some (toTU_eq (now - e))

end Pit

/-- Settles O30. -/
theorem pitMoves : Obligations.PitMoves := by
  unfold Obligations.PitMoves
  intro x w
  refine ⟨fun hl hs => pitSteps_some (pitStep_entry_onTrack hl hs), fun hl hs => ?_, fun hl hs => ?_,
    fun hl hs => pitSteps_some (pitStep_exit_onTrack hl hs), fun h1 h2 => ⟨?_, ?_, ?_, ?_⟩⟩
  · refine (pitSteps_some (pitStep_entry_inPit hl hs)).trans ?_
    simp only [Work.pitMove, Work.emit, List.append_assoc]
    rfl
  · refine (pitSteps_some (pitStep_exit_inPit hl hs)).trans ?_
    rw [lane_elapsed]
    cases w.car.pitEntry <;> rfl
  all_goals rw [pitSteps_none (pitStep_none h1 h2)]
  · exact fun ⟨q, hq⟩ hs => inferPit_alt hq hs
  · exact fun ⟨q, hq⟩ hs => inferPit_main hq hs
  · exact inferPit_not_alt
  · exact inferPit_not_main

/-! ## The course step (R114 to R116, R122) -/

section Course

variable {x : Ctx} {w : Work} {q : PointNo}

theorem courseStep_enters (he : w.car.entered = false) (hq : q = 0) (hc : w.chequer ≠ .taken) :
    x.courseStep w q = x.enter w := by
  unfold Ctx.courseStep
  rw [if_neg (he ▸ Bool.false_ne_true), if_pos ⟨hq, hc⟩]

theorem courseStep_out (he : w.car.entered = false) (h : q ≠ 0 ∨ w.chequer = .taken) : x.courseStep w q = w := by
  unfold Ctx.courseStep
  rw [if_neg (he ▸ Bool.false_ne_true), if_neg fun ⟨hq, hc⟩ => h.elim (absurd hq) hc]

theorem courseStep_resumes (he : w.car.entered = true) (hl : w.car.lastPoint = none) :
    x.courseStep w q = x.resume w q := by
  unfold Ctx.courseStep
  rw [if_pos he, hl]

theorem courseStep_measures (he : w.car.entered = true) {lp : LastPoint} (hl : w.car.lastPoint = some lp) :
    x.courseStep w q = x.measured w q lp := by
  unfold Ctx.courseStep
  rw [if_pos he, hl]

theorem passesFinish_iff (p q : PointNo) (n : Nat) : passesFinish p q n = true ↔ n ≠ 0 ∧ q ≠ 0 ∧ q ≤ p := by
  simp [passesFinish, and_assoc]

end Course

/-- Settles O32. -/
theorem courseStep : Obligations.CourseStep := by
  unfold Obligations.CourseStep
  refine ⟨fun x w q he => ⟨courseStep_enters he, courseStep_out he⟩, fun x w q he hl => courseStep_resumes he hl,
    fun x w q lp he hl => ⟨fun hq => ?_, fun hq hn hle => ?_, fun hq h => ?_⟩⟩
  all_goals
    rw [courseStep_measures he hl]
    unfold Ctx.measured
    dsimp only
  · rw [if_pos hq]
    rfl
  · have hpasses : passesFinish lp.point q (skipped x.course.count lp.point q) = true :=
      (passesFinish_iff ..).2 ⟨hn, hq, hle⟩
    rw [if_neg hq, if_pos hpasses]
    rfl
  · have hno : ¬ passesFinish lp.point q (skipped x.course.count lp.point q) = true := fun hp => by
      obtain ⟨hn, -, hle⟩ := (passesFinish_iff ..).1 hp
      exact h.elim hn fun hlt => absurd hle (not_le.2 hlt)
    rw [if_neg hq, if_neg hno]
    rfl

/-! ## The closing of a sector (R118 to R120) -/

section Sector

/-- A position that a sector leaves unknown (R119). -/
def clearSector (m : Nat) (v : Vector (Option SectorTime) 16) : Vector (Option SectorTime) 16 :=
  match finOf? 16 m with
  | some i => v.set i none
  | none => v

theorem clearSector_get (m : Nat) (v : Vector (Option SectorTime) 16) (i : PointNo) :
    (clearSector m v)[i] = if m = i.val then none else v[i] := by
  unfold clearSector
  by_cases hm : m < 16
  · rw [(finOf_eq_some ⟨m, hm⟩).2 rfl]
    refine (set_get v ⟨m, hm⟩ i none).trans ?_
    simp only [Fin.ext_iff, eq_comm]
  · rw [finOf_eq_none.2 (Nat.not_lt.1 hm), if_neg (by omega)]

theorem clearSectors_list (n : Nat) (p : PointNo) (l : List Nat) (v : Vector (Option SectorTime) 16) (i : PointNo) :
    (l.foldl (fun v j => clearSector ((p.val + j) % n) v) v)[i] =
      if ∃ j ∈ l, (p.val + j) % n = i.val then none else v[i] := by
  induction l generalizing v with
  | nil => simp
  | cons j l ih =>
    rw [List.foldl_cons, ih, clearSector_get]
    by_cases hj : (p.val + j) % n = i.val
    · simp [hj]
    · simp [hj]

theorem clearSectors_get (n : Nat) (p : PointNo) (k : Nat) (v : Vector (Option SectorTime) 16) (i : PointNo) :
    (clearSectors n p k v)[i] = if ∃ j, j ≤ k ∧ (p.val + j) % n = i.val then none else v[i] := by
  have hfold : clearSectors n p k v =
      (List.range (k + 1)).foldl (fun v j => clearSector ((p.val + j) % n) v) v := rfl
  rw [hfold, clearSectors_list]
  simp only [List.mem_range, Nat.lt_succ_iff]

theorem beatsTime_iff (held : Option Nat) (t : Nat) : beatsTime held t = true ↔ ∀ b, held = some b → t < b := by
  unfold beatsTime
  cases held with
  | none => simp
  | some b => simp

variable {x : Ctx} {w : Work} {lp : LastPoint} {n : Nat}

theorem bestSector_iff : x.bestSector w lp n = true ↔ n = 0 ∧ w.car.sectorNeutral = false ∧
    w.car.sectorPit = false ∧ (x.passing.time - lp.time) / 100 ≤ 16777215 ∧
    ∀ b, w.car.bestSectors[lp.point] = some b → x.passing.time - lp.time < b := by
  unfold Ctx.bestSector elapsedTU
  rw [toTU_snd]
  simp only [Bool.and_eq_true, decide_eq_true_eq, Bool.not_eq_true', beatsTime_iff, decide_eq_false_iff_not,
    not_lt, and_assoc]

/-- The best sectors change exactly where the time sets the best. -/
theorem bestSectors_changed (h : x.bestSector w lp n = true) :
    w.car.bestSectors.set lp.point (some (x.passing.time - lp.time)) ≠ w.car.bestSectors := fun heq => by
  obtain ⟨-, -, -, -, hbest⟩ := bestSector_iff.1 h
  have hget : w.car.bestSectors[lp.point] = some (x.passing.time - lp.time) := by
    rw [← heq, set_get_same]
  exact absurd (hbest _ hget) (Nat.lt_irrefl _)

theorem closeSector_bestSectors : (x.closeSector w lp n).car.bestSectors =
    if x.bestSector w lp n then w.car.bestSectors.set lp.point (some (x.passing.time - lp.time))
    else w.car.bestSectors := rfl

/-- The personal best of a SECTOR result tells whether the best sectors have changed (R120). -/
theorem bestSector_eq : x.bestSector w lp n =
    !decide ((x.closeSector w lp n).car.bestSectors = w.car.bestSectors) := by
  rw [closeSector_bestSectors]
  cases h : x.bestSector w lp n with
  | false => simp
  | true => simp [bestSectors_changed h]

theorem sectorTable_closed (h : n = 0) : x.sectorTable w lp n = w.car.sectors.set lp.point
    (some ⟨x.passing.time - lp.time, lp.quality.worse x.passing.quality, w.car.sectorNeutral, w.car.sectorPit⟩) :=
  if_pos h

theorem sectorTable_merged (h : n ≠ 0) :
    x.sectorTable w lp n = clearSectors x.course.count lp.point n w.car.sectors := if_neg h

theorem sectorResult_eq : x.sectorResult w lp n = { x.result w .sector with
    flags := { (x.result w .sector).flags with
      saturated := decide (16777215 < (x.passing.time - lp.time) / 100)
      merged := decide (n ≠ 0)
      neutral := w.car.sectorNeutral
      pit := w.car.sectorPit }
    quality := some (lp.quality.worse x.passing.quality)
    point := some lp.point.val
    span := some (n + 1)
    value := some ((min ((x.passing.time - lp.time) / 100) 16777215 : Nat) : Int) } := by
  unfold Ctx.sectorResult elapsedTU
  rw [toTU_eq]

end Sector

/-- Settles O33. -/
theorem sectorClosing : Obligations.SectorClosing := by
  unfold Obligations.SectorClosing
  intro x w lp n r p us worse best
  refine ⟨x.closeSector w lp n, rfl, rfl, rfl, fun h => ⟨if_pos h, sectorTable_closed h⟩,
    fun h => ⟨if_neg h, fun i => ?_⟩, fun h => if_pos (bestSector_iff.2 h),
    fun h => if_neg fun hb => h (bestSector_iff.1 hb), ?_⟩
  · have htable : (x.closeSector w lp n).car.sectors = clearSectors x.course.count lp.point n r.sectors :=
      sectorTable_merged h
    rw [htable, clearSectors_get]
  · rw [← bestSector_eq]
    show w.results ++ [{ x.sectorResult w lp n with
      flags := { (x.sectorResult w lp n).flags with personalBest := x.bestSector w lp n } }] = _
    rw [sectorResult_eq]
    rfl

/-! ## The completion of a lap (R121 to R125, R144, R145) -/

section Lap

variable {x : Ctx} {w : Work} {inferred : Bool}

theorem beats_iff (o : Order) (t : Nat) : o.beats t = true ↔ ∀ b, o.best = some b → t < b.time := by
  unfold Order.beats
  cases o.best with
  | none => simp
  | some b => simp

theorem beatsBest_iff (r : Competitor) (t : Nat) :
    beatsTime (r.bestLap.map BestLap.time) t = true ↔ ∀ b, r.bestLap = some b → t < b.time := by
  rw [beatsTime_iff]
  cases r.bestLap with
  | none => simp
  | some b => simp

theorem qualifies_iff (r : Competitor) (t : Nat) :
    r.qualifies t = true ↔ r.lapNeutral = false ∧ r.lapPit = false ∧ t / 100 ≤ 16777215 := by
  unfold Competitor.qualifies
  rw [toTU_snd]
  simp only [Bool.and_eq_true, Bool.not_eq_true', decide_eq_false_iff_not, not_lt, and_assoc]

/-- The lap time sets the personal best (R124). -/
def Ctx.personal (x : Ctx) (w : Work) (inferred : Bool) : Bool :=
  ((x.lapBests w inferred).map fun b => b.2.1).getD false

/-- The lap time sets the session best (R124, R154). -/
def Ctx.sessional (x : Ctx) (w : Work) (inferred : Bool) : Bool :=
  ((x.lapBests w inferred).map fun b => b.2.2).getD false

/-- A lap has bests where it has a time that qualifies (R124). -/
theorem lapBests_cases (x : Ctx) (w : Work) (inferred : Bool) :
    (x.lapBests w inferred = none ∧ ∀ t, x.lapTime w inferred = some t → ¬ w.car.qualifies t = true) ∨
      ∃ t, x.lapTime w inferred = some t ∧ w.car.qualifies t = true ∧
        x.lapBests w inferred = some (t, beatsTime (w.car.bestLap.map BestLap.time) t, w.order.beats t) := by
  unfold Ctx.lapBests
  cases h : x.lapTime w inferred with
  | none => exact .inl ⟨rfl, nofun⟩
  | some t =>
    by_cases hq : w.car.qualifies t = true
    · exact .inr ⟨t, rfl, hq, if_pos hq⟩
    · exact .inl ⟨if_neg hq, fun t' ht => Option.some.inj ht ▸ hq⟩

theorem personal_iff : x.personal w inferred = true ↔ ∃ t, x.lapTime w inferred = some t ∧
    w.car.qualifies t = true ∧ ∀ b, w.car.bestLap = some b → t < b.time := by
  unfold Ctx.personal
  rcases lapBests_cases x w inferred with ⟨h, hno⟩ | ⟨t, ht, hq, h⟩
  · rw [h]
    exact ⟨nofun, fun ⟨t, ht, hq, _⟩ => absurd hq (hno t ht)⟩
  · rw [h, ht]
    simp [hq, beatsBest_iff]

theorem sessional_iff : x.sessional w inferred = true ↔ ∃ t, x.lapTime w inferred = some t ∧
    w.car.qualifies t = true ∧ ∀ b, w.order.best = some b → t < b.time := by
  unfold Ctx.sessional
  rcases lapBests_cases x w inferred with ⟨h, hno⟩ | ⟨t, ht, hq, h⟩
  · rw [h]
    exact ⟨nofun, fun ⟨t, ht, hq, _⟩ => absurd hq (hno t ht)⟩
  · rw [h, ht]
    simp [hq, beats_iff]

theorem withBest_personal {r : Competitor} {lap t : Nat} (ht : x.lapTime w inferred = some t)
    (hp : x.personal w inferred = true) : (r.withBest lap (x.lapBests w inferred)).bestLap = some ⟨t, lap⟩ := by
  unfold Ctx.personal at hp
  rcases lapBests_cases x w inferred with ⟨h, -⟩ | ⟨t', ht', -, h⟩
  · rw [h] at hp
    exact absurd hp Bool.false_ne_true
  · obtain rfl := Option.some.inj (ht.symm.trans ht')
    rw [h] at hp ⊢
    have hbeats : beatsTime (w.car.bestLap.map BestLap.time) t = true := hp
    rw [hbeats]
    rfl

theorem withBest_not_personal {r : Competitor} {lap : Nat} (hp : x.personal w inferred = false) :
    r.withBest lap (x.lapBests w inferred) = r := by
  unfold Ctx.personal at hp
  rcases lapBests_cases x w inferred with ⟨h, -⟩ | ⟨t, -, -, h⟩
  · rw [h]
    rfl
  · rw [h] at hp ⊢
    have hbeats : beatsTime (w.car.bestLap.map BestLap.time) t = false := hp
    rw [hbeats]
    rfl

theorem withBest_sessional {o : Order} {c : CompNo} {lap t : Nat} (ht : x.lapTime w inferred = some t)
    (hp : x.sessional w inferred = true) : (o.withBest c lap (x.lapBests w inferred)).best = some ⟨t, c, lap⟩ := by
  unfold Ctx.sessional at hp
  rcases lapBests_cases x w inferred with ⟨h, -⟩ | ⟨t', ht', -, h⟩
  · rw [h] at hp
    exact absurd hp Bool.false_ne_true
  · obtain rfl := Option.some.inj (ht.symm.trans ht')
    rw [h] at hp ⊢
    have hbeats : w.order.beats t = true := hp
    rw [hbeats]
    rfl

theorem withBest_not_sessional {o : Order} {c : CompNo} {lap : Nat} (hp : x.sessional w inferred = false) :
    o.withBest c lap (x.lapBests w inferred) = o := by
  unfold Ctx.sessional at hp
  rcases lapBests_cases x w inferred with ⟨h, -⟩ | ⟨t, -, -, h⟩
  · rw [h]
    rfl
  · rw [h] at hp ⊢
    have hbeats : w.order.beats t = false := hp
    rw [hbeats]
    rfl

/-- The personal best of a LAP result tells whether the best lap has changed. -/
theorem personal_eq {r : Competitor} (lap : Nat) (hr : r.bestLap = w.car.bestLap) : x.personal w inferred =
    !decide ((r.withBest lap (x.lapBests w inferred)).bestLap = w.car.bestLap) := by
  cases hp : x.personal w inferred with
  | false => simp [withBest_not_personal hp, hr]
  | true =>
    obtain ⟨t, ht, -, hbest⟩ := personal_iff.1 hp
    have hne : some ⟨t, lap⟩ ≠ w.car.bestLap := fun h => absurd (hbest _ h.symm) (Nat.lt_irrefl t)
    simp [withBest_personal ht hp, hne]

/-- The session best of a LAP result tells whether the session best has changed. -/
theorem sessional_eq {o : Order} (c : CompNo) (lap : Nat) (ho : o.best = w.order.best) : x.sessional w inferred =
    !decide ((o.withBest c lap (x.lapBests w inferred)).best = w.order.best) := by
  cases hp : x.sessional w inferred with
  | false => simp [withBest_not_sessional hp, ho]
  | true =>
    obtain ⟨t, ht, -, hbest⟩ := sessional_iff.1 hp
    have hne : some ⟨t, c, lap⟩ ≠ w.order.best := fun h => absurd (hbest _ h.symm) (Nat.lt_irrefl t)
    simp [withBest_sessional ht hp, hne]

theorem newLap_withBest (r : Competitor) (lap : Nat) (bests : Option (Nat × Bool × Bool)) (q : Quality) (b : Bool) :
    (r.withBest lap bests).newLap q b = { r with
      sectors := Vector.replicate 16 none
      lapNeutral := b
      sectorNeutral := b
      lapPit := decide (r.state = .inPit)
      sectorPit := decide (r.state = .inPit)
      lapWorst := q
      bestLap := (r.withBest lap bests).bestLap } := by
  unfold Competitor.withBest
  split <;> rfl

theorem lapResult_eq (finish : Bool) (lap : Nat) : x.lapResult w inferred finish lap = { x.result w .lap with
    flags := { (x.result w .lap).flags with
      saturated := decide (w.car.laps = 65535) || decide (∃ t ∈ x.lapTime w inferred, 16777215 < t / 100)
      pitLap := w.car.lapPit
      neutral := w.car.lapNeutral
      lineMissed := decide (x.lapTime w inferred = none)
      personalBest := x.personal w inferred
      sessionBest := x.sessional w inferred
      finish := finish }
    quality := some (w.car.lapWorst.worse x.passing.quality)
    lapNumber := some lap
    value := (x.lapTime w inferred).map fun t => ((min (t / 100) 16777215 : Nat) : Int) } := by
  have hsaturated : (((x.lapTime w inferred).map fun t => (toTU t).2).getD false || decide (w.car.laps = 65535)) =
      (decide (w.car.laps = 65535) || decide (∃ t ∈ x.lapTime w inferred, 16777215 < t / 100)) := by
    rw [Bool.or_comm]
    cases x.lapTime w inferred with
    | none => simp
    | some t => simp [toTU_snd]
  have hmissed : (x.lapTime w inferred).isNone = decide (x.lapTime w inferred = none) := by
    cases x.lapTime w inferred <;> rfl
  unfold Ctx.lapResult
  dsimp only
  rw [hsaturated, hmissed]
  simp only [toTU_fst]
  rfl

end Lap

/-- Settles O34. -/
theorem lapCompletion : Obligations.LapCompletion := by
  unfold Obligations.LapCompletion
  refine ⟨fun x w inferred => ?_, fun c head => ⟨rfl, fun h => if_pos h, fun h => if_neg h, rfl⟩⟩
  intro r p answer laps us counts lapped records inPit
  have hcounts (t : Nat) : r.qualifies t = true ↔ counts t := qualifies_iff r t
  refine ⟨x.completeLap w inferred, rfl, rfl, rfl, newLap_withBest .., withBest_list .., fun t ht hq hb => ?_,
    fun h => ?_, fun t ht hq hb => ?_, fun h => ?_, ?_⟩
  · exact withBest_personal (w := w) ht (personal_iff.2 ⟨t, ht, (hcounts t).2 hq, hb⟩)
  · have hp : x.personal w inferred = false := Bool.eq_false_iff.2 fun hp => by
      obtain ⟨t, ht, hq, hb⟩ := personal_iff.1 hp
      exact (h t ht).elim (· ((hcounts t).1 hq)) fun ⟨b, hbest, hle⟩ => absurd (hb b hbest) (Nat.not_lt.2 hle)
    have hkept := congrArg Competitor.bestLap (withBest_not_personal (r := lapped) (lap := laps) hp)
    exact hkept
  · exact withBest_sessional (w := w) ht (sessional_iff.2 ⟨t, ht, (hcounts t).2 hq, hb⟩)
  · have hp : x.sessional w inferred = false := Bool.eq_false_iff.2 fun hp => by
      obtain ⟨t, ht, hq, hb⟩ := sessional_iff.1 hp
      exact (h t ht).elim (· ((hcounts t).1 hq)) fun ⟨b, hbest, hle⟩ => absurd (hb b hbest) (Nat.not_lt.2 hle)
    have hkept := congrArg Order.best
      (withBest_not_sessional (o := w.order.place records x.comp) (c := x.comp) (lap := laps) hp)
    exact hkept
  · have hp := personal_eq (x := x) (w := w) (inferred := inferred) (r := lapped) laps rfl
    have hs := sessional_eq (x := x) (w := w) (inferred := inferred) (o := w.order.place records x.comp)
      x.comp laps rfl
    show w.results ++ [(x.lapResult w inferred answer.1 laps).placed
      ((w.order.place records x.comp).withBest x.comp laps (x.lapBests w inferred)) records x.comp] = _
    rw [lapResult_eq, hp, hs]
    rfl

end Sys2Proof.Machine
end

section
/-! The Running Order and the Publisher: places, publication, withheld results, the log writer and LOG_SET. -/

namespace Sys2Proof.Machine

open Host (Outcome)

/-! ## Places in the Running Order (R151 to R153) -/

section Order

variable {rs : Records} {c d : CompNo}

/-- The competitor stands behind everyone who sorts ahead of it and ahead of everyone else (R152). -/
theorem placeSorted_splits {l : List CompNo} (hc : c ∉ l)
    (h : l.Pairwise fun a b => sortsAhead rs a b = true) : ∃ a b, l = a ++ b ∧ placeSorted rs c l = a ++ c :: b ∧
      (∀ d ∈ a, sortsAhead rs d c = true) ∧ ∀ d ∈ b, sortsAhead rs c d = true := by
  induction l with
  | nil => exact ⟨[], [], rfl, rfl, by simp, by simp⟩
  | cons d rest ih =>
    obtain ⟨hdc, hrest⟩ := not_or.1 (mt List.mem_cons.2 hc)
    obtain ⟨hhead, htail⟩ := List.pairwise_cons.1 h
    unfold placeSorted
    by_cases hahead : sortsAhead rs d c = true
    · obtain ⟨a, b, rfl, hplace, ha, hb⟩ := ih hrest htail
      refine ⟨d :: a, b, rfl, ?_, List.forall_mem_cons.2 ⟨hahead, ha⟩, hb⟩
      rw [if_pos hahead, hplace]
      rfl
    · have hcd : sortsAhead rs c d = true := sortsAhead_total rs (Ne.symm hdc) hahead
      exact ⟨[], d :: rest, rfl, if_neg hahead, by simp,
        List.forall_mem_cons.2 ⟨hcd, fun e he => sortsAhead_trans rs hcd (hhead e he)⟩⟩

theorem aheadOf_cons {b : List CompNo} (h : c ∉ b) : aheadOf c (d :: b) = none := by
  induction b generalizing d with
  | nil => rfl
  | cons e b ih =>
    obtain ⟨hce, hb⟩ := not_or.1 (mt List.mem_cons.2 h)
    exact (if_neg (Ne.symm hce)).trans (ih hb)

theorem aheadOf_append {a b : List CompNo} (h : c ∉ a ++ [d]) : aheadOf c (a ++ d :: c :: b) = some d := by
  induction a with
  | nil => exact if_pos rfl
  | cons e a ih =>
    have hrest : c ∉ a ++ [d] := fun hm => h (List.mem_cons_of_mem e hm)
    have hih := ih hrest
    cases a with
    | nil =>
      have hd : ¬ d = c := fun hd => hrest (hd ▸ List.mem_singleton_self d)
      exact (if_neg hd).trans hih
    | cons f a =>
      have hf : ¬ f = c := fun hf => hrest (hf ▸ List.mem_cons_self)
      exact (if_neg hf).trans hih

theorem idxOf?_append {a b : List CompNo} (h : c ∉ a) : (a ++ c :: b).idxOf? c = some a.length := by
  refine List.idxOf?_eq_some_iff.2 ⟨by simp, by simp, fun j hj hc => h ?_⟩
  rw [List.getElem_append_left hj] at hc
  exact hc ▸ List.getElem_mem hj

theorem position_eq {o : Order} {a b : List CompNo} (ho : o.list = a ++ c :: b) (h : c ∉ a) :
    o.position c = some (a.length + 1) := by
  unfold Order.position
  rw [ho, idxOf?_append h]
  rfl

theorem placed_head {r : Result} {o : Order} (h : aheadOf c o.list = none) :
    r.placed o rs c = { r with position := o.position c, gap := none } := by
  unfold Result.placed
  rw [h]

theorem placed_behind {r : Result} {o : Order} (h : aheadOf c o.list = some d) : r.placed o rs c = { r with
    position := o.position c
    gap := some (gapTo rs c d).1
    flags := { r.flags with saturated := r.flags.saturated || (gapTo rs c d).2 } } := by
  unfold Result.placed
  rw [h]

theorem gapTo_sameLap (h : rs[c].laps = rs[d].laps) : gapTo rs c d =
    (.time (min ((rs[c].lastCrossing - rs[d].lastCrossing) / 100) 16777215),
      decide (16777215 < (rs[c].lastCrossing - rs[d].lastCrossing) / 100)) := by
  unfold gapTo
  rw [if_pos h, toTU_eq]

theorem gapTo_laps (h : rs[c].laps ≠ rs[d].laps) : gapTo rs c d = (.laps (rs[d].laps - rs[c].laps), false) :=
  if_neg h

end Order

/-- Settles O35. -/
theorem orderPlacing : Obligations.OrderPlacing := by
  unfold Obligations.OrderPlacing
  refine ⟨fun o rs c => ?_, fun r o rs c a b ho ha hb => ⟨fun hnil => ?_, fun a' d hd => ?_⟩⟩
  · intro others ahead hsorted
    have hahead (a b : CompNo) : sortsAhead rs a b = true ↔ ahead a b := sortsAhead_iff rs a b
    have hc : c ∉ others := fun hm => of_decide_eq_true (List.mem_filter.1 hm).2 rfl
    have hpairs : others.Pairwise fun a b => sortsAhead rs a b = true := hsorted.imp fun h => (hahead _ _).2 h
    obtain ⟨a, b, hsplit, hplace, hbefore, hafter⟩ := placeSorted_splits hc hpairs
    refine ⟨rfl, rfl, (placeSorted_sorted rs c others hc hpairs).imp fun h => (hahead _ _).1 h, a, b, hsplit, hplace,
      fun d hd => (hahead _ _).1 (hbefore d hd), fun d hd => (hahead _ _).1 (hafter d hd)⟩
  · subst hnil
    have hahead : aheadOf c o.list = none := by
      rw [ho]
      exact aheadOf_cons hb
    rw [placed_head hahead, position_eq ho ha]
    rfl
  · subst hd
    have hahead : aheadOf c o.list = some d := by
      rw [ho, List.append_assoc]
      exact aheadOf_append ha
    rw [placed_behind hahead, position_eq ho ha]
    refine ⟨fun h => ?_, fun h => ?_⟩
    · rw [gapTo_sameLap h]
    · rw [gapTo_laps h, Bool.or_false]

/-! ## Publication (R161, R165, R166, R168) -/

section Publication

variable {p : Publisher} {r : Result}

theorem give_publishes (hw : p.waiting = []) (hb : p.buffer.length < 16) : p.give r = p.publish r := by
  unfold Publisher.give
  rw [hw, (accepting_iff p).2 hb]
  rfl

theorem give_waits (h : p.waiting ≠ [] ∨ 16 ≤ p.buffer.length) :
    p.give r = { p with waiting := p.waiting ++ [r] } := by
  refine if_neg fun hg => ?_
  obtain ⟨hw, hb⟩ := Bool.and_eq_true_iff.1 hg
  exact h.elim (absurd (List.isEmpty_iff.1 hw)) (Nat.not_le.2 ((accepting_iff p).1 hb))

/-- The log writer takes an entry. -/
theorem startWriter_takes (hl : p.logEnabled = true) (hw : p.writer = none) (hb : p.buffer ≠ []) :
    (p.writeIndex + 1 < p.logLength * 128 → p.startWriter = { p with
      writer := some ⟨p.entryAddr p.writeIndex, 0⟩
      writeIndex := p.writeIndex + 1 }) ∧
    (p.logLength * 128 ≤ p.writeIndex + 1 → p.startWriter = { p with
      writer := some ⟨p.entryAddr p.writeIndex, 0⟩
      writeIndex := 0
      wrapped := true }) := by
  have htakes : (p.logEnabled && p.writer.isNone && !p.buffer.isEmpty) = true := by
    rw [hl, hw]
    simpa using hb
  unfold Publisher.startWriter
  rw [if_pos htakes]
  exact ⟨fun h => if_pos h, fun h => if_neg (Nat.not_lt.2 h)⟩

theorem startWriter_same (h : p.logEnabled = false ∨ p.writer ≠ none ∨ p.buffer = []) : p.startWriter = p := by
  refine if_neg fun ht => ?_
  simp only [Bool.and_eq_true, Option.isNone_iff_eq_none, Bool.not_eq_true', List.isEmpty_eq_false_iff] at ht
  obtain ⟨⟨hl, hw⟩, hb⟩ := ht
  exact h.elim (fun h => Bool.false_ne_true (h.symm.trans hl)) fun h => h.elim (absurd hw) hb

theorem publish_disabled (h : p.logEnabled = false) :
    p.publish r = p.number { r with sequence := some p.sequence } := by
  have hout : p.publish r = (p.number { r with sequence := some p.sequence }).startWriter :=
    congrArg Publisher.startWriter (if_neg (h ▸ Bool.false_ne_true))
  exact hout.trans (startWriter_same (.inl h))

/-- A published result joins the buffer of an enabled log. -/
theorem publish_enabled (h : p.logEnabled = true) : p.publish r = Publisher.startWriter
    { p.number { r with sequence := some p.sequence } with
      buffer := p.buffer ++ [{ r with sequence := some p.sequence }] } :=
  congrArg Publisher.startWriter (if_pos h)

end Publication

/-- Settles O36. -/
theorem publication : Obligations.Publication := by
  unfold Obligations.Publication
  intro p r
  refine ⟨give_publishes, give_waits, publish_disabled, fun hl => ⟨fun hw => ?_, fun hw => ?_⟩⟩
  · exact (publish_enabled hl).trans (startWriter_same (.inr (.inl hw)))
  · have htakes := startWriter_takes (p := { p.number { r with sequence := some p.sequence } with
      buffer := p.buffer ++ [{ r with sequence := some p.sequence }] }) hl hw (by simp)
    dsimp only
    rw [publish_enabled hl]
    exact htakes

/-! ## Withheld results and alerts (R160 to R162) -/

section Hold

variable {p : Publisher} {now : Nat} {r : Result}

theorem holdResult_room (h : p.hold.length < 32) : p.holdResult now r =
    { p with hold := p.hold ++ [r], counts := { p.counts with held := bump p.counts.held } } := by
  unfold Publisher.holdResult
  split
  next => exact if_pos h
  next hnil =>
    rw [hnil]
    rfl

theorem holdResult_full {x : Result} {rest : List Result} (hx : p.hold = x :: rest) (h : 32 ≤ p.hold.length) :
    p.holdResult now r =
      let g := (overflowResults now x).foldl Publisher.give { p with hold := rest }
      { g with
        hold := g.hold ++ [r]
        counts := { g.counts with
          held := bump g.counts.held
          holdOverflow := bump g.counts.holdOverflow } } := by
  unfold Publisher.holdResult
  split
  next y rest' hy =>
    obtain ⟨rfl, rfl⟩ := List.cons.inj (hx.symm.trans hy)
    exact if_neg (Nat.not_lt.2 h)
  next hnil => exact nomatch hx.symm.trans hnil

theorem give_keeps_hold (p : Publisher) (r : Result) : (p.give r).hold = p.hold ∧
    (p.give r).counts.held = p.counts.held ∧ (p.give r).counts.holdOverflow = p.counts.holdOverflow := by
  unfold Publisher.give
  split
  · obtain ⟨hhold, -, -, -, hheld, hover⟩ := publish_fields p r
    exact ⟨hhold, hheld, hover⟩
  · exact ⟨rfl, rfl, rfl⟩

end Hold

/-- Settles O37. -/
theorem withheldResults : Obligations.WithheldResults := by
  unfold Obligations.WithheldResults
  intro p now r
  refine ⟨take_eq_give, fun hw => ?_, fun h => if_pos h, fun h => if_neg (Nat.not_lt.2 h)⟩
  have htake : p.take now r = p.holdResult now r := if_pos hw
  rw [htake]
  refine ⟨holdResult_room, fun x rest hx h => ?_⟩
  intro g
  obtain ⟨hhold₁, hheld₁, hover₁⟩ := give_keeps_hold { p with hold := rest }
    { x with flags := { x.flags with unreviewed := true } }
  obtain ⟨hhold₂, hheld₂, hover₂⟩ := give_keeps_hold
    (({ p with hold := rest } : Publisher).give { x with flags := { x.flags with unreviewed := true } })
    { alertResult now .holdOverflow none none (.resultKind x.kind) with competitor := x.competitor }
  have hhold : g.hold = rest := hhold₂.trans hhold₁
  have hheld : g.counts.held = p.counts.held := hheld₂.trans hheld₁
  have hover : g.counts.holdOverflow = p.counts.holdOverflow := hover₂.trans hover₁
  refine ⟨hhold, hheld, hover, ?_⟩
  rw [← hheld, ← hover]
  refine (holdResult_full hx h).trans ?_
  exact congrArg (fun l => ({ g with
    hold := l ++ [r]
    counts := { g.counts with
      held := bump g.counts.held
      holdOverflow := bump g.counts.holdOverflow } } : Publisher)) hhold

/-! ## The log writer (R168) -/

section Writer

variable {s : State} {p : Publisher} {w : LogWriter}

theorem logWordWriteComplete_none (h : ∀ a, s.tmp.inProgress ≠ some (.logWriter, a)) :
    exec .logWordWriteComplete s = .next s := by
  show execLogWordWriteComplete s = _
  unfold execLogWordWriteComplete
  split
  next a hp => exact absurd hp (h a)
  next => rfl

theorem logWordWriteComplete_writes {a : WordAddr} {v : Word}
    (hp : s.tmp.inProgress = some (.logWriter, .write a v)) : exec .logWordWriteComplete s =
      .next { accessed s (writeWord s.tmp.mem a v) with publisher := s.publisher.wordWritten } := by
  show execLogWordWriteComplete s = _
  unfold execLogWordWriteComplete
  rw [hp]
  rfl

theorem wordWritten_next (hw : p.writer = some w) (h : w.written < 7) :
    p.wordWritten = { p with writer := some { w with written := w.written + 1 } } := by
  unfold Publisher.wordWritten
  rw [hw]
  exact if_pos h

theorem wordWritten_eighth (hw : p.writer = some w) (h : 7 ≤ w.written) : p.wordWritten = Publisher.refill { p with
    writer := none
    buffer := p.buffer.tail
    counts := { p.counts with entriesWritten := bump p.counts.entriesWritten } } := by
  unfold Publisher.wordWritten
  rw [hw]
  exact if_neg (Nat.not_lt.2 h)

theorem refill_publishes {r : Result} {rest : List Result} (h : p.waiting = r :: rest) :
    p.refill = Publisher.publish { p with waiting := rest } r := by
  unfold Publisher.refill
  rw [h]

theorem refill_starts (h : p.waiting = []) : p.refill = p.startWriter := by
  unfold Publisher.refill
  rw [h]

end Writer

/-! ## LOG_SET (R169) -/

section LogSet

variable {s : State} {r : Request} {rest : List Request}

theorem ring_enables (hf : r.flag 0 = some true) (h : 1 ≤ r.nat 2 1 ∧ r.nat 2 1 ≤ 64 ∧ r.nat 1 1 + r.nat 2 1 ≤ 256) :
    r.ring = some (some (r.nat 1 1, r.nat 2 1)) := by
  unfold Request.ring
  rw [hf]
  exact if_pos h

theorem ring_disables (hf : r.flag 0 = some false) : r.ring = some none := by
  unfold Request.ring
  rw [hf]

theorem ring_misfits (hf : r.flag 0 = some true)
    (h : r.nat 2 1 = 0 ∨ 64 < r.nat 2 1 ∨ 256 < r.nat 1 1 + r.nat 2 1) : r.ring = none := by
  unfold Request.ring
  rw [hf]
  exact if_neg (by omega)

theorem logSet_taken (hb : BeginsAs s r rest 0x42 3) (hs : s.session.state = .setup)
    {ring : Option (Nat × Nat)} (hr : r.ring = some ring) : exec .logSet s =
      .next { s with publisher := s.publisher.setLog ring, mu := servedMu s r rest .ok [] } :=
  request_taken_publisher hb ((orState_setup (s := s.begin rest) hs _).trans (orRange_eq_some hr))

theorem logSet_notSetup (hb : BeginsAs s r rest 0x42 3) (hs : s.session.state ≠ .setup) :
    exec .logSet s = .next (refusedState s r rest .state) := request_notSetup hb hs

theorem logSet_range (hb : BeginsAs s r rest 0x42 3) (hs : s.session.state = .setup) (hr : r.ring = none) :
    exec .logSet s = .next (refusedState s r rest .range) :=
  request_refused hb ((orState_setup (s := s.begin rest) hs _).trans (orRange_eq_none hr))

theorem disableLog_eq (p : Publisher) : p.disableLog = p.waiting.foldl Publisher.publish { p with
    logEnabled := false
    buffer := if p.writer = none then [] else p.buffer.take 1
    waiting := [] } := by
  unfold Publisher.disableLog
  cases p.writer <;> rfl

end LogSet

/-- Settles O38. -/
theorem logWriterAndLogSet : Obligations.LogWriterAndLogSet := by
  unfold Obligations.LogWriterAndLogSet
  refine ⟨fun s => ⟨logWordWriteComplete_none, fun a v w hp hw => ?_⟩, fun s r rest hb => ?_⟩
  · intro done left
    let p := s.publisher
    have hdone {p' : Publisher} (h : p.wordWritten = p') : done p' := h ▸ logWordWriteComplete_writes hp
    refine ⟨fun h => hdone (wordWritten_next hw h), fun h => ⟨fun r rest hr => hdone ?_, fun hnil =>
      ⟨fun hidle => hdone ?_, fun hl hb => ?_⟩⟩⟩
    all_goals have heighth := wordWritten_eighth hw h
    · exact heighth.trans (refill_publishes (p := left) hr)
    · exact heighth.trans ((refill_starts (p := left) hnil).trans (startWriter_same (hidle.imp_right .inr)))
    · obtain ⟨hroom, hwrap⟩ := startWriter_takes (p := left) hl rfl hb
      have hstart := heighth.trans (refill_starts (p := left) hnil)
      exact ⟨fun h => hdone (hstart.trans (hroom h)), fun h => hdone (hstart.trans (hwrap h))⟩
  · intro p base length set
    refine ⟨logSet_notSetup hb, fun hs => ⟨fun hf h1 h64 hm => ?_, fun hf => ?_, fun hf h =>
      logSet_range hb hs (ring_misfits hf h)⟩⟩
    · intro q
      have hset := logSet_taken hb hs (ring_enables hf ⟨h1, h64, hm⟩)
      refine ⟨fun h => ?_, fun hw hbuf => ?_⟩
      · have hsame : q.startWriter = q := startWriter_same (.inr h)
        exact hset.trans (congrArg (fun p' => Outcome.next { s with publisher := p', mu := servedMu s r rest .ok [] }) hsame)
      · obtain ⟨hroom, -⟩ := startWriter_takes (p := q) rfl hw hbuf
        have haddr : q.entryAddr q.writeIndex = BitVec.ofNat 18 (base * 1024) := by
          show BitVec.ofNat 18 (base * 1024 + 0 * 8) = _
          rw [Nat.zero_mul, Nat.add_zero]
        have htaken : q.startWriter =
            { q with writer := some ⟨BitVec.ofNat 18 (base * 1024), 0⟩, writeIndex := 1 } := by
          rw [hroom (show 0 + 1 < length * 128 by omega), haddr]
        exact hset.trans (congrArg (fun p' => Outcome.next { s with publisher := p', mu := servedMu s r rest .ok [] }) htaken)
    · have hset := logSet_taken hb hs (ring_disables hf)
      exact hset.trans (congrArg (fun p' => Outcome.next { s with publisher := p', mu := servedMu s r rest .ok [] })
        (disableLog_eq p))

end Sys2Proof.Machine
end

section
/-! Requests: their headers, when they wait, the parameter fields, and SLOT_MAP_WRITE. -/

namespace Sys2Proof.Machine

open Host (Outcome)

/-! ## The requests with one code and one length -/

/-- The command is the request with this code and this declared length. -/
def ServesAs (row : Instr × Nat × Nat) : Prop :=
  ∃ run, ∀ s, exec row.1 s = .next (s.request row.2.1 row.2.2 run)

theorem requestRows_serve : ∀ row ∈ requestRows, ServesAs row := by
  unfold requestRows
  simp only [List.forall_mem_append, List.forall_mem_cons, List.not_mem_nil, false_imp_iff, implies_true, and_true]
  and_intros
  all_goals exact ⟨_, fun _ => rfl⟩

/-! ## Headers (R190, R191) -/

section Headers

variable {s : State} {r : Request} {rest : List Request}

theorem unsupportedRequest_refused (hb : Begins s r rest) (hc : r.code.toNat ∉ requestCodes) :
    exec .unsupportedRequest s = .next (refusedState s r rest .notSupported) := by
  have hmine : (!requestCodes.contains r.code.toNat) = true := by simpa using hc
  show Outcome.next (s.serve _ _) = _
  rw [serve_of_begins hb _ _ hmine, refused_place]

theorem mem_requestCodes (n : Nat) : n ∈ requestCodes ↔
    (0x01 ≤ n ∧ n ≤ 0x05) ∨ (0x10 ≤ n ∧ n ≤ 0x11) ∨ (0x20 ≤ n ∧ n ≤ 0x24) ∨ (0x30 ≤ n ∧ n ≤ 0x34) ∨
    (0x38 ≤ n ∧ n ≤ 0x42) ∨ n = 0x44 ∨ (0x48 ≤ n ∧ n ≤ 0x4C) ∨ (0x50 ≤ n ∧ n ≤ 0x53) := by
  unfold requestCodes
  simp only [List.mem_append, List.mem_cons, List.not_mem_nil, or_false]
  omega

theorem mem_resultCodes (n : Nat) :
    n ∈ resultCodes ↔ (0x30 ≤ n ∧ n ≤ 0x34) ∨ (0x38 ≤ n ∧ n ≤ 0x3E) ∨ n = 0x40 := by
  unfold resultCodes
  simp only [List.mem_cons, List.not_mem_nil, or_false]
  omega

theorem writeCode_iff : [0x48, 0x49, 0x4A, 0x4B].contains r.code.toNat = true ↔
    72 ≤ r.code.toNat ∧ r.code.toNat ≤ 75 := by
  simp only [List.contains_iff_mem, List.mem_cons, List.not_mem_nil, or_false]
  omega

theorem tableWrite_format (hb : Begins s r rest) (hc : 72 ≤ r.code.toNat ∧ r.code.toNat ≤ 75)
    (hl : r.length.toNat ∉ [6, 10, 14, 18, 22]) : exec .tableWrite s = .next (refusedState s r rest .format) := by
  have hlength : withLength [6, 10, 14, 18, 22] runTableWrite r (s.begin rest) = .refused (s.begin rest) .format :=
    if_neg fun h => hl (List.contains_iff_mem.1 h)
  show Outcome.next (s.serve _ _) = _
  rw [serve_of_begins hb _ _ (writeCode_iff.2 hc), hlength, refused_place]

end Headers

/-! ## Parameter fields (R203) -/

section Fields

variable {r : Request} {i : Nat}

/-- The bytes of a field are those at its place and after it. -/
theorem params_drop (h : i < 22) : r.params.toList.drop i = r.byte i :: r.params.toList.drop (i + 1) := by
  have hi : i < r.params.toList.length := by simpa using h
  unfold Request.byte
  rw [List.drop_eq_getElem_cons hi, List.getD_eq_getElem _ _ hi]

theorem nat_two (h : i + 1 < 22) : r.nat i 2 = 256 * (r.byte i).toNat + (r.byte (i + 1)).toNat := by
  unfold Request.nat beNat
  rw [params_drop (by omega), params_drop h]
  simp only [List.take_succ_cons, List.take_zero, List.foldl_cons, List.foldl_nil]
  omega

theorem nat_three (h : i + 2 < 22) : r.nat i 3 =
    65536 * (r.byte i).toNat + 256 * (r.byte (i + 1)).toNat + (r.byte (i + 2)).toNat := by
  unfold Request.nat beNat
  rw [params_drop (by omega), params_drop (by omega), params_drop h]
  simp only [List.take_succ_cons, List.take_zero, List.foldl_cons, List.foldl_nil]
  omega

theorem flag_clear (h : (r.byte i).toNat = 0) : r.flag i = some false :=
  if_pos (BitVec.eq_of_toNat_eq h)

theorem flag_set (h : (r.byte i).toNat = 1) : r.flag i = some true := by
  have hb : r.byte i = 1 := BitVec.eq_of_toNat_eq h
  unfold Request.flag
  rw [hb]
  rfl

end Fields

/-- Settles O40. -/
theorem requestHeaders : Obligations.RequestHeaders := by
  unfold Obligations.RequestHeaders
  refine ⟨fun s r rest => unsupportedRequest_refused, mem_requestCodes, fun s r rest hb => ⟨fun row hrow hc hl => ?_,
    fun h72 h75 hl => tableWrite_format hb ⟨h72, h75⟩ hl⟩, fun r i hi => ⟨r.nat_one i, nat_two, nat_three, flag_clear,
    flag_set⟩, fun s r rest => ⟨fun hb hf => ?_, fun hb hs hf => ?_, fun hb hs hf => ?_, fun hb hs hf => ?_⟩⟩
  · obtain ⟨run, hrun⟩ := requestRows_serve row hrow
    rw [hrun s, request_wrong_length hb hc hl run]
  · refine request_refused hb (orRange_eq_none ?_)
    unfold Request.loopParams
    rw [hf]
    split
    next h _ => exact nomatch h
    next => rfl
  · refine request_refused hb ((orState_setup (s := s.begin rest) hs _).trans (orRange_eq_none ?_))
    unfold Request.trapParams
    rw [hf]
    split
    next h => exact nomatch h
    next h => exact nomatch h
    next => rfl
  · refine request_refused hb ((orState_setup (s := s.begin rest) hs _).trans (orRange_eq_none ?_))
    unfold Request.ring
    rw [hf]
  · refine request_refused hb ((orState_setup (s := s.begin rest) hs _).trans (orRange_eq_none ?_))
    unfold Request.guardParams
    split
    next h1 h2 => exact hf.elim (fun h => nomatch h1.symm.trans h) fun h => nomatch h2.symm.trans h
    next => rfl

/-! ## Waiting (R190) -/

section Waiting

variable {s : State} {r : Request} {rest : List Request} {mine : Nat → Bool} {run : Request → State → Answer}

theorem serve_noRequest (hq : s.mu.queue = []) : s.serve mine run = s := by
  rcases serve_cases s mine run with h | ⟨r, rest, ⟨-, hr, -⟩, -⟩
  · exact h
  · exact nomatch hq.symm.trans hr

/-- The MU begins nothing while a request is executed, the Reply Queue is full, or the results do not fit, and it
begins no other code. -/
theorem serve_waits (hq : s.mu.queue = r :: rest) (h : (s.mu.table ≠ none ∨ 4 ≤ s.mu.replies.length ∨
      (r.code.toNat ∈ resultCodes ∧ 32 < s.publisher.waiting.length)) ∨ mine r.code.toNat = false) :
    s.serve mine run = s := by
  rcases serve_cases s mine run with hs | ⟨r', rest', ⟨ht, hr, hl, hw⟩, hmine, -⟩
  · exact hs
  · obtain ⟨rfl, rfl⟩ := List.cons.inj (hq.symm.trans hr)
    rcases h with (h | h | ⟨hc, h⟩) | h
    · exact absurd ht h
    · exact absurd hl (Nat.not_lt.2 h)
    · exact absurd (hw hc) (Nat.not_le.2 h)
    · exact absurd (h.symm.trans hmine) Bool.false_ne_true

end Waiting

/-- Settles O41. -/
theorem requestWaits : Obligations.RequestWaits := by
  unfold Obligations.RequestWaits
  refine ⟨fun s => ?_, mem_resultCodes⟩
  intro waits
  have hother {n code : Nat} (h : n ≠ code) : (n == code) = false := by simpa using h
  refine ⟨fun row hrow => ?_, fun hq => ⟨?_, ?_, fun straps => ?_⟩, fun r rest hq => ⟨fun h => ?_, fun h => ?_,
    fun h straps => ?_⟩⟩
  · obtain ⟨run, hrun⟩ := requestRows_serve row hrow
    rw [hrun s]
    exact ⟨fun hq => congrArg Outcome.next (serve_noRequest hq),
      fun r rest hq h => congrArg Outcome.next (serve_waits hq (h.imp_right hother))⟩
  · exact congrArg Outcome.next (serve_noRequest hq)
  · exact congrArg Outcome.next (serve_noRequest hq)
  · exact congrArg Outcome.next (serve_noRequest hq)
  · refine congrArg Outcome.next (serve_waits hq (h.imp_right fun h => ?_))
    exact Bool.eq_false_iff.2 fun hc => by
      obtain ⟨h72, h75⟩ := writeCode_iff.1 hc
      omega
  · refine congrArg Outcome.next (serve_waits hq (h.imp_right fun h => ?_))
    rw [List.contains_iff_mem.2 h]
    rfl
  · exact congrArg Outcome.next (serve_waits hq (h.imp_right hother))

/-! ## SLOT_MAP_WRITE (R13) -/

/-- The parameter byte of a direction. -/
def directionNumber : Direction → Nat
  | .upstream => 0
  | .downstream => 1

theorem ofCode_directionNumber (d : Direction) : Direction.ofCode (directionNumber d) = some d := by
  cases d <;> rfl

theorem Direction.ofCode_none {n : Nat} (h : 1 < n) : Direction.ofCode n = none := by
  match n with
  | n + 2 => rfl

theorem Action.ofCode_code (a : Action) : Action.ofCode a.code = some a := by
  cases a <;> rfl

theorem Action.ofCode_none {n : Nat} (h : 5 < n) : Action.ofCode n = none := by
  match n with
  | n + 6 => rfl

section SlotMap

variable {r : Request}

theorem mapParams_eq_some {d : Direction} {k : Slot} {a : Action} (hd : r.nat 0 1 = (directionNumber d))
    (hk : r.nat 1 1 = k.val) (ha : r.nat 2 1 = a.code) : r.mapParams = some (d, k, a) := by
  unfold Request.mapParams
  rw [← r.nat_one 0, ← r.nat_one 2, hd, ha, ofCode_directionNumber, Action.ofCode_code,
    (r.index_eq_some k).2 hk]

theorem mapParams_eq_none (h : 1 < r.nat 0 1 ∨ 40 ≤ r.nat 1 1 ∨ 5 < r.nat 2 1) : r.mapParams = none := by
  unfold Request.mapParams Request.index
  rw [← r.nat_one 0, ← r.nat_one 1, ← r.nat_one 2]
  split
  next d k a hd hk ha =>
    rcases h with h | h | h
    · exact nomatch hd.symm.trans (Direction.ofCode_none h)
    · exact nomatch hk.symm.trans (finOf_eq_none.2 h)
    · exact nomatch ha.symm.trans (Action.ofCode_none h)
  next => rfl

end SlotMap

/-- Settles O42. -/
theorem slotMapWrite : Obligations.SlotMapWrite := by
  unfold Obligations.SlotMapWrite
  intro s r rest hb
  refine ⟨fun d k a hd hk ha => ?_, fun h => request_refused hb (orRange_eq_none (mapParams_eq_none h))⟩
  have hnumber : r.nat 0 1 = directionNumber d := hd.trans (by cases d <;> rfl)
  show Outcome.next (s.request 0x01 3 runSlotMapWrite) = _
  rw [request_of_begins hb]
  unfold runSlotMapWrite
  rw [orRange_eq_some (mapParams_eq_some hnumber hk ha)]
  cases d <;> rfl

end Sys2Proof.Machine
end

section
/-! The roster requests and the session requests. -/

namespace Sys2Proof.Machine

open Host (Outcome)

/-! ## Requests, by what they come to -/

section Runs

variable {s : State} {r : Request} {rest : List Request} {code length : Nat} {run : Request → State → Answer}

/-- A request that is begun, by its answer. -/
theorem request_answers (h : BeginsAs s r rest code length) {a : Answer} (hrun : run r (s.begin rest) = a) :
    (Outcome.next (s.request code length run) : Outcome State Fault Refusal) = .next (a.place r) := by
  rw [request_of_begins h, hrun]

theorem orState_of {b : Bool} (hb : b = true) (a : Answer) : orState s b a = a := if_pos hb

theorem orState_not {b : Bool} (hb : ¬ b = true) (a : Answer) : orState s b a = .refused s .state := if_neg hb

end Runs

/-! ## ROSTER_WRITE (R129) -/

section Roster

variable {s : State} {r : Request} {rest : List Request} {c : CompNo}

theorem rosterParams_eq_some (hc : r.nat 0 1 = c.val) (hn : r.nat 1 2 ≤ 999) (hk : r.nat 3 1 ≤ 7) :
    r.rosterParams = some (c, r.nat 1 2, r.nat 3 1) := by
  unfold Request.rosterParams
  rw [(r.index_eq_some c).2 hc]
  exact if_pos ⟨hn, hk⟩

theorem rosterParams_eq_none (h : 96 ≤ r.nat 0 1 ∨ 999 < r.nat 1 2 ∨ 7 < r.nat 3 1) : r.rosterParams = none := by
  unfold Request.rosterParams
  split
  next c hc =>
    have hlt : r.nat 0 1 < 96 := (r.index_eq_some c).1 hc ▸ c.isLt
    exact if_neg (by omega)
  next => rfl

theorem joinState_eq (x : SessionState) :
    x.joinState = if x = .live ∨ x = .chequered then .onTrack else .standby := by
  cases x <;> simp [SessionState.joinState]

theorem rosterWrite_known (number class_ : Nat) (h : s.engine.records[c].state ≠ .inactive) :
    s.rosterWrite c number class_ = { s with engine := { s.engine with
      records := s.engine.records.set c { s.engine.records[c] with
        raceNumber := number
        class_ := class_ } } } := if_neg h

theorem rosterWrite_joins (number class_ : Nat) (h : s.engine.records[c].state = .inactive) :
    s.rosterWrite c number class_ = s.changeRecord c { s.engine.records[c] with
      raceNumber := number
      class_ := class_
      state := s.session.state.joinState } .roster := if_pos h

theorem runRosterWrite_params (hc : r.nat 0 1 = c.val) (hn : r.nat 1 2 ≤ 999) (hk : r.nat 3 1 ≤ 7) :
    runRosterWrite r s = .taken (s.rosterWrite c (r.nat 1 2) (r.nat 3 1))
      (u8 ((s.rosterWrite c (r.nat 1 2) (r.nat 3 1)).compState c).code) :=
  orRange_eq_some (rosterParams_eq_some hc hn hk)

theorem runRosterWrite_known (hc : r.nat 0 1 = c.val) (hn : r.nat 1 2 ≤ 999) (hk : r.nat 3 1 ≤ 7)
    (h : s.engine.records[c].state ≠ .inactive) : runRosterWrite r s =
      .taken { s with engine := { s.engine with
        records := s.engine.records.set c { s.engine.records[c] with
          raceNumber := r.nat 1 2
          class_ := r.nat 3 1 } } } (u8 s.engine.records[c].state.code) := by
  have hcode : (s.rosterWrite c (r.nat 1 2) (r.nat 3 1)).compState c = s.engine.records[c].state := by
    rw [rosterWrite_known _ _ h]
    show (s.engine.records.set c _)[c].state = _
    rw [set_get_same]
  rw [runRosterWrite_params hc hn hk, hcode, rosterWrite_known _ _ h]

theorem runRosterWrite_joins (hc : r.nat 0 1 = c.val) (hn : r.nat 1 2 ≤ 999) (hk : r.nat 3 1 ≤ 7)
    (h : s.engine.records[c].state = .inactive) : runRosterWrite r s =
      .taken (s.changeRecord c { s.engine.records[c] with
        raceNumber := r.nat 1 2
        class_ := r.nat 3 1
        state := s.session.state.joinState } .roster) (u8 s.session.state.joinState.code) := by
  have hcode : (s.rosterWrite c (r.nat 1 2) (r.nat 3 1)).compState c = s.session.state.joinState := by
    rw [rosterWrite_joins _ _ h]
    show (s.engine.records.set c _)[c].state = _
    rw [set_get_same]
  rw [runRosterWrite_params hc hn hk, hcode, rosterWrite_joins _ _ h]

/-! ## ROSTER_REMOVE, RETIRE and REINSTATE (R130 to R132) -/

theorem discardList_eq (z : Settle) (c : CompNo) : z.discardList c = { z with
    lists := z.lists.set c []
    free := z.free + z.lists[c].length
    counts := { z.counts with
      retireDiscards := min (z.counts.retireDiscards + z.lists[c].length) 65535 } } := rfl

theorem retirable_iff (x : CompState) : x.retirable = true ↔ x = .standby ∨ x = .onTrack ∨ x = .inPit := by
  cases x <;> simp [CompState.retirable]

theorem reinstateState_eq (x : SessionState) :
    x.reinstateState = if x = .setup ∨ x = .standby then .standby else .onTrack := by
  cases x <;> simp [SessionState.reinstateState]

end Roster

/-- Settles O48. -/
theorem rosterRequests : Obligations.RosterRequests := by
  unfold Obligations.RosterRequests
  refine ⟨fun s r rest hb => ⟨fun h => request_refused hb (orRange_eq_none (rosterParams_eq_none h)),
    fun c hc hn hk => ⟨fun hr => ?_, fun x hx hr => ?_⟩⟩, fun s r rest => ?_⟩
  · exact request_answers hb (runRosterWrite_known (s := s.begin rest) hc hn hk hr)
  · obtain rfl : x = s.session.state.joinState := hx.trans (joinState_eq _).symm
    exact request_answers hb (runRosterWrite_joins (s := s.begin rest) hc hn hk hr)
  · intro set report discarded
    refine ⟨fun hb => ⟨fun h => request_refused hb (orRange_eq_none (Request.comp_eq_none.2 h)), fun c hc =>
      ⟨fun hx => ?_, fun h1 h2 => ?_⟩⟩, fun hb => ⟨fun h => request_refused hb
      (orRange_eq_none (Request.comp_eq_none.2 h)), fun c hc => ⟨fun hx => ?_, fun hx => ?_⟩⟩, fun hb =>
      ⟨fun h => request_refused hb (orRange_eq_none (Request.comp_eq_none.2 h)), fun c hc =>
      ⟨fun hx => ?_, fun hx => ?_⟩⟩⟩
    all_goals have hcomp := Request.comp_eq_some.2 hc
    · refine (request_answers hb ((orRange_eq_some hcomp).trans (orState_of ?_ _))).trans rfl
      exact Bool.or_eq_true_iff.2 (hx.imp decide_eq_true decide_eq_true)
    · refine request_refused hb ((orRange_eq_some hcomp).trans (orState_not ?_ _))
      exact fun h => (Bool.or_eq_true_iff.1 h).elim (fun h => h1 (of_decide_eq_true h)) fun h => h2 (of_decide_eq_true h)
    · exact (request_answers hb ((orRange_eq_some hcomp).trans (orState_of ((retirable_iff _).2 hx) _))).trans rfl
    · exact request_refused hb ((orRange_eq_some hcomp).trans (orState_not (mt (retirable_iff _).1 hx) _))
    · refine (request_answers hb ((orRange_eq_some hcomp).trans (orState_of (decide_eq_true hx) _))).trans ?_
      rw [← reinstateState_eq]
      rfl
    · exact request_refused hb ((orRange_eq_some hcomp).trans (orState_not (fun h => hx (of_decide_eq_true h)) _))

end Sys2Proof.Machine
end

section
/-! The session requests: OPEN and the validity test, GREEN, the neutral flag, CHEQUER, CLOSE and CLEAR. -/

namespace Sys2Proof.Machine

open Host (Outcome)

/-! ## The validity test (R84) -/

section Validity

variable {k : Course}

theorem unloaded_iff (q : PointNo) : k.unloaded q.val = true ↔ k.points[q] = none := by
  have hget : k.points.toList[q.val]? = some k.points[q] := by simp [Fin.getElem_fin]
  unfold Course.unloaded
  rw [hget]
  cases k.points[q] <;> simp

theorem trapSelf_iff (i : Fin 4) :
    k.trapSelf i.val = true ↔ ∃ t, k.traps[i] = some t ∧ t.startLoop = t.endLoop := by
  have hget : k.traps.toList[i.val]? = some k.traps[i] := by simp [Fin.getElem_fin]
  unfold Course.trapSelf
  rw [hget]
  cases k.traps[i] <;> simp

theorem validity_noFinish (h : k.count = 0 ∨ k.points[(0 : PointNo)] = none) : k.validity = .noFinish :=
  if_pos (h.imp_right (unloaded_iff 0).2)

/-- With a finish, the first missing point decides, and then the first trap on itself. -/
theorem validity_finish (hc : k.count ≠ 0) (hf : k.points[(0 : PointNo)] ≠ none) : k.validity =
    match (List.range k.count).find? k.unloaded with
    | some i => .pointMissing i
    | none =>
      match (List.range 4).find? k.trapSelf with
      | some i => .trapSelf i
      | none => .valid :=
  if_neg (not_or.2 ⟨hc, mt (unloaded_iff 0).1 hf⟩)

theorem find_missing {q : PointNo} (hq : q.val < k.count ∧ k.points[q] = none)
    (hfirst : ∀ j : PointNo, j < q → ¬ (j.val < k.count ∧ k.points[j] = none)) :
    (List.range k.count).find? k.unloaded = some q.val := by
  refine List.find?_range_eq_some.2 ⟨(unloaded_iff q).2 hq.2, List.mem_range.2 hq.1, fun j hj => ?_⟩
  have hno := hfirst ⟨j, hj.trans q.isLt⟩ hj
  rw [Bool.not_eq_true', Bool.eq_false_iff]
  exact fun h => hno ⟨hj.trans hq.1, (unloaded_iff ⟨j, hj.trans q.isLt⟩).1 h⟩

theorem find_no_missing (h16 : k.count ≤ 16) (h : ∀ q : PointNo, ¬ (q.val < k.count ∧ k.points[q] = none)) :
    (List.range k.count).find? k.unloaded = none := by
  refine List.find?_range_eq_none.2 fun j hj => ?_
  rw [Bool.not_eq_true', Bool.eq_false_iff]
  exact fun hu => h ⟨j, hj.trans_le h16⟩ ⟨hj, (unloaded_iff ⟨j, hj.trans_le h16⟩).1 hu⟩

theorem find_self {i : Fin 4} (hi : ∃ t, k.traps[i] = some t ∧ t.startLoop = t.endLoop)
    (hfirst : ∀ j : Fin 4, j < i → ¬ ∃ t, k.traps[j] = some t ∧ t.startLoop = t.endLoop) :
    (List.range 4).find? k.trapSelf = some i.val := by
  refine List.find?_range_eq_some.2 ⟨(trapSelf_iff i).2 hi, List.mem_range.2 i.isLt, fun j hj => ?_⟩
  rw [Bool.not_eq_true', Bool.eq_false_iff]
  exact fun h => hfirst ⟨j, hj.trans i.isLt⟩ hj ((trapSelf_iff ⟨j, hj.trans i.isLt⟩).1 h)

theorem find_no_self (h : ∀ i : Fin 4, ¬ ∃ t, k.traps[i] = some t ∧ t.startLoop = t.endLoop) :
    (List.range 4).find? k.trapSelf = none := by
  refine List.find?_range_eq_none.2 fun j hj => ?_
  rw [Bool.not_eq_true', Bool.eq_false_iff]
  exact fun ht => h ⟨j, hj⟩ ((trapSelf_iff ⟨j, hj⟩).1 ht)

end Validity

/-! ## OPEN and GREEN (R137 to R140) -/

section Start

variable {s : State} {r : Request} {rest : List Request}

theorem openSession_valid (hb : BeginsAs s r rest 0x38 0) (hs : s.session.state = .setup)
    (hv : s.course.validity = .valid) :
    exec .openSession s = .next ((Answer.taken (s.begin rest).opened [4, 255]).place r) :=
  request_answers hb ((orState_setup (s := s.begin rest) hs _).trans (if_pos hv))

theorem openSession_invalid (hb : BeginsAs s r rest 0x38 0) (hs : s.session.state = .setup)
    (hv : s.course.validity ≠ .valid) : exec .openSession s =
      .next { s with mu := servedMu s r rest .state s.course.validity.data } :=
  (request_answers hb ((orState_setup (s := s.begin rest) hs _).trans (if_neg hv))).trans rfl

theorem startMode_none {n : Nat} (h : n = 0 ∨ 2 < n) : StartMode.ofCode n = none := by
  match n with
  | 0 => rfl
  | 1 => omega
  | 2 => omega
  | n + 3 => rfl

theorem green_takes (hb : BeginsAs s r rest 0x39 1) (hs : s.session.state = .standby) {m : StartMode}
    (hm : StartMode.ofCode (r.nat 0 1) = some m) : exec .green s =
      .next ((Answer.taken ((s.begin rest).greened m) (u8 s.waiting.length)).place r) :=
  request_answers hb ((orState_of (decide_eq_true hs) _).trans (orRange_eq_some hm))

theorem atGreen_stays {r : Competitor} (mode : StartMode) (now : Nat) (neutral : Bool) (h : r.state ≠ .standby) :
    r.atGreen mode now neutral = r := if_neg (mt (waits_iff r).1 h)

theorem atGreen_flying {r : Competitor} (now : Nat) (neutral : Bool) (h : r.state = .standby) :
    r.atGreen .flying now neutral = { r with state := .onTrack, silenceTestOwed := false } :=
  if_pos ((waits_iff r).2 h)

theorem atGreen_grid {r : Competitor} (now : Nat) (neutral : Bool) (h : r.state = .standby) :
    r.atGreen .grid now neutral =
      Competitor.enter { r with state := .onTrack, silenceTestOwed := false } now .good neutral :=
  if_pos ((waits_iff r).2 h)

end Start

/-- Settles O50. -/
theorem sessionStart : Obligations.SessionStart := by
  unfold Obligations.SessionStart
  refine ⟨fun s r rest hb => ⟨fun hs => request_refused hb (orState_notSetup (s := s.begin rest) hs _), fun hs =>
    ⟨fun hv => openSession_valid hb hs hv, fun hv => ?_, fun i hv => ?_, fun i hv => ?_⟩⟩, fun k => ?_,
    fun s r rest hb => ?_⟩
  · rw [openSession_invalid hb hs (by rw [hv]; nofun), hv]
    rfl
  · rw [openSession_invalid hb hs (by rw [hv]; nofun), hv]
    rfl
  · rw [openSession_invalid hb hs (by rw [hv]; nofun), hv]
    rfl
  · intro missing self
    refine ⟨validity_noFinish, fun hc h16 hf => ⟨fun q hq hfirst => ?_, fun hall => ⟨fun i hi hfirst => ?_, fun hself => ?_⟩⟩⟩
    all_goals rw [validity_finish hc hf]
    · rw [find_missing hq hfirst]
    · rw [find_no_missing h16 hall, find_self hi hfirst]
    · rw [find_no_missing h16 hall, find_no_self hself]
  · intro moved on entered green
    refine ⟨fun hs => request_refused hb (orState_not (fun h => hs (of_decide_eq_true h)) _), fun hs => ⟨fun h => ?_,
      fun h => ⟨mapAll s.engine.records (Competitor.atGreen .flying s.now s.session.neutral), ?_, fun c => ?_⟩,
      fun h => ⟨mapAll s.engine.records (Competitor.atGreen .grid s.now s.session.neutral), ?_, fun c => ?_⟩⟩⟩
    · exact request_refused hb ((orState_of (decide_eq_true hs) _).trans (orRange_eq_none (startMode_none h)))
    · exact (green_takes hb hs (m := .flying) (by rw [h]; rfl)).trans rfl
    · rw [mapAll_get]
      split
      next hc => exact atGreen_flying _ _ hc
      next hc => exact atGreen_stays _ _ _ hc
    · exact (green_takes hb hs (m := .grid) (by rw [h]; rfl)).trans rfl
    · rw [mapAll_get]
      split
      next hc => exact atGreen_grid _ _ hc
      next hc => exact atGreen_stays _ _ _ hc

/-! ## The running session and its end (R141 to R148) -/

section RunAndEnd

variable {s : State} {r : Request} {rest : List Request}

theorem neutralOn_eq (s : State) : s.neutralOn = { s with
    session := { s.session with neutral := true }
    engine := { s.engine with records := mapAll s.engine.records Competitor.atNeutral }
    publisher := match s.session.neutral with
      | true => s.publisher
      | false => s.publisher.give
        { kind := .session, time := s.now, extra := .session .neutralOn s.session.state none } } := by
  unfold State.neutralOn
  cases s.session.neutral <;> rfl

theorem neutralOff_eq (s : State) : s.neutralOff = { s with
    session := { s.session with neutral := false }
    publisher := match s.session.neutral with
      | true => s.publisher.give
        { kind := .session, time := s.now, extra := .session .neutralOff s.session.state none }
      | false => s.publisher } := by
  unfold State.neutralOff
  cases s.session.neutral <;> rfl

theorem atNeutral_eq (r : Competitor) : r.atNeutral = match r.entered with
    | true => { r with lapNeutral := true, sectorNeutral := true }
    | false => r := by
  unfold Competitor.atNeutral
  cases r.entered <;> rfl

end RunAndEnd

/-- Settles O51. -/
theorem sessionRunAndEnd : Obligations.SessionRunAndEnd := by
  unfold Obligations.SessionRunAndEnd
  refine ⟨fun s r rest => ?_, fun s r rest => ?_⟩
  · intro running result
    refine ⟨fun hb => ⟨fun hs => request_refused hb (orState_not (mt (running_iff _).1 hs) _),
      fun hs => ⟨mapAll s.engine.records Competitor.atNeutral, ?_, fun c => ?_⟩⟩,
      fun hb => ⟨fun hs => request_refused hb (orState_not (mt (running_iff _).1 hs) _), fun hs => ?_⟩⟩
    · refine (request_answers hb (orState_of ((running_iff _).2 hs) _)).trans ?_
      rw [neutralOn_eq]
      rfl
    · rw [mapAll_get]
      exact atNeutral_eq _
    · refine (request_answers hb (orState_of ((running_iff _).2 hs) _)).trans ?_
      rw [neutralOff_eq]
      rfl
  · intro x given freed held
    refine ⟨fun hb => ⟨fun hs => request_refused hb (orState_not (fun h => hs (of_decide_eq_true h)) _),
      fun hs => (request_answers hb (orState_of (decide_eq_true hs) _)).trans rfl⟩,
      fun hb => ⟨fun hs => request_refused hb (orState_not (fun h => ?_) _),
      fun hs => (request_answers hb (orState_of ((closable_iff _).2 hs) _)).trans rfl⟩,
      fun hb => ⟨fun hs => request_refused hb (orState_not (fun h => hs (of_decide_eq_true h)) _),
      fun hs => ⟨mapAll s.engine.records Competitor.cleared,
      (request_answers hb (orState_of (decide_eq_true hs) _)).trans rfl,
        fun c => mapAll_get _ _ c⟩⟩⟩
    have hclosable := (closable_iff _).1 h
    rcases hs with hs | hs
    all_goals
      rw [show (s.begin rest).session.state = x from rfl, hs] at hclosable
      exact absurd hclosable (by decide)

end Sys2Proof.Machine
end

section
/-! PARAM_WRITE: the values in force, and the tests that it makes at once. -/

namespace Sys2Proof.Machine

open Host (Outcome)

/-! ## What neither reads nor changes the MU -/

/-- The update reads and changes neither the MU nor the line. -/
structure MuFree (f : State → State) : Prop where
  commutes : ∀ s m, f { s with mu := m } = { f s with mu := m }
  lif : ∀ s, (f s).lif = s.lif

namespace MuFree

theorem id : MuFree fun s => s := ⟨fun _ _ => rfl, fun _ => rfl⟩

theorem comp {f g : State → State} (hf : MuFree f) (hg : MuFree g) : MuFree fun s => f (g s) :=
  ⟨fun s m => by rw [hg.commutes, hf.commutes], fun s => (hf.lif _).trans (hg.lif s)⟩

theorem foldl {α : Type} {f : State → α → State} (hf : ∀ a, MuFree fun s => f s a) (l : List α) :
    MuFree fun s => l.foldl f s := by
  induction l with
  | nil => exact id
  | cons a l ih => exact ih.comp (hf a)

end MuFree

theorem muFree_apply (a : Application) : MuFree fun s => s.apply a := ⟨fun _ _ => rfl, fun _ => rfl⟩

theorem muFree_expireHead (c : CompNo) (e : Pending) (es : List Pending) : MuFree fun s => s.expireHead c e es :=
  ⟨fun _ _ => rfl, fun _ => rfl⟩

/-! ## The due heads of one list (R98) -/

section ExpireList

variable {s : State} {c : CompNo}

theorem expireList_none (h : s.dueHead c = none) (n : Nat) : s.expireList c n = s := by
  cases n with
  | zero => rfl
  | succ n =>
    unfold State.expireList
    rw [h]

theorem expireList_full (h : ¬ s.publisher.accepting = true) (n : Nat) : s.expireList c n = s := by
  cases n with
  | zero => rfl
  | succ n =>
    unfold State.expireList
    split
    · rfl
    · exact if_neg h

theorem expireList_due {e : Pending} {es : List Pending} (h : s.dueHead c = some (e, es))
    (ha : s.publisher.accepting = true) (n : Nat) :
    s.expireList c (n + 1) = (s.expireHead c e es).expireList c n := by
  conv_lhs => unfold State.expireList
  rw [h]
  exact if_pos ha

/-- The heads of a list are applied as by one command for each (R98). -/
theorem expireList_succ (s : State) (c : CompNo) (n : Nat) :
    s.expireList c (n + 1) = (Machine.settleExpiry c s).expireList c n := by
  unfold Machine.settleExpiry
  cases h : s.dueHead c with
  | none => rw [expireList_none h, expireList_none h]
  | some x =>
    obtain ⟨e, es⟩ := x
    dsimp only
    by_cases ha : s.publisher.accepting = true
    · rw [expireList_due h ha, if_pos ha]
    · rw [expireList_full ha, if_neg ha, expireList_full ha]

end ExpireList

theorem muFree_settleExpiry (c : CompNo) : MuFree (Machine.settleExpiry c) := by
  refine ⟨fun s m => ?_, fun s => ?_⟩
  · unfold Machine.settleExpiry
    have hdue : ({ s with mu := m } : State).dueHead c = s.dueHead c := rfl
    rw [hdue]
    cases s.dueHead c with
    | none => rfl
    | some x =>
      obtain ⟨e, es⟩ := x
      dsimp only
      split <;> rfl
  · unfold Machine.settleExpiry
    split
    · split <;> rfl
    · rfl

theorem muFree_expireList (c : CompNo) (n : Nat) : MuFree fun s => s.expireList c n := by
  induction n with
  | zero => exact .id
  | succ n ih =>
    have hsucc : (fun s : State => s.expireList c (n + 1)) = fun s => (Machine.settleExpiry c s).expireList c n :=
      funext fun s => expireList_succ s c n
    rw [hsucc]
    exact ih.comp (muFree_settleExpiry c)

theorem muFree_expireFull (c : CompNo) : MuFree fun s => s.expireList c s.settle.lists[c].length :=
  ⟨fun s m => (muFree_expireList c s.settle.lists[c].length).commutes s m, fun s => (muFree_expireList c _).lif s⟩

theorem muFree_expireAll : MuFree State.expireAll :=
  ⟨fun s m => (MuFree.foldl muFree_expireFull (freeOrder s.freeCounter s.dueLists)).commutes
      { s with freeCounter := s.freeCounter + 1 } m,
    fun s => (MuFree.foldl muFree_expireFull (freeOrder s.freeCounter s.dueLists)).lif
      { s with freeCounter := s.freeCounter + 1 }⟩

theorem muFree_silenceTest (c : CompNo) : MuFree fun s => s.silenceTest c := by
  refine ⟨fun s m => ?_, fun s => ?_⟩
  · unfold State.silenceTest
    have hfrom : ({ s with mu := m } : State).engine.records[c].silentFrom ({ s with mu := m } : State).now
        ({ s with mu := m } : State).engine.silenceLimit =
          s.engine.records[c].silentFrom s.now s.engine.silenceLimit := rfl
    dsimp only at hfrom ⊢
    rw [hfrom]
    cases s.engine.records[c].silentFrom s.now s.engine.silenceLimit <;> rfl
  · unfold State.silenceTest
    dsimp only
    split <;> rfl

/-- No record owes a silence test. -/
def State.untested (s : State) : State := { s with engine := { s.engine with
  records := mapAll s.engine.records fun r => { r with silenceTestOwed := false } } }

theorem muFree_silenceTestAll : MuFree State.silenceTestAll :=
  ⟨fun s m => congrArg State.untested
      ((MuFree.foldl muFree_silenceTest (freeOrder s.freeCounter s.silentCars)).commutes
        { s with freeCounter := s.freeCounter + 1 } m),
    fun s => (MuFree.foldl muFree_silenceTest (freeOrder s.freeCounter s.silentCars)).lif
      { s with freeCounter := s.freeCounter + 1 }⟩

theorem muFree_setParam (p : Param) (v : Nat) : MuFree fun s => s.setParam p v := by
  cases p with
  | settleInterval =>
    exact muFree_expireAll.comp (g := fun s => { s with settle := { s.settle with interval := v } })
      ⟨fun _ _ => rfl, fun _ => rfl⟩
  | silenceLimit =>
    exact muFree_silenceTestAll.comp (g := fun s => { s with engine := { s.engine with silenceLimit := v } })
      ⟨fun _ _ => rfl, fun _ => rfl⟩
  | beaconTimeout => exact ⟨fun _ _ => rfl, fun _ => rfl⟩
  | holdoverLimit => exact ⟨fun _ _ => rfl, fun _ => rfl⟩
  | residualTolerance => exact ⟨fun _ _ => rfl, fun _ => rfl⟩

/-! ## PARAM_WRITE (R194) -/

section ParamWrite

variable {s : State} {r : Request} {rest : List Request}

/-- A parameter that is set, with its reply. -/
theorem paramWrite_sets (hb : BeginsAs s r rest 0x02 3) {p : Param} {v : Nat}
    (hp : Param.ofCode (r.nat 0 1) = some p) (hv : p.clamp (r.nat 1 2) = v) : exec .paramWrite s =
      .next { s.setParam p v with
        mu := servedMu s r rest (if v = r.nat 1 2 then .ok else .clamped) (natBytes 2 v) } := by
  subst hv
  refine (request_answers hb (orRange_eq_some hp)).trans (congrArg Outcome.next ?_)
  have hbegun : (s.begin rest).setParam p (p.clamp (r.nat 1 2)) =
      { s.setParam p (p.clamp (r.nat 1 2)) with mu := (s.begin rest).mu } := (muFree_setParam p _).commutes s _
  have hlif : (s.setParam p (p.clamp (r.nat 1 2))).lif = s.lif := (muFree_setParam p _).lif s
  rw [answer_place, hbegun]
  unfold State.reply servedMu
  dsimp only
  rw [hlif]
  rfl

theorem param_none {n : Nat} (h : n = 0 ∨ 5 < n) : Param.ofCode n = none := by
  rcases h with rfl | h
  · rfl
  · match n with
    | n + 6 => rfl

theorem clamp_settleInterval (v : Nat) : Param.settleInterval.clamp v = min v 2000 := by
  show max 0 (min 2000 v) = _
  rw [Nat.zero_max, Nat.min_comm]

theorem clampNat_eq {lo hi : Nat} (h : lo ≤ hi) (v : Nat) :
    clampNat lo hi v = if v < lo then lo else min v hi := by
  unfold clampNat
  split <;> omega

theorem clamp_silenceLimit (v : Nat) :
    Param.silenceLimit.clamp v = if v = 0 then 0 else if v < 10 then 10 else min v 3600 := by
  show (if v = 0 then 0 else clampNat 10 3600 v) = _
  rw [clampNat_eq (by decide)]

theorem clamp_beaconTimeout (v : Nat) : Param.beaconTimeout.clamp v = if v = 0 then 1 else min v 60 := by
  show clampNat 1 60 v = _
  rw [clampNat_eq (by decide)]
  simp only [Nat.lt_one_iff]

end ParamWrite

/-! ## The tests of all lists and all competitors (R98, R128) -/

section Tests

variable {s : State} {c : CompNo}

theorem mem_dueLists : c ∈ s.dueLists ↔
    ∃ e es, s.settle.lists[c] = e :: es ∧ e.time + s.settle.interval * 1000 ≤ s.now := by
  unfold State.dueLists State.dueHead
  rw [List.mem_filter]
  simp only [mem_allFin, true_and]
  cases s.settle.lists[c] with
  | nil => simp
  | cons e es =>
    by_cases hd : e.time + s.settle.interval * 1000 ≤ s.now
    · simp [Pending.due, hd]
    · simp [Pending.due, hd]

theorem silentFrom_isSome (r : Competitor) (now limit : Nat) : (r.silentFrom now limit).isSome = true ↔
    (r.state = .onTrack ∨ r.state = .inPit) ∧ r.silenceAlerted = false ∧ limit ≠ 0 ∧
      ∃ m, r.lastApplied = some m ∧ m.time + limit * 1000000 < now := by
  unfold Competitor.silentFrom
  cases r.lastApplied with
  | none => simp
  | some m =>
    simp only [Option.isSome_ite, Option.some.injEq, exists_eq_left']
    tauto

theorem mem_silentCars : c ∈ s.silentCars ↔
    (s.engine.records[c].silentFrom s.now s.engine.silenceLimit).isSome = true := by
  unfold State.silentCars
  rw [List.mem_filter]
  simp only [mem_allFin, true_and]

end Tests

/-- The test of a silent competitor is the one that a change of now would owe it (R128). -/
theorem silent_owed {s : State} {c : CompNo} (h : c ∈ s.silentCars) :
    silent c { s with engine := { s.engine with
      records := s.engine.records.set c { s.engine.records[c] with silenceTestOwed := true } } } =
        s.silenceTest c := by
  obtain ⟨since, hsince⟩ := Option.isSome_iff_exists.1 (mem_silentCars.1 h)
  let r : Competitor := { s.engine.records[c] with silenceTestOwed := true }
  let t : State := { s with engine := { s.engine with records := s.engine.records.set c r } }
  have hrecord : t.engine.records[c] = r := set_get_same ..
  have howed : t.engine.records[c].silenceTestOwed = true := by rw [hrecord]
  have hfrom : t.engine.records[c].silentFrom t.now t.engine.silenceLimit = some since := by
    rw [hrecord]
    exact hsince
  have hset (x : Competitor) : t.engine.records.set c x = s.engine.records.set c x := Vector.set_set ..
  have htest : s.silenceTest c = { s with
      engine := { s.engine with
        records := s.engine.records.set c { s.engine.records[c] with
          silenceAlerted := true
          silenceTestOwed := false }
        counts := { s.engine.counts with silences := bump s.engine.counts.silences } }
      publisher := s.publisher.alert (silentResult s.now c s.engine.records[c].raceNumber since) } := by
    unfold State.silenceTest
    dsimp only
    rw [hsince]
    rfl
  refine (silent_alerts (s := t) howed hfrom).trans ?_
  rw [hset, hrecord, htest]
  rfl

/-- Settles O52. -/
theorem paramWrite : Obligations.ParamWrite := by
  unfold Obligations.ParamWrite
  refine ⟨fun s r rest hb => ?_, fun s => ?_⟩
  · intro v replied
    refine ⟨fun h => request_refused hb (orRange_eq_none (param_none h)), fun h => ?_, fun n hn h => ?_,
      fun n hn h => ?_, fun n hn h => ?_, fun n hn h => ?_⟩
    · exact paramWrite_sets hb (p := .settleInterval) (by rw [h]; rfl) (clamp_settleInterval v)
    · exact paramWrite_sets hb (p := .silenceLimit) (by rw [h]; rfl) ((clamp_silenceLimit v).trans hn.symm)
    · exact ⟨_, paramWrite_sets hb (p := .beaconTimeout) (by rw [h]; rfl) ((clamp_beaconTimeout v).trans hn.symm),
        fun l => mapAll_get _ _ l⟩
    · exact ⟨_, paramWrite_sets hb (p := .holdoverLimit) (by rw [h]; rfl)
        ((clampNat_eq (by decide) v).trans hn.symm), fun l => mapAll_get _ _ l⟩
    · exact paramWrite_sets hb (p := .residualTolerance) (by rw [h]; rfl) ((clampNat_eq (by decide) v).trans hn.symm)
  · refine ⟨⟨_, freeOrder_perm _ _, rfl⟩, fun c => mem_dueLists, fun c n t ht => ⟨rfl, ?_⟩,
      ⟨_, _, freeOrder_perm _ _, rfl, fun c => mapAll_get _ _ c⟩, fun c hc => ?_, fun c => ?_⟩
    · rw [exec_settleExpiry_comp] at ht
      rw [expireList_succ, Outcome.next.inj ht]
    · exact (exec_silent_comp c _).trans (congrArg Outcome.next (silent_owed hc))
    · exact mem_silentCars.trans (silentFrom_isSome _ _ _)

end Sys2Proof.Machine
end

section
/-! The sweep: its requests, its completions, its report and its traversal. -/

namespace Sys2Proof.Machine

open Host (Outcome)

/-! ## The sweep requests (R181, R186, R187) -/

section Requests

variable {s : State} {r : Request} {rest : List Request}

theorem sweepMode_ofCode (m : SweepMode) : SweepMode.ofCode m.code = some m := by
  cases m <;> rfl

theorem sweepMode_none {n : Nat} (h : n = 0 ∨ 2 < n) : SweepMode.ofCode n = none := by
  rcases h with rfl | h
  · rfl
  · match n with
    | n + 3 => rfl

theorem runSweepStart_idle (h : s.sweep.state = .idle) :
    runSweepStart r s = orRange s (SweepMode.ofCode (r.nat 0 1)) s.startSweep := if_pos h

theorem runSweepStart_busy (h : s.sweep.state ≠ .idle) : runSweepStart r s = .refused s .busy := if_neg h

theorem startSweep_noRoot (m : SweepMode) (h : s.resolver.root = none) : s.startSweep m = .refused s .state := by
  unfold State.startSweep
  rw [h]

theorem startSweep_root (m : SweepMode) {root : TableIndex} (h : s.resolver.root = some root) :
    s.startSweep m = .taken { s with sweep := s.sweep.start m root (s.tmp.busyWith .sweep) } [] := by
  unfold State.startSweep
  rw [h]

theorem busyWith_iff (t : Tmp) (q : Requester) : t.busyWith q = true ↔ ∃ a, t.inProgress = some (q, a) := by
  unfold Tmp.busyWith
  cases t.inProgress with
  | none => simp
  | some x =>
    obtain ⟨q', a⟩ := x
    simp [eq_comm]

theorem sweepStart_starts (hb : BeginsAs s r rest 0x50 1) (hs : s.sweep.state = .idle) {m : SweepMode}
    (hm : r.nat 0 1 = m.code) {root : TableIndex} (hr : s.resolver.root = some root) {busy : Bool}
    (hbusy : s.tmp.busyWith .sweep = busy) : exec .sweepStart s =
      .next { s with sweep := s.sweep.start m root busy, mu := servedMu s r rest .ok [] } := by
  subst hbusy
  have hmode : SweepMode.ofCode (r.nat 0 1) = some m := by rw [hm, sweepMode_ofCode]
  exact (request_answers hb ((runSweepStart_idle (s := s.begin rest) hs).trans
    ((orRange_eq_some hmode).trans (startSweep_root (s := s.begin rest) m hr)))).trans rfl

end Requests

/-- Settles O53. -/
theorem sweepRequests : Obligations.SweepRequests := by
  unfold Obligations.SweepRequests
  intro s r rest x put
  refine ⟨fun hb => ⟨fun hs => request_refused hb (runSweepStart_busy (s := s.begin rest) hs), fun hs => ⟨fun h => ?_,
    fun m hm => ⟨fun hr => ?_, fun root hr => ⟨fun hfree => ?_, fun a ha => ?_⟩⟩⟩⟩,
    fun hb => ⟨fun hs => ?_, fun hs => ?_⟩, fun hb => ⟨fun hs => ?_, fun hs => ?_⟩,
    fun hb => ⟨fun hs => ?_, fun hs => ?_⟩⟩
  · exact request_refused hb ((runSweepStart_idle (s := s.begin rest) hs).trans (orRange_eq_none (sweepMode_none h)))
  · have hmode : SweepMode.ofCode (r.nat 0 1) = some m := by rw [hm, sweepMode_ofCode]
    exact request_refused hb ((runSweepStart_idle (s := s.begin rest) hs).trans
      ((orRange_eq_some hmode).trans (startSweep_noRoot (s := s.begin rest) m hr)))
  · exact sweepStart_starts hb hs hm hr (Bool.eq_false_iff.2 fun h => by
      obtain ⟨a, ha⟩ := (busyWith_iff _ _).1 h
      exact hfree a ha)
  · exact sweepStart_starts hb hs hm hr ((busyWith_iff _ _).2 ⟨a, ha⟩)
  · exact (request_answers hb (orState_of (decide_eq_true hs) _)).trans rfl
  · exact request_refused hb (orState_not (fun h => hs (of_decide_eq_true h)) _)
  · exact (request_answers hb (orState_of (decide_eq_true hs) _)).trans rfl
  · exact request_refused hb (orState_not (fun h => hs (of_decide_eq_true h)) _)
  · exact (request_answers hb (orState_of (decide_eq_true hs) _)).trans rfl
  · exact request_refused hb (orState_not (fun h => (of_decide_eq_true h) hs) _)

/-! ## Completions (R182, R186 to R188) -/

/-- The command that completes an access of this kind. -/
def SweepNext.command : SweepNext → Instr
  | .entry => .sweepReadComplete
  | .flagUpdate _ => .sweepFlagUpdateComplete
  | .target _ => .aliasTargetReadComplete

/-- The command is one of the three that complete an access of the sweep. -/
def CompletesSweep (i : Instr) : Prop :=
  i = .sweepReadComplete ∨ i = .sweepFlagUpdateComplete ∨ i = .aliasTargetReadComplete

section Completions

variable {s : State} {i : Instr}

theorem sweepCompletion_done {a : Access} (hp : s.tmp.inProgress = some (.sweep, a))
    (hi : i = s.sweep.inProgress.command) : exec i s = .next (s.sweepAccessDone a) := by
  subst hi
  cases hn : s.sweep.inProgress with
  | entry =>
    show execSweepReadComplete s = _
    unfold execSweepReadComplete
    rw [hp, hn]
  | flagUpdate into =>
    show execSweepFlagUpdateComplete s = _
    unfold execSweepFlagUpdateComplete
    rw [hp, hn]
  | target t =>
    show execAliasTargetReadComplete s = _
    unfold execAliasTargetReadComplete
    rw [hp, hn]

/-- A completion with no access of the sweep in progress, or with one of another kind. -/
theorem sweepCompletion_none (hc : CompletesSweep i) (h : (∀ a, s.tmp.inProgress ≠ some (.sweep, a)) ∨
    i ≠ s.sweep.inProgress.command) : exec i s = .next s := by
  rcases hc with rfl | rfl | rfl
  · show execSweepReadComplete s = _
    unfold execSweepReadComplete
    split
    next a hp hn => exact h.elim (fun h => absurd hp (h a)) fun h => absurd (by rw [hn]; rfl) h
    next => rfl
  · show execSweepFlagUpdateComplete s = _
    unfold execSweepFlagUpdateComplete
    split
    next a into hp hn => exact h.elim (fun h => absurd hp (h a)) fun h => absurd (by rw [hn]; rfl) h
    next => rfl
  · show execAliasTargetReadComplete s = _
    unfold execAliasTargetReadComplete
    split
    next a t hp hn => exact h.elim (fun h => absurd hp (h a)) fun h => absurd (by rw [hn]; rfl) h
    next => rfl

theorem inProgress_own {x : Sweep} (h : x.stale = none) : x.inProgress = x.pos.next := by
  unfold Sweep.inProgress
  rw [h]

theorem inProgress_stale {x : Sweep} {k : SweepContext} (h : x.stale = some k) : x.inProgress = k.next := by
  unfold Sweep.inProgress
  rw [h]

theorem sweepAccessDone_stale {k : SweepContext} (a : Access) (h : s.sweep.stale = some k) :
    s.sweepAccessDone a = { accessed s (a.effect s.tmp.mem) with
      sweep := s.sweep.staleDone k a.addr (readWord s.tmp.mem a.addr) } := by
  unfold State.sweepAccessDone
  dsimp only
  rw [h]
  rfl

theorem sweepAccessDone_own (a : Access) (h : s.sweep.stale = none) {d : Sweep × Bool}
    (hd : s.sweep.accessDone a.addr (readWord s.tmp.mem a.addr) = d) :
    s.sweepAccessDone a = State.alerts { accessed s (a.effect s.tmp.mem) with sweep := d.1 }
      (if d.2 then [sweepDoneResult s.now d.1] else []) := by
  subst hd
  unfold State.sweepAccessDone
  dsimp only
  rw [h]
  rfl

section AccessDone

variable {x : Sweep} (a : WordAddr) {w : Word}

theorem accessDone_idle (h : x.state = .idle) :
    x.accessDone a w = ({ x with report := x.context.report a w x.report }, false) := by
  unfold Sweep.accessDone
  rw [h]

theorem accessDone_moves (h : x.state ≠ .idle) {p : SweepPos} (hp : x.moved w = some p) :
    x.accessDone a w = ({ x with report := x.context.report a w x.report, pos := p }, false) := by
  unfold Sweep.accessDone
  cases hs : x.state with
  | idle => exact absurd hs h
  | running =>
    dsimp only
    rw [hp, ← hs]
  | suspended =>
    dsimp only
    rw [hp, ← hs]

theorem accessDone_ends (h : x.state ≠ .idle) (hp : x.moved w = none) :
    x.accessDone a w = ({ x with
      state := .idle
      report := { x.context.report a w x.report with complete := true } }, true) := by
  unfold Sweep.accessDone
  cases hs : x.state with
  | idle => exact absurd hs h
  | running =>
    dsimp only
    rw [hp]
  | suspended =>
    dsimp only
    rw [hp]

end AccessDone

end Completions

/-- Settles O54. -/
theorem sweepCompletions : Obligations.SweepCompletions := by
  unfold Obligations.SweepCompletions
  intro s i x kind hi
  have hkind (n : SweepNext) : kind n = n.command := by cases n <;> rfl
  refine ⟨fun h => sweepCompletion_none hi (.inl h), fun a ha => ?_⟩
  intro w f report
  refine ⟨fun hstale => ⟨fun hne => ?_, fun he => ⟨fun hidle => ?_, fun hrun => ⟨fun p hp => ?_, fun hp => ?_⟩⟩⟩,
    fun k hk => ⟨fun hne => ?_, fun he => ?_⟩⟩
  · exact sweepCompletion_none hi (.inr (by rwa [inProgress_own hstale, ← hkind]))
  · have hown : i = s.sweep.inProgress.command := by rwa [inProgress_own hstale, ← hkind]
    rw [sweepCompletion_done ha hown, sweepAccessDone_own a hstale (accessDone_idle _ hidle)]
    rfl
  · have hown : i = s.sweep.inProgress.command := by rwa [inProgress_own hstale, ← hkind]
    rw [sweepCompletion_done ha hown, sweepAccessDone_own a hstale (accessDone_moves _ hrun hp)]
    rfl
  · have hown : i = s.sweep.inProgress.command := by rwa [inProgress_own hstale, ← hkind]
    rw [sweepCompletion_done ha hown, sweepAccessDone_own a hstale (accessDone_ends _ hrun hp)]
    rfl
  · exact sweepCompletion_none hi (.inr (by rwa [inProgress_stale hk, ← hkind]))
  · have hheld : i = s.sweep.inProgress.command := by rwa [inProgress_stale hk, ← hkind]
    rw [sweepCompletion_done ha hheld, sweepAccessDone_stale a hk]
    unfold Sweep.staleDone
    cases Config.staleSweepCounts <;> rfl

/-! ## The position of a sweep (R50, R181, R182) -/

theorem entryAddr_eq (t : TableIndex) (e : Byte) : entryAddr t e = BitVec.ofNat 18 (t.toNat * 256 + e.toNat) := by
  refine BitVec.eq_of_toNat_eq ?_
  have ht := t.isLt
  have he := e.isLt
  unfold entryAddr
  rw [BitVec.toNat_append, BitVec.toNat_ofNat, Nat.shiftLeft_eq, ← Nat.shiftLeft_eq,
    ← Nat.shiftLeft_add_eq_or_of_lt he, Nat.shiftLeft_eq]
  omega

section Position

variable {r : Byte} {b l : Option (TableIndex × Byte)} {n : SweepNext}

theorem level_eq : (⟨r, b, l, n⟩ : SweepPos).level =
    if l ≠ none then .leaf else if b ≠ none then .branch else .root := by
  unfold SweepPos.level
  cases l with
  | some l => rfl
  | none => cases b <;> rfl

theorem addr_eq (root : TableIndex) : (⟨r, b, l, n⟩ : SweepPos).addr root =
    BitVec.ofNat 18 ((l.getD (b.getD (root, r))).1.toNat * 256 + (l.getD (b.getD (root, r))).2.toNat) := by
  unfold SweepPos.addr
  cases l with
  | some l => exact entryAddr_eq _ _
  | none =>
    cases b with
    | some b => exact entryAddr_eq _ _
    | none => exact entryAddr_eq _ _

theorem moved_stays {x : Sweep} {w : Word} {m : SweepNext} (h : x.context.move w = .stay m) :
    x.moved w = some { x.pos with next := m } := by
  unfold Sweep.moved
  rw [h]

theorem moved_moves {x : Sweep} {w : Word} {into : Option TableIndex} (h : x.context.move w = .move into) :
    x.moved w = x.pos.after into := by
  unfold Sweep.moved
  rw [h]

end Position

/-! ## The report of a sweep (R183, R184) -/

section Report

variable {r : SweepReport} {mode : SweepMode} {a : WordAddr} {n : Nat} {seen h keep : Bool}

theorem entryRead_badCompetitor (hn : 96 ≤ n) :
    r.entryRead mode a (.competitor n seen h keep) = { r with visited := bump r.visited }.fault a := by
  unfold SweepReport.entryRead
  dsimp only
  rw [finOf_eq_none.2 hn]

theorem entryRead_competitor {c : CompNo} (hc : c.val = n) : r.entryRead mode a (.competitor n seen h keep) =
    match mode with
    | .audit => SweepReport.resolves { r with
        visited := bump r.visited
        competitors := bump r.competitors } c
    | .clearSeen => { r with
        visited := bump r.visited
        competitors := bump r.competitors } := by
  subst hc
  unfold SweepReport.entryRead
  cases mode with
  | audit =>
    dsimp only
    rw [finOf_val]
  | clearSeen =>
    dsimp only
    rw [finOf_val]

theorem resolves_eq (r : SweepReport) (c : CompNo) : r.resolves c = { r with
    audit := r.audit.set c (if r.audit[c] < 255 then r.audit[c] + 1 else 255) } := rfl

theorem targetRead_badCompetitor (hn : 96 ≤ n) : r.targetRead a (.competitor n seen h keep) = r.fault a := by
  unfold SweepReport.targetRead
  dsimp only
  rw [finOf_eq_none.2 hn]

theorem targetRead_competitor {c : CompNo} (hc : c.val = n) :
    r.targetRead a (.competitor n seen h keep) = r.resolves c := by
  subst hc
  unfold SweepReport.targetRead
  dsimp only
  rw [finOf_val]

theorem flagUpdated_none {level : Level} {w : Word} (h : seenUpdate level false w = none) :
    r.flagUpdated level w = r := by
  unfold SweepReport.flagUpdated
  rw [h]
  rfl

theorem flagUpdated_some {level : Level} {w : Word} (h : seenUpdate level false w ≠ none) :
    r.flagUpdated level w = { r with seenCleared := bump r.seenCleared } :=
  if_pos (Option.isSome_iff_ne_none.2 h)

/-- What a sweep does after an entry that has a SEEN flag and does not refer to another. -/
theorem sweepMove_flagged {e : Entry} (hseen : e.seen? = some seen) (halias : ∀ t b h, e ≠ .aliasTo t b h) :
    e.sweepMove mode = if mode = .clearSeen ∧ seen = true then .stay (.flagUpdate e.into) else .move e.into := by
  cases mode with
  | clearSeen =>
    unfold Entry.sweepMove
    rw [hseen]
    simp
  | audit =>
    cases e with
    | table t b h => rfl
    | competitor n b h k => rfl
    | aliasTo t b h => exact absurd rfl (halias t b h)
    | absent n => cases hseen
    | bad => cases hseen

theorem sweepMove_alias (t : WordAddr) : (Entry.aliasTo t seen h).sweepMove mode =
    if mode = .audit then .stay (.target t)
    else if seen = true then .stay (.flagUpdate none) else .move none := by
  cases mode <;> cases seen <;> rfl

end Report

/-- Settles O55. -/
theorem sweepReporting : Obligations.SweepReporting := by
  unfold Obligations.SweepReporting
  refine ⟨fun x w r b l n hpos => ?_, fun mode level a w r => ?_, fun mode level a t w r into => ?_,
    fun r b l n t => ?_⟩
  · intro level place addr k
    have hcontext : x.context = k := by
      unfold Sweep.context
      rw [hpos, level_eq]
    refine ⟨hcontext, ?_, fun m hm => ?_, fun into hm => ?_⟩
    · rw [hpos]
      cases n with
      | entry => exact congrArg Access.read (addr_eq x.root)
      | flagUpdate into => exact congrArg₂ (Access.flag · · false) (addr_eq x.root) level_eq
      | target t => rfl
    · rw [moved_stays (hcontext ▸ hm), hpos]
    · exact moved_moves (hcontext ▸ hm)
  · intro k v bad
    have hreport (e : Entry) (he : readEntry level w = e) : k.report a w r = r.entryRead mode a e := he ▸ rfl
    have hmove (e : Entry) (he : readEntry level w = e) : k.move w = e.sweepMove mode := he ▸ rfl
    refine ⟨fun n he => ⟨hreport _ he, (hmove _ he).trans ?_⟩, fun he => ⟨hreport _ he, (hmove _ he).trans ?_⟩,
      fun t seen h he => ⟨hreport _ he, (hmove _ he).trans (sweepMove_flagged rfl nofun)⟩,
      fun n seen h keep he => ⟨(hmove _ he).trans (sweepMove_flagged rfl nofun), fun hn =>
        (hreport _ he).trans (entryRead_badCompetitor hn), fun c hc => ⟨fun hm => ?_, fun hm => ?_⟩⟩,
      fun t seen h he => ⟨hreport _ he, (hmove _ he).trans (sweepMove_alias t)⟩⟩
    · cases mode <;> rfl
    · cases mode <;> rfl
    · subst hm
      exact (hreport _ he).trans (entryRead_competitor hc)
    · subst hm
      exact (hreport _ he).trans (entryRead_competitor hc)
  · intro u k bad
    have htarget (e : Entry) (he : readEntry .aliasTarget w = e) : k.report a w r = r.targetRead a e := he ▸ rfl
    exact ⟨rfl, rfl, flagUpdated_none, flagUpdated_some, fun n he => htarget _ he, fun n seen h keep he =>
      ⟨fun hn => (htarget _ he).trans (targetRead_badCompetitor hn), fun c hc =>
        (htarget _ he).trans (targetRead_competitor hc)⟩, fun x seen h he => htarget _ he, fun he => htarget _ he⟩
  · intro root branch leaf
    exact ⟨rfl, rfl, fun h => if_neg h, fun h => if_pos h, fun h => if_neg h, fun h => if_pos h, fun h => if_neg h,
      fun h => if_pos h⟩

end Sys2Proof.Machine
end

section
/-! The reading requests: which pages there are, that each fits a reply, and the numbers that each carries. -/

namespace Sys2Proof.Machine

open Host (Outcome)

/-! ## Which pages there are, and that each fits a reply (R196, R197, R207) -/

/-- There is a page just where `has` says so, and its data fits the data bytes of a reply. -/
def PageAt (o : Option (List Byte)) (has : Prop) : Prop :=
  (o.isSome = true ↔ has) ∧ ∀ data, o = some data → data.length ≤ 25

section PageAt

variable {has has' : Prop} {o : Option (List Byte)} {l : List Byte}

theorem PageAt.some (h : has) (hl : l.length ≤ 25) : PageAt (some l) has :=
  ⟨⟨fun _ => h, fun _ => rfl⟩, fun _ hd => Option.some.inj hd ▸ hl⟩

theorem PageAt.none (h : ¬ has) : PageAt none has :=
  ⟨⟨nofun, fun hh => absurd hh h⟩, nofun⟩

theorem PageAt.iff (h : PageAt o has) (hiff : has ↔ has') : PageAt o has' := ⟨h.1.trans hiff, h.2⟩

/-- A page of each index below `n`. -/
theorem PageAt.index {n : Nat} (f : Fin n → List Byte) (hf : ∀ i, (f i).length ≤ 25) (k : Nat) :
    PageAt ((finOf? n k).map f) (k < n) := by
  rcases hk : finOf? n k with _ | i
  · exact .none (Nat.not_lt.2 (finOf_eq_none.1 hk))
  · exact .some ((finOf_eq_some i).1 hk ▸ i.isLt) (hf i)

end PageAt

section Status

variable (s : State)

theorem sessionPage_at (part : Nat) : PageAt (s.sessionPage part) (part ≤ 3) := by
  match part with
  | 0 => exact .some (by omega) (by simp)
  | 1 => exact .some (by omega) (by simp)
  | 2 => exact .some (by omega) (by simp)
  | 3 => exact .some (by omega) (by simp)
  | n + 4 => exact .none (by omega)

theorem alignmentPage_at (l : LoopNo) (part : Nat) : PageAt (s.alignmentPage l part) (part ≤ 1) := by
  match part with
  | 0 => exact .some (by omega) (by simp)
  | 1 => exact .some (by omega) (by simp)
  | n + 2 => exact .none (by omega)

theorem intakePage_at (l : LoopNo) (part : Nat) : PageAt (s.intakePage l part) (part ≤ 1) := by
  match part with
  | 0 => exact .some (by omega) (by simp)
  | 1 => exact .some (by omega) (by simp)
  | n + 2 => exact .none (by omega)

theorem resolverPage_at (part : Nat) : PageAt (s.resolverPage part) (part ≤ 1) := by
  match part with
  | 0 => exact .some (by omega) (by simp)
  | 1 => exact .some (by omega) (by simp)
  | n + 2 => exact .none (by omega)

theorem poolPage_at (part : Nat) : PageAt (s.poolPage part) (part ≤ 2) := by
  match part with
  | 0 => exact .some (by omega) (by simp)
  | 1 => exact .some (by omega) (by simp)
  | 2 => exact .some (by omega) (by simp)
  | n + 3 => exact .none (by omega)

theorem publisherPage_at (part : Nat) : PageAt (s.publisherPage part) (part ≤ 1) := by
  match part with
  | 0 => exact .some (by omega) (by simp)
  | 1 => exact .some (by omega) (by simp)
  | n + 2 => exact .none (by omega)

theorem sweepPage_audit {part : Nat} (h3 : 3 ≤ part) (h6 : part ≤ 6) : s.sweepPage part =
    some (((s.sweep.report.audit.toList.drop (24 * (part - 3))).take 24).map (BitVec.ofNat 8)) := by
  obtain ⟨n, rfl⟩ := Nat.exists_eq_add_of_le' h3
  exact if_pos h6

theorem sweepPage_none {part : Nat} (h : 6 < part) : s.sweepPage part = none := by
  obtain ⟨n, rfl⟩ := Nat.exists_eq_add_of_le' (by omega : 3 ≤ part)
  exact if_neg (Nat.not_le.2 h)

theorem sweepPage_at (part : Nat) : PageAt (s.sweepPage part) (part ≤ 6) := by
  match part with
  | 0 => exact .some (by omega) (by simp)
  | 1 => exact .some (by omega) (by simp)
  | 2 => exact .some (by omega) (by simp)
  | n + 3 =>
    by_cases h : n + 3 ≤ 6
    · rw [sweepPage_audit s (Nat.le_add_left 3 n) h]
      exact .some h (by simp)
    · rw [sweepPage_none s (Nat.not_le.1 h)]
      exact .none h

theorem slotPage_at (sel : Nat) : PageAt (s.slotPage sel) (sel ≤ 39 ∨ (64 ≤ sel ∧ sel ≤ 103)) := by
  have hfits (lane : Lane) (i : Slot) : (lane.slotPage i).length ≤ 25 := by simp [Lane.slotPage]
  unfold State.slotPage
  split
  · exact (PageAt.index _ (hfits _) sel).iff (by omega)
  · exact (PageAt.index _ (hfits _) (sel - 64)).iff (by omega)

/-- The pages of STATUS_READ and their parts. -/
def StatusParts (page part : Nat) : Prop :=
  (page = 1 ∧ part ≤ 3) ∨ (page = 2 ∧ part ≤ 63) ∨ (page = 3 ∧ part ≤ 63) ∨ (page = 4 ∧ part ≤ 1) ∨
  (page = 5 ∧ part ≤ 2) ∨ (page = 6 ∧ part ≤ 1) ∨ (page = 7 ∧ part ≤ 6) ∨
  (page = 8 ∧ (part ≤ 39 ∨ (64 ≤ part ∧ part ≤ 103)))

theorem statusPage_loop {f : LoopNo → Nat → Option (List Byte)} (hf : ∀ l part, PageAt (f l part) (part ≤ 1))
    (sel : Nat) : PageAt ((finOf? 32 (sel % 32)).bind fun l => f l (sel / 32)) (sel ≤ 63) := by
  rcases hk : finOf? 32 (sel % 32) with _ | l
  · exact absurd (finOf_eq_none.1 hk) (Nat.not_le.2 (Nat.mod_lt _ (by omega)))
  · exact (hf l (sel / 32)).iff (by omega)

theorem statusPage_at (page part : Nat) : PageAt (s.statusPage page part) (StatusParts page part) := by
  unfold StatusParts
  match page with
  | 0 => exact .none (by omega)
  | 1 => exact (sessionPage_at s part).iff (by omega)
  | 2 => exact (statusPage_loop (alignmentPage_at s) part).iff (by omega)
  | 3 => exact (statusPage_loop (intakePage_at s) part).iff (by omega)
  | 4 => exact (resolverPage_at s part).iff (by omega)
  | 5 => exact (poolPage_at s part).iff (by omega)
  | 6 => exact (publisherPage_at s part).iff (by omega)
  | 7 => exact (sweepPage_at s part).iff (by omega)
  | 8 => exact (slotPage_at s part).iff (by omega)
  | n + 9 => exact .none (by omega)

end Status

section Competitors

variable (s : State) (c : CompNo) (r : Competitor)

theorem summaryPage_at (part : Nat) : PageAt (s.summaryPage c part) (part ≤ 1) := by
  match part with
  | 0 => exact .some (by omega) (by simp)
  | 1 => exact .some (by omega) (by simp)
  | n + 2 => exact .none (by omega)

theorem lapPage_at (part : Nat) : PageAt (r.lapPage part) (part ≤ 1) := by
  match part with
  | 0 => exact .some (by omega) (by simp)
  | 1 => exact .some (by omega) (by simp)
  | n + 2 => exact .none (by omega)

/-- The data of at most `k` positions of a table, each of `m` bytes. -/
theorem flatten_take_length {α : Type} {f : α → List Byte} {m : Nat} (hf : ∀ v, (f v).length = m) (l : List α)
    (i k : Nat) : (((l.drop i).take k).map f).flatten.length ≤ k * m := by
  have hall : ∀ b ∈ ((l.drop i).take k).map f, b.length = m := by
    intro b hb
    obtain ⟨v, -, rfl⟩ := List.mem_map.1 hb
    exact hf v
  rw [List.length_flatten, List.map_map]
  have hm : (List.length ∘ f) = fun _ => m := funext hf
  rw [hm, List.map_const', List.sum_replicate, List.length_take]
  exact Nat.mul_le_mul_right m (Nat.min_le_left ..)

theorem sectorBytes_length (v : Option SectorTime) : (sectorBytes v).length = 9 := by
  cases v <;> simp [sectorBytes]

theorem trapBytes_length (v : Option TrapStart) : (trapBytes v).length = 7 := by
  cases v <;> simp [trapBytes]

theorem sectorPage_at (part : Nat) : PageAt (r.sectorPage part) (part ≤ 7) := by
  unfold Competitor.sectorPage
  split
  next h => exact .some h ((flatten_take_length sectorBytes_length ..).trans (by omega))
  next h => exact .none h

theorem bestPage_at (part : Nat) : PageAt (r.bestPage part) (part ≤ 3) := by
  unfold Competitor.bestPage
  split
  next h => exact .some h ((flatten_take_length usOpt_length ..).trans (by omega))
  next h => exact .none h

theorem trapPage_at (part : Nat) : PageAt (r.trapPage part) (part ≤ 1) := by
  unfold Competitor.trapPage
  split
  next h => exact .some h ((flatten_take_length trapBytes_length ..).trans (by omega))
  next h => exact .none h

/-- The pages of COMPETITOR_READ and their parts. -/
def CompetitorParts (page part : Nat) : Prop :=
  (page = 1 ∧ part ≤ 1) ∨ (page = 2 ∧ part ≤ 1) ∨ (page = 3 ∧ part ≤ 7) ∨ (page = 4 ∧ part ≤ 3) ∨
  (page = 5 ∧ part ≤ 1)

theorem competitorPage_at (page part : Nat) : PageAt (s.competitorPage c page part) (CompetitorParts page part) := by
  unfold CompetitorParts
  match page with
  | 0 => exact .none (by omega)
  | 1 => exact (summaryPage_at s c part).iff (by omega)
  | 2 => exact (lapPage_at _ part).iff (by omega)
  | 3 => exact (sectorPage_at _ part).iff (by omega)
  | 4 => exact (bestPage_at _ part).iff (by omega)
  | 5 => exact (trapPage_at _ part).iff (by omega)
  | n + 6 => exact .none (by omega)

end Competitors

/-- The pages of COURSE_READ and their indices. -/
def CourseParts (page i : Nat) : Prop := (page = 1 ∧ i ≤ 15) ∨ (page = 2 ∧ i ≤ 31) ∨ (page = 3 ∧ i ≤ 3)

theorem pointPage_length (k : Course) (q : PointNo) : (k.pointPage q).length ≤ 25 := by
  unfold Course.pointPage
  cases k.points[q] <;> simp

theorem trapPage_length (t : Option Trap) : (trapPage t).length ≤ 25 := by
  cases t <;> simp [trapPage]

theorem coursePage_at (k : Course) (page i : Nat) : PageAt (k.page page i) (CourseParts page i) := by
  unfold CourseParts
  match page with
  | 0 => exact .none (by omega)
  | 1 => exact (PageAt.index _ (pointPage_length k) i).iff (by omega)
  | 2 => exact (PageAt.index (fun l => k.loops[l].page) (fun l => by simp [LoopRec.page]) i).iff (by omega)
  | 3 => exact (PageAt.index (fun j => trapPage k.traps[j]) (fun _ => trapPage_length _) i).iff (by omega)
  | n + 4 => exact .none (by omega)

end Sys2Proof.Machine

end

section
/-! The reading requests: their answers, and the numbers of each page in their order and widths. -/

namespace Sys2Proof.Machine

open Host (Outcome)

/-! ## The answers (R85, R156, R195, R197) -/

section Answers

variable {s : State} {r : Request} {rest : List Request} {data : List Byte}

theorem courseRead_page (hb : BeginsAs s r rest 0x24 2)
    (hp : (s.begin rest).course.page (r.nat 0 1) (r.nat 1 1) = some data) :
    exec .courseRead s = .next { s with mu := servedMu s r rest .ok data } :=
  (request_answers hb (orRange_eq_some hp)).trans rfl

theorem courseRead_none (hb : BeginsAs s r rest 0x24 2)
    (hp : (s.begin rest).course.page (r.nat 0 1) (r.nat 1 1) = none) :
    exec .courseRead s = .next (refusedState s r rest .range) :=
  request_refused hb (orRange_eq_none hp)

theorem orderRead_places (hb : BeginsAs s r rest 0x3F 2) (h1 : 1 ≤ r.nat 0 1) (h96 : r.nat 0 1 ≤ 96)
    (hn1 : 1 ≤ r.nat 1 1) (hn6 : r.nat 1 1 ≤ 6) : exec .orderRead s =
      .next { s with mu := servedMu s r rest .ok (s.orderData (r.nat 0 1) (r.nat 1 1)) } :=
  have hp : r.places = some (r.nat 0 1, r.nat 1 1) := if_pos ⟨h1, h96, hn1, hn6⟩
  (request_answers hb (orRange_eq_some hp)).trans rfl

theorem orderRead_none (hb : BeginsAs s r rest 0x3F 2)
    (h : r.nat 0 1 = 0 ∨ 96 < r.nat 0 1 ∨ r.nat 1 1 = 0 ∨ 6 < r.nat 1 1) :
    exec .orderRead s = .next (refusedState s r rest .range) :=
  have hp : r.places = none := if_neg (by omega)
  request_refused hb (orRange_eq_none hp)

theorem competitorRead_page (hb : BeginsAs s r rest 0x04 3) {c : CompNo} (hc : r.nat 0 1 = c.val)
    (hp : (s.begin rest).competitorPage c (r.nat 1 1) (r.nat 2 1) = some data) :
    exec .competitorRead s = .next { s with mu := servedMu s r rest .ok data } :=
  (request_answers hb ((orRange_eq_some (Request.comp_eq_some.2 hc)).trans (orRange_eq_some hp))).trans rfl

theorem competitorRead_none (hb : BeginsAs s r rest 0x04 3)
    (h : 96 ≤ r.nat 0 1 ∨ ∀ c : CompNo, (s.begin rest).competitorPage c (r.nat 1 1) (r.nat 2 1) = none) :
    exec .competitorRead s = .next (refusedState s r rest .range) := by
  rcases hc : r.comp with _ | c
  · exact request_refused hb (orRange_eq_none hc)
  · rcases h with h | h
    · exact nomatch hc.symm.trans (Request.comp_eq_none.2 h)
    · exact request_refused hb ((orRange_eq_some hc).trans (orRange_eq_none (h c)))

theorem statusRead_answers (hb : BeginsAs s r rest 0x03 3)
    (hp : (s.begin rest).statusPage (r.nat 0 1) (r.nat 1 1) = some data) {clear : Bool} (hf : r.flag 2 = some clear) :
    exec .statusRead s = .next (((s.begin rest).statusAnswer (r.nat 0 1) clear data).place r) :=
  request_answers hb ((orRange_eq_some hp).trans (orRange_eq_some hf))

theorem statusRead_noPage (hb : BeginsAs s r rest 0x03 3)
    (hp : (s.begin rest).statusPage (r.nat 0 1) (r.nat 1 1) = none) :
    exec .statusRead s = .next (refusedState s r rest .range) :=
  request_refused hb (orRange_eq_none hp)

theorem statusRead_refused (hb : BeginsAs s r rest 0x03 3)
    (hp : (s.begin rest).statusPage (r.nat 0 1) (r.nat 1 1) = some data)
    (h : r.flag 2 = none ∨ (r.flag 2 = some true ∧ r.nat 0 1 ≠ 5)) :
    exec .statusRead s = .next (refusedState s r rest .range) := by
  rcases h with hf | ⟨hf, h5⟩
  · exact request_refused hb ((orRange_eq_some hp).trans (orRange_eq_none hf))
  · exact request_refused hb (((orRange_eq_some hp).trans (orRange_eq_some hf)).trans (if_neg h5))

/-- The clear option on the pool page (R195). -/
theorem statusAnswer_clear (s : State) (data : List Byte) : s.statusAnswer 5 true data = .taken s.clearMark data := rfl

end Answers

/-! ## Data as a list of fields (R200, R201, R207) -/

/-- A flag. -/
abbrev flagField (b : Bool) : Nat × Nat := (1, if b = true then 1 else 0)

/-- The place of a named value in its list, 0 where there is none. -/
abbrev codeField (v : Option Nat) : Nat × Nat := (1, v.getD 0)

/-- Counts of two bytes. -/
abbrev countFields (l : List Nat) : List (Nat × Nat) := l.map fun v => (2, v)

/-- A table and an entry index of a sweep's position. -/
abbrev placeFields (p : Option (TableIndex × Byte)) : List (Nat × Nat) :=
  [optField 2 (p.map fun q => q.1.toNat), optField 1 (p.map fun q => q.2.toNat)]

@[simp] theorem u8_eq (v : Nat) : u8 v = natBytes 1 v := rfl

@[simp] theorem u16_eq (v : Nat) : u16 v = natBytes 2 v := rfl

@[simp] theorem us_eq (v : Nat) : us v = natBytes 6 v := rfl

@[simp] theorem usOpt_eq (v : Option Nat) : us? v = natBytes 6 (v.getD (256 ^ 6 - 1)) := rfl

@[simp] theorem optBytes_eq (n : Nat) (v : Option Nat) : optBytes n v = natBytes n (v.getD (256 ^ n - 1)) := rfl

@[simp] theorem flagByte_eq (b : Bool) : flagByte b = natBytes 1 (if b = true then 1 else 0) := by
  cases b <;> rfl

@[simp] theorem u16s_nil : u16s [] = [] := rfl

@[simp] theorem u16s_cons (v : Nat) (l : List Nat) : u16s (v :: l) = natBytes 2 v ++ u16s l := rfl

/-- A signed number of two bytes (R204). -/
@[simp] theorem intBytes_eq (v : Int) : intBytes 2 v = natBytes 2 (BitVec.ofInt 16 v).toNat := by
  rw [BitVec.toNat_ofInt]
  rfl

theorem ofNat_eq_fieldBytes (l : List Nat) : l.map (BitVec.ofNat 8) = fieldBytes (l.map fun v => (1, v)) := by
  induction l with
  | nil => rfl
  | cons v l ih => exact congrArg (BitVec.ofNat 8 v :: ·) ih

/-- `k` positions of a table from position `i` on. -/
theorem take_drop_eq {α : Type} (l : List α) (d : α) {i k : Nat} (h : i + k ≤ l.length) :
    (l.drop i).take k = (List.range k).map fun j => l.getD (i + j) d := by
  refine List.ext_getElem (by simp; omega) fun j h1 _ => ?_
  have hj : j < k := (List.length_take_le ..).trans_lt' h1
  simp [List.getElem?_eq_getElem (by omega : i + j < l.length)]

/-! ## The pages of STATUS_READ (R196, R207) -/

section StatusPages

variable (s : State)

theorem sessionPage_session : s.statusPage 1 0 = some (fieldBytes [(1, s.session.state.code),
    codeField (s.session.mode.map StartMode.code), optField 6 s.session.greenTime, flagField s.session.neutral,
    (1, s.session.chequer.code), optField 6 (s.order.best.map SessionBest.time),
    optField 1 (s.order.best.map fun b => b.competitor.val), optField 2 (s.order.best.map SessionBest.lap),
    (1, s.order.list.length)]) := by
  simp [State.statusPage, State.sessionPage]

theorem sessionPage_clock : s.statusPage 1 1 = some (fieldBytes ([(1, s.cau.clock.state.code),
    (4, s.cau.clock.cycle.toNat), (1, s.cau.clock.missingRun), (1, s.cau.clock.goodRun)] ++
    countFields [s.cau.clock.losses, s.cau.clock.steps, s.cau.clock.offSlotBeacons])) := by
  simp [State.statusPage, State.sessionPage]

theorem sessionPage_settled : s.statusPage 1 2 = some (fieldBytes (countFields [s.engine.counts.settled,
    s.engine.counts.forced, s.engine.counts.poolEmpty, s.engine.counts.passOnly, s.engine.counts.appliedInFull,
    s.engine.counts.implausible, s.engine.counts.entries, s.engine.silenceLimit])) := by
  simp [State.statusPage, State.sessionPage]

theorem sessionPage_applied : s.statusPage 1 3 = some (fieldBytes (countFields [s.engine.counts.pitMoves,
    s.engine.counts.trapRejected, s.engine.counts.mergedSectors, s.engine.counts.inferredLaps,
    s.engine.counts.silences])) := by
  simp [State.statusPage, State.sessionPage]

/-! A selector of pages 2 and 3 is a loop, or a loop plus 32. -/

theorem loopSelector_low (f : LoopNo → Nat → Option (List Byte)) (l : LoopNo) :
    ((finOf? 32 (l.val % 32)).bind fun l' => f l' (l.val / 32)) = f l 0 := by
  rw [Nat.mod_eq_of_lt l.isLt, Nat.div_eq_of_lt l.isLt, finOf_val]
  rfl

theorem loopSelector_high (f : LoopNo → Nat → Option (List Byte)) (l : LoopNo) :
    ((finOf? 32 ((l.val + 32) % 32)).bind fun l' => f l' ((l.val + 32) / 32)) = f l 1 := by
  rw [Nat.add_mod_right, Nat.mod_eq_of_lt l.isLt, Nat.add_div_right _ (by omega), Nat.div_eq_of_lt l.isLt, finOf_val]
  rfl

theorem alignmentPage_anchor (l : LoopNo) : s.statusPage 2 l.val = some (fieldBytes [
    (1, s.cau.records[l].state.code), (4, s.cau.records[l].anchorTick.toNat), (6, s.cau.records[l].anchorTime),
    (2, (BitVec.ofInt 16 s.cau.records[l].rate).toNat), (6, s.cau.records[l].lastBeacon),
    (1, s.cau.records[l].consecutive)]) := by
  refine (loopSelector_low s.alignmentPage l).trans ?_
  simp [State.alignmentPage]

theorem alignmentPage_counts (l : LoopNo) : s.statusPage 2 (l.val + 32) = some (fieldBytes (countFields [
    s.cau.records[l].accepted, s.cau.records[l].close, s.cau.records[l].rateFaults, s.cau.records[l].steps,
    s.cau.records[l].unresolved, s.cau.residualTolerance] ++ [(1, s.cau.beaconTimeout), (2, s.cau.holdoverLimit)])) := by
  refine (loopSelector_high s.alignmentPage l).trans ?_
  simp [State.alignmentPage]

theorem intakePage_counts (l : LoopNo) : s.statusPage 3 l.val = some (fieldBytes (countFields [
    s.intake.counts[l].accepted, s.intake.counts[l].clamped, s.intake.counts[l].misrouted,
    s.intake.counts[l].malformed, s.intake.counts[l].disabled, s.intake.counts[l].idleDiscard,
    s.intake.counts[l].unsynced, s.intake.counts[l].weak, s.intake.counts[l].future, s.intake.counts[l].stale,
    s.intake.counts[l].overflowed])) := by
  refine (loopSelector_low s.intakePage l).trans ?_
  simp [State.intakePage]

theorem intakePage_queue (l : LoopNo) : s.statusPage 3 (l.val + 32) = some (fieldBytes (countFields [
    s.intake.offSlot, s.intake.episodes] ++ [(1, s.intake.overflow.code), (1, s.intake.queue.length),
    (2, s.intake.longestWait)])) := by
  refine (loopSelector_high s.intakePage l).trans ?_
  simp [State.intakePage]

theorem resolverPage_served : s.statusPage 4 0 = some (fieldBytes ([(1, s.resolver.serving.code),
    optField 2 (s.resolver.root.map BitVec.toNat), optField 2 (s.resolver.serving.capturedRoot.map BitVec.toNat),
    (4, s.resolver.generation.toNat), (1, s.resolver.cache.length)] ++ countFields [s.resolver.counts.served,
    s.resolver.counts.hits, s.resolver.counts.walks, s.resolver.counts.reads, s.resolver.counts.seenUpdates,
    s.resolver.counts.competitors])) := by
  simp [State.statusPage, State.resolverPage]

theorem resolverPage_faults : s.statusPage 4 1 = some (fieldBytes (countFields [s.resolver.counts.unknowns,
    s.resolver.counts.unknownRepeats, s.resolver.counts.noRoot, s.resolver.counts.badType,
    s.resolver.counts.badCompetitor, s.resolver.counts.aliasChain, s.resolver.counts.faultHits,
    s.resolver.counts.fills, s.resolver.counts.suppressed, s.resolver.counts.evictions,
    s.resolver.counts.flushes])) := by
  simp [State.statusPage, State.resolverPage]

theorem poolPage_settle : s.statusPage 5 0 = some (fieldBytes (countFields [s.settle.counts.insertions,
    s.settle.counts.merges, s.settle.counts.backupOverruled, s.settle.counts.duplicates, s.settle.counts.late,
    s.settle.counts.expiries, s.settle.counts.forcedFull, s.settle.counts.poolEmpty,
    s.settle.counts.sessionDiscards, s.settle.counts.inactive, s.settle.counts.retireDiscards,
    s.settle.counts.closeDiscards])) := by
  simp [State.statusPage, State.poolPage]

theorem poolPage_held : s.statusPage 5 1 = some (fieldBytes (countFields [s.settle.free, 256 - s.settle.free,
    s.settle.highWater, s.settle.interval])) := by
  simp [State.statusPage, State.poolPage, Settle.heldCount]

theorem poolPage_mu : s.statusPage 5 2 = some (fieldBytes (countFields [s.mu.counts.delivered, s.mu.counts.dropped,
    s.mu.counts.begun, s.mu.counts.ok, s.mu.counts.clamped, s.mu.counts.busy, s.mu.counts.state, s.mu.counts.range,
    s.mu.counts.protected_, s.mu.counts.format, s.mu.counts.notSupported] ++
    [(1, s.mu.queue.length), (1, s.mu.replies.length), (1, 2)])) := by
  simp [State.statusPage, State.poolPage, muStateCode]

theorem publisherPage_counts : s.statusPage 6 0 = some (fieldBytes (countFields [s.publisher.counts.published,
    s.publisher.counts.held, s.publisher.counts.released, s.publisher.counts.discarded,
    s.publisher.counts.clearDiscarded, s.publisher.counts.holdOverflow, s.publisher.counts.lineDrop,
    s.publisher.counts.entriesWritten, s.publisher.counts.alertLost, s.publisher.sequence.toNat])) := by
  simp [State.statusPage, State.publisherPage]

theorem publisherPage_queues : s.statusPage 6 1 = some (fieldBytes [(1, s.publisher.hold.length),
    (1, s.publisher.waiting.length), (1, s.publisher.buffer.length), (1, s.publisher.resultQueue.length),
    flagField s.publisher.logEnabled, (1, s.publisher.logBase), (1, s.publisher.logLength),
    (2, s.publisher.writeIndex), flagField s.publisher.wrapped]) := by
  simp [State.statusPage, State.publisherPage]

/-- The next access of a sweep. -/
def nextFields (x : Sweep) : List (Nat × Nat) :=
  match x.state with
  | .idle => [(1, 0), (3, 16777215)]
  | .running | .suspended =>
    [(1, match x.pos.next with | .entry => 1 | .flagUpdate _ => 2 | .target _ => 3),
      (3, (x.pos.access x.root).addr.toNat)]

theorem nextBytes_eq (x : Sweep) : x.nextBytes = fieldBytes (nextFields x) := by
  unfold Sweep.nextBytes nextFields
  cases x.state <;> cases x.pos.next <;> simp

/-- A fault address of the sweep's report. -/
abbrev addrField (r : SweepReport) (i : Nat) : Nat × Nat := optField 3 (r.faultAddrs[i]?.map BitVec.toNat)

theorem sweepPage_position : s.statusPage 7 0 = some (fieldBytes ([(1, s.sweep.state.code),
    codeField (s.sweep.mode.map SweepMode.code), (2, s.sweep.root.toNat), flagField s.sweep.report.complete,
    (1, s.sweep.pos.root.toNat)] ++ placeFields s.sweep.pos.branch ++ placeFields s.sweep.pos.leaf ++
    nextFields s.sweep ++ countFields [s.sweep.report.visited, s.sweep.report.seenCleared,
    s.sweep.report.aliasAbsent, s.sweep.report.faults])) := by
  simp [State.statusPage, State.sweepPage, placeBytes, nextBytes_eq, fieldBytes_append]

theorem sweepPage_tables : s.statusPage 7 1 = some (fieldBytes (countFields [s.sweep.report.tables,
    s.sweep.report.competitors, s.sweep.report.aliases, s.sweep.report.absents] ++ [addrField s.sweep.report 0,
    addrField s.sweep.report 1, addrField s.sweep.report 2, addrField s.sweep.report 3,
    addrField s.sweep.report 4])) := by
  simp [State.statusPage, State.sweepPage, SweepReport.addrBytes, List.range_succ]

theorem sweepPage_guard : s.statusPage 7 2 = some (fieldBytes ([addrField s.sweep.report 5,
    addrField s.sweep.report 6, addrField s.sweep.report 7, flagField s.tmp.guard.enabled,
    flagField s.tmp.guard.invert, (1, s.tmp.guard.first), (1, s.tmp.guard.last)] ++ countFields
    [s.tmp.protectedCount, s.tmp.grantsResolver, s.tmp.grantsLog, s.tmp.grantsManagement, s.tmp.grantsSweep])) := by
  simp [State.statusPage, State.sweepPage, SweepReport.addrBytes, List.range_succ]

theorem sweepPage_found {part : Nat} (h : part < 4) : s.statusPage 7 (part + 3) = some (fieldBytes
    ((List.range 24).map fun j => (1, s.sweep.report.audit.toList.getD (24 * part + j) 0))) := by
  refine (sweepPage_audit s (Nat.le_add_left 3 part) (by omega)).trans ?_
  rw [Nat.add_sub_cancel, take_drop_eq _ 0 (by simp; omega), ofNat_eq_fieldBytes, List.map_map]
  rfl

/-- The slot counts of a lane. -/
abbrev slotFields (lane : Lane) (i : Slot) : List (Nat × Nat) :=
  (1, lane.inForce[i].code) :: countFields [lane.counts[i].bad, lane.counts[i].foreign, lane.counts[i].overwrite,
    lane.slips, lane.markErrors]

theorem slotPage_eq (lane : Lane) (i : Slot) : lane.slotPage i = fieldBytes (slotFields lane i) := by
  simp [Lane.slotPage]

theorem slotPage_up (i : Slot) : s.statusPage 8 i.val = some (fieldBytes (slotFields (s.lif.lane .upstream) i)) := by
  have hup : s.slotPage i.val = (finOf? 40 i.val).map s.lif.up.slotPage := if_pos (i.isLt.trans (by omega))
  refine hup.trans ?_
  rw [finOf_val, Option.map_some, slotPage_eq]
  rfl

theorem slotPage_down (i : Slot) :
    s.statusPage 8 (i.val + 64) = some (fieldBytes (slotFields (s.lif.lane .downstream) i)) := by
  have hdown : s.slotPage (i.val + 64) = (finOf? 40 (i.val + 64 - 64)).map s.lif.down.slotPage :=
    if_neg (Nat.not_lt.2 (Nat.le_add_left 64 _))
  refine hdown.trans ?_
  rw [Nat.add_sub_cancel, finOf_val, Option.map_some, slotPage_eq]
  rfl

end StatusPages

/-! ## The pages of COMPETITOR_READ (R197, R207) -/

/-- A position of the sector table. -/
abbrev sectorFields (v : Option SectorTime) : List (Nat × Nat) :=
  [optField 6 (v.map SectorTime.time), codeField (v.map fun a => a.quality.rank),
    flagField ((v.map SectorTime.neutral).getD false), flagField ((v.map SectorTime.pit).getD false)]

/-- A trap start. -/
abbrev trapFields (v : Option TrapStart) : List (Nat × Nat) :=
  [optField 6 (v.map TrapStart.time), codeField (v.map fun a => a.quality.rank)]

theorem sectorBytes_eq (v : Option SectorTime) : sectorBytes v = fieldBytes (sectorFields v) := by
  cases v <;> simp [sectorBytes]

theorem trapBytes_eq (v : Option TrapStart) : trapBytes v = fieldBytes (trapFields v) := by
  cases v <;> simp [trapBytes]

section CompetitorPages

variable (s : State) (c : CompNo)

theorem summaryPage_record : s.competitorPage c 1 0 = some (fieldBytes [(1, s.engine.records[c].state.code),
    (2, s.engine.records[c].raceNumber), (1, s.engine.records[c].class_), flagField s.engine.records[c].entered,
    (2, s.engine.records[c].laps), (6, s.engine.records[c].lastCrossing),
    optField 6 (s.engine.records[c].lastApplied.map AppliedMark.time),
    (1, lineCode (s.engine.records[c].lastApplied.map AppliedMark.line)),
    flagField s.engine.records[c].silenceAlerted]) := by
  simp [State.competitorPage, State.summaryPage]

theorem summaryPage_pending : s.competitorPage c 1 1 = some (fieldBytes [(1, s.settle.lists[c].length),
    optField 6 (s.settle.lists[c].head?.map Pending.time)]) := by
  simp [State.competitorPage, State.summaryPage]

theorem lapPage_point : s.competitorPage c 2 0 = some (fieldBytes
    [optField 1 (s.engine.records[c].lastPoint.map fun a => a.point.val),
    optField 6 (s.engine.records[c].lastPoint.map LastPoint.time),
    codeField (s.engine.records[c].lastPoint.map fun a => a.quality.rank), optField 6 s.engine.records[c].lapStart,
    (1, s.engine.records[c].lapWorst.rank), flagField s.engine.records[c].lapPit,
    flagField s.engine.records[c].sectorPit, flagField s.engine.records[c].lapNeutral,
    flagField s.engine.records[c].sectorNeutral]) := by
  simp [State.competitorPage, Competitor.lapPage, qualityCode, Function.comp_def]

theorem lapPage_best : s.competitorPage c 2 1 = some (fieldBytes [(1, s.engine.records[c].pitCount),
    optField 6 s.engine.records[c].pitEntry, optField 6 (s.engine.records[c].bestLap.map BestLap.time),
    optField 2 (s.engine.records[c].bestLap.map BestLap.lap)]) := by
  simp [State.competitorPage, Competitor.lapPage]

theorem sectorPage_pair {part : Nat} (h : part < 8) : s.competitorPage c 3 part = some (fieldBytes
    (sectorFields (s.engine.records[c].sectors.toList.getD (2 * part) none) ++
      sectorFields (s.engine.records[c].sectors.toList.getD (2 * part + 1) none))) := by
  refine (if_pos (Nat.le_of_lt_succ h)).trans ?_
  rw [take_drop_eq _ none (by simp; omega), fieldBytes_append, ← sectorBytes_eq, ← sectorBytes_eq]
  simp [List.range_succ]

theorem bestPage_four {part : Nat} (h : part < 4) : s.competitorPage c 4 part = some (fieldBytes
    ((List.range 4).map fun j => optField 6 (s.engine.records[c].bestSectors.toList.getD (4 * part + j) none))) := by
  refine (if_pos (Nat.le_of_lt_succ h)).trans ?_
  rw [take_drop_eq _ none (by simp; omega), List.map_map]
  unfold fieldBytes
  rw [List.map_map]
  rfl

theorem trapPage_pair {part : Nat} (h : part < 2) : s.competitorPage c 5 part = some (fieldBytes
    (trapFields (s.engine.records[c].trapStarts.toList.getD (2 * part) none) ++
      trapFields (s.engine.records[c].trapStarts.toList.getD (2 * part + 1) none))) := by
  refine (if_pos (Nat.le_of_lt_succ h)).trans ?_
  rw [take_drop_eq _ none (by simp; omega), fieldBytes_append, ← trapBytes_eq, ← trapBytes_eq]
  simp [List.range_succ]

end CompetitorPages

/-! ## The pages of COURSE_READ (R85) -/

/-- A loaded point, or that there is none. -/
def pointFields : Option CoursePoint → List (Nat × Nat)
  | none => [flagField false]
  | some a => [flagField true, (1, a.primary.val), optField 1 (a.backup.map Fin.val),
      optField 1 (a.pitAlt.map Fin.val), (3, a.minTransit)]

/-- A loaded trap, or that there is none. -/
def trapLoopFields : Option Trap → List (Nat × Nat)
  | none => [flagField false]
  | some a => [flagField true, (1, a.startLoop.val), (1, a.endLoop.val), (3, a.distance)]

theorem trapPage_eq (t : Option Trap) : trapPage t = fieldBytes (trapLoopFields t) := by
  cases t <;> simp [trapPage, trapLoopFields]

section CoursePages

variable (k : Course)

theorem coursePage_point (q : PointNo) :
    k.page 1 q.val = some (fieldBytes ((1, k.count) :: pointFields k.points[q])) := by
  refine (congrArg (Option.map k.pointPage) (finOf_val q)).trans (congrArg some ?_)
  unfold Course.pointPage
  cases k.points[q] <;> simp [pointFields]

theorem coursePage_loop (l : LoopNo) : k.page 2 l.val = some (fieldBytes [flagField k.loops[l].enabled,
    (1, k.loops[l].role.code), optField 1 (k.loops[l].role.index.map Fin.val), (1, k.loops[l].pitRole.code),
    (1, k.loops[l].window), (1, k.loops[l].floor), (2, k.loops[l].deadBand)]) := by
  refine (congrArg (Option.map fun i => k.loops[i].page) (finOf_val l)).trans (congrArg some ?_)
  simp [LoopRec.page]

theorem coursePage_trap (i : Fin 4) : k.page 3 i.val = some (fieldBytes (trapLoopFields k.traps[i])) :=
  (congrArg (Option.map fun j => trapPage k.traps[j]) (finOf_val i)).trans (congrArg some (trapPage_eq _))

end CoursePages

/-! ## The reading requests -/

/-- Settles O47. -/
theorem readRequests : Obligations.ReadRequests := by
  unfold Obligations.ReadRequests
  refine ⟨fun s r rest => ?_, fun s => ⟨fun page part => (statusPage_at s page part).1,
    fun c page part => (competitorPage_at s c page part).1, fun page i => (coursePage_at _ page i).1,
    fun page part => (statusPage_at s page part).2, fun c page part => (competitorPage_at s c page part).2,
    fun page i => (coursePage_at _ page i).2⟩, ?_⟩
  · intro replied begun
    refine ⟨fun hb => ⟨fun data => courseRead_page hb, courseRead_none hb⟩,
      fun hb => ⟨orderRead_places hb, orderRead_none hb⟩,
      fun hb => ⟨fun c data => competitorRead_page hb, competitorRead_none hb⟩,
      fun hb => ⟨fun data hp => ⟨fun hf => (statusRead_answers hb hp hf).trans rfl, fun hf h5 => ?_,
        statusRead_refused hb hp⟩, statusRead_noPage hb⟩⟩
    refine (statusRead_answers hb hp hf).trans ?_
    rw [h5, statusAnswer_clear]
    rfl
  · intro counts opt flag code place bytes
    refine ⟨fun v => ⟨rfl, fun n => rfl⟩, ⟨rfl, rfl, rfl, rfl, rfl, rfl, fun _ _ _ => rfl, rfl, rfl, rfl, rfl, rfl,
      fun _ => rfl, rfl⟩, fun s => ?_⟩
    intro shows k e rc sc m p x f addr walkRoot
    refine ⟨sessionPage_session s, sessionPage_clock s, sessionPage_settled s, sessionPage_applied s,
      fun l => ⟨alignmentPage_anchor s l, alignmentPage_counts s l, intakePage_counts s l, intakePage_queue s l⟩,
      ?_, resolverPage_faults s, poolPage_settle s, poolPage_held s, poolPage_mu s,
      publisherPage_counts s, publisherPage_queues s, ?_, sweepPage_tables s, sweepPage_guard s,
      fun part => sweepPage_found s, fun d i => ?_, fun c => ?_, fun q => ?_, fun l => ?_, fun i => ?_⟩
    · exact resolverPage_served s
    · exact sweepPage_position s
    · cases d with
      | upstream => exact slotPage_up s i
      | downstream => exact slotPage_down s i
    · intro r list reads line sector trap
      exact ⟨summaryPage_record s c, summaryPage_pending s c, lapPage_point s c, lapPage_best s c,
        fun part => sectorPage_pair s c, fun part => bestPage_four s c, fun part => trapPage_pair s c⟩
    · refine (coursePage_point s.course q).trans ?_
      cases s.course.points[q] <;> rfl
    · intro a point
      have hpoint : s.course.loops[l].role.index = point := by
        simp only [point, a]
        cases s.course.loops[l].role <;> rfl
      have hpage := coursePage_loop s.course l
      rw [hpoint] at hpage
      exact hpage
    · refine (coursePage_trap s.course i).trans ?_
      cases s.course.traps[i] <;> rfl

end Sys2Proof.Machine

end
